-- ==== Sys2Proof/Word.lean ====
section
/-! DEFINITION. The two word sizes of the block: a byte and a 16-bit word (00_scope.md rule R9). -/

namespace Sys2Proof

/-- A byte: an unsigned value 0 to 255 (00_scope.md R9). -/
abbrev Byte := BitVec 8

/-- A word: an unsigned value 0 to 65535 (00_scope.md R9). -/
abbrev Word := BitVec 16

end Sys2Proof
end

