-- ==== Sys2Proof/Config.lean ====
section
/-! DEFINITION. The build-time configuration of 00_scope.md rule R5 as plain data, the constants the
source gives, the example configuration CFG_REF, and the free values (constants without a body). -/

namespace Sys2Proof

/-- What handoff does to the watchdog (R5, `HANDOFF_WDT`; R245). -/
inductive HandoffWdt where
  | off
  | long
deriving DecidableEq, Repr

/-- What ProgramPage 'F' leaves in ADDR (R5, `PROG_F_ADVANCE`; R142). -/
inductive FAdvance where
  | unchanged
  | byLen
  | byPage
deriving DecidableEq, Repr

/-- The steps of the flash sequencer that may service the watchdog (R141). -/
inductive KeepPoint where
  | s4
  | s6
  | s7
deriving DecidableEq, Repr

/-- The four sources of a device reset (R19, R220, R240); `external` is the source's "Otherwise". -/
inductive ResetSource where
  | watchdog
  | powerOn
  | brownOut
  | external
deriving DecidableEq, Repr

/-- The implementation parameters of 00_scope.md R5. Durations are milliseconds (log 7). The
predicates IsWdt, IsPor, IsBor on the reset-cause byte are the lists of the bytes they hold of. -/
structure Config where
  cmdGetParameter : Byte
  cmdSetDevice : Byte
  cmdSetDeviceExt : Byte
  cmdLoadAddress : Byte
  cmdUniversal : Byte
  cmdProgPage : Byte
  cmdReadPage : Byte
  cmdReadSign : Byte
  cmdLeaveProgMode : Byte
  term : Byte
  respInsync : Byte
  respOk : Byte
  verMajor : Byte
  verMinor : Byte
  sig0 : Byte
  sig1 : Byte
  sig2 : Byte
  pageSize : Nat
  flashSize : Nat
  eepromSize : Nat
  hasExt : Bool
  nrwwStart : Nat
  bootStart : Nat
  needsRwwEnable : Bool
  vbpEnabled : Bool
  bootEntryJump : Word
  vbpAdjust : Nat
  appEntry : Nat
  wdtMenu : List Nat
  wdtShort : Nat
  wdtMedium : Nat
  wdtLong : Nat
  handoffWdt : HandoffWdt
  wdtMarkerEnabled : Bool
  wdtCauses : List Byte
  porCauses : List Byte
  borCauses : List Byte
  flagWatchdog : Byte
  flagPowerOn : Byte
  flagBrownOut : Byte
  flagExternal : Byte
  flashKeepalive : List KeepPoint
  progFAdvance : FAdvance
  radioEnabled : Bool
  maxlenDefault : Byte
  txAttempts : Nat
  txGuard : Nat
  rxTagReset : Option Byte
  txTagReset : Byte
deriving DecidableEq, Repr

namespace Config

/-! Constants the source gives (R5, column "given"). -/

/-- Parameter id answered with the major version. -/
def paramIdMajor : Byte := 0x81
/-- Parameter id answered with the minor version. -/
def paramIdMinor : Byte := 0x82
/-- Value answered for every other parameter id. -/
def paramGeneric : Byte := 0x03
/-- The single data byte Universal replies. -/
def universalReply : Byte := 0x00
/-- Memory-type tag 'F'; its ASCII code is the spec's general knowledge (PRESUMED, log 20). -/
def typeFlash : Byte := 0x46
/-- Memory-type tag 'E'; its ASCII code is the spec's general knowledge (PRESUMED, log 20). -/
def typeEeprom : Byte := 0x45
/-- Ignored body bytes of SetDevice. -/
def setDeviceLen : Nat := 20
/-- Ignored body bytes of SetDeviceExt. -/
def setDeviceExtLen : Nat := 5
/-- Ignored body bytes of Universal. -/
def universalLen : Nat := 4
/-- Byte offset of the reset-vector slot in the first page. -/
def rstvOff : Nat := 0
/-- Byte offset of the watchdog-vector slot in the first page. -/
def wdtvOff : Nat := 8
/-- The largest packet the medium carries. -/
def pktCap : Nat := 32
/-- The command byte of the pseudo-command get-sync (R85, the spec's general knowledge; PRESUMED, log 20). -/
def getSyncByte : Byte := 0x30
/-- The command byte of the pseudo-command enter-programming-mode (R85; PRESUMED, log 20). -/
def enterProgModeByte : Byte := 0x50

/-- The nine `CMD_*` bytes, in the order of the table of R5. -/
def commandBytes (c : Config) : List Byte :=
  [c.cmdGetParameter, c.cmdSetDevice, c.cmdSetDeviceExt, c.cmdLoadAddress, c.cmdUniversal,
   c.cmdProgPage, c.cmdReadPage, c.cmdReadSign, c.cmdLeaveProgMode]

/-- The relation R6 requires between the protocol bytes. -/
def commandsDistinct (c : Config) : Bool := decide c.commandBytes.Nodup

/-- The constraints R5 puts on the geometry (`NRWW_START = FLASH_SIZE` is R44's all-RWW target, log 18). -/
def geometryOk (c : Config) : Bool :=
  decide (2 ≤ c.pageSize ∧ c.pageSize ≤ 255 ∧ c.pageSize % 2 = 0 ∧
    (c.vbpEnabled = true → 10 ≤ c.pageSize) ∧
    c.flashSize % c.pageSize = 0 ∧ c.flashSize ≤ (if c.hasExt then 131072 else 65536) ∧
    c.eepromSize ≤ 65536 ∧
    c.nrwwStart % c.pageSize = 0 ∧ c.bootStart % c.pageSize = 0 ∧ c.bootStart < c.flashSize ∧
    (c.nrwwStart ≤ c.bootStart ∨ c.nrwwStart = c.flashSize))

/-- The constraints R5 and R194 put on the watchdog settings: all in the menu, strictly increasing. -/
def watchdogOk (c : Config) : Bool :=
  decide (c.wdtMenu.Pairwise (· < ·) ∧ c.wdtShort ∈ c.wdtMenu ∧ c.wdtMedium ∈ c.wdtMenu ∧
    c.wdtLong ∈ c.wdtMenu ∧ c.wdtShort < c.wdtMedium ∧ c.wdtMedium < c.wdtLong)

/-- Each cause predicate holds of the byte a reset of its source produces from 0
(93_implementation_defined.md section 2, D27). -/
def causesOk (c : Config) : Bool :=
  decide (c.flagWatchdog ∈ c.wdtCauses ∧ c.flagPowerOn ∈ c.porCauses ∧ c.flagBrownOut ∈ c.borCauses)

/-- The radio defaults are legal lengths (R26). -/
def radioOk (c : Config) : Bool :=
  decide (2 ≤ c.maxlenDefault.toNat ∧ c.maxlenDefault.toNat ≤ pktCap)

/-- The configurations the model runs; any other is refused (R6). -/
def wf (c : Config) : Bool :=
  c.radioOk && c.geometryOk && c.watchdogOk && c.causesOk && c.commandsDistinct

/-- The bytes with bit `i` set, as the list a cause predicate is. -/
def bytesWithBit (i : Nat) : List Byte :=
  ((List.range 256).filter (fun n => n.testBit i)).map (BitVec.ofNat 8)

/-- CFG_REF, the spec's own example configuration (R5, last column): all its values are the spec's
general knowledge unless given (PRESUMED, log 1). -/
def ref : Config where
  cmdGetParameter := 0x41
  cmdSetDevice := 0x42
  cmdSetDeviceExt := 0x45
  cmdLoadAddress := 0x55
  cmdUniversal := 0x56
  cmdProgPage := 0x64
  cmdReadPage := 0x74
  cmdReadSign := 0x75
  cmdLeaveProgMode := 0x51
  term := 0x20
  respInsync := 0x14
  respOk := 0x10
  verMajor := 0x04
  verMinor := 0x04
  sig0 := 0x1E
  sig1 := 0x95
  sig2 := 0x0F
  pageSize := 128
  flashSize := 32768
  eepromSize := 1024
  hasExt := false
  nrwwStart := 0x7000
  bootStart := 0x7E00
  needsRwwEnable := true
  vbpEnabled := true
  bootEntryJump := 0xCE7F
  vbpAdjust := 4
  appEntry := 0
  wdtMenu := [16, 32, 64, 125, 250, 500, 1000, 2000, 4000, 8000]
  wdtShort := 16
  wdtMedium := 1000
  wdtLong := 8000
  handoffWdt := .off
  wdtMarkerEnabled := false
  wdtCauses := bytesWithBit 3
  porCauses := bytesWithBit 0
  borCauses := bytesWithBit 2
  flagWatchdog := 0x08
  flagPowerOn := 0x01
  flagBrownOut := 0x04
  flagExternal := 0x02
  flashKeepalive := []
  progFAdvance := .unchanged
  radioEnabled := false
  maxlenDefault := 32
  txAttempts := 127
  txGuard := 4
  rxTagReset := some 0x00
  txTagReset := 0x00

/-! Free values: nothing in Lean can evaluate them (log 9, 11, 12, 13). The argument is the number of
the draw (`State.draws`), or an address for the launch contents. -/

/-- A byte nothing constrains: a draw of R9. -/
opaque freeByte : Nat → Byte

/-- A word nothing constrains. -/
opaque freeWord : Nat → Word

/-- A truth value nothing constrains. -/
opaque freeBool : Nat → Bool

/-- A number nothing constrains. -/
opaque freeNat : Nat → Nat

/-- The contents of the EEPROM at launch, "a parameter of a run" (R30). -/
opaque eepromLaunch : Nat → Byte

end Config
end Sys2Proof
end

