-- ==== Sys2Proof/Syntax.lean ====
section
/-! DEFINITION. The command classes of 30_encoding.md rule R71 and the one inductive of instructions:
one constructor per row of spec/opcode_table.json. -/

namespace Sys2Proof

/-- The ten command classes (30_encoding.md R71). -/
inductive Command where
  | getParameter
  | setDevice
  | setDeviceExt
  | loadAddress
  | universal
  | programPage
  | readPage
  | readSignature
  | leaveProgMode
  | other
deriving DecidableEq, Repr

/-- The instructions: the requests of the update protocol and the two inbound packet layouts. The
last byte `t` of a request is the byte that stands where its terminator is due (R70, log 15). -/
inductive Instr where
  /-- GetParameter, format F_PARAM: parameter id `p` (R72, R110). -/
  | getParameter (p t : Byte)
  /-- SetDevice, format F_SKIP(20) (R111). -/
  | setDevice (body : List Byte) (t : Byte)
  /-- SetDeviceExt, format F_SKIP(5) (R113). -/
  | setDeviceExt (body : List Byte) (t : Byte)
  /-- LoadAddress, format F_ADDR: low byte, then high byte of the word address (R112). -/
  | loadAddress (lo hi t : Byte)
  /-- Universal, format F_SKIP(4) (R114). -/
  | universal (body : List Byte) (t : Byte)
  /-- ProgramPage with type 'F', format F_PROG: the length byte is the payload's length (R118, R131). -/
  | programPageF (lenHigh : Byte) (payload : List Byte) (t : Byte)
  /-- ProgramPage with type 'E', format F_PROG (R118, R153). -/
  | programPageE (lenHigh : Byte) (payload : List Byte) (t : Byte)
  /-- ReadPage with type 'F', format F_READ (R119, R136). -/
  | readPageF (lenHigh n t : Byte)
  /-- ReadPage with type 'E', format F_READ (R119, R152). -/
  | readPageE (lenHigh n t : Byte)
  /-- ReadSignature, format F_NONE (R115). -/
  | readSignature (t : Byte)
  /-- LeaveProgMode, format F_NONE (R116). -/
  | leaveProgMode (t : Byte)
  /-- Other, format F_NONE: command byte `c`, none of the `CMD_*` values (R117). -/
  | other (c t : Byte)
  /-- ProgramPage with a type byte neither 'F' nor 'E': its request length is not defined (R118, R77). -/
  | programPageBadType (lenHigh n ty : Byte)
  /-- ReadPage with a type byte neither 'F' nor 'E' (R119, R77). -/
  | readPageBadType (lenHigh n ty t : Byte)
  /-- An ordinary inbound packet: sequence tag and payload (R81, R166). -/
  | pkt (tag : Byte) (payload : List Byte)
  /-- A first inbound packet: peer address, maximum length, and the rest, which is empty or a
  sequence tag and a payload (R82, R164, R165). -/
  | hello (a0 a1 a2 m : Byte) (body : List Byte)
  /-- The pseudo-command get-sync: class Other (R85). -/
  | getSync (t : Byte)
  /-- The pseudo-command enter-programming-mode: class Other (R85). -/
  | enterProgMode (t : Byte)
deriving DecidableEq, Repr

end Sys2Proof
end

