-- ==== Sys2Proof/WellFormed.lean ====
section
/-! DEFINITION. Which terms of `Instr` stand for bytes on a channel of a given configuration: the
lengths of 30_encoding.md rules R72, R81, R82 and the exclusions of rules R71, R77, R85. -/

namespace Sys2Proof

/-- The term is the reading of some request or packet under configuration `c`. -/
def Instr.wf (c : Config) : Instr → Bool
  | .getParameter _ _ => true
  | .setDevice body _ => decide (body.length = Config.setDeviceLen)
  | .setDeviceExt body _ => decide (body.length = Config.setDeviceExtLen)
  | .loadAddress _ _ _ => true
  | .universal body _ => decide (body.length = Config.universalLen)
  | .programPageF _ payload _ => decide (payload.length ≤ 255)
  | .programPageE _ payload _ => decide (payload.length ≤ 255)
  | .readPageF _ _ _ => true
  | .readPageE _ _ _ => true
  | .readSignature _ => true
  | .leaveProgMode _ => true
  | .other b _ =>
      decide (b ∉ c.commandBytes ∧ b ≠ Config.getSyncByte ∧ b ≠ Config.enterProgModeByte)
  | .programPageBadType _ _ ty => decide (ty ≠ Config.typeFlash ∧ ty ≠ Config.typeEeprom)
  | .readPageBadType _ _ ty _ => decide (ty ≠ Config.typeFlash ∧ ty ≠ Config.typeEeprom)
  | .pkt _ payload => decide (payload.length + 1 ≤ Config.pktCap)
  | .hello _ _ _ _ body => decide (body.length + 4 ≤ Config.pktCap)
  | .getSync _ => decide (Config.getSyncByte ∉ c.commandBytes)
  | .enterProgMode _ => decide (Config.enterProgModeByte ∉ c.commandBytes)

end Sys2Proof
end

