-- ==== Sys2Proof/Decode.lean ====
section
/-! DEFINITION. Reading requests and packets from bytes (30_encoding.md rules R70 to R82) and writing
them (rule R84). Decoding is total; what it cannot read it rejects by name. -/

namespace Sys2Proof

/-- Why a byte sequence is no instruction. -/
inductive DecodeError where
  /-- There is no byte at all. -/
  | empty
  /-- The sequence ends inside a request of this class (R87). -/
  | incomplete (k : Command)
  /-- An unassociated link takes no packet shorter than 4 (R164). -/
  | shortPacket
  /-- A packet of an associated link without a tag (R165). -/
  | noTag
  /-- Longer than the medium carries (R161). -/
  | overlong
deriving DecidableEq, Repr

/-- Classification of a command byte (R71): total, by equality with the nine `CMD_*` bytes. -/
def classify (c : Config) (b : Byte) : Command :=
  if b = c.cmdGetParameter then .getParameter
  else if b = c.cmdSetDevice then .setDevice
  else if b = c.cmdSetDeviceExt then .setDeviceExt
  else if b = c.cmdLoadAddress then .loadAddress
  else if b = c.cmdUniversal then .universal
  else if b = c.cmdProgPage then .programPage
  else if b = c.cmdReadPage then .readPage
  else if b = c.cmdReadSign then .readSignature
  else if b = c.cmdLeaveProgMode then .leaveProgMode
  else .other

/-- A body of `n` bytes and the byte after it, which stands where the terminator is due (R72). -/
def takeBody (k : Command) (n : Nat) (bs : List Byte) :
    Except DecodeError (List Byte × Byte × List Byte) :=
  match bs.drop n with
  | t :: rest => .ok (bs.take n, t, rest)
  | [] => .error (.incomplete k)

/-- A request of format F_NONE in class Other: the two pseudo-commands have names of their own (R85). -/
def otherOf (b t : Byte) : Instr :=
  if b = Config.getSyncByte then .getSync t
  else if b = Config.enterProgModeByte then .enterProgMode t
  else .other b t

/-- The body of a ProgramPage request, from `len-high` on (R72 `F_PROG`, R76, R77). -/
def decodeProgram : List Byte → Except DecodeError (Instr × List Byte)
  | lh :: n :: ty :: bs =>
    if ty = Config.typeFlash then
      match takeBody .programPage n.toNat bs with
      | .ok (payload, t, rest) => .ok (.programPageF lh payload t, rest)
      | .error e => .error e
    else if ty = Config.typeEeprom then
      match takeBody .programPage n.toNat bs with
      | .ok (payload, t, rest) => .ok (.programPageE lh payload t, rest)
      | .error e => .error e
    else .ok (.programPageBadType lh n ty, bs)
  | _ => .error (.incomplete .programPage)

/-- The body of a ReadPage request, from `len-high` on (R72 `F_READ`, R76, R77). -/
def decodeRead : List Byte → Except DecodeError (Instr × List Byte)
  | lh :: n :: ty :: t :: rest =>
    if ty = Config.typeFlash then .ok (.readPageF lh n t, rest)
    else if ty = Config.typeEeprom then .ok (.readPageE lh n t, rest)
    else .ok (.readPageBadType lh n ty t, rest)
  | _ => .error (.incomplete .readPage)

/-- The request at the head of a byte stream, and the bytes after it (R70, R72, R87). -/
def decodeRequest (c : Config) : List Byte → Except DecodeError (Instr × List Byte)
  | [] => .error .empty
  | b :: bs =>
    match classify c b with
    | .getParameter =>
      match bs with
      | p :: t :: rest => .ok (.getParameter p t, rest)
      | _ => .error (.incomplete .getParameter)
    | .setDevice =>
      match takeBody .setDevice Config.setDeviceLen bs with
      | .ok (body, t, rest) => .ok (.setDevice body t, rest)
      | .error e => .error e
    | .setDeviceExt =>
      match takeBody .setDeviceExt Config.setDeviceExtLen bs with
      | .ok (body, t, rest) => .ok (.setDeviceExt body t, rest)
      | .error e => .error e
    | .loadAddress =>
      match bs with
      | lo :: hi :: t :: rest => .ok (.loadAddress lo hi t, rest)
      | _ => .error (.incomplete .loadAddress)
    | .universal =>
      match takeBody .universal Config.universalLen bs with
      | .ok (body, t, rest) => .ok (.universal body t, rest)
      | .error e => .error e
    | .programPage => decodeProgram bs
    | .readPage => decodeRead bs
    | .readSignature =>
      match bs with
      | t :: rest => .ok (.readSignature t, rest)
      | [] => .error (.incomplete .readSignature)
    | .leaveProgMode =>
      match bs with
      | t :: rest => .ok (.leaveProgMode t, rest)
      | [] => .error (.incomplete .leaveProgMode)
    | .other =>
      match bs with
      | t :: rest => .ok (otherOf b t, rest)
      | [] => .error (.incomplete .other)

/-- An inbound packet, by the link state alone (R81, R82, R164): `assoc` says the link is associated. -/
def decodePacket (assoc : Bool) (p : List Byte) : Except DecodeError Instr :=
  if Config.pktCap < p.length then .error .overlong
  else if assoc then
    match p with
    | tag :: payload => .ok (.pkt tag payload)
    | [] => .error .noTag
  else
    match p with
    | a0 :: a1 :: a2 :: m :: body => .ok (.hello a0 a1 a2 m body)
    | _ => .error .shortPacket

/-! ### The encoder -/

/-- The bytes of an instruction: of a request in stream order (R72, R84; a bad-type ProgramPage is its
four header bytes), of a packet whole (R81, R82). -/
def encode (c : Config) : Instr → List Byte
  | .getParameter p t => [c.cmdGetParameter, p, t]
  | .setDevice body t => c.cmdSetDevice :: (body ++ [t])
  | .setDeviceExt body t => c.cmdSetDeviceExt :: (body ++ [t])
  | .loadAddress lo hi t => [c.cmdLoadAddress, lo, hi, t]
  | .universal body t => c.cmdUniversal :: (body ++ [t])
  | .programPageF lh payload t =>
      c.cmdProgPage :: lh :: BitVec.ofNat 8 payload.length :: Config.typeFlash :: (payload ++ [t])
  | .programPageE lh payload t =>
      c.cmdProgPage :: lh :: BitVec.ofNat 8 payload.length :: Config.typeEeprom :: (payload ++ [t])
  | .readPageF lh n t => [c.cmdReadPage, lh, n, Config.typeFlash, t]
  | .readPageE lh n t => [c.cmdReadPage, lh, n, Config.typeEeprom, t]
  | .readSignature t => [c.cmdReadSign, t]
  | .leaveProgMode t => [c.cmdLeaveProgMode, t]
  | .other b t => [b, t]
  | .programPageBadType lh n ty => [c.cmdProgPage, lh, n, ty]
  | .readPageBadType lh n ty t => [c.cmdReadPage, lh, n, ty, t]
  | .pkt tag payload => tag :: payload
  | .hello a0 a1 a2 m body => a0 :: a1 :: a2 :: m :: body
  | .getSync t => [Config.getSyncByte, t]
  | .enterProgMode t => [Config.enterProgModeByte, t]

/-- The instruction is an inbound packet, not a request. -/
def Instr.isPacket : Instr → Bool
  | .pkt _ _ => true
  | .hello _ _ _ _ _ => true
  | _ => false

/-- The link state in which a packet instruction is read (R82): associated for `pkt`, not for `hello`. -/
def Instr.needsAssoc : Instr → Bool
  | .pkt _ _ => true
  | _ => false

/-- How many bytes a request is (the table of R72; the four header bytes of a bad-type ProgramPage). -/
def Instr.requestLength : Instr → Nat
  | .getParameter _ _ => 3
  | .setDevice _ _ => 22
  | .setDeviceExt _ _ => 7
  | .loadAddress _ _ _ => 4
  | .universal _ _ => 6
  | .programPageF _ payload _ => 5 + payload.length
  | .programPageE _ payload _ => 5 + payload.length
  | .readPageF _ _ _ => 5
  | .readPageE _ _ _ => 5
  | .readSignature _ => 2
  | .leaveProgMode _ => 2
  | .other _ _ => 2
  | .programPageBadType _ _ _ => 4
  | .readPageBadType _ _ _ _ => 5
  | .pkt _ payload => 1 + payload.length
  | .hello _ _ _ _ body => 4 + body.length
  | .getSync _ => 2
  | .enterProgMode _ => 2

/-! ### Words of the opcode table -/

/-- The longest request: 5 + 255 bytes (R72). -/
def longestRequest : Nat := 260

/-- The bytes of a table word in wire order: opcode_table.json writes byte 0 leftmost (`match_note`),
so the most significant byte of the `nbits` bits comes first; bytes past them are zero (log 16). -/
def tableBytes (nbits w : Nat) : List Byte :=
  (List.range (nbits / 8)).map (fun k => BitVec.ofNat 8 (w >>> (8 * (nbits / 8 - 1 - k))))
    ++ List.replicate (longestRequest - nbits / 8) 0

/-- The instruction the request decoder reads from a table word, under CFG_REF. -/
def decodeTableWord (nbits w : Nat) : Option Instr :=
  match decodeRequest Config.ref (tableBytes nbits w) with
  | .ok (i, _) => some i
  | .error _ => none

end Sys2Proof
end

