-- ==== Sys2Proof/Machine/State.lean ====
section
/-! DEFINITION. The state of the block (10_state.md rules R10 to R37) as plain data, the reasons a step
stops, and the machine right after the first power-on. -/

namespace Sys2Proof.Machine

/-- The dispatcher phase PH (R11): this block's program counter. -/
inductive Phase where
  | boot
  | awaitCommand
  | execute (k : Command)
  | respond
  | abandoned
  | handedOff
deriving DecidableEq, Repr

/-- The watchdog configuration WDT_CFG (R17): off, or on with a duration. -/
inductive WdtCfg where
  | off
  | on (d : Nat)
deriving DecidableEq, Repr

/-- A cell of FLASH (20_memory.md R66). -/
inductive FlashCell where
  | byte (b : Byte)
  | erased
  | undef
deriving DecidableEq, Repr

/-- What the flash controller is doing, with the page base (R23). -/
inductive FlashOp where
  | idle
  | erasing (p : Nat)
  | writing (p : Nat)
deriving DecidableEq, Repr

/-- What the transport decided about an inbound packet (R31). -/
inductive Verdict where
  | associated
  | accepted
  | droppedShape
  | droppedDuplicate
  | droppedEmpty
deriving DecidableEq, Repr

/-- The events of the trace EV (R31). -/
inductive Event where
  | rx (b : Byte)
  | tx (b : Byte)
  | erase (p : Nat)
  | fill (a : Nat) (w : Word)
  | commit (p : Nat)
  | waitReady
  | rwwEnable
  | flashRead (a : Nat)
  | eeRead (a : Nat)
  | eeWrite (a : Nat) (b : Byte)
  | service
  | config (c : WdtCfg)
  | pktIn (p : List Byte) (v : Verdict)
  | pktOut (p : List Byte) (k : Nat) (acked : Bool)
  | delay (d : Nat)
  | transfer (entry : Nat) (cause : Byte)
  | reset (src : ResetSource)
deriving DecidableEq, Repr

/-- What the wired line hands over for one RecvByte: the byte and the framing verdict (40_dispatcher.md R100). -/
structure LineByte where
  byte : Byte
  ok : Bool
deriving DecidableEq, Repr

/-- What the environment does at one point between two operations of the engine (log 5): `dt` passes,
the controllers may complete, and reset sources may strike. `serviceFirst` decides for the service
when the watchdog's window ends at the very step that would service it (60_exceptions.md R221). -/
structure Pause where
  dt : Nat
  flashDone : Bool
  eeDone : Bool
  powerOn : Bool
  brownOut : Bool
  external : Bool
  serviceFirst : Bool
deriving DecidableEq, Repr

/-- The machine. The first group is the configuration, then the registers of R10 in its order, then the
output port of R245 and the trace, then the environment's scripts and the draw counter (log 1, 2, 12). -/
structure State where
  /-- The configuration of R5; no step writes it. -/
  cfg : Config
  /-- PH (R11). -/
  ph : Phase
  /-- ADDR (R12). -/
  addr : Word
  /-- EXT (R13). -/
  ext : BitVec 1
  /-- LEN (R14). -/
  len : Byte
  /-- TYPE (R14). -/
  memType : Byte
  /-- PAGEBUF (R15). -/
  pagebuf : List Byte
  /-- SHADOW_RST (R16). -/
  shadowRst : Byte × Byte
  /-- SHADOW_WDT (R16). -/
  shadowWdt : Byte × Byte
  /-- The shadows have been written since the last device reset (the model's own; log 10). -/
  shadowSet : Bool
  /-- WDT_CFG (R17). -/
  wdtCfg : WdtCfg
  /-- WDT_CNT (R18), in milliseconds. -/
  wdtCnt : Nat
  /-- HW_RSTFLAGS (R19). -/
  hwRstFlags : Byte
  /-- RESET_CAUSE (R20). -/
  resetCause : Byte
  /-- MARKER (R21). -/
  marker : Bool
  /-- FLASH (R22): the cells that are not Erased, by rising address; an unlisted cell is Erased (log 11). -/
  flash : List (Nat × FlashCell)
  /-- WBUF (R23): `none` is unfilled. -/
  wbuf : List (Option Byte)
  /-- FLASH_OP (R23). -/
  flashOp : FlashOp
  /-- RWW_BLOCKED (R23). -/
  rwwBlocked : Bool
  /-- EEPROM (R30): the bytes written since launch, by rising address; an unlisted byte is the launch
  contents (log 11). -/
  eeprom : List Host.Cell
  /-- EE_BUSY (R30) with the latched pair (20_memory.md R58): `none` is clear. -/
  eeBusy : Option (Nat × Byte)
  /-- ASSOC (R24). -/
  assoc : Bool
  /-- PEER (R25). -/
  peer : Byte × Byte × Byte
  /-- MAXLEN (R26). -/
  maxlen : Byte
  /-- RX_TAG (R27); `none` is the reading in which no tag has been accepted yet (log 14). -/
  rxTag : Option Byte
  /-- RXQ (R28). -/
  rxq : List Byte
  /-- TXBUF (R29). -/
  txbuf : List Byte
  /-- TX_TAG (R29). -/
  txTag : Byte
  /-- HANDOFF_CAUSE (70_reset_and_hazards.md R245). -/
  handoffCause : Byte
  /-- EV (R31), oldest first. -/
  ev : List Event
  /-- Environment: what the wired line will hand over, in order (log 2). -/
  line : List LineByte
  /-- Environment: the packets `radio_rx` will return, in order (log 2). -/
  air : List (List Byte)
  /-- Environment: the packets handed to the radio driver, each with its destination, oldest first
  (43_radio_transport.md R162; log 31). -/
  radioOut : List ((Byte × Byte × Byte) × List Byte)
  /-- Environment: the outcomes of the coming transmit attempts (log 2). -/
  acks : List Bool
  /-- Environment: what happens at the coming pauses (log 5). -/
  pauses : List Pause
  /-- How many free values have been drawn (log 12). -/
  draws : Nat
deriving DecidableEq, Repr

/-- Why the machine stops without a next state although no rule refuses the input. -/
inductive Fault where
  /-- Raised by `idle` in phase HandedOff with an empty script and the watchdog off: the block has no step
  until a device reset (40_dispatcher.md R107) and the environment has none to give. Safe. -/
  | handedOff
  /-- Raised by `idle` with an empty script and the watchdog off in a phase that only a device reset
  leaves (R107), or with a silent host; no reachable state has the watchdog off there (R37). Safe. -/
  | stuck
  /-- Raised by `silence` inside a command: `receive_byte` is never answered and the watchdog is off;
  no reachable state has the watchdog off there (R37). Safe. -/
  | blocked
  /-- Raised by `step` in phases Execute and Respond: the model's steps are whole commands, so no
  reachable state rests there (log 24). Safe. -/
  | insideCommand
deriving DecidableEq, Repr

/-- The inputs the spec gives no meaning (`refuse` of 00_scope.md R9, 60_exceptions.md R219), by name;
all safe: the run stops and nothing is claimed. -/
inductive Refusal where
  /-- Raised by `exec` for an instruction without a meaning: none is left. Safe. -/
  | notModelled (mnemonic : String)
  /-- Raised by the ProgramPage and ReadPage headers: LEN 0, or above PAGE_SIZE for ProgramPage
  (30_encoding.md R76). Safe. -/
  | length
  /-- Raised by the ProgramPage and ReadPage headers: a type neither 'F' nor 'E' (R77). Safe. -/
  | memoryType
  /-- Raised by ProgramPage 'F' and the page primitives off a page base, and by `fill_word` at an odd
  address (20_memory.md R48). Safe. -/
  | unaligned
  /-- Raised by any access outside its memory (R64). Safe. -/
  | range
  /-- Raised when an address advance would pass 0xFFFF (R47). Safe. -/
  | wrap
  /-- Raised by an erase of the bootloader's own pages (R64). Safe. -/
  | bootPages
  /-- Raised by a flash primitive called while the controller is busy (R50, R51, R52). Safe. -/
  | busy
  /-- Raised by filling a cell of the write buffer twice (R51). Safe. -/
  | doubleFill
  /-- Raised by a handshake that announces a length outside 2 to PKT_CAP (43_radio_transport.md R164). Safe. -/
  | maxlen
  /-- Raised by sending on an unassociated link (R169); unreachable (R37). Safe. -/
  | unassociated
  /-- Raised by the transport on a packet longer than the medium carries, which R161 excludes. Safe. -/
  | packetLength
  /-- Raised by `step`: the configuration breaks a constraint of R5 or R6. Safe. -/
  | configuration
deriving DecidableEq, Repr

/-- The machine right after the first power-on, in configuration `c`: the values of R35 and R19; where
they give none, the value log 8 names. -/
def State.resetWith (c : Config) : State where
  cfg := c
  ph := .boot
  addr := 0
  ext := 0
  len := 0
  memType := 0
  pagebuf := List.replicate c.pageSize 0
  shadowRst := (0, 0)
  shadowWdt := (0, 0)
  shadowSet := false
  wdtCfg := .off
  wdtCnt := 0
  hwRstFlags := c.flagPowerOn
  resetCause := 0
  marker := false
  flash := []
  wbuf := List.replicate c.pageSize none
  flashOp := .idle
  rwwBlocked := false
  eeprom := []
  eeBusy := none
  assoc := false
  peer := (0, 0, 0)
  maxlen := c.maxlenDefault
  rxTag := c.rxTagReset
  rxq := []
  txbuf := [c.txTagReset]
  txTag := c.txTagReset
  handoffCause := 0
  ev := [.reset .powerOn]
  line := []
  air := []
  radioOut := []
  acks := []
  pauses := []
  draws := 0

/-- The machine right after reset, in the spec's example configuration (log 1). -/
def State.reset : State := State.resetWith Config.ref

end Sys2Proof.Machine
end

