-- ==== Sys2Proof/Machine/Engine.lean ====
section
/-! DEFINITION. The shape of the engine's rules: a rule runs over the state and may stop early, as
`raise` and `refuse` of 00_scope.md rule R9 do, or because a device reset cuts it off. -/

namespace Sys2Proof.Machine

/-- How a rule stops before its end: the machine is in a state the rule's remaining steps do not run
from (an abandoned session, a device reset), or there is no next state at all. -/
inductive Stop where
  | ended (s : State)
  | fault (f : Fault)
  | refused (r : Refusal)
deriving DecidableEq, Repr

/-- A rule of the engine that answers an `α`. -/
abbrev Eng (α : Type) := StateT State (Except Stop) α

/-- Write the state. -/
def update (f : State → State) : Eng Unit := fun s => .ok ((), f s)

/-- Read the state. -/
def look {α : Type} (f : State → α) : Eng α := fun s => .ok (f s, s)

/-- The run is refused: there is no next state. -/
def refused {α : Type} (r : Refusal) : Eng α := fun _ => .error (.refused r)

/-- The rule `m` where `b` holds, nothing elsewhere. -/
def onlyIf (b : Bool) (m : Eng Unit) : Eng Unit :=
  if b then m else pure ()

/-- The rule stops here and the machine is in `f` of its state. -/
def endWith {α : Type} (f : State → State) : Eng α := fun s => .error (.ended (f s))

/-- A rule's outcome as one step of the machine. -/
def runRule (r : Eng Unit) (s : State) : Host.Outcome State Fault Refusal :=
  match r s with
  | .ok (_, s') => .next s'
  | .error (.ended s') => .next s'
  | .error (.fault f) => .fault f
  | .error (.refused f) => .refused f

end Sys2Proof.Machine
end

