-- ==== Sys2Proof/Machine/Flags.lean ====
section
/-! DEFINITION. The flags of 10_state.md rule R33: the reset-cause flags and what the boot decision
reads in them, and the condition under which the watchdog resets the device. The block has no
condition codes. -/

namespace Sys2Proof.Machine

/-- `IsWdt` on a reset-cause byte (00_scope.md R5, R242). -/
def isWdt (c : Config) (b : Byte) : Bool := c.wdtCauses.contains b

/-- `IsPor` on a reset-cause byte. -/
def isPor (c : Config) (b : Byte) : Bool := c.porCauses.contains b

/-- `IsBor` on a reset-cause byte. -/
def isBor (c : Config) (b : Byte) : Bool := c.borCauses.contains b

/-- The flag a reset of a source sets in HW_RSTFLAGS (10_state.md R19). -/
def resetFlag (c : Config) : ResetSource → Byte
  | .watchdog => c.flagWatchdog
  | .powerOn => c.flagPowerOn
  | .brownOut => c.flagBrownOut
  | .external => c.flagExternal

/-- The boot decision: skip the command loop (70_reset_and_hazards.md R242); `m` is the marker as the
boot sequence read it. -/
def skipsLoop (c : Config) (cause : Byte) (m : Bool) : Bool :=
  (isWdt c cause && (!c.wdtMarkerEnabled || m)) || isPor c cause || isBor c cause

/-- Arming this configuration sets MARKER (44_watchdog.md R193). -/
def setsMarker (c : Config) (w : WdtCfg) : Bool :=
  c.wdtMarkerEnabled && (decide (w = .on c.wdtMedium) || decide (w = .on c.wdtShort))

/-- The reset sources a pause brings, the watchdog apart (60_exceptions.md R220). -/
def Pause.sources (p : Pause) : List ResetSource :=
  (if p.powerOn then [.powerOn] else []) ++ (if p.brownOut then [.brownOut] else []) ++
    (if p.external then [.external] else [])

/-- The pause in which nothing happens. -/
def Pause.quiet : Pause :=
  { dt := 0, flashDone := false, eeDone := false, powerOn := false, brownOut := false,
    external := false, serviceFirst := false }

/-- The watchdog resets the device: `WDT_CFG = On(d)` and `WDT_CNT >= d` (44_watchdog.md R195). When the
window ends exactly at a step that services it (`svc`), the environment decides (60_exceptions.md R221). -/
def expired (w : WdtCfg) (cnt : Nat) (svc serviceFirst : Bool) : Bool :=
  match w with
  | .off => false
  | .on d => decide (d < cnt) || (decide (cnt = d) && !(svc && serviceFirst))

end Sys2Proof.Machine
end

