-- ==== Sys2Proof/Machine/Memory.lean ====
section
/-! DEFINITION. The sparse memories: lists of cells by strictly rising address, with the operations on
them. FLASH lists the cells that are not Erased (20_memory.md rule R66), EEPROM the bytes written since
launch (log 11). -/

namespace Sys2Proof.Machine

/-- The cell listed at an address. -/
def cellAt {α : Type} : List (Nat × α) → Nat → Option α
  | [], _ => none
  | (k, v) :: m, a => if k = a then some v else cellAt m a

/-- List `v` at address `a`, in place of what was listed there. -/
def putCell {α : Type} : List (Nat × α) → Nat → α → List (Nat × α)
  | [], a, v => [(a, v)]
  | (k, w) :: m, a, v =>
    if a < k then (a, v) :: (k, w) :: m
    else if a = k then (a, v) :: m
    else (k, w) :: putCell m a v

/-- List nothing at address `a`. -/
def dropCell {α : Type} : List (Nat × α) → Nat → List (Nat × α)
  | [], _ => []
  | (k, w) :: m, a => if k = a then m else (k, w) :: dropCell m a

/-- The canonical form: addresses strictly rising. -/
abbrev Rising {α : Type} (m : List (Nat × α)) : Prop := m.Pairwise (fun x y => x.1 < y.1)

/-- The canonical form of FLASH: addresses strictly rising, and no entry equal to what an unlisted
address holds. -/
abbrev FlashWf (m : List (Nat × FlashCell)) : Prop :=
  Rising m ∧ ∀ e ∈ m, e.2 ≠ FlashCell.erased

/-- `FLASH[a]` (R22, R66). -/
def flashCell (m : List (Nat × FlashCell)) (a : Nat) : FlashCell := (cellAt m a).getD .erased

/-- `FLASH[a] <- c`, keeping the canonical form. -/
def setFlashCell (m : List (Nat × FlashCell)) (a : Nat) (c : FlashCell) : List (Nat × FlashCell) :=
  match c with
  | .erased => dropCell m a
  | .byte b => putCell m a (.byte b)
  | .undef => putCell m a .undef

/-- The cells from address `a` on become `cs`. -/
def setFlashCells (m : List (Nat × FlashCell)) (a : Nat) : List FlashCell → List (Nat × FlashCell)
  | [] => m
  | c :: cs => setFlashCells (setFlashCell m a c) (a + 1) cs

/-- `EEPROM[a]` (R30): a byte written since launch, or the launch contents. -/
def eepromByte (m : List Host.Cell) (a : Nat) : Byte := (cellAt m a).getD (Config.eepromLaunch a)

/-- The canonical form of both memories of a state. -/
abbrev Memory.wf (s : State) : Prop := FlashWf s.flash ∧ Rising s.eeprom

end Sys2Proof.Machine
end

