-- ==== Sys2Proof/Machine/Operands.lean ====
section
/-! DEFINITION. The operand forms of the requests (30_encoding.md rules R75 to R78), byte order
(20_memory.md rule R46), addresses (rules R40, R44) and the arithmetic of 40_dispatcher.md rule R120. -/

namespace Sys2Proof.Machine

/-- `lo8` of 00_scope.md R9. -/
def lo8 (w : Word) : Byte := w.extractLsb' 0 8

/-- `hi8` of R9. -/
def hi8 (w : Word) : Byte := w.extractLsb' 8 8

/-- The word `hi:lo` of R9; multi-byte quantities stand low byte first (20_memory.md R46). -/
def wordOf (lo hi : Byte) : Word := hi ++ lo

/-- The byte address of a word address: `(W << 1) mod 65536` (R75). -/
def byteAddress (w : Word) : Word := w <<< 1

/-- The bit of a word address that goes to EXT: bit 15 (R75). -/
def extBit (w : Word) : BitVec 1 := w.extractLsb' 15 1

/-- EXT as flash accesses read it: 0 when there is no such register (10_state.md R13). -/
def State.extValue (s : State) : Nat := if s.cfg.hasExt then s.ext.toNat else 0

/-- The flash byte address `FA = EXT * 65536 + ADDR` (20_memory.md R40). -/
def State.flashAddress (s : State) : Nat := s.extValue * 65536 + s.addr.toNat

/-- The two flash banks (R44). -/
def isRww (c : Config) (a : Nat) : Bool := decide (a < c.nrwwStart)

/-- The value GetParameter answers for a parameter id (R78). -/
def parameterValue (c : Config) (p : Byte) : Byte :=
  if p = Config.paramIdMajor then c.verMajor
  else if p = Config.paramIdMinor then c.verMinor
  else Config.paramGeneric

/-- LEN is no legal ProgramPage length (R76): 0, or more than a page. -/
def badProgramLength (c : Config) (n : Byte) : Bool := decide (n = 0 ∨ c.pageSize < n.toNat)

/-- LEN is no legal ReadPage length (R76): 0. -/
def badReadLength (n : Byte) : Bool := decide (n = 0)

/-- The length byte of a ProgramPage request with this payload (R72 `F_PROG`). -/
def payloadLength (payload : List Byte) : Byte := BitVec.ofNat 8 payload.length

/-- How far ProgramPage 'F' moves ADDR (41_flash_programmer.md R142). -/
def advanceAmount (c : Config) (n : Byte) : Nat :=
  match c.progFAdvance with
  | .unchanged => 0
  | .byLen => n.toNat
  | .byPage => c.pageSize

/-- Flash byte addresses whose reads the VirtualBootPatch substitutes (R136). -/
def isPatchedAddress (a : Nat) : Bool := decide (a = 0 ∨ a = 1 ∨ a = 8 ∨ a = 9)

/-- The host's reset-vector word moved to the watchdog slot: `(V - VBP_ADJUST) mod 65536` (R134, R139). -/
def relocate (c : Config) (v : Word) : Word := v - BitVec.ofNat 16 c.vbpAdjust

/-- The application's entry that handoff takes (70_reset_and_hazards.md R246). -/
def handoffEntry (c : Config) : Nat := if c.vbpEnabled then Config.wdtvOff else c.appEntry

/-- The watchdog configuration handoff arms (R245). -/
def handoffConfig (c : Config) : WdtCfg :=
  match c.handoffWdt with
  | .off => .off
  | .long => .on c.wdtLong

end Sys2Proof.Machine
end

