-- ==== Sys2Proof/Machine/Ops.lean ====
section
/-! DEFINITION. The operations every rule shares: the trace, the draws, the watchdog (44_watchdog.md),
the controllers, the device reset, the pauses at which the environment acts, and the flash and EEPROM
primitives (20_memory.md rules R50 to R58). -/

namespace Sys2Proof.Machine

/-! ### Named updates of the state -/

/-- `emit e` (00_scope.md R9): append to EV. -/
def State.emit (s : State) (e : Event) : State := { s with ev := s.ev ++ [e] }

/-- `PH <- p`. -/
def State.setPh (s : State) (p : Phase) : State := { s with ph := p }

/-- `ADDR <- a`. -/
def State.setAddr (s : State) (a : Word) : State := { s with addr := a }

/-- Time passes (44_watchdog.md R194). -/
def State.addTime (s : State) (dt : Nat) : State := { s with wdtCnt := s.wdtCnt + dt }

/-- `WDT_CNT <- 0` (44_watchdog.md R192). -/
def State.clearCount (s : State) : State := { s with wdtCnt := 0 }

/-- The next pause of the script is used. -/
def State.popPause (s : State) : State := { s with pauses := s.pauses.tail }

/-- One more free value is drawn. -/
def State.countDraw (s : State) : State := { s with draws := s.draws + 1 }

/-- The wired line still holds `l`. -/
def State.setLine (s : State) (l : List LineByte) : State := { s with line := l }

/-- The medium still holds the packets `ps`. -/
def State.setAir (s : State) (ps : List (List Byte)) : State := { s with air := ps }

/-- The acknowledgments still to come. -/
def State.setAcks (s : State) (l : List Bool) : State := { s with acks := l }

/-- `LEN <- n`. -/
def State.setLen (s : State) (n : Byte) : State := { s with len := n }

/-- `TYPE <- ty`. -/
def State.setType (s : State) (ty : Byte) : State := { s with memType := ty }

/-- `PAGEBUF[i] <- b`. -/
def State.setBuf (s : State) (i : Nat) (b : Byte) : State := { s with pagebuf := s.pagebuf.set i b }

/-- `EXT <- e; ADDR <- a` (40_dispatcher.md R112). -/
def State.setAddress (s : State) (e : BitVec 1) (a : Word) : State := { s with ext := e, addr := a }

/-- `FLASH_OP <- op`, the RWW bank blocked where the target has to enable it again (20_memory.md R50, R52). -/
def State.startOp (s : State) (op : FlashOp) : State :=
  { s with flashOp := op, rwwBlocked := s.rwwBlocked || s.cfg.needsRwwEnable }

/-- Two cells of WBUF from index `i` on, low byte first (R51, R46). -/
def State.fillPair (s : State) (i : Nat) (w : Word) : State :=
  { s with wbuf := (s.wbuf.set i (some (lo8 w))).set (i + 1) (some (hi8 w)) }

/-- `RWW_BLOCKED <- clear` (R56). -/
def State.unblock (s : State) : State := { s with rwwBlocked := false }

/-- The EEPROM controller latches a byte write (R58). -/
def State.latch (s : State) (a : Nat) (b : Byte) : State := { s with eeBusy := some (a, b) }

/-! ### Trace and draws -/

/-- `emit e`. -/
def emit (e : Event) : Eng Unit := update (fun s => s.emit e)

/-- `draw x in` the bytes (R9): a fresh free value. -/
def drawByte : Eng Byte := fun s => .ok (Config.freeByte s.draws, s.countDraw)

/-! ### The watchdog's two operations -/

/-- `WdtService()` on the state (44_watchdog.md R192). -/
def State.serviced (s : State) : State := s.clearCount.emit .service

/-- `WdtService()`. -/
def wdtService : Eng Unit := update State.serviced

/-- `WDT_CFG <- c; emit Config(c)` (R193): WDT_CNT is not touched. -/
def State.configured (s : State) (w : WdtCfg) : State := { s with wdtCfg := w }.emit (.config w)

/-- `MARKER <- set` (R193). -/
def State.marked (s : State) : State := { s with marker := true }

/-- `WdtConfig(c)` (R193), with `pause` before each of its two lasting effects (log 5, 26). -/
def wdtConfig (pause : Eng Unit) (w : WdtCfg) : Eng Unit := do
  pause
  update (fun s => s.configured w)
  let c ← look (fun s => s.cfg)
  onlyIf (setsMarker c w) (do pause; update State.marked)

/-! ### The controllers (environment agents) -/

/-- The page at base `p` as cells. -/
def State.pageCells (s : State) (p : Nat) : List FlashCell :=
  (List.range s.cfg.pageSize).map (fun i => flashCell s.flash (p + i))

/-- A write-buffer cell as it lands in FLASH. -/
def wbufCell : Option Byte → FlashCell
  | some b => .byte b
  | none => .undef

/-- A commit of page `p` is in sequence: the page is Erased and the write buffer full (R54). -/
def State.commitInSequence (s : State) (p : Nat) : Bool :=
  (s.pageCells p).all (fun c => decide (c = .erased)) && s.wbuf.all Option.isSome

/-- FLASH with every cell of page `p` set to `c`. -/
def State.pageFilled (s : State) (p : Nat) (c : FlashCell) : List (Nat × FlashCell) :=
  setFlashCells s.flash p (List.replicate s.cfg.pageSize c)

/-- The flash controller completes what it is doing (20_memory.md R54). -/
def flashComplete (s : State) : State :=
  match s.flashOp with
  | .idle => s
  | .erasing p => { s with flash := s.pageFilled p .erased, flashOp := .idle }
  | .writing p =>
    { s with
      flash := if s.commitInSequence p then setFlashCells s.flash p (s.wbuf.map wbufCell)
               else s.pageFilled p .undef
      wbuf := List.replicate s.cfg.pageSize none
      flashOp := .idle }

/-- The EEPROM controller completes the latched byte write (R59). -/
def eeComplete (s : State) : State :=
  match s.eeBusy with
  | none => s
  | some (a, b) => { s with eeprom := putCell s.eeprom a b, eeBusy := none }

/-! ### Device reset: the only trap (60_exceptions.md R222, R240). There is no return from it (R223);
what follows is the boot sequence of Machine/Boot.lean. -/

/-- A flash operation in progress is cut short: its page becomes Undef (20_memory.md R55). -/
def State.flashCut (s : State) : List (Nat × FlashCell) :=
  match s.flashOp with
  | .idle => s.flash
  | .erasing p => s.pageFilled p .undef
  | .writing p => s.pageFilled p .undef

/-- An EEPROM byte write in progress is cut short: its byte is unspecified (20_memory.md R59; log 13). -/
def State.eepromCut (s : State) : List Host.Cell :=
  match s.eeBusy with
  | none => s.eeprom
  | some (a, _) => putCell s.eeprom a (Config.freeByte (s.draws + 11))

/-- A watchdog configuration nothing constrains but the menu (R17, R35). -/
def freeWdtCfg (c : Config) (n : Nat) : WdtCfg :=
  match c.wdtMenu[Config.freeNat n % (c.wdtMenu.length + 1)]? with
  | some d => .on d
  | none => .off

/-- Device reset (70_reset_and_hazards.md R240): the source's flag is set, an operation in progress is
cut short, every other register takes its value of 10_state.md R35 (a free value where R35 says
unspecified, log 9), and the phase is Boot. FLASH, EEPROM, MARKER and EV survive. -/
def deviceReset (src : ResetSource) (s : State) : State :=
  { s with
    ph := .boot
    addr := Config.freeWord s.draws
    ext := if s.cfg.hasExt then BitVec.ofBool (Config.freeBool s.draws) else s.ext
    len := Config.freeByte s.draws
    memType := Config.freeByte (s.draws + 1)
    resetCause := Config.freeByte (s.draws + 2)
    peer := (Config.freeByte (s.draws + 3), Config.freeByte (s.draws + 4), Config.freeByte (s.draws + 5))
    handoffCause := Config.freeByte (s.draws + 6)
    shadowRst := (Config.freeByte (s.draws + 7), Config.freeByte (s.draws + 8))
    shadowWdt := (Config.freeByte (s.draws + 9), Config.freeByte (s.draws + 10))
    shadowSet := false
    pagebuf := (List.range s.cfg.pageSize).map (fun i => Config.freeByte (s.draws + 12 + i))
    wdtCfg := freeWdtCfg s.cfg s.draws
    wdtCnt := 0
    hwRstFlags := s.hwRstFlags ||| resetFlag s.cfg src
    flash := s.flashCut
    wbuf := List.replicate s.cfg.pageSize none
    flashOp := .idle
    rwwBlocked := false
    eeprom := s.eepromCut
    eeBusy := none
    assoc := false
    maxlen := s.cfg.maxlenDefault
    rxTag := s.cfg.rxTagReset
    rxq := []
    txbuf := [s.cfg.txTagReset]
    txTag := s.cfg.txTagReset
    ev := s.ev ++ [.reset src]
    draws := s.draws + 12 + s.cfg.pageSize }

/-- Several reset sources at once: the flag of each (60_exceptions.md R221). -/
def resetBy (srcs : List ResetSource) (s : State) : State :=
  srcs.foldl (fun t src => deviceReset src t) s

/-- `raise ProtocolDesync` (60_exceptions.md R211): the session is abandoned, the rule stops, and what
it has already written stays written. -/
def raiseDesync {α : Type} : Eng α := endWith (fun s => s.setPh .abandoned)

/-! ### Pauses: where the environment acts (00_scope.md R8, 44_watchdog.md R194, R199; log 5). A device
reset can strike between any two steps of a rule that leave a trace (70_reset_and_hazards.md R240). -/

/-- The controllers that complete in a pause. -/
def settle (p : Pause) (s : State) : State :=
  let s := if p.flashDone then flashComplete s else s
  if p.eeDone then eeComplete s else s

/-- The reset sources that strike in a pause, the watchdog's expiry included (R195). -/
def strikes (svc : Bool) (p : Pause) (s : State) : List ResetSource :=
  p.sources ++ (if expired s.wdtCfg s.wdtCnt svc p.serviceFirst then [.watchdog] else [])

/-- One pause: `extra` and the script's time pass, controllers may complete, and a reset cuts the rule
off. `svc` says that the next step services the watchdog. With no script left nothing happens. -/
def takePause (extra : Nat) (svc : Bool) : Eng Unit := fun s =>
  let p := s.pauses.headD Pause.quiet
  let t := settle p (s.popPause.addTime (extra + p.dt))
  let srcs := strikes svc p t
  if srcs.isEmpty then .ok ((), t) else .error (.ended (resetBy srcs t))

/-- An instant between two steps of a rule, with no service at the second. -/
abbrev instant : Eng Unit := takePause 0 false

/-- `emit e`, at an instant of its own. -/
def record (e : Event) : Eng Unit := do
  instant
  emit e

/-- `refuse(reason)` of 00_scope.md R9, at an instant of its own: a reset that strikes after what the rule
has done so far comes before the refusal (70_reset_and_hazards.md R240; log 5). -/
def refuse {α : Type} (r : Refusal) : Eng α := do
  instant
  refused r

/-- `refuse(reason)` when `bad` holds. -/
def refuseIf (bad : Bool) (r : Refusal) : Eng Unit := onlyIf bad (refuse r)

/-- The watchdog's window ends while nothing services it (44_watchdog.md R196), and no pause of the
script says otherwise: the controllers, which always complete eventually (20_memory.md R54, R59), have
completed by then (log 6). -/
def windowEnds (s : State) : State := deviceReset .watchdog (eeComplete (flashComplete s))

/-- A wait that nothing ends but the watchdog; with the watchdog off it never ends. -/
def expireOrBlock {α : Type} : Eng α := fun s =>
  match s.wdtCfg with
  | .on _ => .error (.ended (windowEnds s))
  | .off => .error (.fault .blocked)

/-- A `receive_byte` the host never satisfies (R196, "simple silence"): the script's pauses pass, then
the watchdog elapses. -/
def silenceFrom {α : Type} : List Pause → Eng α
  | [] => expireOrBlock
  | _ :: ps => do instant; silenceFrom ps

/-- Silence from here on. -/
def silence {α : Type} : Eng α := fun s => silenceFrom s.pauses s

/-- A service of the watchdog that follows no wait: `Respond` and the keep-alive points (R191). -/
def serviceStep : Eng Unit := do
  takePause 0 true
  wdtService

/-! ### Flash primitives -/

/-- What both page primitives refuse (R48, R50, R52, R64). -/
def checkPage (p : Nat) : Eng Unit := do
  let s ← look id
  refuseIf (decide (s.flashOp ≠ .idle)) .busy
  refuseIf (decide (p % s.cfg.pageSize ≠ 0)) .unaligned
  refuseIf (decide (s.cfg.flashSize ≤ p)) .range

/-- The engine waits until the flash controller has completed (R50, R52, R53, R54). -/
def stall : Eng Unit := do
  instant
  update flashComplete

/-- Start a page operation; on an NRWW page the engine stalls until it is complete (R50, R52). A reset
may still strike between the event of the call and the start of the operation. -/
def startPageOp (p : Nat) (op : FlashOp) : Eng Unit := do
  instant
  update (fun s => s.startOp op)
  let rww ← look (fun s => isRww s.cfg p)
  onlyIf (!rww) stall

/-- `erase_page(P)` (R50); erasing the pages of the running code is refused (R64). -/
def erasePage (p : Nat) : Eng Unit := do
  checkPage p
  let boot ← look (fun s => s.cfg.bootStart)
  refuseIf (decide (boot ≤ p)) .bootPages
  record (.erase p)
  startPageOp p (.erasing p)

/-- The cell of the write buffer for address `a` is already filled (R51). -/
def State.filledAt (s : State) (a : Nat) : Bool :=
  match s.wbuf[a % s.cfg.pageSize]? with
  | some (some _) => true
  | _ => false

/-- `fill_word(a, w)` (R51): low byte first (R46). -/
def fillWord (a : Nat) (w : Word) : Eng Unit := do
  let s ← look id
  refuseIf (decide (s.flashOp ≠ .idle)) .busy
  refuseIf (decide (a % 2 ≠ 0)) .unaligned
  refuseIf (decide (s.cfg.flashSize ≤ a)) .range
  refuseIf (s.filledAt a || s.filledAt (a + 1)) .doubleFill
  record (.fill a w)
  update (fun s => s.fillPair (a % s.cfg.pageSize) w)

/-- `commit_page(P)` (R52). -/
def commitPage (p : Nat) : Eng Unit := do
  checkPage p
  record (.commit p)
  startPageOp p (.writing p)

/-- `wait_ready()` (R53): the controller always completes eventually (R54). -/
def waitReady : Eng Unit := do
  record .waitReady
  stall

/-- `rww_enable()` (R56). -/
def rwwEnable : Eng Unit := do
  record .rwwEnable
  update State.unblock

/-- `FLASH[a]` may be read: the controller is idle and the bank is not blocked (R56). -/
def State.readable (s : State) (a : Nat) : Bool :=
  decide (s.flashOp = .idle) && !(s.rwwBlocked && isRww s.cfg a)

/-- `flash_read(a)` (R56): the stored byte, or a draw where there is none to be had (R66). -/
def flashRead (a : Nat) : Eng Byte := do
  let size ← look (fun s => s.cfg.flashSize)
  refuseIf (decide (size ≤ a)) .range
  record (.flashRead a)
  let s ← look id
  match s.readable a, flashCell s.flash a with
  | true, .byte b => pure b
  | _, _ => drawByte

/-! ### EEPROM primitives -/

/-- Wait until `EE_BUSY` is clear (R57, R58): the controller always completes (R59). -/
def eeWait : Eng Unit := do
  instant
  update eeComplete

/-- `ee_read(a)` (R57). -/
def eeRead (a : Nat) : Eng Byte := do
  let size ← look (fun s => s.cfg.eepromSize)
  refuseIf (decide (size ≤ a)) .range
  eeWait
  emit (.eeRead a)
  look (fun s => eepromByte s.eeprom a)

/-- `ee_write(a, b)` (R58): the write is latched and completes later. -/
def eeWrite (a : Nat) (b : Byte) : Eng Unit := do
  let size ← look (fun s => s.cfg.eepromSize)
  refuseIf (decide (size ≤ a)) .range
  eeWait
  emit (.eeWrite a b)
  instant
  update (fun s => s.latch a b)

/-! ### Address advance -/

/-- `if ADDR = 0xFFFF then refuse(wrap) else ADDR <- ADDR + 1` (20_memory.md R47). -/
def advanceByte : Eng Unit := do
  let a ← look (fun s => s.addr)
  refuseIf (decide (a = 0xFFFF)) .wrap
  update (fun s => s.setAddr (a + 1))

/-- `ADDR <- ADDR + n`, refused where it would pass 0xFFFF (10_state.md R12; log 22). -/
def advanceBy (n : Nat) : Eng Unit := do
  let a ← look (fun s => s.addr)
  refuseIf (decide (65536 ≤ a.toNat + n)) .wrap
  update (fun s => s.setAddr (a + BitVec.ofNat 16 n))

end Sys2Proof.Machine
end

