-- ==== Sys2Proof/Machine/Boot.lean ====
section
/-! DEFINITION. The boot sequence, the boot decision and the application handoff
(70_reset_and_hazards.md rules R241 to R246). The watchdog cannot strike inside it (R242); another reset
source can, and starts it again (60_exceptions.md rule R223). -/

namespace Sys2Proof.Machine

/-- A pause of the boot sequence: it takes no time (R243), only reset sources act. -/
def bootPause : Eng Unit := fun s =>
  let p := s.pauses.headD Pause.quiet
  if p.sources.isEmpty then .ok ((), s.popPause) else .error (.ended (resetBy p.sources s.popPause))

/-- The first step: read and clear the reset flags (R241). -/
def State.flagsTaken (s : State) : State := { s with resetCause := s.hwRstFlags, hwRstFlags := 0 }

/-- `MARKER <- clear` (R241). -/
def State.markerCleared (s : State) : State := { s with marker := false }

/-- `EnterLoop()` (R243). -/
def enterLoop : Eng Unit := do
  let d ← look (fun s => s.cfg.wdtMedium)
  wdtConfig bootPause (.on d)
  update (fun s => s.setPh .awaitCommand)

/-- HANDOFF_CAUSE is written and the application has control (R245). -/
def State.handedOver (s : State) : State :=
  { s with handoffCause := s.resetCause, ph := .handedOff }

/-- `Handoff()` with `transfer_control` (R245, R246). -/
def handoff : Eng Unit := do
  let c ← look (fun s => s.cfg)
  wdtConfig bootPause (handoffConfig c)
  bootPause
  update State.handedOver
  let cause ← look (fun s => s.resetCause)
  emit (.transfer (handoffEntry c) cause)

/-- The boot sequence (R241 to R243); with the marker feature the marker is read and cleared too. -/
def bootSequence : Eng Unit := do
  bootPause
  update State.flagsTaken
  bootPause
  let s ← look id
  onlyIf s.cfg.wdtMarkerEnabled (update State.markerCleared)
  if skipsLoop s.cfg s.resetCause s.marker then handoff else enterLoop

end Sys2Proof.Machine
end

