-- ==== Sys2Proof/Machine/Channel.lean ====
section
/-! DEFINITION. The byte channel over both media: the wired line (40_dispatcher.md rules R100 to R105)
and the radio transport (43_radio_transport.md rules R161 to R171), and the procedures every command
shares. -/

namespace Sys2Proof.Machine

/-! ### Radio, inbound -/

/-- A payload is accepted: RX_TAG and RXQ (R166). -/
def State.accepted (s : State) (tag : Byte) (payload : List Byte) : State :=
  { s with rxTag := some tag, rxq := payload }

/-- The link is associated: PEER, MAXLEN, ASSOC (R164). -/
def State.paired (s : State) (peer : Byte × Byte × Byte) (m : Byte) : State :=
  { s with peer := peer, maxlen := m, assoc := true }

/-- The first byte of RXQ is taken (R163). -/
def State.dequeued (s : State) : State := { s with rxq := s.rxq.tail }

/-- A byte is appended to TXBUF (R169). -/
def State.queued (s : State) (b : Byte) : State := { s with txbuf := s.txbuf ++ [b] }

/-- A tag and its payload bring at least one byte to the dispatcher: the tag is fresh and there is a payload
(R166, R167). -/
def State.brings (s : State) (tag : Byte) (payload : List Byte) : Bool :=
  decide (s.rxTag ≠ some tag) && !payload.isEmpty

/-- De-duplication and acceptance of a packet's body (R166, R167): the body is what follows the
handshake header in a first packet, and the whole packet otherwise. -/
def filterBody (p : List Byte) (tag : Byte) (payload : List Byte) : Eng Unit := do
  let last ← look (fun s => s.rxTag)
  if last = some tag then emit (.pktIn p .droppedDuplicate)
  else do
    update (fun s => s.accepted tag payload)
    emit (.pktIn p .accepted)

/-- An announced maximum length is illegal (10_state.md R26, R164). -/
def badMaxlen (m : Byte) : Bool := decide (m.toNat < 2 ∨ Config.pktCap < m.toNat)

/-- The association handshake (R164): record the peer and the length, then go on with the rest; a first
packet of exactly four bytes has no tag and no payload (R165). Before the rest is filtered a reset may strike,
and the tie of 60_exceptions.md R221 is open there, as at the packet's arrival, exactly where the packet
brings a byte (log 23, DESIGN CHOICE). -/
def associate (p : List Byte) : Eng Unit :=
  match p with
  | a0 :: a1 :: a2 :: m :: body => do
    refuseIf (badMaxlen m) .maxlen
    update (fun s => s.paired (a0, a1, a2) m)
    emit (.pktIn p .associated)
    match body with
    | [] => pure ()
    | tag :: payload => do
      let svc ← look (fun s => s.brings tag payload)
      takePause 0 svc
      filterBody p tag payload
  | _ => emit (.pktIn p .droppedShape)

/-- An ordinary packet (R165, R166). -/
def ordinary (p : List Byte) : Eng Unit :=
  match p with
  | [] => emit (.pktIn p .droppedEmpty)
  | tag :: payload => filterBody p tag payload

/-- `ProcessPacket(p)` (R164 to R167). -/
def processPacket (p : List Byte) : Eng Unit := do
  refuseIf (decide (Config.pktCap < p.length)) .packetLength
  let assoc ← look (fun s => s.assoc)
  if assoc then ordinary p else associate p

/-- The state with RXQ empty in an environment that does nothing: what a packet leaves in RXQ is decided by
the link alone. -/
def State.hushed (s : State) : State := { s with rxq := [], pauses := [], wdtCfg := .off }

/-- The packet brings at least one byte to the dispatcher: it is accepted and has a payload. -/
def State.delivers (s : State) (p : List Byte) : Bool :=
  match processPacket p s.hushed with
  | .ok (_, t) => !t.rxq.isEmpty
  | .error _ => false

/-- The packets still to come, as the loop of R163 takes them: until RXQ holds a byte. The arrival of a
packet that brings a byte belongs to the step that services the watchdog, so that 60_exceptions.md R221
admits either order there; the arrival of any other packet services nothing (log 23, DESIGN CHOICE). -/
def awaitPackets : List (List Byte) → Eng Unit
  | [] => do
    let q ← look (fun s => s.rxq)
    if q.isEmpty then silence else pure ()
  | p :: ps => do
    let q ← look (fun s => s.rxq)
    if q.isEmpty then do
      let svc ← look (fun s => s.delivers p)
      takePause 0 svc
      update (fun s => s.setAir ps)
      processPacket p
      awaitPackets ps
    else pure ()

/-- `RadioRecvByte()` (R163): it returns `b`, the next byte of the stream. -/
def radioRecvByte (b : Byte) : Eng Unit := do
  let air ← look (fun s => s.air)
  awaitPackets air
  takePause 0 true
  update State.dequeued
  wdtService
  record (.rx b)

/-! ### Wired, inbound -/

/-- `RecvByte()` on the wired medium (40_dispatcher.md R100): a byte received with a framing fault is
delivered and does not service the watchdog. -/
def wiredRecvByte (b : Byte) : Eng Unit := do
  let line ← look (fun s => s.line)
  match line with
  | [] => silence
  | e :: rest => do
    takePause 0 e.ok
    update (fun s => s.setLine rest)
    onlyIf e.ok wdtService
    record (.rx b)

/-- `RecvByte()` (R100, R101), for a byte of the instruction: `b` is the byte that arrives (log 17). -/
def recvByte (b : Byte) : Eng Unit := do
  let radio ← look (fun s => s.cfg.radioEnabled)
  if radio then radioRecvByte b else wiredRecvByte b

/-- `Discard(n)` (R103), for the bytes discarded. -/
def discard : List Byte → Eng Unit
  | [] => pure ()
  | b :: bs => do recvByte b; discard bs

/-! ### Radio, outbound -/

/-- `delay(d)` (43_radio_transport.md R171): at least `d` passes. A reset may strike before `d` is over: at the
instant between, whose own time the script chooses (70_reset_and_hazards.md R240; log 5). -/
def delay (d : Nat) : Eng Unit := do
  record (.delay d)
  instant
  takePause d false

/-- The next acknowledgment outcome: the environment's script, or a draw (R162). -/
def nextAck : Eng Bool := fun s =>
  match s.acks with
  | a :: rest => .ok (a, s.setAcks rest)
  | [] => .ok (Config.freeBool s.draws, s.countDraw)

/-- The driver has a packet to send to a destination (R162). -/
def State.handed (s : State) (peer : Byte × Byte × Byte) (packet : List Byte) : State :=
  { s with radioOut := s.radioOut ++ [(peer, packet)] }

/-- `radio_tx(peer, packet)` (R162): the packet goes out to `peer` once, and the engine waits for the
acknowledgment. -/
def radioTx (peer : Byte × Byte × Byte) (packet : List Byte) : Eng Bool := do
  update (fun s => s.handed peer packet)
  instant
  nextAck

/-- The attempts of a flush of `packet` to `peer`, `n` of them left, numbered from `k`, each after a guard
delay (R170). -/
def flushAttempts (guard : Nat) (peer : Byte × Byte × Byte) (packet : List Byte) : Nat → Nat → Eng Unit
  | 0, _ => pure ()
  | n + 1, k => do
    delay guard
    let acked ← radioTx peer packet
    emit (.pktOut packet k acked)
    if acked then pure () else flushAttempts guard peer packet n (k + 1)

/-- After the attempts: the tag advances and the buffer carries the new tag only (R170, R172). -/
def State.nextPacket (s : State) : State := { s with txTag := s.txTag + 1, txbuf := [s.txTag + 1] }

/-- `Flush()` (R170): TXBUF goes to PEER. -/
def flush : Eng Unit := do
  let s ← look id
  flushAttempts s.cfg.txGuard s.peer s.txbuf s.cfg.txAttempts 1
  update State.nextPacket

/-- `RadioSendByte(b)` (R169). -/
def radioSendByte (b : Byte) : Eng Unit := do
  let assoc ← look (fun s => s.assoc)
  refuseIf (!assoc) .unassociated
  update (fun s => s.queued b)
  let s ← look id
  onlyIf (decide (s.txbuf.length = s.maxlen.toNat ∨ b = s.cfg.respOk)) flush

/-! ### Wired, outbound -/

/-- `SendByte(b)` on the wired medium (40_dispatcher.md R102). -/
def wiredSendByte (b : Byte) : Eng Unit := record (.tx b)

/-- `SendByte(b)` (R101, R102). A byte passed to `send_byte` is recorded on either medium (10_state.md R31;
log 19, DEDUCED). -/
def sendByte (b : Byte) : Eng Unit := do
  let radio ← look (fun s => s.cfg.radioEnabled)
  if radio then do
    record (.tx b)
    radioSendByte b
  else wiredSendByte b

/-! ### Procedures of every command -/

/-- The command byte and its classification (R106). -/
def openRequest (b : Byte) (k : Command) : Eng Unit := do
  recvByte b
  update (fun s => s.setPh (.execute k))

/-- The terminator check without the answer: `t <- RecvByte(); if t != TERM then raise
ProtocolDesync(t)` (R104, R114). -/
def checkTerminator (t : Byte) : Eng Unit := do
  recvByte t
  let term ← look (fun s => s.cfg.term)
  if t = term then pure () else raiseDesync

/-- `VerifyTerminator()` (R104). -/
def verifyTerminator (t : Byte) : Eng Unit := do
  checkTerminator t
  let insync ← look (fun s => s.cfg.respInsync)
  sendByte insync

/-- `Respond()` (R105). -/
def respond : Eng Unit := do
  update (fun s => s.setPh .respond)
  let ok ← look (fun s => s.cfg.respOk)
  sendByte ok
  serviceStep
  update (fun s => s.setPh .awaitCommand)

end Sys2Proof.Machine
end

