-- ==== Sys2Proof/Machine/Flash.lean ====
section
/-! DEFINITION. The headers of ProgramPage and ReadPage (40_dispatcher.md rules R118, R119), the flash
programmer with bank scheduling and the VirtualBootPatch (41_flash_programmer.md), and the meanings of
their 'F' forms and of the forms with no memory type. -/

namespace Sys2Proof.Machine

/-! ### Headers -/

/-- The ProgramPage header (R118): the length is checked before the type is looked at. -/
def programHeader (lenHigh n ty : Byte) : Eng Unit := do
  let c ← look (fun s => s.cfg)
  openRequest c.cmdProgPage .programPage
  recvByte lenHigh
  recvByte n
  update (fun s => s.setLen n)
  recvByte ty
  update (fun s => s.setType ty)
  refuseIf (badProgramLength c n) .length

/-- The ReadPage header (R119): the terminator is verified before the length is checked. -/
def readHeader (lenHigh n ty t : Byte) : Eng Unit := do
  let c ← look (fun s => s.cfg)
  openRequest c.cmdReadPage .readPage
  recvByte lenHigh
  recvByte n
  update (fun s => s.setLen n)
  recvByte ty
  update (fun s => s.setType ty)
  verifyTerminator t
  refuseIf (badReadLength n) .length

/-- The payload into PAGEBUF, from index `i` on (R131 step 2, R153). -/
def receivePayload : Nat → List Byte → Eng Unit
  | _, [] => pure ()
  | i, b :: bs => do
    recvByte b
    update (fun s => s.setBuf i b)
    receivePayload (i + 1) bs

/-! ### ProgramPage 'F' -/

/-- PAGEBUF at an index; every index the rules use is below PAGE_SIZE (10_state.md R15). -/
def State.bufByte (s : State) (i : Nat) : Byte := s.pagebuf.getD i 0

/-- The host's reset-vector word in PAGEBUF (R134): low byte first. -/
def State.bufResetWord (s : State) : Word := wordOf (s.bufByte 0) (s.bufByte 1)

/-- `VbpPatch()` on the state (R134). -/
def State.patched (s : State) : State :=
  { s with
    shadowRst := (s.bufByte 0, s.bufByte 1)
    shadowWdt := (s.bufByte 8, s.bufByte 9)
    shadowSet := true
    pagebuf := (((s.pagebuf.set 8 (lo8 (relocate s.cfg s.bufResetWord))).set
                  9 (hi8 (relocate s.cfg s.bufResetWord))).set
                  0 (lo8 s.cfg.bootEntryJump)).set 1 (hi8 s.cfg.bootEntryJump) }

/-- `KeepAlive(s)` (R141). -/
def keepAlive (k : KeepPoint) : Eng Unit := do
  let points ← look (fun s => s.cfg.flashKeepalive)
  onlyIf (points.contains k) serviceStep

/-- The fill loop: `n` words from word index `k` on (R131 step 6, R135). -/
def fillLoop (a : Nat) : Nat → Nat → Eng Unit
  | 0, _ => pure ()
  | n + 1, k => do
    let w ← look (fun s => wordOf (s.bufByte (2 * k)) (s.bufByte (2 * k + 1)))
    fillWord (a + 2 * k) w
    fillLoop a n (k + 1)

/-- Steps 4 to 8 of R131, after the terminator. -/
def commitSequence (c : Config) (a : Nat) : Eng Unit := do
  keepAlive .s4
  waitReady
  onlyIf (decide (c.vbpEnabled ∧ a = 0)) (update State.patched)
  keepAlive .s6
  fillLoop a (c.pageSize / 2) 0
  commitPage a
  keepAlive .s7
  waitReady
  onlyIf c.needsRwwEnable rwwEnable

/-- `ProgramFlash()` (R131): an RWW page is erased before the payload, an NRWW page after it (R132). -/
def programFlash (c : Config) (payload : List Byte) (t : Byte) : Eng Unit := do
  let a ← look (fun s => s.flashAddress)
  refuseIf (decide (a % c.pageSize ≠ 0)) .unaligned
  refuseIf (decide (c.flashSize ≤ a)) .range
  onlyIf (isRww c a) (erasePage a)
  receivePayload 0 payload
  onlyIf (!isRww c a) (erasePage a)
  verifyTerminator t
  commitSequence c a
  advanceBy (advanceAmount c (payloadLength payload))

/-- ProgramPage 'F' (R118, R131). -/
def programPageFRule (c : Config) (lenHigh : Byte) (payload : List Byte) (t : Byte) : Eng Unit := do
  programHeader lenHigh (payloadLength payload) Config.typeFlash
  programFlash c payload t
  respond

/-! ### ReadPage 'F' -/

/-- The shadow byte behind a patched address (R137). -/
def State.shadowByte (s : State) (fa : Nat) : Byte :=
  if fa = 0 then s.shadowRst.1
  else if fa = 1 then s.shadowRst.2
  else if fa = 8 then s.shadowWdt.1
  else s.shadowWdt.2

/-- `VbpUnpatch(FA)` (R137): a draw for each byte until a ProgramPage of page 0 has run (R16; log 10). -/
def vbpUnpatch (fa : Nat) : Eng Byte := do
  let s ← look id
  if s.shadowSet then pure (s.shadowByte fa) else drawByte

/-- The byte ReadPage answers for a flash byte address (R136). -/
def hostFlashRead (fa : Nat) : Eng Byte := do
  let c ← look (fun s => s.cfg)
  if c.vbpEnabled ∧ isPatchedAddress fa then vbpUnpatch fa else flashRead fa

/-- One byte of `ReadFlash()` (R136). -/
def readFlashByte : Eng Unit := do
  let s ← look id
  refuseIf (decide (s.cfg.flashSize ≤ s.flashAddress)) .range
  let b ← hostFlashRead s.flashAddress
  sendByte b
  advanceByte

/-- `ReadFlash()`: `n` bytes (R136). -/
def readFlash : Nat → Eng Unit
  | 0 => pure ()
  | n + 1 => do readFlashByte; readFlash n

/-- ReadPage 'F' (R119, R136). -/
def readPageFRule (lenHigh n t : Byte) : Eng Unit := do
  readHeader lenHigh n Config.typeFlash t
  readFlash n.toNat
  respond

/-! ### Requests with no memory type -/

/-- ProgramPage with a type neither 'F' nor 'E' (R118, R77): refused after its header. -/
def programBadTypeRule (lenHigh n ty : Byte) : Eng Unit := do
  programHeader lenHigh n ty
  refuse .memoryType

/-- ReadPage with a type neither 'F' nor 'E' (R119, R77): refused after the terminator check. -/
def readBadTypeRule (lenHigh n ty t : Byte) : Eng Unit := do
  readHeader lenHigh n ty t
  refuse .memoryType

/-- The meaning of ProgramPage 'F' (R131). -/
def execProgramPageF (lenHigh : Byte) (payload : List Byte) (t : Byte) (s : State) :
    Host.Outcome State Fault Refusal :=
  runRule (programPageFRule s.cfg lenHigh payload t) s

/-- The meaning of ReadPage 'F' (R136). -/
def execReadPageF (lenHigh n t : Byte) (s : State) : Host.Outcome State Fault Refusal :=
  runRule (readPageFRule lenHigh n t) s

/-- The meaning of a ProgramPage without a memory type (R77, R118). -/
def execProgramPageBadType (lenHigh n ty : Byte) (s : State) : Host.Outcome State Fault Refusal :=
  runRule (programBadTypeRule lenHigh n ty) s

/-- The meaning of a ReadPage without a memory type (R77, R119). -/
def execReadPageBadType (lenHigh n ty t : Byte) (s : State) : Host.Outcome State Fault Refusal :=
  runRule (readBadTypeRule lenHigh n ty t) s

end Sys2Proof.Machine
end

