-- ==== Sys2Proof/Machine/Eeprom.lean ====
section
/-! DEFINITION. The EEPROM programmer (42_eeprom_programmer.md): the 'E' forms of ProgramPage and
ReadPage. -/

namespace Sys2Proof.Machine

/-- One byte of the EEPROM write loop (R153): the watchdog is serviced before every byte (R154). -/
def writeEepromByte (i : Nat) : Eng Unit := do
  let s ← look id
  refuseIf (decide (s.cfg.eepromSize ≤ s.addr.toNat)) .range
  serviceStep
  eeWrite s.addr.toNat (s.bufByte i)
  advanceByte

/-- The EEPROM write loop: `n` bytes of PAGEBUF from index `i` on (R153). -/
def writeEeprom : Nat → Nat → Eng Unit
  | 0, _ => pure ()
  | n + 1, i => do writeEepromByte i; writeEeprom n (i + 1)

/-- ProgramPage 'E' (R118, R153): no byte is written before the terminator is verified. -/
def programPageERule (lenHigh : Byte) (payload : List Byte) (t : Byte) : Eng Unit := do
  programHeader lenHigh (payloadLength payload) Config.typeEeprom
  receivePayload 0 payload
  verifyTerminator t
  writeEeprom payload.length 0
  respond

/-- One byte of `ReadEeprom()` (R152). -/
def readEepromByte : Eng Unit := do
  let s ← look id
  refuseIf (decide (s.cfg.eepromSize ≤ s.addr.toNat)) .range
  let b ← eeRead s.addr.toNat
  sendByte b
  advanceByte

/-- `ReadEeprom()`: `n` bytes (R152). -/
def readEeprom : Nat → Eng Unit
  | 0 => pure ()
  | n + 1 => do readEepromByte; readEeprom n

/-- ReadPage 'E' (R119, R152). -/
def readPageERule (lenHigh n t : Byte) : Eng Unit := do
  readHeader lenHigh n Config.typeEeprom t
  readEeprom n.toNat
  respond

/-- The meaning of ProgramPage 'E' (R153). -/
def execProgramPageE (lenHigh : Byte) (payload : List Byte) (t : Byte) (s : State) :
    Host.Outcome State Fault Refusal :=
  runRule (programPageERule lenHigh payload t) s

/-- The meaning of ReadPage 'E' (R152). -/
def execReadPageE (lenHigh n t : Byte) (s : State) : Host.Outcome State Fault Refusal :=
  runRule (readPageERule lenHigh n t) s

end Sys2Proof.Machine
end

