-- ==== Sys2Proof/Machine/Radio.lean ====
section
/-! DEFINITION. The inbound packets as instructions (43_radio_transport.md rules R164 to R167): one
packet handed over by `radio_rx` and processed. Which of the two layouts a packet is read in depends on
the link state alone (rule R179), and `processPacket` decides by that state. -/

namespace Sys2Proof.Machine

/-- The meaning of an ordinary packet (R166, R167). -/
def execPkt (tag : Byte) (payload : List Byte) (s : State) : Host.Outcome State Fault Refusal :=
  runRule (processPacket (tag :: payload)) s

/-- The meaning of a first packet (R164, R165). -/
def execHello (a0 a1 a2 m : Byte) (body : List Byte) (s : State) : Host.Outcome State Fault Refusal :=
  runRule (processPacket (a0 :: a1 :: a2 :: m :: body)) s

end Sys2Proof.Machine
end

