-- ==== Sys2Proof/Machine/Simple.lean ====
section
/-! DEFINITION. The commands of 40_dispatcher.md without a programmer: GetParameter, SetDevice,
SetDeviceExt, LoadAddress, Universal, ReadSignature, LeaveProgMode, Other and its pseudo-commands. -/

namespace Sys2Proof.Machine

/-- A request whose body is discarded and whose answer is the bare acknowledgment (R111, R113). -/
def skipRule (b : Byte) (k : Command) (body : List Byte) (t : Byte) : Eng Unit := do
  openRequest b k
  discard body
  verifyTerminator t
  respond

/-- The bare acknowledgment of class Other (R117, R212). -/
def ackRule (b t : Byte) : Eng Unit := do
  openRequest b .other
  verifyTerminator t
  respond

/-- GetParameter (R110). -/
def getParameterRule (c : Config) (p t : Byte) : Eng Unit := do
  openRequest c.cmdGetParameter .getParameter
  recvByte p
  verifyTerminator t
  sendByte (parameterValue c p)
  respond

/-- LoadAddress (R112): the registers are written after the terminator is verified. -/
def loadAddressRule (c : Config) (lo hi t : Byte) : Eng Unit := do
  openRequest c.cmdLoadAddress .loadAddress
  recvByte lo
  recvByte hi
  verifyTerminator t
  update (fun s =>
    s.setAddress (if c.hasExt then extBit (wordOf lo hi) else s.ext) (byteAddress (wordOf lo hi)))
  respond

/-- Universal (R114): the zero byte goes first, after the terminator check. -/
def universalRule (c : Config) (body : List Byte) (t : Byte) : Eng Unit := do
  openRequest c.cmdUniversal .universal
  discard body
  checkTerminator t
  sendByte Config.universalReply
  sendByte c.respInsync
  respond

/-- ReadSignature (R115). -/
def readSignatureRule (c : Config) (t : Byte) : Eng Unit := do
  openRequest c.cmdReadSign .readSignature
  verifyTerminator t
  sendByte c.sig0
  sendByte c.sig1
  sendByte c.sig2
  respond

/-- LeaveProgMode (R116). -/
def leaveProgModeRule (c : Config) (t : Byte) : Eng Unit := do
  openRequest c.cmdLeaveProgMode .leaveProgMode
  verifyTerminator t
  wdtConfig instant (.on c.wdtShort)
  respond

/-- The meaning of GetParameter (R110). -/
def execGetParameter (p t : Byte) (s : State) : Host.Outcome State Fault Refusal :=
  runRule (getParameterRule s.cfg p t) s

/-- The meaning of SetDevice (R111). -/
def execSetDevice (body : List Byte) (t : Byte) (s : State) : Host.Outcome State Fault Refusal :=
  runRule (skipRule s.cfg.cmdSetDevice .setDevice body t) s

/-- The meaning of SetDeviceExt (R113). -/
def execSetDeviceExt (body : List Byte) (t : Byte) (s : State) : Host.Outcome State Fault Refusal :=
  runRule (skipRule s.cfg.cmdSetDeviceExt .setDeviceExt body t) s

/-- The meaning of LoadAddress (R112). -/
def execLoadAddress (lo hi t : Byte) (s : State) : Host.Outcome State Fault Refusal :=
  runRule (loadAddressRule s.cfg lo hi t) s

/-- The meaning of Universal (R114). -/
def execUniversal (body : List Byte) (t : Byte) (s : State) : Host.Outcome State Fault Refusal :=
  runRule (universalRule s.cfg body t) s

/-- The meaning of ReadSignature (R115). -/
def execReadSignature (t : Byte) (s : State) : Host.Outcome State Fault Refusal :=
  runRule (readSignatureRule s.cfg t) s

/-- The meaning of LeaveProgMode (R116). -/
def execLeaveProgMode (t : Byte) (s : State) : Host.Outcome State Fault Refusal :=
  runRule (leaveProgModeRule s.cfg t) s

/-- The meaning of Other (R117). -/
def execOther (b t : Byte) (s : State) : Host.Outcome State Fault Refusal :=
  runRule (ackRule b t) s

/-- The meaning of the pseudo-command get-sync: Other (30_encoding.md R85). -/
def execGetSync (t : Byte) (s : State) : Host.Outcome State Fault Refusal :=
  runRule (ackRule Config.getSyncByte t) s

/-- The meaning of the pseudo-command enter-programming-mode: Other (R85). -/
def execEnterProgMode (t : Byte) (s : State) : Host.Outcome State Fault Refusal :=
  runRule (ackRule Config.enterProgModeByte t) s

end Sys2Proof.Machine
end

