-- ==== Sys2Proof/Machine/Dispatch.lean ====
section
/-! DEFINITION. The dispatch of an instruction to its meaning: one arm per row of spec/opcode_table.json. -/

namespace Sys2Proof.Machine

def exec (i : Instr) (s : State) : Host.Outcome State Fault Refusal :=
  match i with
  | .getParameter p t => Sys2Proof.Machine.execGetParameter p t s
  | .setDevice body t => Sys2Proof.Machine.execSetDevice body t s
  | .setDeviceExt body t => Sys2Proof.Machine.execSetDeviceExt body t s
  | .loadAddress lo hi t => Sys2Proof.Machine.execLoadAddress lo hi t s
  | .universal body t => Sys2Proof.Machine.execUniversal body t s
  | .programPageF lenHigh payload t => Sys2Proof.Machine.execProgramPageF lenHigh payload t s
  | .programPageE lenHigh payload t => Sys2Proof.Machine.execProgramPageE lenHigh payload t s
  | .readPageF lenHigh n t => Sys2Proof.Machine.execReadPageF lenHigh n t s
  | .readPageE lenHigh n t => Sys2Proof.Machine.execReadPageE lenHigh n t s
  | .readSignature t => Sys2Proof.Machine.execReadSignature t s
  | .leaveProgMode t => Sys2Proof.Machine.execLeaveProgMode t s
  | .other b t => Sys2Proof.Machine.execOther b t s
  | .programPageBadType lenHigh n ty => Sys2Proof.Machine.execProgramPageBadType lenHigh n ty s
  | .readPageBadType lenHigh n ty t => Sys2Proof.Machine.execReadPageBadType lenHigh n ty t s
  | .pkt tag payload => Sys2Proof.Machine.execPkt tag payload s
  | .hello a0 a1 a2 m body => Sys2Proof.Machine.execHello a0 a1 a2 m body s
  | .getSync t => Sys2Proof.Machine.execGetSync t s
  | .enterProgMode t => Sys2Proof.Machine.execEnterProgMode t s

end Sys2Proof.Machine
end

