-- ==== Sys2Proof/Machine/Loop.lean ====
section
/-! DEFINITION. The dispatcher loop around the instructions (40_dispatcher.md rules R106, R107): the
stream of bytes still to come, the request at its head, the packet the link hands over next, and the
phases in which only a device reset can change the state. -/

namespace Sys2Proof.Machine

/-- The bytes the radio link will deliver: RXQ, then what the packets still to come leave in it after
the transport's own processing (43_radio_transport.md R163), if no reset comes in between. -/
def streamFrom : List (List Byte) → State → List Byte
  | [], s => s.rxq
  | p :: ps, s =>
    s.rxq ++
      match processPacket p s.hushed with
      | .ok (_, t) => streamFrom ps t
      | .error _ => []

/-- The inbound byte stream as the dispatcher will read it, medium apart (10_state.md R36, R163). -/
def State.incoming (s : State) : List Byte :=
  if s.cfg.radioEnabled then streamFrom s.air s else s.line.map LineByte.byte

/-- The request at the head of the stream. Where the stream ends inside a request, the bytes that never
arrive are read as 0 here; `recvByte` never gets to them (30_encoding.md R87; log 6). -/
def fetch (s : State) : Option Instr :=
  match decodeRequest s.cfg s.incoming with
  | .ok (i, _) => some i
  | .error .empty => none
  | .error _ =>
    match decodeRequest s.cfg (s.incoming ++ List.replicate longestRequest 0) with
    | .ok (i, _) => some i
    | .error _ => none

/-- A phase that only a device reset leaves (R107), or a host that says nothing: one pause of the
script, and with no script left the watchdog's window ends (44_watchdog.md R196), after a handoff under
On(WDT_LONG) too (log 25). With the watchdog off the block has no step. -/
def idle (s : State) : Host.Outcome State Fault Refusal :=
  match s.pauses with
  | _ :: _ => runRule instant s
  | [] =>
    match s.wdtCfg with
    | .on _ => .next (windowEnds s)
    | .off => .fault (if s.ph = .handedOff then .handedOff else .stuck)

/-- `radio_rx` has a packet (43_radio_transport.md R161, R163): it is the next instruction, read by the
link state; a packet no layout describes is dropped by the transport. The tie of 60_exceptions.md R221 is
open only where the packet brings a byte (log 23, DESIGN CHOICE). -/
def receivePacket (p : List Byte) (ps : List (List Byte)) (s : State) :
    Host.Outcome State Fault Refusal :=
  match takePause 0 (s.delivers p) s with
  | .error stop => runRule (fun _ => .error stop) s
  | .ok (_, t) =>
    match decodePacket t.assoc p with
    | .ok i => exec i (t.setAir ps)
    | .error _ => runRule (processPacket p) (t.setAir ps)

/-- One step of the loop in phase AwaitCommand (R106): over the radio with RXQ empty the next packet,
else the next request. -/
def loopStep (s : State) : Host.Outcome State Fault Refusal :=
  if s.cfg.radioEnabled ∧ s.rxq = [] then
    match s.air with
    | [] => idle s
    | p :: ps => receivePacket p ps s
  else
    match fetch s with
    | some i => exec i s
    | none => idle s

/-- One step of the machine, by phase (10_state.md R11). -/
def phaseStep (s : State) : Host.Outcome State Fault Refusal :=
  match s.ph with
  | .boot => runRule bootSequence s
  | .awaitCommand => loopStep s
  | .abandoned => idle s
  | .handedOff => idle s
  | .execute _ => .fault .insideCommand
  | .respond => .fault .insideCommand

/-- A table word's bytes where the loop reads its next request: on the wired line, or over the radio in
RXQ of an associated link; phase AwaitCommand (log 4). -/
def loadWord (s : State) (nbits w : Nat) : State :=
  if s.cfg.radioEnabled then
    { s with ph := .awaitCommand, assoc := true, rxq := tableBytes nbits w }
  else
    { s with ph := .awaitCommand, line := (tableBytes nbits w).map (fun b => ⟨b, true⟩) }

end Sys2Proof.Machine
end

