-- ==== Sys2Proof/Machine/Step.lean ====
section
/-! DEFINITION. One step of the machine, and the state in which the next step runs a given word of the
opcode table. -/

namespace Sys2Proof.Machine

/-- One step: the boot sequence, one whole request, one inbound packet, or one pause of a phase without
steps (log 3). A configuration that breaks 00_scope.md R5 or R6 is refused. -/
def step (s : State) : Host.Outcome State Fault Refusal :=
  if s.cfg.wf then phaseStep s else .refused .configuration

/-- `s` with the table word's instruction where `step` fetches its next one (log 4, 16). -/
def State.withFetchWord (s : State) (nbits w : Nat) : State := loadWord s nbits w

end Sys2Proof.Machine
end

