-- ==== Sys2Proof/Safety.lean ====
section
/-! DEFINITION. The terms in which statements about the machine are made: when the environment lets a
command run to its end, what a command leaves alone, what an answer is, and the invariants of a run
(10_state.md rule R37). -/

namespace Sys2Proof.Machine

/-! ### A quiet environment -/

/-- How many attempts the next packet takes: up to the first one that the script acknowledges, and all of
them where it does not say (43_radio_transport.md R170). -/
def attemptsFor : Nat → List Bool → Nat
  | 0, _ => 0
  | n + 1, [] => n + 1
  | _ + 1, true :: _ => 1
  | n + 1, false :: rest => 1 + attemptsFor n rest

/-- The outbound side of the radio as sending moves it: the length of TXBUF, the acknowledgments still to
come, and WDT_CNT. -/
structure Outbound where
  queued : Nat
  acks : List Bool
  time : Nat

/-- One byte sent: where it ends a packet (R169), the attempts take their guard delays (R170). -/
def Outbound.send (c : Config) (maxlen : Nat) (o : Outbound) (b : Byte) : Outbound :=
  if o.queued + 1 = maxlen ∨ b = c.respOk then
    { queued := 1
      acks := o.acks.drop (attemptsFor c.txAttempts o.acks)
      time := o.time + attemptsFor c.txAttempts o.acks * c.txGuard }
  else { o with queued := o.queued + 1 }

/-- The outbound side of a state. -/
def State.outbound (s : State) : Outbound :=
  { queued := s.txbuf.length, acks := s.acks, time := s.wdtCnt }

/-- The outbound side after a reply, when nothing services the watchdog in between; the wired line is
immediate when the environment lets no time pass. -/
def State.afterSending (s : State) (reply : List Byte) : Outbound :=
  if s.cfg.radioEnabled then reply.foldl (Outbound.send s.cfg s.maxlen.toNat) s.outbound else s.outbound

/-- The watchdog does not expire within `slack` from now. -/
def State.Awake (s : State) (slack : Nat) : Prop :=
  ∀ d, s.wdtCfg = .on d → s.wdtCnt + slack < d

/-- The environment brings no reset, no controller completion and no time beyond the guard delays while
the command runs, and the watchdog window holds the reply (WDT_ADEQUATE of 44_watchdog.md R200, log 30). -/
def State.Calm (s : State) (reply : List Byte) : Prop :=
  s.pauses = [] ∧ ∀ d, s.wdtCfg = .on d → (s.afterSending reply).time < d

/-- Replies can leave: over the radio the link is associated, TXBUF holds its tag, and a packet is sent
at least once. -/
def State.LinkUp (s : State) : Prop :=
  s.cfg.radioEnabled = true → s.assoc = true ∧ s.txbuf ≠ [] ∧ 1 ≤ s.cfg.txAttempts

/-- The request's bytes are the next ones the channel delivers. -/
def State.Presents (s : State) (i : Instr) : Prop := encode s.cfg i <+: s.incoming

/-- The request `i` can run to its end and answer `reply`. -/
structure Ready (s : State) (i : Instr) (reply : List Byte) : Prop where
  calm : s.Calm reply
  link : s.LinkUp
  bytes : s.Presents i

/-! ### Frames -/

/-- The address and buffer registers are the same. -/
structure SameRegisters (s t : State) : Prop where
  addr : t.addr = s.addr
  ext : t.ext = s.ext
  len : t.len = s.len
  memType : t.memType = s.memType
  pagebuf : t.pagebuf = s.pagebuf
  shadowRst : t.shadowRst = s.shadowRst
  shadowWdt : t.shadowWdt = s.shadowWdt
  shadowSet : t.shadowSet = s.shadowSet

/-- The configuration and the registers of the boot decision are the same. -/
structure SameBoot (s t : State) : Prop where
  cfg : t.cfg = s.cfg
  hwRstFlags : t.hwRstFlags = s.hwRstFlags
  resetCause : t.resetCause = s.resetCause
  handoffCause : t.handoffCause = s.handoffCause
  marker : t.marker = s.marker

/-- Every byte of both memories and the state of both controllers are the same. -/
structure SameMemory (s t : State) : Prop where
  flash : ∀ a, flashCell t.flash a = flashCell s.flash a
  eeprom : ∀ a, eepromByte t.eeprom a = eepromByte s.eeprom a
  wbuf : t.wbuf = s.wbuf
  flashOp : t.flashOp = s.flashOp
  rwwBlocked : t.rwwBlocked = s.rwwBlocked
  eeBusy : t.eeBusy = s.eeBusy

/-- The link keeps its association, and on the wired medium all its registers. -/
structure SameLink (s t : State) : Prop where
  assoc : t.assoc = s.assoc
  peer : t.peer = s.peer
  maxlen : t.maxlen = s.maxlen
  wired : s.cfg.radioEnabled = false →
    t.rxTag = s.rxTag ∧ t.rxq = s.rxq ∧ t.txbuf = s.txbuf ∧ t.txTag = s.txTag

/-- The byte an event says was passed to `send_byte` (10_state.md R31). -/
def passedBy : Event → List Byte
  | .tx b => [b]
  | _ => []

/-- The bytes passed to `send_byte` so far. -/
def State.passed (s : State) : List Byte := s.ev.flatMap passedBy

/-- What an event puts on the radio: the payload of a packet's first attempt; the later attempts carry the
same bytes (43_radio_transport.md R170). -/
def packedBy : Event → List Byte
  | .pktOut p k _ => if k = 1 then p.tail else []
  | _ => []

/-- The bytes sent so far, medium apart: on the wired line those passed to `send_byte`, over the radio those
that packets have carried and those waiting in TXBUF. -/
def State.sent (s : State) : List Byte :=
  if s.cfg.radioEnabled then s.ev.flatMap packedBy ++ s.txbuf.tail else s.passed

/-- From `s` to `t` the engine has only talked: `heard` bytes have been received, `said` has been passed to
`send_byte` and sent, over the radio to PEER, and nothing else has changed but PH and WDT_CNT. -/
structure Talked (s t : State) (heard : Nat) (said : List Byte) : Prop where
  registers : SameRegisters s t
  boot : SameBoot s t
  watchdog : t.wdtCfg = s.wdtCfg
  memory : SameMemory s t
  link : SameLink s t
  received : t.incoming = s.incoming.drop heard
  passed : t.passed = s.passed ++ said
  sent : t.sent = s.sent ++ said
  destination : ∃ new, t.radioOut = s.radioOut ++ new ∧ ∀ x ∈ new, x.1 = s.peer
  trace : s.ev <+: t.ev
  quiet : t.pauses = s.pauses

/-- A command has run to its end (40_dispatcher.md R105): the engine awaits the next one, the watchdog
has just been serviced, and over the radio the reply has left (43_radio_transport.md R169). -/
structure Completed (t : State) : Prop where
  ph : t.ph = .awaitCommand
  serviced : t.wdtCnt = 0
  flushed : t.cfg.radioEnabled = true → t.txbuf = [t.txTag]

/-- The command `i`, run at `s`, answers `reply` and otherwise turns `s` into `u`. -/
def Answers (i : Instr) (s u : State) (reply : List Byte) : Prop :=
  ∃ t, exec i s = .next t ∧ Completed t ∧ Talked u t (encode s.cfg i).length reply

/-- The request `i` carries a wrong terminator (60_exceptions.md R211): run at `s` it abandons the session,
sends nothing, and otherwise turns `s` into `u`. -/
def Deserts (i : Instr) (s u : State) : Prop :=
  ∃ t, exec i s = .next t ∧ t.ph = .abandoned ∧ Talked u t (encode s.cfg i).length []

/-- A request whose terminator may be either: with TERM it answers and makes `u` of `s`; with any other
byte it abandons the session and makes `v` of `s`. -/
def RunsAs (i : Instr) (term : Byte) (s u v : State) (reply : List Byte) : Prop :=
  (term = s.cfg.term → Ready s i reply → Answers i s u reply) ∧
    (term ≠ s.cfg.term → Ready s i [] → Deserts i s v)

/-! ### What the commands make of a state -/

/-- LeaveProgMode: the short watchdog is armed, and with the marker feature the marker set
(40_dispatcher.md R116, 44_watchdog.md R193). -/
def State.armedShort (s : State) : State :=
  { s with wdtCfg := .on s.cfg.wdtShort, marker := s.marker || s.cfg.wdtMarkerEnabled }

/-- The header of a ReadPage request is in LEN and TYPE (40_dispatcher.md R119). -/
def State.headed (s : State) (n ty : Byte) : State := { s with len := n, memType := ty }

/-- ADDR moved on by `n`, inside its 16 bits. -/
def State.advanced (s : State) (n : Nat) : State := s.setAddr (s.addr + BitVec.ofNat 16 n)

/-- One byte of the EEPROM write loop: the write before it is complete, this one is latched
(42_eeprom_programmer.md R153, 20_memory.md R58). -/
def State.eepromStep (s : State) (b : Byte) : State :=
  ((eeComplete s).latch s.addr.toNat b).advanced 1

/-- The byte a ReadPage 'F' answers for a flash byte address, where the rules fix it: the shadow behind
a patched slot (41_flash_programmer.md R137), elsewhere the stored byte (20_memory.md R56, R66). Where it
is `none` the environment chooses. -/
def State.hostByte (s : State) (fa : Nat) : Option Byte :=
  if s.cfg.vbpEnabled = true ∧ isPatchedAddress fa = true then
    if s.shadowSet then some (s.shadowByte fa) else none
  else if s.readable fa then
    match flashCell s.flash fa with
    | .byte b => some b
    | .erased => none
    | .undef => none
  else none

/-- `data` is what a ReadPage 'F' of `n` bytes may answer, as far as the rules fix it. -/
def State.MayRead (s : State) (n : Nat) (data : List Byte) : Prop :=
  data.length = n ∧ ∀ k b, k < n → s.hostByte (s.flashAddress + k) = some b → data[k]? = some b

/-- What a ReadPage 'E' of `n` bytes answers: a write still in progress is complete by then
(42_eeprom_programmer.md R152, 20_memory.md R57). -/
def State.eepromData (s : State) (n : Nat) : List Byte :=
  (List.range n).map (fun k => eepromByte (eeComplete s).eeprom (s.addr.toNat + k))

/-- Where an access of `n` bytes from address `a` of a memory of `size` bytes, with ADDR moving on beside it,
ends early: after how many bytes, and why. The first byte outside the memory is refused before it is
accessed (20_memory.md R64), the advance of ADDR past 0xFFFF after the byte there has been (R47). -/
def State.cutShort (s : State) (size a n : Nat) : Option (Nat × Refusal) :=
  let inside := size - a
  let toTop := 65536 - s.addr.toNat
  if inside < n ∧ inside < toTop then some (inside, .range)
  else if toTop ≤ n then some (toTop, .wrap)
  else none

/-- LEN, TYPE and PAGEBUF after the header and the payload of a ProgramPage request: the payload from
index 0 on, the rest of PAGEBUF as it was (10_state.md R15, 41_flash_programmer.md R138). -/
def State.loaded (s : State) (ty : Byte) (payload : List Byte) : State :=
  { s with
    len := payloadLength payload
    memType := ty
    pagebuf := payload ++ s.pagebuf.drop payload.length }

/-- The VirtualBootPatch, where it applies (41_flash_programmer.md R134): at flash address 0. -/
def State.vbpPatched (s : State) : State :=
  if s.cfg.vbpEnabled = true ∧ s.flashAddress = 0 then s.patched else s

/-- The page at the flash address holds PAGEBUF, the write buffer is unfilled, the controller idle and
the RWW bank readable (41_flash_programmer.md R135, 20_memory.md R54, R56). -/
def State.pageStored (s : State) : State :=
  { s with
    flash := setFlashCells s.flash s.flashAddress (s.pagebuf.map FlashCell.byte)
    wbuf := List.replicate s.cfg.pageSize none
    flashOp := .idle
    rwwBlocked := s.rwwBlocked && !s.cfg.needsRwwEnable }

/-- What a completed ProgramPage 'F' makes of `s`. -/
def State.pageProgrammed (s : State) (payload : List Byte) : State :=
  (s.loaded Config.typeFlash payload).vbpPatched.pageStored.advanced
    (advanceAmount s.cfg (payloadLength payload))

/-- What a completed ProgramPage 'E' makes of `s` (42_eeprom_programmer.md R153): the last byte's write may
still be in progress. -/
def State.eepromProgrammed (s : State) (payload : List Byte) : State :=
  payload.foldl State.eepromStep (s.loaded Config.typeEeprom payload)

/-- The state after `erase_page` or `commit_page` on page `p` (20_memory.md R50, R52): an NRWW page is
complete when the call returns. -/
def State.begun (s : State) (p : Nat) (op : FlashOp) : State :=
  if isRww s.cfg p then s.startOp op else flashComplete (s.startOp op)

/-- The words of a page into the write buffer, from address `a` on (20_memory.md R51). -/
def fillWords : Nat → List Word → Eng Unit
  | _, [] => pure ()
  | a, w :: ws => do fillWord a w; fillWords (a + 2) ws

/-- The sequence of primitives of the page postcondition (20_memory.md R65). -/
def pageSequence (c : Config) (p : Nat) (ws : List Word) : Eng Unit := do
  erasePage p
  waitReady
  fillWords p ws
  commitPage p
  waitReady
  onlyIf c.needsRwwEnable rwwEnable

/-- ProgramPage 'E' may write its payload from ADDR on. -/
structure EepromWritable (s : State) (payload : List Byte) : Prop where
  length : 1 ≤ payload.length ∧ payload.length ≤ s.cfg.pageSize
  page : s.cfg.pageSize ≤ 255
  buffer : s.pagebuf.length = s.cfg.pageSize
  range : s.addr.toNat + payload.length ≤ s.cfg.eepromSize
  room : s.addr.toNat + payload.length < 65536

/-- ProgramPage 'F' may program the page at the flash address: a page base below the bootloader's own
pages, a legal length, the controller and its buffers at rest, and room in ADDR for the advance. -/
structure Programmable (s : State) (payload : List Byte) : Prop where
  config : s.cfg.wf = true
  length : 1 ≤ payload.length ∧ payload.length ≤ s.cfg.pageSize
  aligned : s.flashAddress % s.cfg.pageSize = 0
  range : s.flashAddress < s.cfg.bootStart
  idle : s.flashOp = .idle
  buffer : s.pagebuf.length = s.cfg.pageSize
  unfilled : s.wbuf = List.replicate s.cfg.pageSize none
  cells : FlashWf s.flash
  room : s.addr.toNat + advanceAmount s.cfg (payloadLength payload) < 65536

/-! ### Silence -/

/-- The host stays silent: nothing more comes on the wired line, or over the radio. -/
def State.HostSilent (s : State) : Prop :=
  if s.cfg.radioEnabled then s.rxq = [] ∧ s.air = [] else s.line = []

/-- `t` is `s` after a device reset by the watchdog alone. -/
structure WatchdogReset (s t : State) : Prop where
  ph : t.ph = .boot
  count : t.wdtCnt = 0
  flags : t.hwRstFlags = s.hwRstFlags ||| s.cfg.flagWatchdog
  trace : t.ev = s.ev ++ [.reset .watchdog]

/-! ### The boot decision -/

/-- The boot decision's condition on the reset cause and the marker (70_reset_and_hazards.md R242). -/
def SkipsLoop (s : State) : Prop :=
  (s.hwRstFlags ∈ s.cfg.wdtCauses ∧ (s.cfg.wdtMarkerEnabled = true → s.marker = true)) ∨
    s.hwRstFlags ∈ s.cfg.porCauses ∨ s.hwRstFlags ∈ s.cfg.borCauses

/-! ### Invariants -/

/-- The memories are in canonical form and inside their ranges. -/
structure MemoryInv (s : State) : Prop where
  flashWf : FlashWf s.flash
  flashRange : ∀ e ∈ s.flash, e.1 < s.cfg.flashSize
  eepromWf : Rising s.eeprom
  eepromRange : ∀ e ∈ s.eeprom, e.1 < s.cfg.eepromSize
  latch : ∀ p ∈ s.eeBusy, p.1 < s.cfg.eepromSize

/-- The base of the page the flash controller works on. -/
def FlashOp.page : FlashOp → Option Nat
  | .idle => none
  | .erasing p => some p
  | .writing p => some p

/-- The flash controller works on whole pages below the bootloader's own (20_memory.md R48, R64). -/
structure ControllerInv (s : State) : Prop where
  page : ∀ p ∈ s.flashOp.page, p % s.cfg.pageSize = 0 ∧ p < s.cfg.bootStart
  wbufSize : s.wbuf.length = s.cfg.pageSize
  bufSize : s.pagebuf.length = s.cfg.pageSize
  blocked : s.rwwBlocked = true → s.cfg.needsRwwEnable = true
  noExt : s.cfg.hasExt = false → s.ext = 0

/-- The registers of the radio link (10_state.md R24 to R29, R37). -/
structure LinkInv (s : State) : Prop where
  maxlen : badMaxlen s.maxlen = false
  tag : s.txbuf.head? = some s.txTag
  room : s.txbuf.length < s.maxlen.toNat
  queue : s.rxq.length + 1 ≤ Config.pktCap
  silent : s.assoc = false → s.rxq = [] ∧ s.txbuf = [s.txTag]

/-- In every phase of the command loop and in Abandoned the watchdog runs, on WDT_MEDIUM or WDT_SHORT
(10_state.md R37 (a)). -/
def WatchdogInv (s : State) : Prop :=
  s.ph ≠ .boot → s.ph ≠ .handedOff →
    s.wdtCfg = .on s.cfg.wdtMedium ∨ s.wdtCfg = .on s.cfg.wdtShort

/-- The invariant of a run. -/
structure Inv (s : State) : Prop where
  memory : MemoryInv s
  controller : ControllerInv s
  link : LinkInv s
  watchdog : WatchdogInv s

/-- Between commands, and from a reset on, the flash controller is at rest (10_state.md R37 (d)): idle,
its write buffer unfilled, and the RWW bank readable. -/
def AtRest (s : State) : Prop :=
  s.ph = .awaitCommand ∨ s.ph = .boot ∨ s.ph = .handedOff →
    s.flashOp = .idle ∧ s.wbuf = List.replicate s.cfg.pageSize none ∧ s.rwwBlocked = false

end Sys2Proof.Machine
end

