-- ==== Sys2Proof/Certificates/Slice0/Obligations.lean ====
section
/-! DEFINITION. The statements about the model, for the provers. `Ready`, `Answers`, `Deserts` and the
frames are in Sys2Proof/Safety.lean. A statement that rests on a choice of the model names its log entry. -/

section

open Sys2Proof Sys2Proof.Machine

/-! ### Encodings -/

/-- Decoding an encoded well-formed request gives it back, with every operand at every value, and leaves
the bytes after it (30_encoding.md R70, R71, R72, R84). That an operand byte stands where the terminator
is due is the model's reading (log 15). -/
def Obligations.DecodeEncodeAgree : Prop :=
  ∀ (c : Config) (i : Instr) (rest : List Byte),
    c.commandsDistinct = true → i.wf c = true → i.isPacket = false →
    decodeRequest c (encode c i ++ rest) = .ok (i, rest)

/-- Decoding an encoded well-formed packet, in the link state it belongs to, gives it back (30_encoding.md
R81, R82). -/
def Obligations.PacketDecodeEncodeAgree : Prop :=
  ∀ (c : Config) (i : Instr), i.wf c = true → i.isPacket = true →
    decodePacket i.needsAssoc (encode c i) = .ok i

/-- Whatever the request decoder reads is well-formed, is no packet, and is written back as the very bytes
it was read from: no bit of a request is dropped (30_encoding.md R72, R87). -/
def Obligations.EncodeDecodeAgree : Prop :=
  ∀ (c : Config) (i : Instr) (bs rest : List Byte), decodeRequest c bs = .ok (i, rest) →
    i.wf c = true ∧ i.isPacket = false ∧ encode c i ++ rest = bs

/-- Every packet of a length the medium carries is read in the layout of the link state, or is one the
layout excludes: empty, or shorter than 4 before association (30_encoding.md R81, R82). -/
def Obligations.PacketEncodeDecodeAgree : Prop :=
  ∀ (c : Config) (assoc : Bool) (p : List Byte), p.length ≤ Config.pktCap →
    (∃ i, decodePacket assoc p = .ok i ∧ i.wf c = true ∧ i.needsAssoc = assoc ∧ encode c i = p) ∨
    (assoc = true ∧ p = []) ∨ (assoc = false ∧ p.length < 4)

/-- A few words written out from the spec's encodings, under CFG_REF (40_dispatcher.md R110, R112, R115,
41_flash_programmer.md R136; the command bytes are CFG_REF's, log 1). -/
def Obligations.DecodedWords : Prop :=
  decodeRequest Config.ref [0x41, 0x81, 0x20] = .ok (.getParameter 0x81 0x20, []) ∧
  decodeRequest Config.ref [0x55, 0x40, 0x00, 0x20] = .ok (.loadAddress 0x40 0x00 0x20, []) ∧
  decodeRequest Config.ref [0x75, 0x20] = .ok (.readSignature 0x20, []) ∧
  decodeRequest Config.ref [0x74, 0x00, 0x04, 0x46, 0x20] = .ok (.readPageF 0x00 0x04 0x20, []) ∧
  decodePacket false [0x30, 0x30, 0x31, 0x20, 0x01, 0x75, 0x20] =
    .ok (.hello 0x30 0x30 0x31 0x20 [0x01, 0x75, 0x20])

/-- The command byte selects the class by equality with the nine CMD_* bytes, and any other byte selects
Other (30_encoding.md R71). -/
def Obligations.Classification : Prop :=
  ∀ c : Config, c.commandsDistinct = true →
    classify c c.cmdGetParameter = .getParameter ∧ classify c c.cmdSetDevice = .setDevice ∧
    classify c c.cmdSetDeviceExt = .setDeviceExt ∧ classify c c.cmdLoadAddress = .loadAddress ∧
    classify c c.cmdUniversal = .universal ∧ classify c c.cmdProgPage = .programPage ∧
    classify c c.cmdReadPage = .readPage ∧ classify c c.cmdReadSign = .readSignature ∧
    classify c c.cmdLeaveProgMode = .leaveProgMode ∧
    ∀ b, classify c b = .other ↔ b ∉ c.commandBytes

/-! ### Steps -/

/-- In AwaitCommand, with a well-formed request at the head of the channel, a step is that request's
meaning (40_dispatcher.md R106). Over the radio a step first takes packets until RXQ holds a byte (log 3). -/
def Obligations.StepRunsDecodedRequest : Prop :=
  ∀ (s : State) (i : Instr), s.cfg.wf = true → s.ph = .awaitCommand →
    (s.cfg.radioEnabled = true → s.rxq ≠ []) → i.wf s.cfg = true → i.isPacket = false →
    s.Presents i → step s = exec i s

/-- Over the radio, in AwaitCommand with RXQ empty, a step takes the next packet off the medium and is the
meaning of that packet, read by the link state (43_radio_transport.md R164). That a packet between requests
is a step of its own is the model's choice (log 3); R163 takes packets inside RecvByte. -/
def Obligations.StepRunsReceivedPacket : Prop :=
  ∀ (s : State) (i : Instr) (p : List Byte) (ps : List (List Byte)), s.cfg.wf = true →
    s.ph = .awaitCommand → s.cfg.radioEnabled = true → s.rxq = [] → s.air = p :: ps →
    s.pauses = [] → s.Awake 0 → decodePacket s.assoc p = .ok i →
    step s = exec i (s.setAir ps)

/-- A configuration whose command bytes are not distinct is refused (00_scope.md R6). -/
def Obligations.AmbiguousCommandsRefused : Prop :=
  ∀ s : State, ¬ s.cfg.commandBytes.Nodup → step s = .refused .configuration

/-! ### Commands without a programmer -/

/-- GetParameter (40_dispatcher.md R110): for every parameter id the reply is Insync, the value, Ok, and
nothing else changes; a wrong terminator abandons the session. -/
def Obligations.GetParameterReplies : Prop :=
  ∀ (s : State) (p t : Byte),
    RunsAs (.getParameter p t) t s s s
      [s.cfg.respInsync,
        if p = 0x81 then s.cfg.verMajor else if p = 0x82 then s.cfg.verMinor else 0x03,
        s.cfg.respOk]

/-- SetDevice (R111): any 20 bytes are ignored, the reply is Insync, Ok. -/
def Obligations.SetDeviceReplies : Prop :=
  ∀ (s : State) (body : List Byte) (t : Byte), body.length = 20 →
    RunsAs (.setDevice body t) t s s s [s.cfg.respInsync, s.cfg.respOk]

/-- SetDeviceExt (R113): any 5 bytes are ignored, the reply is Insync, Ok. -/
def Obligations.SetDeviceExtReplies : Prop :=
  ∀ (s : State) (body : List Byte) (t : Byte), body.length = 5 →
    RunsAs (.setDeviceExt body t) t s s s [s.cfg.respInsync, s.cfg.respOk]

/-- Universal (R114): any 4 bytes are ignored, the reply is 0x00, Insync, Ok. -/
def Obligations.UniversalReplies : Prop :=
  ∀ (s : State) (body : List Byte) (t : Byte), body.length = 4 →
    RunsAs (.universal body t) t s s s [0x00, s.cfg.respInsync, s.cfg.respOk]

/-- ReadSignature (R115): the reply is Insync, the three signature bytes, Ok. -/
def Obligations.ReadSignatureReplies : Prop :=
  ∀ (s : State) (t : Byte),
    RunsAs (.readSignature t) t s s s
      [s.cfg.respInsync, s.cfg.sig0, s.cfg.sig1, s.cfg.sig2, s.cfg.respOk]

/-- Other (R117): a byte that is no command byte is acknowledged with Insync, Ok, and no side effect. With
it the two pseudo-commands (30_encoding.md R85), where their bytes are no command bytes; that these are 0x30
and 0x50 is general knowledge (log 20, PRESUMED). -/
def Obligations.OtherAcknowledged : Prop :=
  ∀ (s : State) (t : Byte),
    (∀ b, b ∉ s.cfg.commandBytes →
      RunsAs (.other b t) t s s s [s.cfg.respInsync, s.cfg.respOk]) ∧
    (Config.getSyncByte ∉ s.cfg.commandBytes →
      RunsAs (.getSync t) t s s s [s.cfg.respInsync, s.cfg.respOk]) ∧
    (Config.enterProgModeByte ∉ s.cfg.commandBytes →
      RunsAs (.enterProgMode t) t s s s [s.cfg.respInsync, s.cfg.respOk])

/-- LoadAddress (R112, R120, 30_encoding.md R75): with W = 256 * hi + lo, ADDR becomes 2 * W modulo 65536
and EXT, where it exists, bit 15 of W; nothing else changes, and nothing at all on a wrong terminator. -/
def Obligations.LoadAddressSetsAddress : Prop :=
  ∀ (s : State) (lo hi t : Byte),
    RunsAs (.loadAddress lo hi t) t s
      (s.setAddress
        (if s.cfg.hasExt then BitVec.ofNat 1 ((256 * hi.toNat + lo.toNat) / 32768) else s.ext)
        (BitVec.ofNat 16 (2 * (256 * hi.toNat + lo.toNat))))
      s [s.cfg.respInsync, s.cfg.respOk]

/-- LeaveProgMode (R116): the watchdog is configured to WDT_SHORT, with the marker feature MARKER is set,
and the engine goes on in AwaitCommand. -/
def Obligations.LeaveProgModeArmsShort : Prop :=
  ∀ (s : State) (t : Byte),
    (s.afterSending [s.cfg.respInsync, s.cfg.respOk]).time < s.cfg.wdtShort →
    RunsAs (.leaveProgMode t) t s s.armedShort s [s.cfg.respInsync, s.cfg.respOk]

/-! ### Flash -/

/-- ProgramPage 'F' (41_flash_programmer.md R131): it answers Insync, Ok; LEN, TYPE, PAGEBUF, the shadows,
the page, the write buffer, RWW_BLOCKED and ADDR become what `pageProgrammed` says, and nothing else
changes. -/
def Obligations.ProgramPageFCompletes : Prop :=
  ∀ (s : State) (lenHigh : Byte) (payload : List Byte),
    Ready s (.programPageF lenHigh payload s.cfg.term) [s.cfg.respInsync, s.cfg.respOk] →
    Programmable s payload →
    Answers (.programPageF lenHigh payload s.cfg.term) s (s.pageProgrammed payload)
      [s.cfg.respInsync, s.cfg.respOk]

/-- What a ProgramPage 'F' leaves in FLASH, read byte by byte (R135, R138): the page at the flash address
holds the payload and, behind it, the old tail of PAGEBUF; where the VirtualBootPatch applies (R134) its
bytes 0, 1, 8 and 9 are the boot entry jump and the host's reset word less VBP_ADJUST. Every other byte is
as before. -/
def Obligations.ProgramPageFWritesPage : Prop :=
  ∀ (s : State) (lenHigh : Byte) (payload : List Byte),
    Ready s (.programPageF lenHigh payload s.cfg.term) [s.cfg.respInsync, s.cfg.respOk] →
    Programmable s payload →
    ∃ t, exec (.programPageF lenHigh payload s.cfg.term) s = .next t ∧
      (∀ k < s.cfg.pageSize,
        flashCell t.flash (s.flashAddress + k) = .byte
          (let buf := payload ++ s.pagebuf.drop payload.length
           let v := 256 * (buf.getD 1 0).toNat + (buf.getD 0 0).toNat
           let v' := (v + 65536 - s.cfg.vbpAdjust % 65536) % 65536
           if s.cfg.vbpEnabled = true ∧ s.flashAddress = 0 then
             if k = 0 then BitVec.ofNat 8 s.cfg.bootEntryJump.toNat
             else if k = 1 then BitVec.ofNat 8 (s.cfg.bootEntryJump.toNat / 256)
             else if k = 8 then BitVec.ofNat 8 v'
             else if k = 9 then BitVec.ofNat 8 (v' / 256)
             else buf.getD k 0
           else buf.getD k 0)) ∧
      ∀ a, (a < s.flashAddress ∨ s.flashAddress + s.cfg.pageSize ≤ a) →
        flashCell t.flash a = flashCell s.flash a

/-- A ProgramPage 'F' with a wrong terminator (R131, 60_exceptions.md R211): no byte is sent, the payload
is in PAGEBUF, the erase has been issued and, once the controller has run, the page is Erased and every
other byte of FLASH and EEPROM as before. -/
def Obligations.ProgramPageFDeserts : Prop :=
  ∀ (s : State) (lenHigh : Byte) (payload : List Byte) (x : Byte), x ≠ s.cfg.term →
    Ready s (.programPageF lenHigh payload x) [] → Programmable s payload →
    Deserts (.programPageF lenHigh payload x) s
      ((s.loaded Config.typeFlash payload).begun s.flashAddress (.erasing s.flashAddress)) ∧
    ∀ t, exec (.programPageF lenHigh payload x) s = .next t →
      (∀ a, flashCell (flashComplete t).flash a =
        if s.flashAddress ≤ a ∧ a < s.flashAddress + s.cfg.pageSize then .erased
        else flashCell s.flash a) ∧
      ∀ a, eepromByte t.eeprom a = eepromByte s.eeprom a

/-- Bank scheduling (R132): an RWW page is erased before the first payload byte is received, an NRWW page
after the last one and before the terminator. -/
def Obligations.BankScheduling : Prop :=
  ∀ (s : State) (lenHigh : Byte) (payload : List Byte),
    Ready s (.programPageF lenHigh payload s.cfg.term) [s.cfg.respInsync, s.cfg.respOk] →
    Programmable s payload →
    ∃ t new, exec (.programPageF lenHigh payload s.cfg.term) s = .next t ∧ t.ev = s.ev ++ new ∧
      new.filter (fun e => match e with
        | .rx _ => true
        | .erase _ => true
        | _ => false) =
      [.rx s.cfg.cmdProgPage, .rx lenHigh, .rx (BitVec.ofNat 8 payload.length), .rx 0x46] ++
        (if s.flashAddress < s.cfg.nrwwStart
         then .erase s.flashAddress :: payload.map Event.rx
         else payload.map Event.rx ++ [.erase s.flashAddress]) ++ [.rx s.cfg.term]

/-- VbpPatch (R134): the shadows take the host's bytes, bytes 8 and 9 the host's reset word less
VBP_ADJUST, bytes 0 and 1 the boot entry jump; the rest of PAGEBUF stays. -/
def Obligations.VbpPatchTransforms : Prop :=
  ∀ s : State, 10 ≤ s.pagebuf.length →
    let v := 256 * (s.bufByte 1).toNat + (s.bufByte 0).toNat
    let v' := (v + 65536 - s.cfg.vbpAdjust % 65536) % 65536
    s.patched.shadowRst = (s.bufByte 0, s.bufByte 1) ∧
    s.patched.shadowWdt = (s.bufByte 8, s.bufByte 9) ∧
    (s.patched.bufByte 8).toNat = v' % 256 ∧ (s.patched.bufByte 9).toNat = v' / 256 ∧
    (s.patched.bufByte 0).toNat = s.cfg.bootEntryJump.toNat % 256 ∧
    (s.patched.bufByte 1).toNat = s.cfg.bootEntryJump.toNat / 256 ∧
    s.patched.pagebuf.length = s.pagebuf.length ∧
    ∀ i, i ≠ 0 → i ≠ 1 → i ≠ 8 → i ≠ 9 → s.patched.bufByte i = s.bufByte i

/-- ReadPage 'F' (R136, R137): it answers Insync, LEN bytes, Ok, and advances ADDR by LEN; a byte that the
rules fix is that byte (the others are free values, log 12); nothing else changes. -/
def Obligations.ReadPageFReads : Prop :=
  ∀ (s : State) (lenHigh n : Byte), n ≠ 0 →
    (∀ data, s.MayRead n.toNat data →
      Ready s (.readPageF lenHigh n s.cfg.term) (s.cfg.respInsync :: (data ++ [s.cfg.respOk]))) →
    s.flashAddress + n.toNat ≤ s.cfg.flashSize → s.addr.toNat + n.toNat < 65536 →
    ∃ data, s.MayRead n.toNat data ∧
      Answers (.readPageF lenHigh n s.cfg.term) s ((s.headed n Config.typeFlash).advanced n.toNat)
        (s.cfg.respInsync :: (data ++ [s.cfg.respOk]))

/-- A ReadPage whose terminator is wrong sends nothing and changes only LEN and TYPE (40_dispatcher.md
R119), whatever its length and type. -/
def Obligations.ReadPageDeserts : Prop :=
  ∀ (s : State) (lenHigh n ty x : Byte), x ≠ s.cfg.term →
    (Ready s (.readPageF lenHigh n x) [] →
      Deserts (.readPageF lenHigh n x) s (s.headed n Config.typeFlash)) ∧
    (Ready s (.readPageE lenHigh n x) [] →
      Deserts (.readPageE lenHigh n x) s (s.headed n Config.typeEeprom)) ∧
    (Ready s (.readPageBadType lenHigh n ty x) [] →
      Deserts (.readPageBadType lenHigh n ty x) s (s.headed n ty))

/-- Page postcondition (20_memory.md R65): if the sequence erase, wait, fill of every word, commit, wait
and re-enable runs to its end, whatever the controllers and time do in between, the page holds the words,
low byte first, and no cell outside it has changed. -/
def Obligations.PagePostcondition : Prop :=
  ∀ (s t : State) (p : Nat) (ws : List Word), s.cfg.wf = true → FlashWf s.flash →
    s.flashOp = .idle → s.wbuf.length = s.cfg.pageSize →
    ws.length = s.cfg.pageSize / 2 → pageSequence s.cfg p ws s = .ok ((), t) →
    (∀ k w, ws[k]? = some w →
      flashCell t.flash (p + 2 * k) = .byte (lo8 w) ∧
      flashCell t.flash (p + 2 * k + 1) = .byte (hi8 w)) ∧
    ∀ a, (a < p ∨ p + s.cfg.pageSize ≤ a) → flashCell t.flash a = flashCell s.flash a

/-- Round trip through FLASH (41_flash_programmer.md R140): a full page programmed, its address loaded
again and read back in the same session returns the host's bytes, also where the VirtualBootPatch changed
what is stored. (A read that would carry ADDR past 0xFFFF is refused, 20_memory.md R47, and left out.) -/
def Obligations.FlashRoundTrip : Prop :=
  ∀ (s : State) (lh1 lo hi lh2 n : Byte) (payload : List Byte),
    Programmable s payload → payload.length = s.cfg.pageSize → s.rwwBlocked = false →
    1 ≤ n.toNat → n.toNat ≤ s.cfg.pageSize → s.addr.toNat + n.toNat < 65536 →
    256 * hi.toNat + lo.toNat = s.flashAddress / 2 → s.LinkUp →
    s.Calm ([s.cfg.respInsync, s.cfg.respOk, s.cfg.respInsync, s.cfg.respOk, s.cfg.respInsync] ++
      payload.take n.toNat ++ [s.cfg.respOk]) →
    encode s.cfg (.programPageF lh1 payload s.cfg.term) ++
      encode s.cfg (.loadAddress lo hi s.cfg.term) ++
      encode s.cfg (.readPageF lh2 n s.cfg.term) <+: s.incoming →
    ∃ t1 t2 t3, exec (.programPageF lh1 payload s.cfg.term) s = .next t1 ∧
      exec (.loadAddress lo hi s.cfg.term) t1 = .next t2 ∧
      exec (.readPageF lh2 n s.cfg.term) t2 = .next t3 ∧
      t3.sent = t2.sent ++ s.cfg.respInsync :: (payload.take n.toNat ++ [s.cfg.respOk])

/-! ### EEPROM -/

/-- ProgramPage 'E' (42_eeprom_programmer.md R153): it answers Insync, Ok; LEN, TYPE, PAGEBUF, EEPROM, the
latch and ADDR become what `eepromProgrammed` says; on a wrong terminator only LEN, TYPE and PAGEBUF
change. -/
def Obligations.ProgramPageECompletes : Prop :=
  ∀ (s : State) (lenHigh : Byte) (payload : List Byte) (x : Byte),
    EepromWritable s payload →
    RunsAs (.programPageE lenHigh payload x) x s (s.eepromProgrammed payload)
      (s.loaded Config.typeEeprom payload) [s.cfg.respInsync, s.cfg.respOk]

/-- What a ProgramPage 'E' leaves in EEPROM once the last write is complete (R153, 20_memory.md R59), read
byte by byte: the payload from ADDR on; every other byte as before, an earlier write completed. FLASH is
unchanged. -/
def Obligations.ProgramPageEWritesBytes : Prop :=
  ∀ (s : State) (lenHigh : Byte) (payload : List Byte),
    Ready s (.programPageE lenHigh payload s.cfg.term) [s.cfg.respInsync, s.cfg.respOk] →
    EepromWritable s payload →
    ∃ t, exec (.programPageE lenHigh payload s.cfg.term) s = .next t ∧
      (∀ k b, payload[k]? = some b → eepromByte (eeComplete t).eeprom (s.addr.toNat + k) = b) ∧
      (∀ a, (a < s.addr.toNat ∨ s.addr.toNat + payload.length ≤ a) →
        eepromByte (eeComplete t).eeprom a = eepromByte (eeComplete s).eeprom a) ∧
      ∀ a, flashCell t.flash a = flashCell s.flash a

/-- Keep-alive (R154): the watchdog is serviced before every byte write, once per byte, immediately before
it. -/
def Obligations.EepromKeepAlive : Prop :=
  ∀ (s : State) (lenHigh : Byte) (payload : List Byte),
    Ready s (.programPageE lenHigh payload s.cfg.term) [s.cfg.respInsync, s.cfg.respOk] →
    EepromWritable s payload →
    ∃ t before after, exec (.programPageE lenHigh payload s.cfg.term) s = .next t ∧
      s.ev <+: before ∧
      t.ev = before ++ (payload.zipIdx.flatMap (fun e =>
        [.service, .eeWrite (s.addr.toNat + e.2) e.1])) ++ after ∧
      (∀ a b, .eeWrite a b ∉ before.drop s.ev.length) ∧ ∀ a b, .eeWrite a b ∉ after

/-- ReadPage 'E' (R152): it answers Insync, the LEN bytes from ADDR on, Ok, and advances ADDR by LEN; a
write still in progress is complete by then; nothing else changes. -/
def Obligations.ReadPageEReads : Prop :=
  ∀ (s : State) (lenHigh n : Byte), n ≠ 0 →
    Ready s (.readPageE lenHigh n s.cfg.term)
      (s.cfg.respInsync :: (s.eepromData n.toNat ++ [s.cfg.respOk])) →
    s.addr.toNat + n.toNat ≤ s.cfg.eepromSize → s.addr.toNat + n.toNat < 65536 →
    Answers (.readPageE lenHigh n s.cfg.term) s
      (((eeComplete s).headed n Config.typeEeprom).advanced n.toNat)
      (s.cfg.respInsync :: (s.eepromData n.toNat ++ [s.cfg.respOk]))

/-- Round trip through EEPROM (R155), at an address LoadAddress can load. -/
def Obligations.EepromRoundTrip : Prop :=
  ∀ (s : State) (lh1 lo hi lh2 : Byte) (payload : List Byte),
    EepromWritable s payload → 2 * (256 * hi.toNat + lo.toNat) = s.addr.toNat →
    s.LinkUp →
    s.Calm ([s.cfg.respInsync, s.cfg.respOk, s.cfg.respInsync, s.cfg.respOk, s.cfg.respInsync] ++
      payload ++ [s.cfg.respOk]) →
    encode s.cfg (.programPageE lh1 payload s.cfg.term) ++
      encode s.cfg (.loadAddress lo hi s.cfg.term) ++
      encode s.cfg (.readPageE lh2 (BitVec.ofNat 8 payload.length) s.cfg.term) <+: s.incoming →
    ∃ t1 t2 t3, exec (.programPageE lh1 payload s.cfg.term) s = .next t1 ∧
      exec (.loadAddress lo hi s.cfg.term) t1 = .next t2 ∧
      exec (.readPageE lh2 (BitVec.ofNat 8 payload.length) s.cfg.term) t2 = .next t3 ∧
      t3.sent = t2.sent ++ s.cfg.respInsync :: (payload ++ [s.cfg.respOk])

/-! ### Requests without a meaning -/

/-- A ProgramPage with a type neither 'F' nor 'E' is refused after its header, for its length where that
is illegal, else for its type (30_encoding.md R76, R77, 40_dispatcher.md R118). -/
def Obligations.ProgramBadTypeRefused : Prop :=
  ∀ (s : State) (lenHigh n ty : Byte), ty ≠ 0x46 → ty ≠ 0x45 →
    Ready s (.programPageBadType lenHigh n ty) [] →
    exec (.programPageBadType lenHigh n ty) s =
      .refused (if n = 0 ∨ s.cfg.pageSize < n.toNat then .length else .memoryType)

/-- A ReadPage with a type neither 'F' nor 'E' and the right terminator is refused, for its length where
that is 0, else for its type (30_encoding.md R76, R77, 40_dispatcher.md R119). -/
def Obligations.ReadBadTypeRefused : Prop :=
  ∀ (s : State) (lenHigh n ty : Byte), ty ≠ 0x46 → ty ≠ 0x45 →
    Ready s (.readPageBadType lenHigh n ty s.cfg.term) [s.cfg.respInsync] →
    exec (.readPageBadType lenHigh n ty s.cfg.term) s =
      .refused (if n = 0 then .length else .memoryType)

/-- An illegal length is refused (30_encoding.md R76): 0, and for ProgramPage more than a page. -/
def Obligations.IllegalLengthRefused : Prop :=
  (∀ (s : State) (lenHigh : Byte) (payload : List Byte) (x : Byte),
    (payload.length = 0 ∨ s.cfg.pageSize < payload.length) → payload.length ≤ 255 →
    (Ready s (.programPageF lenHigh payload x) [] →
      exec (.programPageF lenHigh payload x) s = .refused .length) ∧
    (Ready s (.programPageE lenHigh payload x) [] →
      exec (.programPageE lenHigh payload x) s = .refused .length)) ∧
  ∀ (s : State) (lenHigh : Byte),
    (Ready s (.readPageF lenHigh 0 s.cfg.term) [s.cfg.respInsync] →
      exec (.readPageF lenHigh 0 s.cfg.term) s = .refused .length) ∧
    (Ready s (.readPageE lenHigh 0 s.cfg.term) [s.cfg.respInsync] →
      exec (.readPageE lenHigh 0 s.cfg.term) s = .refused .length)

/-- A ProgramPage 'F' off a page base, outside FLASH, or on the bootloader's own pages is refused
(20_memory.md R48, R64). -/
def Obligations.FlashTargetRefused : Prop :=
  ∀ (s : State) (lenHigh : Byte) (payload : List Byte) (x : Byte),
    Ready s (.programPageF lenHigh payload x) [] → 1 ≤ payload.length →
    payload.length ≤ s.cfg.pageSize → s.cfg.wf = true → s.flashOp = .idle →
    (s.flashAddress % s.cfg.pageSize ≠ 0 →
      exec (.programPageF lenHigh payload x) s = .refused .unaligned) ∧
    (s.flashAddress % s.cfg.pageSize = 0 → s.cfg.flashSize ≤ s.flashAddress →
      exec (.programPageF lenHigh payload x) s = .refused .range) ∧
    (s.flashAddress % s.cfg.pageSize = 0 → s.flashAddress < s.cfg.flashSize →
      s.cfg.bootStart ≤ s.flashAddress →
      exec (.programPageF lenHigh payload x) s = .refused .bootPages)

/-- An access that leaves its memory is refused at its first byte outside (20_memory.md R64), and one that
carries ADDR past 0xFFFF there (R47), whichever comes first and at whatever byte: ReadPage 'F' and 'E' after
the bytes before it have been sent, ProgramPage 'E' after Insync. -/
def Obligations.MemoryEndRefused : Prop :=
  ∀ (s : State) (lenHigh n : Byte) (payload : List Byte) (k : Nat) (why : Refusal),
    (s.cutShort s.cfg.flashSize s.flashAddress n.toNat = some (k, why) →
      (∀ data, s.MayRead k data →
        Ready s (.readPageF lenHigh n s.cfg.term) (s.cfg.respInsync :: data)) →
      exec (.readPageF lenHigh n s.cfg.term) s = .refused why) ∧
    (s.cutShort s.cfg.eepromSize s.addr.toNat n.toNat = some (k, why) →
      Ready s (.readPageE lenHigh n s.cfg.term) (s.cfg.respInsync :: s.eepromData k) →
      exec (.readPageE lenHigh n s.cfg.term) s = .refused why) ∧
    (s.cutShort s.cfg.eepromSize s.addr.toNat payload.length = some (k, why) →
      payload.length ≤ s.cfg.pageSize → s.cfg.pageSize ≤ 255 →
      Ready s (.programPageE lenHigh payload s.cfg.term) [s.cfg.respInsync] →
      exec (.programPageE lenHigh payload s.cfg.term) s = .refused why)

/-! ### Radio -/

/-- An ordinary packet on an associated link (43_radio_transport.md R166, R167): a tag other than the last
accepted one is accepted, its payload is the new RXQ; an equal tag drops the packet, whatever its payload.
Nothing else changes. -/
def Obligations.PacketFiltered : Prop :=
  ∀ (s : State) (tag : Byte) (payload : List Byte), s.assoc = true → payload.length ≤ 31 →
    exec (.pkt tag payload) s = .next
      (if s.rxTag = some tag
       then { s with ev := s.ev ++ [.pktIn (tag :: payload) .droppedDuplicate] }
       else { s with rxTag := some tag, rxq := payload,
                     ev := s.ev ++ [.pktIn (tag :: payload) .accepted] })

/-- The association handshake (R164): PEER and MAXLEN are recorded, the link is associated; a packet of
exactly four bytes changes nothing more (R165), the tag of a longer one is filtered like any other (R166,
R167). An illegal length is refused (10_state.md R26). No reset strikes between the association and the
filter of the tag. -/
def Obligations.HelloAssociates : Prop :=
  ∀ (s : State) (a0 a1 a2 m : Byte) (body : List Byte), s.assoc = false → body.length ≤ 28 →
    s.pauses = [] → s.Awake 0 →
    exec (.hello a0 a1 a2 m body) s =
      if m.toNat < 2 ∨ 32 < m.toNat then .refused .maxlen
      else .next
        (let p := a0 :: a1 :: a2 :: m :: body
         let u := { s with peer := (a0, a1, a2), maxlen := m, assoc := true,
                           ev := s.ev ++ [.pktIn p .associated] }
         match body with
         | [] => u
         | tag :: payload =>
           if s.rxTag = some tag then { u with ev := u.ev ++ [.pktIn p .droppedDuplicate] }
           else { u with rxTag := some tag, rxq := payload, ev := u.ev ++ [.pktIn p .accepted] })

/-- Packets no layout describes are dropped and change nothing: shorter than 4 before association (R164),
empty after it (R165). -/
def Obligations.ShapelessPacketDropped : Prop :=
  ∀ (s : State) (p : List Byte),
    (s.assoc = false → p.length < 4 →
      processPacket p s = .ok ((), { s with ev := s.ev ++ [.pktIn p .droppedShape] })) ∧
    (s.assoc = true → p = [] →
      processPacket p s = .ok ((), { s with ev := s.ev ++ [.pktIn p .droppedEmpty] }))

/-- At most once (R173): after a packet with a tag has been processed, an ordinary one or a first one that
associates the link (R164, R166), the link is associated, and a packet with the same tag is dropped, whatever
its payload and whatever has happened since, as long as the link is associated and the last accepted tag is
still the same. The lengths are those of a packet (R161): 32 bytes at most. -/
def Obligations.AtMostOnce : Prop :=
  ∀ (s t : State) (tag : Byte) (p1 p2 : List Byte), p2.length ≤ 31 →
    (s.assoc = true ∧ p1.length ≤ 31 ∧ exec (.pkt tag p1) s = .next t ∨
      s.assoc = false ∧ p1.length ≤ 27 ∧
        (∃ a0 a1 a2 m, exec (.hello a0 a1 a2 m (tag :: p1)) s = .next t) ∧ t.assoc = true) →
    t.assoc = true ∧
    ∀ u : State, u.assoc = true → u.rxTag = t.rxTag →
      exec (.pkt tag p2) u = .next
        { u with ev := u.ev ++ [.pktIn (tag :: p2) .droppedDuplicate] }

/-- The framing property (R174, 10_state.md R29, R37 (b)), whatever the environment does, a reset that cuts
the flush off included: every packet a sent byte causes has between 2 and MAXLEN bytes and begins with
TX_TAG. When the byte has been sent, TXBUF begins with TX_TAG again and is shorter than MAXLEN, and TX_TAG
has advanced by one, modulo 256, exactly where the byte ends a packet. -/
def Obligations.FramedByMaxlen : Prop :=
  ∀ (s t : State) (b : Byte), badMaxlen s.maxlen = false → s.txbuf.head? = some s.txTag →
    s.txbuf.length < s.maxlen.toNat →
    (radioSendByte b s = .ok ((), t) ∨ radioSendByte b s = .error (.ended t) →
      ∃ new, t.ev = s.ev ++ new ∧ ∀ p k acked, .pktOut p k acked ∈ new →
        p = s.txbuf ++ [b] ∧ 2 ≤ p.length ∧ p.length ≤ s.maxlen.toNat ∧ p.head? = some s.txTag) ∧
    (radioSendByte b s = .ok ((), t) →
      t.maxlen = s.maxlen ∧ t.txbuf.head? = some t.txTag ∧ t.txbuf.length < t.maxlen.toNat ∧
      t.txTag = if s.txbuf.length + 1 = s.maxlen.toNat ∨ b = s.cfg.respOk then s.txTag + 1 else s.txTag)

/-- RadioSendByte (R169): on an associated link the byte joins TXBUF, and the packet is flushed exactly when
TXBUF has reached MAXLEN or the byte is RESP_OK; an unassociated link refuses, if no device reset strikes
first. -/
def Obligations.PacketCut : Prop :=
  ∀ (s : State) (b : Byte),
    (s.assoc = true → radioSendByte b s =
      if s.txbuf.length + 1 = s.maxlen.toNat ∨ b = s.cfg.respOk
      then flush { s with txbuf := s.txbuf ++ [b] }
      else .ok ((), { s with txbuf := s.txbuf ++ [b] })) ∧
    (s.assoc = false → s.pauses = [] → s.Awake 0 →
      radioSendByte b s = .error (.refused .unassociated))

/-- Flush (R170, R171, R172): the same packet goes to PEER (R162, 10_state.md R25) after a guard delay each
time until the first acknowledged attempt, at most TX_ATTEMPTS times, the outcomes being the environment's;
then TX_TAG advances by one and TXBUF holds it alone, acknowledged or not. -/
def Obligations.FlushRetries : Prop :=
  ∀ s : State, s.pauses = [] → s.Awake (s.cfg.txAttempts * s.cfg.txGuard) →
    ∃ t outcomes, flush s = .ok ((), t) ∧ outcomes.length ≤ s.cfg.txAttempts ∧
      (∀ k, k + 1 < outcomes.length → outcomes[k]? = some false) ∧
      (outcomes.length < s.cfg.txAttempts → outcomes.getLast? = some true) ∧
      (outcomes <+: s.acks ∨ s.acks <+: outcomes) ∧
      t.ev = s.ev ++ (outcomes.zipIdx 1).flatMap (fun e =>
        [.delay s.cfg.txGuard, .pktOut s.txbuf e.2 e.1]) ∧
      t.radioOut = s.radioOut ++ outcomes.map (fun _ => (s.peer, s.txbuf)) ∧
      t.txTag = s.txTag + 1 ∧ t.txbuf = [t.txTag]

/-- No reply is ever sent on an unassociated link (10_state.md R37 (c)). -/
def Obligations.NeverSendsUnassociated : Prop :=
  ∀ s : State, Inv s → step s ≠ .refused .unassociated

/-! ### Watchdog and reset -/

/-- A wired byte with a framing fault is delivered and does not service the watchdog; one without does
(40_dispatcher.md R100, 44_watchdog.md R191, R197). -/
def Obligations.FramingFaultNotServiced : Prop :=
  ∀ (s : State) (b : Byte) (ok : Bool) (rest : List LineByte), s.cfg.radioEnabled = false →
    s.line = ⟨b, ok⟩ :: rest → s.pauses = [] → s.Awake 0 →
    recvByte b s = .ok ((),
      { s with
        line := rest
        wdtCnt := if ok then 0 else s.wdtCnt
        ev := s.ev ++ (if ok then [.service, .rx b] else [.rx b]) })

/-- Expiry (44_watchdog.md R195): where time carries WDT_CNT to the configured window or past it, the device
is reset: the watchdog's flag is set, its reset is in EV, with the resets of whatever other sources strike
there, and the phase is Boot. At the window itself a step that services the watchdog may come first
(60_exceptions.md R221). -/
def Obligations.WatchdogExpires : Prop :=
  ∀ (s : State) (p : Pause) (ps : List Pause) (extra d : Nat) (svc : Bool), s.pauses = p :: ps →
    s.wdtCfg = .on d → d ≤ s.wdtCnt + extra + p.dt →
    (d = s.wdtCnt + extra + p.dt → svc = false ∨ p.serviceFirst = false) →
    ∃ (t : State) (sources : List ResetSource), takePause extra svc s = .error (.ended t) ∧ t.ph = .boot ∧
      t.hwRstFlags &&& s.cfg.flagWatchdog = s.cfg.flagWatchdog ∧
      s.hwRstFlags &&& t.hwRstFlags = s.hwRstFlags ∧
      t.ev = s.ev ++ sources.map Event.reset ∧ .watchdog ∈ sources

/-- Liveness (R196), with the watchdog on, in an environment that brings nothing else (log 6): the watchdog
resets the device from phase Abandoned, after a handoff that nothing services (log 25), before a host that
stays silent between requests, and from a RecvByte that is never satisfied, inside a request too, on the
wired line and over the radio. -/
def Obligations.SilenceEndsInReset : Prop :=
  ∀ (s : State) (d : Nat), s.pauses = [] → s.wdtCfg = .on d →
    (s.cfg.wf = true →
      s.ph = .abandoned ∨ s.ph = .handedOff ∨ s.ph = .awaitCommand ∧ s.HostSilent →
      ∃ t, step s = .next t ∧ WatchdogReset s t) ∧
    ∀ b, s.HostSilent → ∃ t, recvByte b s = .error (.ended t) ∧ WatchdogReset s t

/-- In phases Abandoned and HandedOff the engine does nothing (40_dispatcher.md R107): a step appends no
event but device resets; without a reset the phase, every register and the link stay as they are (time
passes and the controllers may complete), with one the phase is Boot. Nothing is sent. -/
def Obligations.AbandonedDoesNothing : Prop :=
  ∀ s t : State, (s.ph = .abandoned ∨ s.ph = .handedOff) → step s = .next t →
    t.line = s.line ∧ t.air = s.air ∧ t.radioOut = s.radioOut ∧
    ∃ sources : List ResetSource, t.ev = s.ev ++ sources.map Event.reset ∧
      (sources = [] → t.ph = s.ph ∧ SameRegisters s t ∧ SameBoot s t ∧ SameLink s t ∧
        t.wdtCfg = s.wdtCfg ∧ t.rxTag = s.rxTag ∧ t.rxq = s.rxq ∧ t.txbuf = s.txbuf ∧
        t.txTag = s.txTag) ∧
      (sources ≠ [] → t.ph = .boot)

/-- What a device reset leaves (10_state.md R35): the values of the table, row by row; the page under erase
or commit is Undef (20_memory.md R55), and every other cell survives. Nothing is said of the registers, and
of the EEPROM byte under write (R59), that the table leaves unspecified (free values, log 9, 13). -/
def Obligations.ResetTable : Prop :=
  ∀ (s : State) (src : ResetSource),
    let t := deviceReset src s
    t.ph = .boot ∧ t.wdtCnt = 0 ∧ t.hwRstFlags = s.hwRstFlags ||| resetFlag s.cfg src ∧
    t.marker = s.marker ∧ t.wbuf = List.replicate s.cfg.pageSize none ∧ t.flashOp = .idle ∧
    t.eeBusy = none ∧ t.rwwBlocked = false ∧ t.assoc = false ∧ t.maxlen = s.cfg.maxlenDefault ∧
    t.rxTag = s.cfg.rxTagReset ∧ t.rxq = [] ∧ t.txTag = s.cfg.txTagReset ∧
    t.txbuf = [s.cfg.txTagReset] ∧ t.ev = s.ev ++ [.reset src] ∧ t.cfg = s.cfg ∧
    (∀ a, (∀ p ∈ s.flashOp.page, a < p ∨ p + s.cfg.pageSize ≤ a) →
      flashCell t.flash a = flashCell s.flash a) ∧
    (FlashWf s.flash → ∀ p ∈ s.flashOp.page, ∀ a, p ≤ a → a < p + s.cfg.pageSize →
      flashCell t.flash a = .undef) ∧
    ∀ a, (∀ q ∈ s.eeBusy, q.1 ≠ a) → eepromByte t.eeprom a = eepromByte s.eeprom a

/-! ### Boot and handoff -/

/-- The boot sequence enters the command loop when the cause says so (R241, R242, R243): the flags are
taken and cleared, the watchdog runs on WDT_MEDIUM, the phase is AwaitCommand, and nothing else changes. -/
def Obligations.BootEntersLoop : Prop :=
  ∀ s : State, s.cfg.wf = true → s.ph = .boot → s.pauses = [] → ¬ SkipsLoop s →
    step s = .next
      { s with
        ph := .awaitCommand
        resetCause := s.hwRstFlags
        hwRstFlags := 0
        marker := s.cfg.wdtMarkerEnabled || s.marker
        wdtCfg := .on s.cfg.wdtMedium
        ev := s.ev ++ [.config (.on s.cfg.wdtMedium)] }

/-- Otherwise it hands off (R242, R245, R246): the watchdog is off or on WDT_LONG, HANDOFF_CAUSE carries
the cause, and control is transferred to the watchdog-vector slot under VBP, else to APP_ENTRY. -/
def Obligations.BootHandsOff : Prop :=
  ∀ s : State, s.cfg.wf = true → s.ph = .boot → s.pauses = [] → SkipsLoop s →
    let w := if s.cfg.handoffWdt = .off then WdtCfg.off else WdtCfg.on s.cfg.wdtLong
    step s = .next
      { s with
        ph := .handedOff
        resetCause := s.hwRstFlags
        hwRstFlags := 0
        marker := !s.cfg.wdtMarkerEnabled && s.marker
        wdtCfg := w
        handoffCause := s.hwRstFlags
        ev := s.ev ++ [.config w,
          .transfer (if s.cfg.vbpEnabled then 8 else s.cfg.appEntry) s.hwRstFlags] }

/-- The worked boot cases under CFG_REF (R248), the two cases with the marker among them. -/
def Obligations.WorkedBootCases : Prop :=
  (∀ f ∈ ([0x01, 0x08, 0x04, 0x03, 0x0A] : List Byte), ∃ t,
    step { State.reset with hwRstFlags := f } = .next t ∧ t.ph = .handedOff ∧ t.handoffCause = f ∧
      t.hwRstFlags = 0 ∧ t.ev = [.reset .powerOn, .config .off, .transfer 8 f]) ∧
  (∀ f ∈ ([0x02, 0x00] : List Byte), ∃ t,
    step { State.reset with hwRstFlags := f } = .next t ∧ t.ph = .awaitCommand ∧
      t.wdtCfg = .on 1000 ∧ t.hwRstFlags = 0 ∧ t.ev = [.reset .powerOn, .config (.on 1000)]) ∧
  (∀ m : Bool, ∃ t,
    step { State.resetWith { Config.ref with wdtMarkerEnabled := true } with
        hwRstFlags := 0x08, marker := m } = .next t ∧
      t.ph = (if m then .handedOff else .awaitCommand) ∧ t.marker = !m)

/-- Control transfer (40_dispatcher.md R121, 70_reset_and_hazards.md R244), whatever the environment does:
a step from AwaitCommand ends in AwaitCommand, Abandoned or Boot; from Abandoned in Abandoned or Boot; from
Boot in Boot, AwaitCommand or HandedOff; from HandedOff in HandedOff or Boot. So the application is reached
from Boot only. That no step starts in Execute or Respond is the model's choice (log 24): R121's transfers
from them are made inside the step that entered them (log 3). -/
def Obligations.PhaseTransitions : Prop :=
  ∀ s t : State, step s = .next t →
    match s.ph with
    | .boot => t.ph = .boot ∨ t.ph = .awaitCommand ∨ t.ph = .handedOff
    | .awaitCommand => t.ph = .awaitCommand ∨ t.ph = .abandoned ∨ t.ph = .boot
    | .abandoned => t.ph = .abandoned ∨ t.ph = .boot
    | .handedOff => t.ph = .handedOff ∨ t.ph = .boot
    | .execute _ => False
    | .respond => False

/-! ### The machine as a whole, whatever the environment does -/

/-- Every step keeps the invariant of a run (10_state.md R37, R24 to R29, 20_memory.md R48, R64; the
canonical form of the memories is the model's, log 11). -/
def Obligations.StepKeepsInv : Prop :=
  ∀ s t : State, Inv s → step s = .next t → Inv t

/-- The machine right after the first power-on has the invariant, in every legal configuration. -/
def Obligations.ResetHasInv : Prop :=
  ∀ c : Config, c.wf = true → Inv (State.resetWith c) ∧ AtRest (State.resetWith c)

/-- Between commands the flash controller is at rest (10_state.md R37 (d)): every step keeps it so. -/
def Obligations.StepKeepsAtRest : Prop :=
  ∀ s t : State, AtRest s → step s = .next t → AtRest t

/-- EV is append-only (10_state.md R31), and so is the record of the packets handed to the radio driver (log
31); the configuration never changes (40_dispatcher.md R101). -/
def Obligations.TraceOnlyGrows : Prop :=
  ∀ s t : State, step s = .next t → s.ev <+: t.ev ∧ s.radioOut <+: t.radioOut ∧ t.cfg = s.cfg

/-- No step changes a byte of the bootloader's own pages (20_memory.md R64). -/
def Obligations.BootloaderPagesKept : Prop :=
  ∀ s t : State, Inv s → step s = .next t →
    ∀ a, s.cfg.bootStart ≤ a → flashCell t.flash a = flashCell s.flash a

/-- From a state between commands, FLASH outside the page a ProgramPage 'F' names is unchanged by every
instruction, whatever the environment does, a device reset included (44_watchdog.md R199, 20_memory.md
R43). -/
def Obligations.FlashFrame : Prop :=
  ∀ (i : Instr) (s t : State), Inv s → AtRest s → s.ph = .awaitCommand → exec i s = .next t →
    ∀ a, (∀ lenHigh payload x, i = .programPageF lenHigh payload x →
        a < s.flashAddress ∨ s.flashAddress + s.cfg.pageSize ≤ a) →
      flashCell t.flash a = flashCell s.flash a

/-- EEPROM outside the bytes a ProgramPage 'E' names, and outside a byte still being written when it
starts, is unchanged by every instruction, whatever the environment does. -/
def Obligations.EepromFrame : Prop :=
  ∀ (i : Instr) (s t : State), s.ph = .awaitCommand → exec i s = .next t →
    ∀ a, (∀ p ∈ s.eeBusy, p.1 ≠ a) →
      (∀ lenHigh payload x, i = .programPageE lenHigh payload x →
        a < s.addr.toNat ∨ s.addr.toNat + payload.length ≤ a) →
      eepromByte t.eeprom a = eepromByte s.eeprom a

end
end

