-- ==== Sys2Proof/Laws/Engine.lean ====
section
/-! SUPPORT. How a rule runs on a state: one lemma per building block, and the two ways to say what a
rule does: `Keeps` (a relation between the state before and after, however the rule ends) and its
composition. -/

namespace Sys2Proof.Machine

@[simp] theorem update_run (f : State → State) (s : State) : update f s = .ok ((), f s) := rfl

@[simp] theorem look_run {α : Type} (f : State → α) (s : State) : look f s = .ok (f s, s) := rfl

@[simp] theorem refused_run {α : Type} (r : Refusal) (s : State) :
    (refused r : Eng α) s = .error (.refused r) := rfl

@[simp] theorem endWith_run {α : Type} (f : State → State) (s : State) :
    (endWith f : Eng α) s = .error (.ended (f s)) := rfl

@[simp] theorem pure_run {α : Type} (a : α) (s : State) : (pure a : Eng α) s = .ok (a, s) := rfl

@[simp] theorem bind_run {α β : Type} (m : Eng α) (f : α → Eng β) (s : State) :
    (m >>= f) s = match m s with
      | .ok (a, t) => f a t
      | .error e => .error e := by
  show (StateT.bind m f s : Except Stop (β × State)) = _
  unfold StateT.bind
  show Except.bind (m s) _ = _
  cases m s with
  | ok p => rfl
  | error e => rfl

@[simp] theorem refuseIf_true (r : Refusal) (s : State) : refuseIf true r s = refuse r s := rfl

@[simp] theorem refuseIf_false (r : Refusal) (s : State) :
    refuseIf false r s = .ok ((), s) := rfl

theorem refuseIf_run (b : Bool) (r : Refusal) (s : State) :
    refuseIf b r s = if b then refuse r s else .ok ((), s) := by
  cases b <;> rfl

/-- A conditional rule runs the chosen branch. -/
@[simp] theorem ite_run {α : Type} (p : Prop) [Decidable p] (m n : Eng α) (s : State) :
    (if p then m else n) s = if p then m s else n s := by
  split <;> rfl

theorem runRule_ok {r : Eng Unit} {s t : State} {u : Unit} (h : r s = .ok (u, t)) :
    runRule r s = .next t := by simp [runRule, h]

theorem runRule_ended {r : Eng Unit} {s t : State} (h : r s = .error (.ended t)) :
    runRule r s = .next t := by simp [runRule, h]

theorem runRule_refused {r : Eng Unit} {s : State} {f : Refusal}
    (h : r s = .error (.refused f)) : runRule r s = .refused f := by simp [runRule, h]

/-- A rule gives a next state in exactly two ways: it runs to its end, or it ends early in that state. -/
theorem runRule_next {r : Eng Unit} {s t : State} :
    runRule r s = .next t ↔ (∃ u, r s = .ok (u, t)) ∨ r s = .error (.ended t) := by
  unfold runRule
  cases h : r s with
  | ok p => obtain ⟨u, t'⟩ := p; simp [eq_comm]
  | error e => cases e <;> simp

/-- The phases a rule can stop early in: a device reset and a protocol desync are the only ways
(60_exceptions.md R211, R240). -/
def State.Stopped (t : State) : Prop := t.ph = .boot ∨ t.ph = .abandoned

/-- Where a rule lands from `s`: if it runs to its end, in a state in `I` that `R` relates to `s`; if it
stops early, in a stopped state that `Q` relates to `s`. -/
def Lands {α : Type} (I : State → Prop) (R Q : State → State → Prop) (s : State) :
    Except Stop (α × State) → Prop
  | .ok (_, t) => R s t ∧ I t
  | .error (.ended t) => Q s t ∧ t.Stopped
  | .error _ => True

/-- From every state in `I` the rule lands by `R` and `Q` and, at its end, in `I`. -/
def Keeps {α : Type} (I : State → Prop) (R Q : State → State → Prop) (m : Eng α) : Prop :=
  ∀ s, I s → Lands I R Q s (m s)

/-- The two relations of `Keeps` compose: `R` with itself and with `Q`, and `R` holds of no change. -/
structure Composes (R Q : State → State → Prop) : Prop where
  refl : ∀ s, R s s
  trans : ∀ s t u, R s t → R t u → R s u
  stop : ∀ s t u, R s t → Q t u → Q s u

section Keeps

variable {α β : Type} {I J K : State → Prop} {R Q : State → State → Prop}

/-- A rule that lands from `t`, run from a state before `t`. -/
theorem Lands.after (hc : Composes R Q) {s t : State} {x : Except Stop (α × State)}
    (h : R s t) (g : Lands I R Q t x) : Lands I R Q s x := by
  rcases x with e | ⟨a, u⟩
  · cases e with
    | ended u => exact ⟨hc.stop _ _ _ h g.1, g.2⟩
    | fault _ => trivial
    | refused _ => trivial
  · exact ⟨hc.trans _ _ _ h g.1, g.2⟩

/-- The states a rule ends its run in may be described more widely. -/
theorem Lands.weaken {s : State} {x : Except Stop (α × State)}
    (h : ∀ t, R s t → I t → J t) (g : Lands I R Q s x) : Lands J R Q s x := by
  rcases x with e | ⟨a, u⟩
  · cases e with
    | ended u => exact g
    | fault _ => trivial
    | refused _ => trivial
  · exact ⟨g.1, h _ g.1 g.2⟩

/-- A rule that lands and answers a next state: it has run to its end, or stopped early. -/
theorem Lands.next {m : Eng Unit} {s t : State} (h : Lands I R Q s (m s)) (e : runRule m s = .next t) :
    (R s t ∧ I t) ∨ (Q s t ∧ t.Stopped) := by
  rcases runRule_next.1 e with ⟨u, e⟩ | e
  · rw [e] at h; exact .inl h
  · rw [e] at h; exact .inr h

theorem Keeps.next {m : Eng Unit} (h : Keeps I R Q m) {s t : State} (hs : I s)
    (e : runRule m s = .next t) : (R s t ∧ I t) ∨ (Q s t ∧ t.Stopped) := (h s hs).next e

theorem lands_bind (hc : Composes R Q) {m : Eng α} {f : α → Eng β} {s : State} (hs : I s)
    (hm : ∀ s, I s → Lands J R Q s (m s)) (hf : ∀ a s, J s → Lands K R Q s (f a s)) :
    Lands K R Q s ((m >>= f) s) := by
  have h1 := hm s hs
  simp only [bind_run]
  cases hms : m s with
  | error e => rw [hms] at h1; cases e <;> exact h1
  | ok p => rw [hms] at h1; exact (hf p.1 p.2 h1.2).after hc h1.1

theorem keeps_pure (hc : Composes R Q) (a : α) : Keeps I R Q (pure a : Eng α) :=
  fun s hs => ⟨hc.refl s, hs⟩

theorem keeps_bind (hc : Composes R Q) {m : Eng α} {f : α → Eng β}
    (hm : Keeps I R Q m) (hf : ∀ a, Keeps I R Q (f a)) : Keeps I R Q (m >>= f) :=
  fun _ hs => lands_bind hc hs hm hf

theorem keeps_update {f : State → State} (h : ∀ s, I s → R s (f s) ∧ I (f s)) :
    Keeps I R Q (update f) := fun s hs => h s hs

theorem keeps_look (hc : Composes R Q) (f : State → α) : Keeps I R Q (look f) :=
  fun s hs => ⟨hc.refl s, hs⟩

theorem keeps_refused (r : Refusal) : Keeps I R Q (refused r : Eng α) := fun _ _ => trivial

theorem keeps_endWith {f : State → State} (h : ∀ s, I s → Q s (f s) ∧ (f s).Stopped) :
    Keeps I R Q (endWith f : Eng α) := fun s hs => h s hs

theorem keeps_ite (p : Prop) [Decidable p] {m n : Eng α}
    (hm : p → Keeps I R Q m) (hn : ¬ p → Keeps I R Q n) : Keeps I R Q (if p then m else n) := by
  split
  · exact hm ‹_›
  · exact hn ‹_›

end Keeps

end Sys2Proof.Machine
end

