-- ==== Sys2Proof/Laws/Memory.lean ====
section
/-! SUPPORT. The sparse memories: a read after a write, and that every operation keeps the canonical
form. -/

namespace Sys2Proof.Machine

theorem cellAt_putCell {α : Type} (m : List (Nat × α)) (a : Nat) (v : α) (x : Nat) :
    cellAt (putCell m a v) x = if x = a then some v else cellAt m x := by
  induction m with
  | nil => simp only [putCell, cellAt]; split <;> simp_all [eq_comm]
  | cons e m ih =>
    obtain ⟨k, w⟩ := e
    simp only [putCell]
    split
    · simp only [cellAt]; split <;> simp_all [eq_comm]
    · split
      · simp only [cellAt]; subst_vars; split <;> simp_all [eq_comm]
      · simp only [cellAt, ih]; split <;> simp_all; omega

theorem mem_putCell {α : Type} {m : List (Nat × α)} {a : Nat} {v : α} {e : Nat × α}
    (h : e ∈ putCell m a v) : e = (a, v) ∨ e ∈ m := by
  induction m with
  | nil => simp_all [putCell]
  | cons x m ih =>
    obtain ⟨k, w⟩ := x
    simp only [putCell] at h
    split at h
    · simp_all
    · split at h
      · simp_all; tauto
      · simp at h ⊢; rcases h with h | h
        · tauto
        · rcases ih h with h | h <;> tauto

theorem mem_dropCell {α : Type} {m : List (Nat × α)} {a : Nat} {e : Nat × α}
    (h : e ∈ dropCell m a) : e ∈ m := by
  induction m with
  | nil => simp_all [dropCell]
  | cons x m ih =>
    simp only [dropCell] at h
    split at h
    · simp_all
    · simp at h ⊢; rcases h with h | h
      · tauto
      · exact .inr (ih h)

theorem rising_putCell {α : Type} {m : List (Nat × α)} (h : Rising m) (a : Nat) (v : α) :
    Rising (putCell m a v) := by
  induction m with
  | nil => simp [putCell]
  | cons x m ih =>
    obtain ⟨k, w⟩ := x
    have hm := List.pairwise_cons.1 h
    simp only [putCell]
    split
    · refine List.pairwise_cons.2 ⟨?_, h⟩
      intro e he
      rcases List.mem_cons.1 he with rfl | he
      · assumption
      · have := hm.1 e he; simp_all; omega
    · split
      · subst_vars; exact List.pairwise_cons.2 ⟨hm.1, hm.2⟩
      · refine List.pairwise_cons.2 ⟨?_, ih hm.2⟩
        intro e he
        rcases mem_putCell he with rfl | he
        · simp; omega
        · exact hm.1 e he

theorem rising_dropCell {α : Type} {m : List (Nat × α)} (h : Rising m) (a : Nat) :
    Rising (dropCell m a) := by
  induction m with
  | nil => exact h
  | cons x m ih =>
    have hm := List.pairwise_cons.1 h
    simp only [dropCell]
    split
    · exact hm.2
    · exact List.pairwise_cons.2 ⟨fun e he => hm.1 e (mem_dropCell he), ih hm.2⟩

theorem cellAt_none_of_lt {α : Type} {m : List (Nat × α)} {a : Nat}
    (h : ∀ e ∈ m, a < e.1) : cellAt m a = none := by
  induction m with
  | nil => rfl
  | cons x m ih =>
    obtain ⟨k, w⟩ := x
    have := h (k, w) (by simp)
    simp only [cellAt]
    rw [if_neg (by simp at this; omega)]
    exact ih (fun e he => h e (by simp [he]))

theorem cellAt_dropCell {α : Type} {m : List (Nat × α)} (h : Rising m) (a x : Nat) :
    cellAt (dropCell m a) x = if x = a then none else cellAt m x := by
  induction m with
  | nil => simp [dropCell, cellAt]
  | cons e m ih =>
    obtain ⟨k, w⟩ := e
    have hm := List.pairwise_cons.1 h
    simp only [dropCell]
    split
    · subst_vars
      split
      · subst_vars; exact cellAt_none_of_lt (fun e he => hm.1 e he)
      · simp only [cellAt]; rw [if_neg (by tauto)]
    · simp only [cellAt, ih hm.2]
      split <;> simp_all

/-- `setFlashCell` keeps the canonical form. -/
theorem setFlashCell_wf {m : List (Nat × FlashCell)} (h : FlashWf m) (a : Nat) (c : FlashCell) :
    FlashWf (setFlashCell m a c) := by
  cases c with
  | erased =>
    exact ⟨rising_dropCell h.1 a, fun e he => h.2 e (mem_dropCell he)⟩
  | byte b =>
    refine ⟨rising_putCell h.1 a _, fun e he => ?_⟩
    rcases mem_putCell he with rfl | he
    · simp
    · exact h.2 e he
  | undef =>
    refine ⟨rising_putCell h.1 a _, fun e he => ?_⟩
    rcases mem_putCell he with rfl | he
    · simp
    · exact h.2 e he

/-- A read after a write of one cell. -/
theorem flashCell_setFlashCell {m : List (Nat × FlashCell)} (h : FlashWf m) (a : Nat)
    (c : FlashCell) (x : Nat) :
    flashCell (setFlashCell m a c) x = if x = a then c else flashCell m x := by
  cases c <;> simp only [flashCell, setFlashCell, cellAt_putCell, cellAt_dropCell h.1] <;>
    split <;> simp

/-- `setFlashCells` keeps the canonical form. -/
theorem setFlashCells_wf {m : List (Nat × FlashCell)} (h : FlashWf m) (a : Nat)
    (cs : List FlashCell) : FlashWf (setFlashCells m a cs) := by
  induction cs generalizing m a with
  | nil => exact h
  | cons c cs ih => exact ih (setFlashCell_wf h a c) (a + 1)

/-- A read after a write of a run of cells: the run, and nothing else. -/
theorem flashCell_setFlashCells {m : List (Nat × FlashCell)} (h : FlashWf m) (a : Nat)
    (cs : List FlashCell) (x : Nat) :
    flashCell (setFlashCells m a cs) x =
      if a ≤ x ∧ x < a + cs.length then cs.getD (x - a) .erased else flashCell m x := by
  induction cs generalizing m a with
  | nil => simp only [setFlashCells, List.length_nil]; rw [if_neg (by omega)]
  | cons c cs ih =>
    simp only [setFlashCells, ih (setFlashCell_wf h a c), flashCell_setFlashCell h, List.length_cons]
    by_cases hx : x = a
    · subst hx
      rw [if_neg (by omega), if_pos rfl, if_pos (by omega)]
      simp
    · by_cases h1 : a + 1 ≤ x ∧ x < a + 1 + cs.length
      · rw [if_pos h1, if_pos (by omega)]
        obtain ⟨k, hk⟩ : ∃ k, x - a = k + 1 := ⟨x - a - 1, by omega⟩
        rw [hk, show x - (a + 1) = k by omega]; simp
      · rw [if_neg h1, if_neg hx, if_neg (by omega)]

theorem mem_setFlashCell {m : List (Nat × FlashCell)} {a : Nat} {c : FlashCell}
    {e : Nat × FlashCell} (h : e ∈ setFlashCell m a c) : e.1 = a ∨ e ∈ m := by
  cases c with
  | erased => exact .inr (mem_dropCell h)
  | byte b => rcases mem_putCell h with rfl | h <;> tauto
  | undef => rcases mem_putCell h with rfl | h <;> tauto

theorem mem_setFlashCells {m : List (Nat × FlashCell)} {a : Nat} {cs : List FlashCell}
    {e : Nat × FlashCell} (h : e ∈ setFlashCells m a cs) :
    (a ≤ e.1 ∧ e.1 < a + cs.length) ∨ e ∈ m := by
  induction cs generalizing m a with
  | nil => exact .inr h
  | cons c cs ih =>
    rcases ih h with h | h
    · left; simp only [List.length_cons]; omega
    · rcases mem_setFlashCell h with h | h
      · left; simp only [List.length_cons]; omega
      · exact .inr h

/-- A read after a byte write of EEPROM. -/
theorem eepromByte_putCell (m : List Host.Cell) (a : Nat) (b : Byte) (x : Nat) :
    eepromByte (putCell m a b) x = if x = a then b else eepromByte m x := by
  simp only [eepromByte, cellAt_putCell]
  split <;> simp

end Sys2Proof.Machine
end

