-- ==== Sys2Proof/Laws/State.lean ====
section
/-! SUPPORT. One lemma per field per named update of the state, so that no later proof unfolds a record
update. -/

namespace Sys2Proof.Machine

/-! ### `State.emit` -/

@[simp] theorem State.emit_cfg (s : State) (e : Event) : (s.emit e).cfg = s.cfg := rfl
@[simp] theorem State.emit_ph (s : State) (e : Event) : (s.emit e).ph = s.ph := rfl
@[simp] theorem State.emit_addr (s : State) (e : Event) : (s.emit e).addr = s.addr := rfl
@[simp] theorem State.emit_ext (s : State) (e : Event) : (s.emit e).ext = s.ext := rfl
@[simp] theorem State.emit_len (s : State) (e : Event) : (s.emit e).len = s.len := rfl
@[simp] theorem State.emit_memType (s : State) (e : Event) : (s.emit e).memType = s.memType := rfl
@[simp] theorem State.emit_pagebuf (s : State) (e : Event) : (s.emit e).pagebuf = s.pagebuf := rfl
@[simp] theorem State.emit_shadowRst (s : State) (e : Event) : (s.emit e).shadowRst = s.shadowRst := rfl
@[simp] theorem State.emit_shadowWdt (s : State) (e : Event) : (s.emit e).shadowWdt = s.shadowWdt := rfl
@[simp] theorem State.emit_shadowSet (s : State) (e : Event) : (s.emit e).shadowSet = s.shadowSet := rfl
@[simp] theorem State.emit_wdtCfg (s : State) (e : Event) : (s.emit e).wdtCfg = s.wdtCfg := rfl
@[simp] theorem State.emit_wdtCnt (s : State) (e : Event) : (s.emit e).wdtCnt = s.wdtCnt := rfl
@[simp] theorem State.emit_hwRstFlags (s : State) (e : Event) : (s.emit e).hwRstFlags = s.hwRstFlags := rfl
@[simp] theorem State.emit_resetCause (s : State) (e : Event) : (s.emit e).resetCause = s.resetCause := rfl
@[simp] theorem State.emit_marker (s : State) (e : Event) : (s.emit e).marker = s.marker := rfl
@[simp] theorem State.emit_flash (s : State) (e : Event) : (s.emit e).flash = s.flash := rfl
@[simp] theorem State.emit_wbuf (s : State) (e : Event) : (s.emit e).wbuf = s.wbuf := rfl
@[simp] theorem State.emit_flashOp (s : State) (e : Event) : (s.emit e).flashOp = s.flashOp := rfl
@[simp] theorem State.emit_rwwBlocked (s : State) (e : Event) : (s.emit e).rwwBlocked = s.rwwBlocked := rfl
@[simp] theorem State.emit_eeprom (s : State) (e : Event) : (s.emit e).eeprom = s.eeprom := rfl
@[simp] theorem State.emit_eeBusy (s : State) (e : Event) : (s.emit e).eeBusy = s.eeBusy := rfl
@[simp] theorem State.emit_assoc (s : State) (e : Event) : (s.emit e).assoc = s.assoc := rfl
@[simp] theorem State.emit_peer (s : State) (e : Event) : (s.emit e).peer = s.peer := rfl
@[simp] theorem State.emit_maxlen (s : State) (e : Event) : (s.emit e).maxlen = s.maxlen := rfl
@[simp] theorem State.emit_rxTag (s : State) (e : Event) : (s.emit e).rxTag = s.rxTag := rfl
@[simp] theorem State.emit_rxq (s : State) (e : Event) : (s.emit e).rxq = s.rxq := rfl
@[simp] theorem State.emit_txbuf (s : State) (e : Event) : (s.emit e).txbuf = s.txbuf := rfl
@[simp] theorem State.emit_txTag (s : State) (e : Event) : (s.emit e).txTag = s.txTag := rfl
@[simp] theorem State.emit_handoffCause (s : State) (e : Event) : (s.emit e).handoffCause = s.handoffCause := rfl
@[simp] theorem State.emit_ev (s : State) (e : Event) : (s.emit e).ev = s.ev ++ [e] := rfl
@[simp] theorem State.emit_line (s : State) (e : Event) : (s.emit e).line = s.line := rfl
@[simp] theorem State.emit_air (s : State) (e : Event) : (s.emit e).air = s.air := rfl
@[simp] theorem State.emit_radioOut (s : State) (e : Event) : (s.emit e).radioOut = s.radioOut := rfl
@[simp] theorem State.emit_acks (s : State) (e : Event) : (s.emit e).acks = s.acks := rfl
@[simp] theorem State.emit_pauses (s : State) (e : Event) : (s.emit e).pauses = s.pauses := rfl
@[simp] theorem State.emit_draws (s : State) (e : Event) : (s.emit e).draws = s.draws := rfl

/-! ### `State.setPh` -/

@[simp] theorem State.setPh_cfg (s : State) (p : Phase) : (s.setPh p).cfg = s.cfg := rfl
@[simp] theorem State.setPh_ph (s : State) (p : Phase) : (s.setPh p).ph = p := rfl
@[simp] theorem State.setPh_addr (s : State) (p : Phase) : (s.setPh p).addr = s.addr := rfl
@[simp] theorem State.setPh_ext (s : State) (p : Phase) : (s.setPh p).ext = s.ext := rfl
@[simp] theorem State.setPh_len (s : State) (p : Phase) : (s.setPh p).len = s.len := rfl
@[simp] theorem State.setPh_memType (s : State) (p : Phase) : (s.setPh p).memType = s.memType := rfl
@[simp] theorem State.setPh_pagebuf (s : State) (p : Phase) : (s.setPh p).pagebuf = s.pagebuf := rfl
@[simp] theorem State.setPh_shadowRst (s : State) (p : Phase) : (s.setPh p).shadowRst = s.shadowRst := rfl
@[simp] theorem State.setPh_shadowWdt (s : State) (p : Phase) : (s.setPh p).shadowWdt = s.shadowWdt := rfl
@[simp] theorem State.setPh_shadowSet (s : State) (p : Phase) : (s.setPh p).shadowSet = s.shadowSet := rfl
@[simp] theorem State.setPh_wdtCfg (s : State) (p : Phase) : (s.setPh p).wdtCfg = s.wdtCfg := rfl
@[simp] theorem State.setPh_wdtCnt (s : State) (p : Phase) : (s.setPh p).wdtCnt = s.wdtCnt := rfl
@[simp] theorem State.setPh_hwRstFlags (s : State) (p : Phase) : (s.setPh p).hwRstFlags = s.hwRstFlags := rfl
@[simp] theorem State.setPh_resetCause (s : State) (p : Phase) : (s.setPh p).resetCause = s.resetCause := rfl
@[simp] theorem State.setPh_marker (s : State) (p : Phase) : (s.setPh p).marker = s.marker := rfl
@[simp] theorem State.setPh_flash (s : State) (p : Phase) : (s.setPh p).flash = s.flash := rfl
@[simp] theorem State.setPh_wbuf (s : State) (p : Phase) : (s.setPh p).wbuf = s.wbuf := rfl
@[simp] theorem State.setPh_flashOp (s : State) (p : Phase) : (s.setPh p).flashOp = s.flashOp := rfl
@[simp] theorem State.setPh_rwwBlocked (s : State) (p : Phase) : (s.setPh p).rwwBlocked = s.rwwBlocked := rfl
@[simp] theorem State.setPh_eeprom (s : State) (p : Phase) : (s.setPh p).eeprom = s.eeprom := rfl
@[simp] theorem State.setPh_eeBusy (s : State) (p : Phase) : (s.setPh p).eeBusy = s.eeBusy := rfl
@[simp] theorem State.setPh_assoc (s : State) (p : Phase) : (s.setPh p).assoc = s.assoc := rfl
@[simp] theorem State.setPh_peer (s : State) (p : Phase) : (s.setPh p).peer = s.peer := rfl
@[simp] theorem State.setPh_maxlen (s : State) (p : Phase) : (s.setPh p).maxlen = s.maxlen := rfl
@[simp] theorem State.setPh_rxTag (s : State) (p : Phase) : (s.setPh p).rxTag = s.rxTag := rfl
@[simp] theorem State.setPh_rxq (s : State) (p : Phase) : (s.setPh p).rxq = s.rxq := rfl
@[simp] theorem State.setPh_txbuf (s : State) (p : Phase) : (s.setPh p).txbuf = s.txbuf := rfl
@[simp] theorem State.setPh_txTag (s : State) (p : Phase) : (s.setPh p).txTag = s.txTag := rfl
@[simp] theorem State.setPh_handoffCause (s : State) (p : Phase) : (s.setPh p).handoffCause = s.handoffCause := rfl
@[simp] theorem State.setPh_ev (s : State) (p : Phase) : (s.setPh p).ev = s.ev := rfl
@[simp] theorem State.setPh_line (s : State) (p : Phase) : (s.setPh p).line = s.line := rfl
@[simp] theorem State.setPh_air (s : State) (p : Phase) : (s.setPh p).air = s.air := rfl
@[simp] theorem State.setPh_radioOut (s : State) (p : Phase) : (s.setPh p).radioOut = s.radioOut := rfl
@[simp] theorem State.setPh_acks (s : State) (p : Phase) : (s.setPh p).acks = s.acks := rfl
@[simp] theorem State.setPh_pauses (s : State) (p : Phase) : (s.setPh p).pauses = s.pauses := rfl
@[simp] theorem State.setPh_draws (s : State) (p : Phase) : (s.setPh p).draws = s.draws := rfl

/-! ### `State.setAddr` -/

@[simp] theorem State.setAddr_cfg (s : State) (a : Word) : (s.setAddr a).cfg = s.cfg := rfl
@[simp] theorem State.setAddr_ph (s : State) (a : Word) : (s.setAddr a).ph = s.ph := rfl
@[simp] theorem State.setAddr_addr (s : State) (a : Word) : (s.setAddr a).addr = a := rfl
@[simp] theorem State.setAddr_ext (s : State) (a : Word) : (s.setAddr a).ext = s.ext := rfl
@[simp] theorem State.setAddr_len (s : State) (a : Word) : (s.setAddr a).len = s.len := rfl
@[simp] theorem State.setAddr_memType (s : State) (a : Word) : (s.setAddr a).memType = s.memType := rfl
@[simp] theorem State.setAddr_pagebuf (s : State) (a : Word) : (s.setAddr a).pagebuf = s.pagebuf := rfl
@[simp] theorem State.setAddr_shadowRst (s : State) (a : Word) : (s.setAddr a).shadowRst = s.shadowRst := rfl
@[simp] theorem State.setAddr_shadowWdt (s : State) (a : Word) : (s.setAddr a).shadowWdt = s.shadowWdt := rfl
@[simp] theorem State.setAddr_shadowSet (s : State) (a : Word) : (s.setAddr a).shadowSet = s.shadowSet := rfl
@[simp] theorem State.setAddr_wdtCfg (s : State) (a : Word) : (s.setAddr a).wdtCfg = s.wdtCfg := rfl
@[simp] theorem State.setAddr_wdtCnt (s : State) (a : Word) : (s.setAddr a).wdtCnt = s.wdtCnt := rfl
@[simp] theorem State.setAddr_hwRstFlags (s : State) (a : Word) : (s.setAddr a).hwRstFlags = s.hwRstFlags := rfl
@[simp] theorem State.setAddr_resetCause (s : State) (a : Word) : (s.setAddr a).resetCause = s.resetCause := rfl
@[simp] theorem State.setAddr_marker (s : State) (a : Word) : (s.setAddr a).marker = s.marker := rfl
@[simp] theorem State.setAddr_flash (s : State) (a : Word) : (s.setAddr a).flash = s.flash := rfl
@[simp] theorem State.setAddr_wbuf (s : State) (a : Word) : (s.setAddr a).wbuf = s.wbuf := rfl
@[simp] theorem State.setAddr_flashOp (s : State) (a : Word) : (s.setAddr a).flashOp = s.flashOp := rfl
@[simp] theorem State.setAddr_rwwBlocked (s : State) (a : Word) : (s.setAddr a).rwwBlocked = s.rwwBlocked := rfl
@[simp] theorem State.setAddr_eeprom (s : State) (a : Word) : (s.setAddr a).eeprom = s.eeprom := rfl
@[simp] theorem State.setAddr_eeBusy (s : State) (a : Word) : (s.setAddr a).eeBusy = s.eeBusy := rfl
@[simp] theorem State.setAddr_assoc (s : State) (a : Word) : (s.setAddr a).assoc = s.assoc := rfl
@[simp] theorem State.setAddr_peer (s : State) (a : Word) : (s.setAddr a).peer = s.peer := rfl
@[simp] theorem State.setAddr_maxlen (s : State) (a : Word) : (s.setAddr a).maxlen = s.maxlen := rfl
@[simp] theorem State.setAddr_rxTag (s : State) (a : Word) : (s.setAddr a).rxTag = s.rxTag := rfl
@[simp] theorem State.setAddr_rxq (s : State) (a : Word) : (s.setAddr a).rxq = s.rxq := rfl
@[simp] theorem State.setAddr_txbuf (s : State) (a : Word) : (s.setAddr a).txbuf = s.txbuf := rfl
@[simp] theorem State.setAddr_txTag (s : State) (a : Word) : (s.setAddr a).txTag = s.txTag := rfl
@[simp] theorem State.setAddr_handoffCause (s : State) (a : Word) : (s.setAddr a).handoffCause = s.handoffCause := rfl
@[simp] theorem State.setAddr_ev (s : State) (a : Word) : (s.setAddr a).ev = s.ev := rfl
@[simp] theorem State.setAddr_line (s : State) (a : Word) : (s.setAddr a).line = s.line := rfl
@[simp] theorem State.setAddr_air (s : State) (a : Word) : (s.setAddr a).air = s.air := rfl
@[simp] theorem State.setAddr_radioOut (s : State) (a : Word) : (s.setAddr a).radioOut = s.radioOut := rfl
@[simp] theorem State.setAddr_acks (s : State) (a : Word) : (s.setAddr a).acks = s.acks := rfl
@[simp] theorem State.setAddr_pauses (s : State) (a : Word) : (s.setAddr a).pauses = s.pauses := rfl
@[simp] theorem State.setAddr_draws (s : State) (a : Word) : (s.setAddr a).draws = s.draws := rfl

/-! ### `State.addTime` -/

@[simp] theorem State.addTime_cfg (s : State) (dt : Nat) : (s.addTime dt).cfg = s.cfg := rfl
@[simp] theorem State.addTime_ph (s : State) (dt : Nat) : (s.addTime dt).ph = s.ph := rfl
@[simp] theorem State.addTime_addr (s : State) (dt : Nat) : (s.addTime dt).addr = s.addr := rfl
@[simp] theorem State.addTime_ext (s : State) (dt : Nat) : (s.addTime dt).ext = s.ext := rfl
@[simp] theorem State.addTime_len (s : State) (dt : Nat) : (s.addTime dt).len = s.len := rfl
@[simp] theorem State.addTime_memType (s : State) (dt : Nat) : (s.addTime dt).memType = s.memType := rfl
@[simp] theorem State.addTime_pagebuf (s : State) (dt : Nat) : (s.addTime dt).pagebuf = s.pagebuf := rfl
@[simp] theorem State.addTime_shadowRst (s : State) (dt : Nat) : (s.addTime dt).shadowRst = s.shadowRst := rfl
@[simp] theorem State.addTime_shadowWdt (s : State) (dt : Nat) : (s.addTime dt).shadowWdt = s.shadowWdt := rfl
@[simp] theorem State.addTime_shadowSet (s : State) (dt : Nat) : (s.addTime dt).shadowSet = s.shadowSet := rfl
@[simp] theorem State.addTime_wdtCfg (s : State) (dt : Nat) : (s.addTime dt).wdtCfg = s.wdtCfg := rfl
@[simp] theorem State.addTime_wdtCnt (s : State) (dt : Nat) : (s.addTime dt).wdtCnt = s.wdtCnt + dt := rfl
@[simp] theorem State.addTime_hwRstFlags (s : State) (dt : Nat) : (s.addTime dt).hwRstFlags = s.hwRstFlags := rfl
@[simp] theorem State.addTime_resetCause (s : State) (dt : Nat) : (s.addTime dt).resetCause = s.resetCause := rfl
@[simp] theorem State.addTime_marker (s : State) (dt : Nat) : (s.addTime dt).marker = s.marker := rfl
@[simp] theorem State.addTime_flash (s : State) (dt : Nat) : (s.addTime dt).flash = s.flash := rfl
@[simp] theorem State.addTime_wbuf (s : State) (dt : Nat) : (s.addTime dt).wbuf = s.wbuf := rfl
@[simp] theorem State.addTime_flashOp (s : State) (dt : Nat) : (s.addTime dt).flashOp = s.flashOp := rfl
@[simp] theorem State.addTime_rwwBlocked (s : State) (dt : Nat) : (s.addTime dt).rwwBlocked = s.rwwBlocked := rfl
@[simp] theorem State.addTime_eeprom (s : State) (dt : Nat) : (s.addTime dt).eeprom = s.eeprom := rfl
@[simp] theorem State.addTime_eeBusy (s : State) (dt : Nat) : (s.addTime dt).eeBusy = s.eeBusy := rfl
@[simp] theorem State.addTime_assoc (s : State) (dt : Nat) : (s.addTime dt).assoc = s.assoc := rfl
@[simp] theorem State.addTime_peer (s : State) (dt : Nat) : (s.addTime dt).peer = s.peer := rfl
@[simp] theorem State.addTime_maxlen (s : State) (dt : Nat) : (s.addTime dt).maxlen = s.maxlen := rfl
@[simp] theorem State.addTime_rxTag (s : State) (dt : Nat) : (s.addTime dt).rxTag = s.rxTag := rfl
@[simp] theorem State.addTime_rxq (s : State) (dt : Nat) : (s.addTime dt).rxq = s.rxq := rfl
@[simp] theorem State.addTime_txbuf (s : State) (dt : Nat) : (s.addTime dt).txbuf = s.txbuf := rfl
@[simp] theorem State.addTime_txTag (s : State) (dt : Nat) : (s.addTime dt).txTag = s.txTag := rfl
@[simp] theorem State.addTime_handoffCause (s : State) (dt : Nat) : (s.addTime dt).handoffCause = s.handoffCause := rfl
@[simp] theorem State.addTime_ev (s : State) (dt : Nat) : (s.addTime dt).ev = s.ev := rfl
@[simp] theorem State.addTime_line (s : State) (dt : Nat) : (s.addTime dt).line = s.line := rfl
@[simp] theorem State.addTime_air (s : State) (dt : Nat) : (s.addTime dt).air = s.air := rfl
@[simp] theorem State.addTime_radioOut (s : State) (dt : Nat) : (s.addTime dt).radioOut = s.radioOut := rfl
@[simp] theorem State.addTime_acks (s : State) (dt : Nat) : (s.addTime dt).acks = s.acks := rfl
@[simp] theorem State.addTime_pauses (s : State) (dt : Nat) : (s.addTime dt).pauses = s.pauses := rfl
@[simp] theorem State.addTime_draws (s : State) (dt : Nat) : (s.addTime dt).draws = s.draws := rfl

/-! ### `State.clearCount` -/

@[simp] theorem State.clearCount_cfg (s : State) : s.clearCount.cfg = s.cfg := rfl
@[simp] theorem State.clearCount_ph (s : State) : s.clearCount.ph = s.ph := rfl
@[simp] theorem State.clearCount_addr (s : State) : s.clearCount.addr = s.addr := rfl
@[simp] theorem State.clearCount_ext (s : State) : s.clearCount.ext = s.ext := rfl
@[simp] theorem State.clearCount_len (s : State) : s.clearCount.len = s.len := rfl
@[simp] theorem State.clearCount_memType (s : State) : s.clearCount.memType = s.memType := rfl
@[simp] theorem State.clearCount_pagebuf (s : State) : s.clearCount.pagebuf = s.pagebuf := rfl
@[simp] theorem State.clearCount_shadowRst (s : State) : s.clearCount.shadowRst = s.shadowRst := rfl
@[simp] theorem State.clearCount_shadowWdt (s : State) : s.clearCount.shadowWdt = s.shadowWdt := rfl
@[simp] theorem State.clearCount_shadowSet (s : State) : s.clearCount.shadowSet = s.shadowSet := rfl
@[simp] theorem State.clearCount_wdtCfg (s : State) : s.clearCount.wdtCfg = s.wdtCfg := rfl
@[simp] theorem State.clearCount_wdtCnt (s : State) : s.clearCount.wdtCnt = 0 := rfl
@[simp] theorem State.clearCount_hwRstFlags (s : State) : s.clearCount.hwRstFlags = s.hwRstFlags := rfl
@[simp] theorem State.clearCount_resetCause (s : State) : s.clearCount.resetCause = s.resetCause := rfl
@[simp] theorem State.clearCount_marker (s : State) : s.clearCount.marker = s.marker := rfl
@[simp] theorem State.clearCount_flash (s : State) : s.clearCount.flash = s.flash := rfl
@[simp] theorem State.clearCount_wbuf (s : State) : s.clearCount.wbuf = s.wbuf := rfl
@[simp] theorem State.clearCount_flashOp (s : State) : s.clearCount.flashOp = s.flashOp := rfl
@[simp] theorem State.clearCount_rwwBlocked (s : State) : s.clearCount.rwwBlocked = s.rwwBlocked := rfl
@[simp] theorem State.clearCount_eeprom (s : State) : s.clearCount.eeprom = s.eeprom := rfl
@[simp] theorem State.clearCount_eeBusy (s : State) : s.clearCount.eeBusy = s.eeBusy := rfl
@[simp] theorem State.clearCount_assoc (s : State) : s.clearCount.assoc = s.assoc := rfl
@[simp] theorem State.clearCount_peer (s : State) : s.clearCount.peer = s.peer := rfl
@[simp] theorem State.clearCount_maxlen (s : State) : s.clearCount.maxlen = s.maxlen := rfl
@[simp] theorem State.clearCount_rxTag (s : State) : s.clearCount.rxTag = s.rxTag := rfl
@[simp] theorem State.clearCount_rxq (s : State) : s.clearCount.rxq = s.rxq := rfl
@[simp] theorem State.clearCount_txbuf (s : State) : s.clearCount.txbuf = s.txbuf := rfl
@[simp] theorem State.clearCount_txTag (s : State) : s.clearCount.txTag = s.txTag := rfl
@[simp] theorem State.clearCount_handoffCause (s : State) : s.clearCount.handoffCause = s.handoffCause := rfl
@[simp] theorem State.clearCount_ev (s : State) : s.clearCount.ev = s.ev := rfl
@[simp] theorem State.clearCount_line (s : State) : s.clearCount.line = s.line := rfl
@[simp] theorem State.clearCount_air (s : State) : s.clearCount.air = s.air := rfl
@[simp] theorem State.clearCount_radioOut (s : State) : s.clearCount.radioOut = s.radioOut := rfl
@[simp] theorem State.clearCount_acks (s : State) : s.clearCount.acks = s.acks := rfl
@[simp] theorem State.clearCount_pauses (s : State) : s.clearCount.pauses = s.pauses := rfl
@[simp] theorem State.clearCount_draws (s : State) : s.clearCount.draws = s.draws := rfl

/-! ### `State.popPause` -/

@[simp] theorem State.popPause_cfg (s : State) : s.popPause.cfg = s.cfg := rfl
@[simp] theorem State.popPause_ph (s : State) : s.popPause.ph = s.ph := rfl
@[simp] theorem State.popPause_addr (s : State) : s.popPause.addr = s.addr := rfl
@[simp] theorem State.popPause_ext (s : State) : s.popPause.ext = s.ext := rfl
@[simp] theorem State.popPause_len (s : State) : s.popPause.len = s.len := rfl
@[simp] theorem State.popPause_memType (s : State) : s.popPause.memType = s.memType := rfl
@[simp] theorem State.popPause_pagebuf (s : State) : s.popPause.pagebuf = s.pagebuf := rfl
@[simp] theorem State.popPause_shadowRst (s : State) : s.popPause.shadowRst = s.shadowRst := rfl
@[simp] theorem State.popPause_shadowWdt (s : State) : s.popPause.shadowWdt = s.shadowWdt := rfl
@[simp] theorem State.popPause_shadowSet (s : State) : s.popPause.shadowSet = s.shadowSet := rfl
@[simp] theorem State.popPause_wdtCfg (s : State) : s.popPause.wdtCfg = s.wdtCfg := rfl
@[simp] theorem State.popPause_wdtCnt (s : State) : s.popPause.wdtCnt = s.wdtCnt := rfl
@[simp] theorem State.popPause_hwRstFlags (s : State) : s.popPause.hwRstFlags = s.hwRstFlags := rfl
@[simp] theorem State.popPause_resetCause (s : State) : s.popPause.resetCause = s.resetCause := rfl
@[simp] theorem State.popPause_marker (s : State) : s.popPause.marker = s.marker := rfl
@[simp] theorem State.popPause_flash (s : State) : s.popPause.flash = s.flash := rfl
@[simp] theorem State.popPause_wbuf (s : State) : s.popPause.wbuf = s.wbuf := rfl
@[simp] theorem State.popPause_flashOp (s : State) : s.popPause.flashOp = s.flashOp := rfl
@[simp] theorem State.popPause_rwwBlocked (s : State) : s.popPause.rwwBlocked = s.rwwBlocked := rfl
@[simp] theorem State.popPause_eeprom (s : State) : s.popPause.eeprom = s.eeprom := rfl
@[simp] theorem State.popPause_eeBusy (s : State) : s.popPause.eeBusy = s.eeBusy := rfl
@[simp] theorem State.popPause_assoc (s : State) : s.popPause.assoc = s.assoc := rfl
@[simp] theorem State.popPause_peer (s : State) : s.popPause.peer = s.peer := rfl
@[simp] theorem State.popPause_maxlen (s : State) : s.popPause.maxlen = s.maxlen := rfl
@[simp] theorem State.popPause_rxTag (s : State) : s.popPause.rxTag = s.rxTag := rfl
@[simp] theorem State.popPause_rxq (s : State) : s.popPause.rxq = s.rxq := rfl
@[simp] theorem State.popPause_txbuf (s : State) : s.popPause.txbuf = s.txbuf := rfl
@[simp] theorem State.popPause_txTag (s : State) : s.popPause.txTag = s.txTag := rfl
@[simp] theorem State.popPause_handoffCause (s : State) : s.popPause.handoffCause = s.handoffCause := rfl
@[simp] theorem State.popPause_ev (s : State) : s.popPause.ev = s.ev := rfl
@[simp] theorem State.popPause_line (s : State) : s.popPause.line = s.line := rfl
@[simp] theorem State.popPause_air (s : State) : s.popPause.air = s.air := rfl
@[simp] theorem State.popPause_radioOut (s : State) : s.popPause.radioOut = s.radioOut := rfl
@[simp] theorem State.popPause_acks (s : State) : s.popPause.acks = s.acks := rfl
@[simp] theorem State.popPause_pauses (s : State) : s.popPause.pauses = s.pauses.tail := rfl
@[simp] theorem State.popPause_draws (s : State) : s.popPause.draws = s.draws := rfl

/-! ### `State.countDraw` -/

@[simp] theorem State.countDraw_cfg (s : State) : s.countDraw.cfg = s.cfg := rfl
@[simp] theorem State.countDraw_ph (s : State) : s.countDraw.ph = s.ph := rfl
@[simp] theorem State.countDraw_addr (s : State) : s.countDraw.addr = s.addr := rfl
@[simp] theorem State.countDraw_ext (s : State) : s.countDraw.ext = s.ext := rfl
@[simp] theorem State.countDraw_len (s : State) : s.countDraw.len = s.len := rfl
@[simp] theorem State.countDraw_memType (s : State) : s.countDraw.memType = s.memType := rfl
@[simp] theorem State.countDraw_pagebuf (s : State) : s.countDraw.pagebuf = s.pagebuf := rfl
@[simp] theorem State.countDraw_shadowRst (s : State) : s.countDraw.shadowRst = s.shadowRst := rfl
@[simp] theorem State.countDraw_shadowWdt (s : State) : s.countDraw.shadowWdt = s.shadowWdt := rfl
@[simp] theorem State.countDraw_shadowSet (s : State) : s.countDraw.shadowSet = s.shadowSet := rfl
@[simp] theorem State.countDraw_wdtCfg (s : State) : s.countDraw.wdtCfg = s.wdtCfg := rfl
@[simp] theorem State.countDraw_wdtCnt (s : State) : s.countDraw.wdtCnt = s.wdtCnt := rfl
@[simp] theorem State.countDraw_hwRstFlags (s : State) : s.countDraw.hwRstFlags = s.hwRstFlags := rfl
@[simp] theorem State.countDraw_resetCause (s : State) : s.countDraw.resetCause = s.resetCause := rfl
@[simp] theorem State.countDraw_marker (s : State) : s.countDraw.marker = s.marker := rfl
@[simp] theorem State.countDraw_flash (s : State) : s.countDraw.flash = s.flash := rfl
@[simp] theorem State.countDraw_wbuf (s : State) : s.countDraw.wbuf = s.wbuf := rfl
@[simp] theorem State.countDraw_flashOp (s : State) : s.countDraw.flashOp = s.flashOp := rfl
@[simp] theorem State.countDraw_rwwBlocked (s : State) : s.countDraw.rwwBlocked = s.rwwBlocked := rfl
@[simp] theorem State.countDraw_eeprom (s : State) : s.countDraw.eeprom = s.eeprom := rfl
@[simp] theorem State.countDraw_eeBusy (s : State) : s.countDraw.eeBusy = s.eeBusy := rfl
@[simp] theorem State.countDraw_assoc (s : State) : s.countDraw.assoc = s.assoc := rfl
@[simp] theorem State.countDraw_peer (s : State) : s.countDraw.peer = s.peer := rfl
@[simp] theorem State.countDraw_maxlen (s : State) : s.countDraw.maxlen = s.maxlen := rfl
@[simp] theorem State.countDraw_rxTag (s : State) : s.countDraw.rxTag = s.rxTag := rfl
@[simp] theorem State.countDraw_rxq (s : State) : s.countDraw.rxq = s.rxq := rfl
@[simp] theorem State.countDraw_txbuf (s : State) : s.countDraw.txbuf = s.txbuf := rfl
@[simp] theorem State.countDraw_txTag (s : State) : s.countDraw.txTag = s.txTag := rfl
@[simp] theorem State.countDraw_handoffCause (s : State) : s.countDraw.handoffCause = s.handoffCause := rfl
@[simp] theorem State.countDraw_ev (s : State) : s.countDraw.ev = s.ev := rfl
@[simp] theorem State.countDraw_line (s : State) : s.countDraw.line = s.line := rfl
@[simp] theorem State.countDraw_air (s : State) : s.countDraw.air = s.air := rfl
@[simp] theorem State.countDraw_radioOut (s : State) : s.countDraw.radioOut = s.radioOut := rfl
@[simp] theorem State.countDraw_acks (s : State) : s.countDraw.acks = s.acks := rfl
@[simp] theorem State.countDraw_pauses (s : State) : s.countDraw.pauses = s.pauses := rfl
@[simp] theorem State.countDraw_draws (s : State) : s.countDraw.draws = s.draws + 1 := rfl

/-! ### `State.setLine` -/

@[simp] theorem State.setLine_cfg (s : State) (l : List LineByte) : (s.setLine l).cfg = s.cfg := rfl
@[simp] theorem State.setLine_ph (s : State) (l : List LineByte) : (s.setLine l).ph = s.ph := rfl
@[simp] theorem State.setLine_addr (s : State) (l : List LineByte) : (s.setLine l).addr = s.addr := rfl
@[simp] theorem State.setLine_ext (s : State) (l : List LineByte) : (s.setLine l).ext = s.ext := rfl
@[simp] theorem State.setLine_len (s : State) (l : List LineByte) : (s.setLine l).len = s.len := rfl
@[simp] theorem State.setLine_memType (s : State) (l : List LineByte) : (s.setLine l).memType = s.memType := rfl
@[simp] theorem State.setLine_pagebuf (s : State) (l : List LineByte) : (s.setLine l).pagebuf = s.pagebuf := rfl
@[simp] theorem State.setLine_shadowRst (s : State) (l : List LineByte) : (s.setLine l).shadowRst = s.shadowRst := rfl
@[simp] theorem State.setLine_shadowWdt (s : State) (l : List LineByte) : (s.setLine l).shadowWdt = s.shadowWdt := rfl
@[simp] theorem State.setLine_shadowSet (s : State) (l : List LineByte) : (s.setLine l).shadowSet = s.shadowSet := rfl
@[simp] theorem State.setLine_wdtCfg (s : State) (l : List LineByte) : (s.setLine l).wdtCfg = s.wdtCfg := rfl
@[simp] theorem State.setLine_wdtCnt (s : State) (l : List LineByte) : (s.setLine l).wdtCnt = s.wdtCnt := rfl
@[simp] theorem State.setLine_hwRstFlags (s : State) (l : List LineByte) : (s.setLine l).hwRstFlags = s.hwRstFlags := rfl
@[simp] theorem State.setLine_resetCause (s : State) (l : List LineByte) : (s.setLine l).resetCause = s.resetCause := rfl
@[simp] theorem State.setLine_marker (s : State) (l : List LineByte) : (s.setLine l).marker = s.marker := rfl
@[simp] theorem State.setLine_flash (s : State) (l : List LineByte) : (s.setLine l).flash = s.flash := rfl
@[simp] theorem State.setLine_wbuf (s : State) (l : List LineByte) : (s.setLine l).wbuf = s.wbuf := rfl
@[simp] theorem State.setLine_flashOp (s : State) (l : List LineByte) : (s.setLine l).flashOp = s.flashOp := rfl
@[simp] theorem State.setLine_rwwBlocked (s : State) (l : List LineByte) : (s.setLine l).rwwBlocked = s.rwwBlocked := rfl
@[simp] theorem State.setLine_eeprom (s : State) (l : List LineByte) : (s.setLine l).eeprom = s.eeprom := rfl
@[simp] theorem State.setLine_eeBusy (s : State) (l : List LineByte) : (s.setLine l).eeBusy = s.eeBusy := rfl
@[simp] theorem State.setLine_assoc (s : State) (l : List LineByte) : (s.setLine l).assoc = s.assoc := rfl
@[simp] theorem State.setLine_peer (s : State) (l : List LineByte) : (s.setLine l).peer = s.peer := rfl
@[simp] theorem State.setLine_maxlen (s : State) (l : List LineByte) : (s.setLine l).maxlen = s.maxlen := rfl
@[simp] theorem State.setLine_rxTag (s : State) (l : List LineByte) : (s.setLine l).rxTag = s.rxTag := rfl
@[simp] theorem State.setLine_rxq (s : State) (l : List LineByte) : (s.setLine l).rxq = s.rxq := rfl
@[simp] theorem State.setLine_txbuf (s : State) (l : List LineByte) : (s.setLine l).txbuf = s.txbuf := rfl
@[simp] theorem State.setLine_txTag (s : State) (l : List LineByte) : (s.setLine l).txTag = s.txTag := rfl
@[simp] theorem State.setLine_handoffCause (s : State) (l : List LineByte) : (s.setLine l).handoffCause = s.handoffCause := rfl
@[simp] theorem State.setLine_ev (s : State) (l : List LineByte) : (s.setLine l).ev = s.ev := rfl
@[simp] theorem State.setLine_line (s : State) (l : List LineByte) : (s.setLine l).line = l := rfl
@[simp] theorem State.setLine_air (s : State) (l : List LineByte) : (s.setLine l).air = s.air := rfl
@[simp] theorem State.setLine_radioOut (s : State) (l : List LineByte) : (s.setLine l).radioOut = s.radioOut := rfl
@[simp] theorem State.setLine_acks (s : State) (l : List LineByte) : (s.setLine l).acks = s.acks := rfl
@[simp] theorem State.setLine_pauses (s : State) (l : List LineByte) : (s.setLine l).pauses = s.pauses := rfl
@[simp] theorem State.setLine_draws (s : State) (l : List LineByte) : (s.setLine l).draws = s.draws := rfl

/-! ### `State.setAir` -/

@[simp] theorem State.setAir_cfg (s : State) (ps : List (List Byte)) : (s.setAir ps).cfg = s.cfg := rfl
@[simp] theorem State.setAir_ph (s : State) (ps : List (List Byte)) : (s.setAir ps).ph = s.ph := rfl
@[simp] theorem State.setAir_addr (s : State) (ps : List (List Byte)) : (s.setAir ps).addr = s.addr := rfl
@[simp] theorem State.setAir_ext (s : State) (ps : List (List Byte)) : (s.setAir ps).ext = s.ext := rfl
@[simp] theorem State.setAir_len (s : State) (ps : List (List Byte)) : (s.setAir ps).len = s.len := rfl
@[simp] theorem State.setAir_memType (s : State) (ps : List (List Byte)) : (s.setAir ps).memType = s.memType := rfl
@[simp] theorem State.setAir_pagebuf (s : State) (ps : List (List Byte)) : (s.setAir ps).pagebuf = s.pagebuf := rfl
@[simp] theorem State.setAir_shadowRst (s : State) (ps : List (List Byte)) : (s.setAir ps).shadowRst = s.shadowRst := rfl
@[simp] theorem State.setAir_shadowWdt (s : State) (ps : List (List Byte)) : (s.setAir ps).shadowWdt = s.shadowWdt := rfl
@[simp] theorem State.setAir_shadowSet (s : State) (ps : List (List Byte)) : (s.setAir ps).shadowSet = s.shadowSet := rfl
@[simp] theorem State.setAir_wdtCfg (s : State) (ps : List (List Byte)) : (s.setAir ps).wdtCfg = s.wdtCfg := rfl
@[simp] theorem State.setAir_wdtCnt (s : State) (ps : List (List Byte)) : (s.setAir ps).wdtCnt = s.wdtCnt := rfl
@[simp] theorem State.setAir_hwRstFlags (s : State) (ps : List (List Byte)) : (s.setAir ps).hwRstFlags = s.hwRstFlags := rfl
@[simp] theorem State.setAir_resetCause (s : State) (ps : List (List Byte)) : (s.setAir ps).resetCause = s.resetCause := rfl
@[simp] theorem State.setAir_marker (s : State) (ps : List (List Byte)) : (s.setAir ps).marker = s.marker := rfl
@[simp] theorem State.setAir_flash (s : State) (ps : List (List Byte)) : (s.setAir ps).flash = s.flash := rfl
@[simp] theorem State.setAir_wbuf (s : State) (ps : List (List Byte)) : (s.setAir ps).wbuf = s.wbuf := rfl
@[simp] theorem State.setAir_flashOp (s : State) (ps : List (List Byte)) : (s.setAir ps).flashOp = s.flashOp := rfl
@[simp] theorem State.setAir_rwwBlocked (s : State) (ps : List (List Byte)) : (s.setAir ps).rwwBlocked = s.rwwBlocked := rfl
@[simp] theorem State.setAir_eeprom (s : State) (ps : List (List Byte)) : (s.setAir ps).eeprom = s.eeprom := rfl
@[simp] theorem State.setAir_eeBusy (s : State) (ps : List (List Byte)) : (s.setAir ps).eeBusy = s.eeBusy := rfl
@[simp] theorem State.setAir_assoc (s : State) (ps : List (List Byte)) : (s.setAir ps).assoc = s.assoc := rfl
@[simp] theorem State.setAir_peer (s : State) (ps : List (List Byte)) : (s.setAir ps).peer = s.peer := rfl
@[simp] theorem State.setAir_maxlen (s : State) (ps : List (List Byte)) : (s.setAir ps).maxlen = s.maxlen := rfl
@[simp] theorem State.setAir_rxTag (s : State) (ps : List (List Byte)) : (s.setAir ps).rxTag = s.rxTag := rfl
@[simp] theorem State.setAir_rxq (s : State) (ps : List (List Byte)) : (s.setAir ps).rxq = s.rxq := rfl
@[simp] theorem State.setAir_txbuf (s : State) (ps : List (List Byte)) : (s.setAir ps).txbuf = s.txbuf := rfl
@[simp] theorem State.setAir_txTag (s : State) (ps : List (List Byte)) : (s.setAir ps).txTag = s.txTag := rfl
@[simp] theorem State.setAir_handoffCause (s : State) (ps : List (List Byte)) : (s.setAir ps).handoffCause = s.handoffCause := rfl
@[simp] theorem State.setAir_ev (s : State) (ps : List (List Byte)) : (s.setAir ps).ev = s.ev := rfl
@[simp] theorem State.setAir_line (s : State) (ps : List (List Byte)) : (s.setAir ps).line = s.line := rfl
@[simp] theorem State.setAir_air (s : State) (ps : List (List Byte)) : (s.setAir ps).air = ps := rfl
@[simp] theorem State.setAir_radioOut (s : State) (ps : List (List Byte)) : (s.setAir ps).radioOut = s.radioOut := rfl
@[simp] theorem State.setAir_acks (s : State) (ps : List (List Byte)) : (s.setAir ps).acks = s.acks := rfl
@[simp] theorem State.setAir_pauses (s : State) (ps : List (List Byte)) : (s.setAir ps).pauses = s.pauses := rfl
@[simp] theorem State.setAir_draws (s : State) (ps : List (List Byte)) : (s.setAir ps).draws = s.draws := rfl

/-! ### `State.setAcks` -/

@[simp] theorem State.setAcks_cfg (s : State) (l : List Bool) : (s.setAcks l).cfg = s.cfg := rfl
@[simp] theorem State.setAcks_ph (s : State) (l : List Bool) : (s.setAcks l).ph = s.ph := rfl
@[simp] theorem State.setAcks_addr (s : State) (l : List Bool) : (s.setAcks l).addr = s.addr := rfl
@[simp] theorem State.setAcks_ext (s : State) (l : List Bool) : (s.setAcks l).ext = s.ext := rfl
@[simp] theorem State.setAcks_len (s : State) (l : List Bool) : (s.setAcks l).len = s.len := rfl
@[simp] theorem State.setAcks_memType (s : State) (l : List Bool) : (s.setAcks l).memType = s.memType := rfl
@[simp] theorem State.setAcks_pagebuf (s : State) (l : List Bool) : (s.setAcks l).pagebuf = s.pagebuf := rfl
@[simp] theorem State.setAcks_shadowRst (s : State) (l : List Bool) : (s.setAcks l).shadowRst = s.shadowRst := rfl
@[simp] theorem State.setAcks_shadowWdt (s : State) (l : List Bool) : (s.setAcks l).shadowWdt = s.shadowWdt := rfl
@[simp] theorem State.setAcks_shadowSet (s : State) (l : List Bool) : (s.setAcks l).shadowSet = s.shadowSet := rfl
@[simp] theorem State.setAcks_wdtCfg (s : State) (l : List Bool) : (s.setAcks l).wdtCfg = s.wdtCfg := rfl
@[simp] theorem State.setAcks_wdtCnt (s : State) (l : List Bool) : (s.setAcks l).wdtCnt = s.wdtCnt := rfl
@[simp] theorem State.setAcks_hwRstFlags (s : State) (l : List Bool) : (s.setAcks l).hwRstFlags = s.hwRstFlags := rfl
@[simp] theorem State.setAcks_resetCause (s : State) (l : List Bool) : (s.setAcks l).resetCause = s.resetCause := rfl
@[simp] theorem State.setAcks_marker (s : State) (l : List Bool) : (s.setAcks l).marker = s.marker := rfl
@[simp] theorem State.setAcks_flash (s : State) (l : List Bool) : (s.setAcks l).flash = s.flash := rfl
@[simp] theorem State.setAcks_wbuf (s : State) (l : List Bool) : (s.setAcks l).wbuf = s.wbuf := rfl
@[simp] theorem State.setAcks_flashOp (s : State) (l : List Bool) : (s.setAcks l).flashOp = s.flashOp := rfl
@[simp] theorem State.setAcks_rwwBlocked (s : State) (l : List Bool) : (s.setAcks l).rwwBlocked = s.rwwBlocked := rfl
@[simp] theorem State.setAcks_eeprom (s : State) (l : List Bool) : (s.setAcks l).eeprom = s.eeprom := rfl
@[simp] theorem State.setAcks_eeBusy (s : State) (l : List Bool) : (s.setAcks l).eeBusy = s.eeBusy := rfl
@[simp] theorem State.setAcks_assoc (s : State) (l : List Bool) : (s.setAcks l).assoc = s.assoc := rfl
@[simp] theorem State.setAcks_peer (s : State) (l : List Bool) : (s.setAcks l).peer = s.peer := rfl
@[simp] theorem State.setAcks_maxlen (s : State) (l : List Bool) : (s.setAcks l).maxlen = s.maxlen := rfl
@[simp] theorem State.setAcks_rxTag (s : State) (l : List Bool) : (s.setAcks l).rxTag = s.rxTag := rfl
@[simp] theorem State.setAcks_rxq (s : State) (l : List Bool) : (s.setAcks l).rxq = s.rxq := rfl
@[simp] theorem State.setAcks_txbuf (s : State) (l : List Bool) : (s.setAcks l).txbuf = s.txbuf := rfl
@[simp] theorem State.setAcks_txTag (s : State) (l : List Bool) : (s.setAcks l).txTag = s.txTag := rfl
@[simp] theorem State.setAcks_handoffCause (s : State) (l : List Bool) : (s.setAcks l).handoffCause = s.handoffCause := rfl
@[simp] theorem State.setAcks_ev (s : State) (l : List Bool) : (s.setAcks l).ev = s.ev := rfl
@[simp] theorem State.setAcks_line (s : State) (l : List Bool) : (s.setAcks l).line = s.line := rfl
@[simp] theorem State.setAcks_air (s : State) (l : List Bool) : (s.setAcks l).air = s.air := rfl
@[simp] theorem State.setAcks_radioOut (s : State) (l : List Bool) : (s.setAcks l).radioOut = s.radioOut := rfl
@[simp] theorem State.setAcks_acks (s : State) (l : List Bool) : (s.setAcks l).acks = l := rfl
@[simp] theorem State.setAcks_pauses (s : State) (l : List Bool) : (s.setAcks l).pauses = s.pauses := rfl
@[simp] theorem State.setAcks_draws (s : State) (l : List Bool) : (s.setAcks l).draws = s.draws := rfl

/-! ### `State.setLen` -/

@[simp] theorem State.setLen_cfg (s : State) (n : Byte) : (s.setLen n).cfg = s.cfg := rfl
@[simp] theorem State.setLen_ph (s : State) (n : Byte) : (s.setLen n).ph = s.ph := rfl
@[simp] theorem State.setLen_addr (s : State) (n : Byte) : (s.setLen n).addr = s.addr := rfl
@[simp] theorem State.setLen_ext (s : State) (n : Byte) : (s.setLen n).ext = s.ext := rfl
@[simp] theorem State.setLen_len (s : State) (n : Byte) : (s.setLen n).len = n := rfl
@[simp] theorem State.setLen_memType (s : State) (n : Byte) : (s.setLen n).memType = s.memType := rfl
@[simp] theorem State.setLen_pagebuf (s : State) (n : Byte) : (s.setLen n).pagebuf = s.pagebuf := rfl
@[simp] theorem State.setLen_shadowRst (s : State) (n : Byte) : (s.setLen n).shadowRst = s.shadowRst := rfl
@[simp] theorem State.setLen_shadowWdt (s : State) (n : Byte) : (s.setLen n).shadowWdt = s.shadowWdt := rfl
@[simp] theorem State.setLen_shadowSet (s : State) (n : Byte) : (s.setLen n).shadowSet = s.shadowSet := rfl
@[simp] theorem State.setLen_wdtCfg (s : State) (n : Byte) : (s.setLen n).wdtCfg = s.wdtCfg := rfl
@[simp] theorem State.setLen_wdtCnt (s : State) (n : Byte) : (s.setLen n).wdtCnt = s.wdtCnt := rfl
@[simp] theorem State.setLen_hwRstFlags (s : State) (n : Byte) : (s.setLen n).hwRstFlags = s.hwRstFlags := rfl
@[simp] theorem State.setLen_resetCause (s : State) (n : Byte) : (s.setLen n).resetCause = s.resetCause := rfl
@[simp] theorem State.setLen_marker (s : State) (n : Byte) : (s.setLen n).marker = s.marker := rfl
@[simp] theorem State.setLen_flash (s : State) (n : Byte) : (s.setLen n).flash = s.flash := rfl
@[simp] theorem State.setLen_wbuf (s : State) (n : Byte) : (s.setLen n).wbuf = s.wbuf := rfl
@[simp] theorem State.setLen_flashOp (s : State) (n : Byte) : (s.setLen n).flashOp = s.flashOp := rfl
@[simp] theorem State.setLen_rwwBlocked (s : State) (n : Byte) : (s.setLen n).rwwBlocked = s.rwwBlocked := rfl
@[simp] theorem State.setLen_eeprom (s : State) (n : Byte) : (s.setLen n).eeprom = s.eeprom := rfl
@[simp] theorem State.setLen_eeBusy (s : State) (n : Byte) : (s.setLen n).eeBusy = s.eeBusy := rfl
@[simp] theorem State.setLen_assoc (s : State) (n : Byte) : (s.setLen n).assoc = s.assoc := rfl
@[simp] theorem State.setLen_peer (s : State) (n : Byte) : (s.setLen n).peer = s.peer := rfl
@[simp] theorem State.setLen_maxlen (s : State) (n : Byte) : (s.setLen n).maxlen = s.maxlen := rfl
@[simp] theorem State.setLen_rxTag (s : State) (n : Byte) : (s.setLen n).rxTag = s.rxTag := rfl
@[simp] theorem State.setLen_rxq (s : State) (n : Byte) : (s.setLen n).rxq = s.rxq := rfl
@[simp] theorem State.setLen_txbuf (s : State) (n : Byte) : (s.setLen n).txbuf = s.txbuf := rfl
@[simp] theorem State.setLen_txTag (s : State) (n : Byte) : (s.setLen n).txTag = s.txTag := rfl
@[simp] theorem State.setLen_handoffCause (s : State) (n : Byte) : (s.setLen n).handoffCause = s.handoffCause := rfl
@[simp] theorem State.setLen_ev (s : State) (n : Byte) : (s.setLen n).ev = s.ev := rfl
@[simp] theorem State.setLen_line (s : State) (n : Byte) : (s.setLen n).line = s.line := rfl
@[simp] theorem State.setLen_air (s : State) (n : Byte) : (s.setLen n).air = s.air := rfl
@[simp] theorem State.setLen_radioOut (s : State) (n : Byte) : (s.setLen n).radioOut = s.radioOut := rfl
@[simp] theorem State.setLen_acks (s : State) (n : Byte) : (s.setLen n).acks = s.acks := rfl
@[simp] theorem State.setLen_pauses (s : State) (n : Byte) : (s.setLen n).pauses = s.pauses := rfl
@[simp] theorem State.setLen_draws (s : State) (n : Byte) : (s.setLen n).draws = s.draws := rfl

/-! ### `State.setType` -/

@[simp] theorem State.setType_cfg (s : State) (n : Byte) : (s.setType n).cfg = s.cfg := rfl
@[simp] theorem State.setType_ph (s : State) (n : Byte) : (s.setType n).ph = s.ph := rfl
@[simp] theorem State.setType_addr (s : State) (n : Byte) : (s.setType n).addr = s.addr := rfl
@[simp] theorem State.setType_ext (s : State) (n : Byte) : (s.setType n).ext = s.ext := rfl
@[simp] theorem State.setType_len (s : State) (n : Byte) : (s.setType n).len = s.len := rfl
@[simp] theorem State.setType_memType (s : State) (n : Byte) : (s.setType n).memType = n := rfl
@[simp] theorem State.setType_pagebuf (s : State) (n : Byte) : (s.setType n).pagebuf = s.pagebuf := rfl
@[simp] theorem State.setType_shadowRst (s : State) (n : Byte) : (s.setType n).shadowRst = s.shadowRst := rfl
@[simp] theorem State.setType_shadowWdt (s : State) (n : Byte) : (s.setType n).shadowWdt = s.shadowWdt := rfl
@[simp] theorem State.setType_shadowSet (s : State) (n : Byte) : (s.setType n).shadowSet = s.shadowSet := rfl
@[simp] theorem State.setType_wdtCfg (s : State) (n : Byte) : (s.setType n).wdtCfg = s.wdtCfg := rfl
@[simp] theorem State.setType_wdtCnt (s : State) (n : Byte) : (s.setType n).wdtCnt = s.wdtCnt := rfl
@[simp] theorem State.setType_hwRstFlags (s : State) (n : Byte) : (s.setType n).hwRstFlags = s.hwRstFlags := rfl
@[simp] theorem State.setType_resetCause (s : State) (n : Byte) : (s.setType n).resetCause = s.resetCause := rfl
@[simp] theorem State.setType_marker (s : State) (n : Byte) : (s.setType n).marker = s.marker := rfl
@[simp] theorem State.setType_flash (s : State) (n : Byte) : (s.setType n).flash = s.flash := rfl
@[simp] theorem State.setType_wbuf (s : State) (n : Byte) : (s.setType n).wbuf = s.wbuf := rfl
@[simp] theorem State.setType_flashOp (s : State) (n : Byte) : (s.setType n).flashOp = s.flashOp := rfl
@[simp] theorem State.setType_rwwBlocked (s : State) (n : Byte) : (s.setType n).rwwBlocked = s.rwwBlocked := rfl
@[simp] theorem State.setType_eeprom (s : State) (n : Byte) : (s.setType n).eeprom = s.eeprom := rfl
@[simp] theorem State.setType_eeBusy (s : State) (n : Byte) : (s.setType n).eeBusy = s.eeBusy := rfl
@[simp] theorem State.setType_assoc (s : State) (n : Byte) : (s.setType n).assoc = s.assoc := rfl
@[simp] theorem State.setType_peer (s : State) (n : Byte) : (s.setType n).peer = s.peer := rfl
@[simp] theorem State.setType_maxlen (s : State) (n : Byte) : (s.setType n).maxlen = s.maxlen := rfl
@[simp] theorem State.setType_rxTag (s : State) (n : Byte) : (s.setType n).rxTag = s.rxTag := rfl
@[simp] theorem State.setType_rxq (s : State) (n : Byte) : (s.setType n).rxq = s.rxq := rfl
@[simp] theorem State.setType_txbuf (s : State) (n : Byte) : (s.setType n).txbuf = s.txbuf := rfl
@[simp] theorem State.setType_txTag (s : State) (n : Byte) : (s.setType n).txTag = s.txTag := rfl
@[simp] theorem State.setType_handoffCause (s : State) (n : Byte) : (s.setType n).handoffCause = s.handoffCause := rfl
@[simp] theorem State.setType_ev (s : State) (n : Byte) : (s.setType n).ev = s.ev := rfl
@[simp] theorem State.setType_line (s : State) (n : Byte) : (s.setType n).line = s.line := rfl
@[simp] theorem State.setType_air (s : State) (n : Byte) : (s.setType n).air = s.air := rfl
@[simp] theorem State.setType_radioOut (s : State) (n : Byte) : (s.setType n).radioOut = s.radioOut := rfl
@[simp] theorem State.setType_acks (s : State) (n : Byte) : (s.setType n).acks = s.acks := rfl
@[simp] theorem State.setType_pauses (s : State) (n : Byte) : (s.setType n).pauses = s.pauses := rfl
@[simp] theorem State.setType_draws (s : State) (n : Byte) : (s.setType n).draws = s.draws := rfl

/-! ### `State.setBuf` -/

@[simp] theorem State.setBuf_cfg (s : State) (i : Nat) (b : Byte) : (s.setBuf i b).cfg = s.cfg := rfl
@[simp] theorem State.setBuf_ph (s : State) (i : Nat) (b : Byte) : (s.setBuf i b).ph = s.ph := rfl
@[simp] theorem State.setBuf_addr (s : State) (i : Nat) (b : Byte) : (s.setBuf i b).addr = s.addr := rfl
@[simp] theorem State.setBuf_ext (s : State) (i : Nat) (b : Byte) : (s.setBuf i b).ext = s.ext := rfl
@[simp] theorem State.setBuf_len (s : State) (i : Nat) (b : Byte) : (s.setBuf i b).len = s.len := rfl
@[simp] theorem State.setBuf_memType (s : State) (i : Nat) (b : Byte) : (s.setBuf i b).memType = s.memType := rfl
@[simp] theorem State.setBuf_pagebuf (s : State) (i : Nat) (b : Byte) : (s.setBuf i b).pagebuf = s.pagebuf.set i b := rfl
@[simp] theorem State.setBuf_shadowRst (s : State) (i : Nat) (b : Byte) : (s.setBuf i b).shadowRst = s.shadowRst := rfl
@[simp] theorem State.setBuf_shadowWdt (s : State) (i : Nat) (b : Byte) : (s.setBuf i b).shadowWdt = s.shadowWdt := rfl
@[simp] theorem State.setBuf_shadowSet (s : State) (i : Nat) (b : Byte) : (s.setBuf i b).shadowSet = s.shadowSet := rfl
@[simp] theorem State.setBuf_wdtCfg (s : State) (i : Nat) (b : Byte) : (s.setBuf i b).wdtCfg = s.wdtCfg := rfl
@[simp] theorem State.setBuf_wdtCnt (s : State) (i : Nat) (b : Byte) : (s.setBuf i b).wdtCnt = s.wdtCnt := rfl
@[simp] theorem State.setBuf_hwRstFlags (s : State) (i : Nat) (b : Byte) : (s.setBuf i b).hwRstFlags = s.hwRstFlags := rfl
@[simp] theorem State.setBuf_resetCause (s : State) (i : Nat) (b : Byte) : (s.setBuf i b).resetCause = s.resetCause := rfl
@[simp] theorem State.setBuf_marker (s : State) (i : Nat) (b : Byte) : (s.setBuf i b).marker = s.marker := rfl
@[simp] theorem State.setBuf_flash (s : State) (i : Nat) (b : Byte) : (s.setBuf i b).flash = s.flash := rfl
@[simp] theorem State.setBuf_wbuf (s : State) (i : Nat) (b : Byte) : (s.setBuf i b).wbuf = s.wbuf := rfl
@[simp] theorem State.setBuf_flashOp (s : State) (i : Nat) (b : Byte) : (s.setBuf i b).flashOp = s.flashOp := rfl
@[simp] theorem State.setBuf_rwwBlocked (s : State) (i : Nat) (b : Byte) : (s.setBuf i b).rwwBlocked = s.rwwBlocked := rfl
@[simp] theorem State.setBuf_eeprom (s : State) (i : Nat) (b : Byte) : (s.setBuf i b).eeprom = s.eeprom := rfl
@[simp] theorem State.setBuf_eeBusy (s : State) (i : Nat) (b : Byte) : (s.setBuf i b).eeBusy = s.eeBusy := rfl
@[simp] theorem State.setBuf_assoc (s : State) (i : Nat) (b : Byte) : (s.setBuf i b).assoc = s.assoc := rfl
@[simp] theorem State.setBuf_peer (s : State) (i : Nat) (b : Byte) : (s.setBuf i b).peer = s.peer := rfl
@[simp] theorem State.setBuf_maxlen (s : State) (i : Nat) (b : Byte) : (s.setBuf i b).maxlen = s.maxlen := rfl
@[simp] theorem State.setBuf_rxTag (s : State) (i : Nat) (b : Byte) : (s.setBuf i b).rxTag = s.rxTag := rfl
@[simp] theorem State.setBuf_rxq (s : State) (i : Nat) (b : Byte) : (s.setBuf i b).rxq = s.rxq := rfl
@[simp] theorem State.setBuf_txbuf (s : State) (i : Nat) (b : Byte) : (s.setBuf i b).txbuf = s.txbuf := rfl
@[simp] theorem State.setBuf_txTag (s : State) (i : Nat) (b : Byte) : (s.setBuf i b).txTag = s.txTag := rfl
@[simp] theorem State.setBuf_handoffCause (s : State) (i : Nat) (b : Byte) : (s.setBuf i b).handoffCause = s.handoffCause := rfl
@[simp] theorem State.setBuf_ev (s : State) (i : Nat) (b : Byte) : (s.setBuf i b).ev = s.ev := rfl
@[simp] theorem State.setBuf_line (s : State) (i : Nat) (b : Byte) : (s.setBuf i b).line = s.line := rfl
@[simp] theorem State.setBuf_air (s : State) (i : Nat) (b : Byte) : (s.setBuf i b).air = s.air := rfl
@[simp] theorem State.setBuf_radioOut (s : State) (i : Nat) (b : Byte) : (s.setBuf i b).radioOut = s.radioOut := rfl
@[simp] theorem State.setBuf_acks (s : State) (i : Nat) (b : Byte) : (s.setBuf i b).acks = s.acks := rfl
@[simp] theorem State.setBuf_pauses (s : State) (i : Nat) (b : Byte) : (s.setBuf i b).pauses = s.pauses := rfl
@[simp] theorem State.setBuf_draws (s : State) (i : Nat) (b : Byte) : (s.setBuf i b).draws = s.draws := rfl

/-! ### `State.setAddress` -/

@[simp] theorem State.setAddress_cfg (s : State) (e : BitVec 1) (a : Word) : (s.setAddress e a).cfg = s.cfg := rfl
@[simp] theorem State.setAddress_ph (s : State) (e : BitVec 1) (a : Word) : (s.setAddress e a).ph = s.ph := rfl
@[simp] theorem State.setAddress_addr (s : State) (e : BitVec 1) (a : Word) : (s.setAddress e a).addr = a := rfl
@[simp] theorem State.setAddress_ext (s : State) (e : BitVec 1) (a : Word) : (s.setAddress e a).ext = e := rfl
@[simp] theorem State.setAddress_len (s : State) (e : BitVec 1) (a : Word) : (s.setAddress e a).len = s.len := rfl
@[simp] theorem State.setAddress_memType (s : State) (e : BitVec 1) (a : Word) : (s.setAddress e a).memType = s.memType := rfl
@[simp] theorem State.setAddress_pagebuf (s : State) (e : BitVec 1) (a : Word) : (s.setAddress e a).pagebuf = s.pagebuf := rfl
@[simp] theorem State.setAddress_shadowRst (s : State) (e : BitVec 1) (a : Word) : (s.setAddress e a).shadowRst = s.shadowRst := rfl
@[simp] theorem State.setAddress_shadowWdt (s : State) (e : BitVec 1) (a : Word) : (s.setAddress e a).shadowWdt = s.shadowWdt := rfl
@[simp] theorem State.setAddress_shadowSet (s : State) (e : BitVec 1) (a : Word) : (s.setAddress e a).shadowSet = s.shadowSet := rfl
@[simp] theorem State.setAddress_wdtCfg (s : State) (e : BitVec 1) (a : Word) : (s.setAddress e a).wdtCfg = s.wdtCfg := rfl
@[simp] theorem State.setAddress_wdtCnt (s : State) (e : BitVec 1) (a : Word) : (s.setAddress e a).wdtCnt = s.wdtCnt := rfl
@[simp] theorem State.setAddress_hwRstFlags (s : State) (e : BitVec 1) (a : Word) : (s.setAddress e a).hwRstFlags = s.hwRstFlags := rfl
@[simp] theorem State.setAddress_resetCause (s : State) (e : BitVec 1) (a : Word) : (s.setAddress e a).resetCause = s.resetCause := rfl
@[simp] theorem State.setAddress_marker (s : State) (e : BitVec 1) (a : Word) : (s.setAddress e a).marker = s.marker := rfl
@[simp] theorem State.setAddress_flash (s : State) (e : BitVec 1) (a : Word) : (s.setAddress e a).flash = s.flash := rfl
@[simp] theorem State.setAddress_wbuf (s : State) (e : BitVec 1) (a : Word) : (s.setAddress e a).wbuf = s.wbuf := rfl
@[simp] theorem State.setAddress_flashOp (s : State) (e : BitVec 1) (a : Word) : (s.setAddress e a).flashOp = s.flashOp := rfl
@[simp] theorem State.setAddress_rwwBlocked (s : State) (e : BitVec 1) (a : Word) : (s.setAddress e a).rwwBlocked = s.rwwBlocked := rfl
@[simp] theorem State.setAddress_eeprom (s : State) (e : BitVec 1) (a : Word) : (s.setAddress e a).eeprom = s.eeprom := rfl
@[simp] theorem State.setAddress_eeBusy (s : State) (e : BitVec 1) (a : Word) : (s.setAddress e a).eeBusy = s.eeBusy := rfl
@[simp] theorem State.setAddress_assoc (s : State) (e : BitVec 1) (a : Word) : (s.setAddress e a).assoc = s.assoc := rfl
@[simp] theorem State.setAddress_peer (s : State) (e : BitVec 1) (a : Word) : (s.setAddress e a).peer = s.peer := rfl
@[simp] theorem State.setAddress_maxlen (s : State) (e : BitVec 1) (a : Word) : (s.setAddress e a).maxlen = s.maxlen := rfl
@[simp] theorem State.setAddress_rxTag (s : State) (e : BitVec 1) (a : Word) : (s.setAddress e a).rxTag = s.rxTag := rfl
@[simp] theorem State.setAddress_rxq (s : State) (e : BitVec 1) (a : Word) : (s.setAddress e a).rxq = s.rxq := rfl
@[simp] theorem State.setAddress_txbuf (s : State) (e : BitVec 1) (a : Word) : (s.setAddress e a).txbuf = s.txbuf := rfl
@[simp] theorem State.setAddress_txTag (s : State) (e : BitVec 1) (a : Word) : (s.setAddress e a).txTag = s.txTag := rfl
@[simp] theorem State.setAddress_handoffCause (s : State) (e : BitVec 1) (a : Word) : (s.setAddress e a).handoffCause = s.handoffCause := rfl
@[simp] theorem State.setAddress_ev (s : State) (e : BitVec 1) (a : Word) : (s.setAddress e a).ev = s.ev := rfl
@[simp] theorem State.setAddress_line (s : State) (e : BitVec 1) (a : Word) : (s.setAddress e a).line = s.line := rfl
@[simp] theorem State.setAddress_air (s : State) (e : BitVec 1) (a : Word) : (s.setAddress e a).air = s.air := rfl
@[simp] theorem State.setAddress_radioOut (s : State) (e : BitVec 1) (a : Word) : (s.setAddress e a).radioOut = s.radioOut := rfl
@[simp] theorem State.setAddress_acks (s : State) (e : BitVec 1) (a : Word) : (s.setAddress e a).acks = s.acks := rfl
@[simp] theorem State.setAddress_pauses (s : State) (e : BitVec 1) (a : Word) : (s.setAddress e a).pauses = s.pauses := rfl
@[simp] theorem State.setAddress_draws (s : State) (e : BitVec 1) (a : Word) : (s.setAddress e a).draws = s.draws := rfl

/-! ### `State.startOp` -/

@[simp] theorem State.startOp_cfg (s : State) (op : FlashOp) : (s.startOp op).cfg = s.cfg := rfl
@[simp] theorem State.startOp_ph (s : State) (op : FlashOp) : (s.startOp op).ph = s.ph := rfl
@[simp] theorem State.startOp_addr (s : State) (op : FlashOp) : (s.startOp op).addr = s.addr := rfl
@[simp] theorem State.startOp_ext (s : State) (op : FlashOp) : (s.startOp op).ext = s.ext := rfl
@[simp] theorem State.startOp_len (s : State) (op : FlashOp) : (s.startOp op).len = s.len := rfl
@[simp] theorem State.startOp_memType (s : State) (op : FlashOp) : (s.startOp op).memType = s.memType := rfl
@[simp] theorem State.startOp_pagebuf (s : State) (op : FlashOp) : (s.startOp op).pagebuf = s.pagebuf := rfl
@[simp] theorem State.startOp_shadowRst (s : State) (op : FlashOp) : (s.startOp op).shadowRst = s.shadowRst := rfl
@[simp] theorem State.startOp_shadowWdt (s : State) (op : FlashOp) : (s.startOp op).shadowWdt = s.shadowWdt := rfl
@[simp] theorem State.startOp_shadowSet (s : State) (op : FlashOp) : (s.startOp op).shadowSet = s.shadowSet := rfl
@[simp] theorem State.startOp_wdtCfg (s : State) (op : FlashOp) : (s.startOp op).wdtCfg = s.wdtCfg := rfl
@[simp] theorem State.startOp_wdtCnt (s : State) (op : FlashOp) : (s.startOp op).wdtCnt = s.wdtCnt := rfl
@[simp] theorem State.startOp_hwRstFlags (s : State) (op : FlashOp) : (s.startOp op).hwRstFlags = s.hwRstFlags := rfl
@[simp] theorem State.startOp_resetCause (s : State) (op : FlashOp) : (s.startOp op).resetCause = s.resetCause := rfl
@[simp] theorem State.startOp_marker (s : State) (op : FlashOp) : (s.startOp op).marker = s.marker := rfl
@[simp] theorem State.startOp_flash (s : State) (op : FlashOp) : (s.startOp op).flash = s.flash := rfl
@[simp] theorem State.startOp_wbuf (s : State) (op : FlashOp) : (s.startOp op).wbuf = s.wbuf := rfl
@[simp] theorem State.startOp_flashOp (s : State) (op : FlashOp) : (s.startOp op).flashOp = op := rfl
@[simp] theorem State.startOp_rwwBlocked (s : State) (op : FlashOp) : (s.startOp op).rwwBlocked = (s.rwwBlocked || s.cfg.needsRwwEnable) := rfl
@[simp] theorem State.startOp_eeprom (s : State) (op : FlashOp) : (s.startOp op).eeprom = s.eeprom := rfl
@[simp] theorem State.startOp_eeBusy (s : State) (op : FlashOp) : (s.startOp op).eeBusy = s.eeBusy := rfl
@[simp] theorem State.startOp_assoc (s : State) (op : FlashOp) : (s.startOp op).assoc = s.assoc := rfl
@[simp] theorem State.startOp_peer (s : State) (op : FlashOp) : (s.startOp op).peer = s.peer := rfl
@[simp] theorem State.startOp_maxlen (s : State) (op : FlashOp) : (s.startOp op).maxlen = s.maxlen := rfl
@[simp] theorem State.startOp_rxTag (s : State) (op : FlashOp) : (s.startOp op).rxTag = s.rxTag := rfl
@[simp] theorem State.startOp_rxq (s : State) (op : FlashOp) : (s.startOp op).rxq = s.rxq := rfl
@[simp] theorem State.startOp_txbuf (s : State) (op : FlashOp) : (s.startOp op).txbuf = s.txbuf := rfl
@[simp] theorem State.startOp_txTag (s : State) (op : FlashOp) : (s.startOp op).txTag = s.txTag := rfl
@[simp] theorem State.startOp_handoffCause (s : State) (op : FlashOp) : (s.startOp op).handoffCause = s.handoffCause := rfl
@[simp] theorem State.startOp_ev (s : State) (op : FlashOp) : (s.startOp op).ev = s.ev := rfl
@[simp] theorem State.startOp_line (s : State) (op : FlashOp) : (s.startOp op).line = s.line := rfl
@[simp] theorem State.startOp_air (s : State) (op : FlashOp) : (s.startOp op).air = s.air := rfl
@[simp] theorem State.startOp_radioOut (s : State) (op : FlashOp) : (s.startOp op).radioOut = s.radioOut := rfl
@[simp] theorem State.startOp_acks (s : State) (op : FlashOp) : (s.startOp op).acks = s.acks := rfl
@[simp] theorem State.startOp_pauses (s : State) (op : FlashOp) : (s.startOp op).pauses = s.pauses := rfl
@[simp] theorem State.startOp_draws (s : State) (op : FlashOp) : (s.startOp op).draws = s.draws := rfl

/-! ### `State.fillPair` -/

@[simp] theorem State.fillPair_cfg (s : State) (i : Nat) (w : Word) : (s.fillPair i w).cfg = s.cfg := rfl
@[simp] theorem State.fillPair_ph (s : State) (i : Nat) (w : Word) : (s.fillPair i w).ph = s.ph := rfl
@[simp] theorem State.fillPair_addr (s : State) (i : Nat) (w : Word) : (s.fillPair i w).addr = s.addr := rfl
@[simp] theorem State.fillPair_ext (s : State) (i : Nat) (w : Word) : (s.fillPair i w).ext = s.ext := rfl
@[simp] theorem State.fillPair_len (s : State) (i : Nat) (w : Word) : (s.fillPair i w).len = s.len := rfl
@[simp] theorem State.fillPair_memType (s : State) (i : Nat) (w : Word) : (s.fillPair i w).memType = s.memType := rfl
@[simp] theorem State.fillPair_pagebuf (s : State) (i : Nat) (w : Word) : (s.fillPair i w).pagebuf = s.pagebuf := rfl
@[simp] theorem State.fillPair_shadowRst (s : State) (i : Nat) (w : Word) : (s.fillPair i w).shadowRst = s.shadowRst := rfl
@[simp] theorem State.fillPair_shadowWdt (s : State) (i : Nat) (w : Word) : (s.fillPair i w).shadowWdt = s.shadowWdt := rfl
@[simp] theorem State.fillPair_shadowSet (s : State) (i : Nat) (w : Word) : (s.fillPair i w).shadowSet = s.shadowSet := rfl
@[simp] theorem State.fillPair_wdtCfg (s : State) (i : Nat) (w : Word) : (s.fillPair i w).wdtCfg = s.wdtCfg := rfl
@[simp] theorem State.fillPair_wdtCnt (s : State) (i : Nat) (w : Word) : (s.fillPair i w).wdtCnt = s.wdtCnt := rfl
@[simp] theorem State.fillPair_hwRstFlags (s : State) (i : Nat) (w : Word) : (s.fillPair i w).hwRstFlags = s.hwRstFlags := rfl
@[simp] theorem State.fillPair_resetCause (s : State) (i : Nat) (w : Word) : (s.fillPair i w).resetCause = s.resetCause := rfl
@[simp] theorem State.fillPair_marker (s : State) (i : Nat) (w : Word) : (s.fillPair i w).marker = s.marker := rfl
@[simp] theorem State.fillPair_flash (s : State) (i : Nat) (w : Word) : (s.fillPair i w).flash = s.flash := rfl
@[simp] theorem State.fillPair_wbuf (s : State) (i : Nat) (w : Word) : (s.fillPair i w).wbuf = (s.wbuf.set i (some (lo8 w))).set (i + 1) (some (hi8 w)) := rfl
@[simp] theorem State.fillPair_flashOp (s : State) (i : Nat) (w : Word) : (s.fillPair i w).flashOp = s.flashOp := rfl
@[simp] theorem State.fillPair_rwwBlocked (s : State) (i : Nat) (w : Word) : (s.fillPair i w).rwwBlocked = s.rwwBlocked := rfl
@[simp] theorem State.fillPair_eeprom (s : State) (i : Nat) (w : Word) : (s.fillPair i w).eeprom = s.eeprom := rfl
@[simp] theorem State.fillPair_eeBusy (s : State) (i : Nat) (w : Word) : (s.fillPair i w).eeBusy = s.eeBusy := rfl
@[simp] theorem State.fillPair_assoc (s : State) (i : Nat) (w : Word) : (s.fillPair i w).assoc = s.assoc := rfl
@[simp] theorem State.fillPair_peer (s : State) (i : Nat) (w : Word) : (s.fillPair i w).peer = s.peer := rfl
@[simp] theorem State.fillPair_maxlen (s : State) (i : Nat) (w : Word) : (s.fillPair i w).maxlen = s.maxlen := rfl
@[simp] theorem State.fillPair_rxTag (s : State) (i : Nat) (w : Word) : (s.fillPair i w).rxTag = s.rxTag := rfl
@[simp] theorem State.fillPair_rxq (s : State) (i : Nat) (w : Word) : (s.fillPair i w).rxq = s.rxq := rfl
@[simp] theorem State.fillPair_txbuf (s : State) (i : Nat) (w : Word) : (s.fillPair i w).txbuf = s.txbuf := rfl
@[simp] theorem State.fillPair_txTag (s : State) (i : Nat) (w : Word) : (s.fillPair i w).txTag = s.txTag := rfl
@[simp] theorem State.fillPair_handoffCause (s : State) (i : Nat) (w : Word) : (s.fillPair i w).handoffCause = s.handoffCause := rfl
@[simp] theorem State.fillPair_ev (s : State) (i : Nat) (w : Word) : (s.fillPair i w).ev = s.ev := rfl
@[simp] theorem State.fillPair_line (s : State) (i : Nat) (w : Word) : (s.fillPair i w).line = s.line := rfl
@[simp] theorem State.fillPair_air (s : State) (i : Nat) (w : Word) : (s.fillPair i w).air = s.air := rfl
@[simp] theorem State.fillPair_radioOut (s : State) (i : Nat) (w : Word) : (s.fillPair i w).radioOut = s.radioOut := rfl
@[simp] theorem State.fillPair_acks (s : State) (i : Nat) (w : Word) : (s.fillPair i w).acks = s.acks := rfl
@[simp] theorem State.fillPair_pauses (s : State) (i : Nat) (w : Word) : (s.fillPair i w).pauses = s.pauses := rfl
@[simp] theorem State.fillPair_draws (s : State) (i : Nat) (w : Word) : (s.fillPair i w).draws = s.draws := rfl

/-! ### `State.unblock` -/

@[simp] theorem State.unblock_cfg (s : State) : s.unblock.cfg = s.cfg := rfl
@[simp] theorem State.unblock_ph (s : State) : s.unblock.ph = s.ph := rfl
@[simp] theorem State.unblock_addr (s : State) : s.unblock.addr = s.addr := rfl
@[simp] theorem State.unblock_ext (s : State) : s.unblock.ext = s.ext := rfl
@[simp] theorem State.unblock_len (s : State) : s.unblock.len = s.len := rfl
@[simp] theorem State.unblock_memType (s : State) : s.unblock.memType = s.memType := rfl
@[simp] theorem State.unblock_pagebuf (s : State) : s.unblock.pagebuf = s.pagebuf := rfl
@[simp] theorem State.unblock_shadowRst (s : State) : s.unblock.shadowRst = s.shadowRst := rfl
@[simp] theorem State.unblock_shadowWdt (s : State) : s.unblock.shadowWdt = s.shadowWdt := rfl
@[simp] theorem State.unblock_shadowSet (s : State) : s.unblock.shadowSet = s.shadowSet := rfl
@[simp] theorem State.unblock_wdtCfg (s : State) : s.unblock.wdtCfg = s.wdtCfg := rfl
@[simp] theorem State.unblock_wdtCnt (s : State) : s.unblock.wdtCnt = s.wdtCnt := rfl
@[simp] theorem State.unblock_hwRstFlags (s : State) : s.unblock.hwRstFlags = s.hwRstFlags := rfl
@[simp] theorem State.unblock_resetCause (s : State) : s.unblock.resetCause = s.resetCause := rfl
@[simp] theorem State.unblock_marker (s : State) : s.unblock.marker = s.marker := rfl
@[simp] theorem State.unblock_flash (s : State) : s.unblock.flash = s.flash := rfl
@[simp] theorem State.unblock_wbuf (s : State) : s.unblock.wbuf = s.wbuf := rfl
@[simp] theorem State.unblock_flashOp (s : State) : s.unblock.flashOp = s.flashOp := rfl
@[simp] theorem State.unblock_rwwBlocked (s : State) : s.unblock.rwwBlocked = false := rfl
@[simp] theorem State.unblock_eeprom (s : State) : s.unblock.eeprom = s.eeprom := rfl
@[simp] theorem State.unblock_eeBusy (s : State) : s.unblock.eeBusy = s.eeBusy := rfl
@[simp] theorem State.unblock_assoc (s : State) : s.unblock.assoc = s.assoc := rfl
@[simp] theorem State.unblock_peer (s : State) : s.unblock.peer = s.peer := rfl
@[simp] theorem State.unblock_maxlen (s : State) : s.unblock.maxlen = s.maxlen := rfl
@[simp] theorem State.unblock_rxTag (s : State) : s.unblock.rxTag = s.rxTag := rfl
@[simp] theorem State.unblock_rxq (s : State) : s.unblock.rxq = s.rxq := rfl
@[simp] theorem State.unblock_txbuf (s : State) : s.unblock.txbuf = s.txbuf := rfl
@[simp] theorem State.unblock_txTag (s : State) : s.unblock.txTag = s.txTag := rfl
@[simp] theorem State.unblock_handoffCause (s : State) : s.unblock.handoffCause = s.handoffCause := rfl
@[simp] theorem State.unblock_ev (s : State) : s.unblock.ev = s.ev := rfl
@[simp] theorem State.unblock_line (s : State) : s.unblock.line = s.line := rfl
@[simp] theorem State.unblock_air (s : State) : s.unblock.air = s.air := rfl
@[simp] theorem State.unblock_radioOut (s : State) : s.unblock.radioOut = s.radioOut := rfl
@[simp] theorem State.unblock_acks (s : State) : s.unblock.acks = s.acks := rfl
@[simp] theorem State.unblock_pauses (s : State) : s.unblock.pauses = s.pauses := rfl
@[simp] theorem State.unblock_draws (s : State) : s.unblock.draws = s.draws := rfl

/-! ### `State.latch` -/

@[simp] theorem State.latch_cfg (s : State) (a : Nat) (b : Byte) : (s.latch a b).cfg = s.cfg := rfl
@[simp] theorem State.latch_ph (s : State) (a : Nat) (b : Byte) : (s.latch a b).ph = s.ph := rfl
@[simp] theorem State.latch_addr (s : State) (a : Nat) (b : Byte) : (s.latch a b).addr = s.addr := rfl
@[simp] theorem State.latch_ext (s : State) (a : Nat) (b : Byte) : (s.latch a b).ext = s.ext := rfl
@[simp] theorem State.latch_len (s : State) (a : Nat) (b : Byte) : (s.latch a b).len = s.len := rfl
@[simp] theorem State.latch_memType (s : State) (a : Nat) (b : Byte) : (s.latch a b).memType = s.memType := rfl
@[simp] theorem State.latch_pagebuf (s : State) (a : Nat) (b : Byte) : (s.latch a b).pagebuf = s.pagebuf := rfl
@[simp] theorem State.latch_shadowRst (s : State) (a : Nat) (b : Byte) : (s.latch a b).shadowRst = s.shadowRst := rfl
@[simp] theorem State.latch_shadowWdt (s : State) (a : Nat) (b : Byte) : (s.latch a b).shadowWdt = s.shadowWdt := rfl
@[simp] theorem State.latch_shadowSet (s : State) (a : Nat) (b : Byte) : (s.latch a b).shadowSet = s.shadowSet := rfl
@[simp] theorem State.latch_wdtCfg (s : State) (a : Nat) (b : Byte) : (s.latch a b).wdtCfg = s.wdtCfg := rfl
@[simp] theorem State.latch_wdtCnt (s : State) (a : Nat) (b : Byte) : (s.latch a b).wdtCnt = s.wdtCnt := rfl
@[simp] theorem State.latch_hwRstFlags (s : State) (a : Nat) (b : Byte) : (s.latch a b).hwRstFlags = s.hwRstFlags := rfl
@[simp] theorem State.latch_resetCause (s : State) (a : Nat) (b : Byte) : (s.latch a b).resetCause = s.resetCause := rfl
@[simp] theorem State.latch_marker (s : State) (a : Nat) (b : Byte) : (s.latch a b).marker = s.marker := rfl
@[simp] theorem State.latch_flash (s : State) (a : Nat) (b : Byte) : (s.latch a b).flash = s.flash := rfl
@[simp] theorem State.latch_wbuf (s : State) (a : Nat) (b : Byte) : (s.latch a b).wbuf = s.wbuf := rfl
@[simp] theorem State.latch_flashOp (s : State) (a : Nat) (b : Byte) : (s.latch a b).flashOp = s.flashOp := rfl
@[simp] theorem State.latch_rwwBlocked (s : State) (a : Nat) (b : Byte) : (s.latch a b).rwwBlocked = s.rwwBlocked := rfl
@[simp] theorem State.latch_eeprom (s : State) (a : Nat) (b : Byte) : (s.latch a b).eeprom = s.eeprom := rfl
@[simp] theorem State.latch_eeBusy (s : State) (a : Nat) (b : Byte) : (s.latch a b).eeBusy = some (a, b) := rfl
@[simp] theorem State.latch_assoc (s : State) (a : Nat) (b : Byte) : (s.latch a b).assoc = s.assoc := rfl
@[simp] theorem State.latch_peer (s : State) (a : Nat) (b : Byte) : (s.latch a b).peer = s.peer := rfl
@[simp] theorem State.latch_maxlen (s : State) (a : Nat) (b : Byte) : (s.latch a b).maxlen = s.maxlen := rfl
@[simp] theorem State.latch_rxTag (s : State) (a : Nat) (b : Byte) : (s.latch a b).rxTag = s.rxTag := rfl
@[simp] theorem State.latch_rxq (s : State) (a : Nat) (b : Byte) : (s.latch a b).rxq = s.rxq := rfl
@[simp] theorem State.latch_txbuf (s : State) (a : Nat) (b : Byte) : (s.latch a b).txbuf = s.txbuf := rfl
@[simp] theorem State.latch_txTag (s : State) (a : Nat) (b : Byte) : (s.latch a b).txTag = s.txTag := rfl
@[simp] theorem State.latch_handoffCause (s : State) (a : Nat) (b : Byte) : (s.latch a b).handoffCause = s.handoffCause := rfl
@[simp] theorem State.latch_ev (s : State) (a : Nat) (b : Byte) : (s.latch a b).ev = s.ev := rfl
@[simp] theorem State.latch_line (s : State) (a : Nat) (b : Byte) : (s.latch a b).line = s.line := rfl
@[simp] theorem State.latch_air (s : State) (a : Nat) (b : Byte) : (s.latch a b).air = s.air := rfl
@[simp] theorem State.latch_radioOut (s : State) (a : Nat) (b : Byte) : (s.latch a b).radioOut = s.radioOut := rfl
@[simp] theorem State.latch_acks (s : State) (a : Nat) (b : Byte) : (s.latch a b).acks = s.acks := rfl
@[simp] theorem State.latch_pauses (s : State) (a : Nat) (b : Byte) : (s.latch a b).pauses = s.pauses := rfl
@[simp] theorem State.latch_draws (s : State) (a : Nat) (b : Byte) : (s.latch a b).draws = s.draws := rfl

/-! ### `State.serviced` -/

@[simp] theorem State.serviced_cfg (s : State) : s.serviced.cfg = s.cfg := rfl
@[simp] theorem State.serviced_ph (s : State) : s.serviced.ph = s.ph := rfl
@[simp] theorem State.serviced_addr (s : State) : s.serviced.addr = s.addr := rfl
@[simp] theorem State.serviced_ext (s : State) : s.serviced.ext = s.ext := rfl
@[simp] theorem State.serviced_len (s : State) : s.serviced.len = s.len := rfl
@[simp] theorem State.serviced_memType (s : State) : s.serviced.memType = s.memType := rfl
@[simp] theorem State.serviced_pagebuf (s : State) : s.serviced.pagebuf = s.pagebuf := rfl
@[simp] theorem State.serviced_shadowRst (s : State) : s.serviced.shadowRst = s.shadowRst := rfl
@[simp] theorem State.serviced_shadowWdt (s : State) : s.serviced.shadowWdt = s.shadowWdt := rfl
@[simp] theorem State.serviced_shadowSet (s : State) : s.serviced.shadowSet = s.shadowSet := rfl
@[simp] theorem State.serviced_wdtCfg (s : State) : s.serviced.wdtCfg = s.wdtCfg := rfl
@[simp] theorem State.serviced_wdtCnt (s : State) : s.serviced.wdtCnt = 0 := rfl
@[simp] theorem State.serviced_hwRstFlags (s : State) : s.serviced.hwRstFlags = s.hwRstFlags := rfl
@[simp] theorem State.serviced_resetCause (s : State) : s.serviced.resetCause = s.resetCause := rfl
@[simp] theorem State.serviced_marker (s : State) : s.serviced.marker = s.marker := rfl
@[simp] theorem State.serviced_flash (s : State) : s.serviced.flash = s.flash := rfl
@[simp] theorem State.serviced_wbuf (s : State) : s.serviced.wbuf = s.wbuf := rfl
@[simp] theorem State.serviced_flashOp (s : State) : s.serviced.flashOp = s.flashOp := rfl
@[simp] theorem State.serviced_rwwBlocked (s : State) : s.serviced.rwwBlocked = s.rwwBlocked := rfl
@[simp] theorem State.serviced_eeprom (s : State) : s.serviced.eeprom = s.eeprom := rfl
@[simp] theorem State.serviced_eeBusy (s : State) : s.serviced.eeBusy = s.eeBusy := rfl
@[simp] theorem State.serviced_assoc (s : State) : s.serviced.assoc = s.assoc := rfl
@[simp] theorem State.serviced_peer (s : State) : s.serviced.peer = s.peer := rfl
@[simp] theorem State.serviced_maxlen (s : State) : s.serviced.maxlen = s.maxlen := rfl
@[simp] theorem State.serviced_rxTag (s : State) : s.serviced.rxTag = s.rxTag := rfl
@[simp] theorem State.serviced_rxq (s : State) : s.serviced.rxq = s.rxq := rfl
@[simp] theorem State.serviced_txbuf (s : State) : s.serviced.txbuf = s.txbuf := rfl
@[simp] theorem State.serviced_txTag (s : State) : s.serviced.txTag = s.txTag := rfl
@[simp] theorem State.serviced_handoffCause (s : State) : s.serviced.handoffCause = s.handoffCause := rfl
@[simp] theorem State.serviced_ev (s : State) : s.serviced.ev = s.ev ++ [.service] := rfl
@[simp] theorem State.serviced_line (s : State) : s.serviced.line = s.line := rfl
@[simp] theorem State.serviced_air (s : State) : s.serviced.air = s.air := rfl
@[simp] theorem State.serviced_radioOut (s : State) : s.serviced.radioOut = s.radioOut := rfl
@[simp] theorem State.serviced_acks (s : State) : s.serviced.acks = s.acks := rfl
@[simp] theorem State.serviced_pauses (s : State) : s.serviced.pauses = s.pauses := rfl
@[simp] theorem State.serviced_draws (s : State) : s.serviced.draws = s.draws := rfl

/-! ### `State.configured` -/

@[simp] theorem State.configured_cfg (s : State) (w : WdtCfg) : (s.configured w).cfg = s.cfg := rfl
@[simp] theorem State.configured_ph (s : State) (w : WdtCfg) : (s.configured w).ph = s.ph := rfl
@[simp] theorem State.configured_addr (s : State) (w : WdtCfg) : (s.configured w).addr = s.addr := rfl
@[simp] theorem State.configured_ext (s : State) (w : WdtCfg) : (s.configured w).ext = s.ext := rfl
@[simp] theorem State.configured_len (s : State) (w : WdtCfg) : (s.configured w).len = s.len := rfl
@[simp] theorem State.configured_memType (s : State) (w : WdtCfg) : (s.configured w).memType = s.memType := rfl
@[simp] theorem State.configured_pagebuf (s : State) (w : WdtCfg) : (s.configured w).pagebuf = s.pagebuf := rfl
@[simp] theorem State.configured_shadowRst (s : State) (w : WdtCfg) : (s.configured w).shadowRst = s.shadowRst := rfl
@[simp] theorem State.configured_shadowWdt (s : State) (w : WdtCfg) : (s.configured w).shadowWdt = s.shadowWdt := rfl
@[simp] theorem State.configured_shadowSet (s : State) (w : WdtCfg) : (s.configured w).shadowSet = s.shadowSet := rfl
@[simp] theorem State.configured_wdtCfg (s : State) (w : WdtCfg) : (s.configured w).wdtCfg = w := rfl
@[simp] theorem State.configured_wdtCnt (s : State) (w : WdtCfg) : (s.configured w).wdtCnt = s.wdtCnt := rfl
@[simp] theorem State.configured_hwRstFlags (s : State) (w : WdtCfg) : (s.configured w).hwRstFlags = s.hwRstFlags := rfl
@[simp] theorem State.configured_resetCause (s : State) (w : WdtCfg) : (s.configured w).resetCause = s.resetCause := rfl
@[simp] theorem State.configured_marker (s : State) (w : WdtCfg) : (s.configured w).marker = s.marker := rfl
@[simp] theorem State.configured_flash (s : State) (w : WdtCfg) : (s.configured w).flash = s.flash := rfl
@[simp] theorem State.configured_wbuf (s : State) (w : WdtCfg) : (s.configured w).wbuf = s.wbuf := rfl
@[simp] theorem State.configured_flashOp (s : State) (w : WdtCfg) : (s.configured w).flashOp = s.flashOp := rfl
@[simp] theorem State.configured_rwwBlocked (s : State) (w : WdtCfg) : (s.configured w).rwwBlocked = s.rwwBlocked := rfl
@[simp] theorem State.configured_eeprom (s : State) (w : WdtCfg) : (s.configured w).eeprom = s.eeprom := rfl
@[simp] theorem State.configured_eeBusy (s : State) (w : WdtCfg) : (s.configured w).eeBusy = s.eeBusy := rfl
@[simp] theorem State.configured_assoc (s : State) (w : WdtCfg) : (s.configured w).assoc = s.assoc := rfl
@[simp] theorem State.configured_peer (s : State) (w : WdtCfg) : (s.configured w).peer = s.peer := rfl
@[simp] theorem State.configured_maxlen (s : State) (w : WdtCfg) : (s.configured w).maxlen = s.maxlen := rfl
@[simp] theorem State.configured_rxTag (s : State) (w : WdtCfg) : (s.configured w).rxTag = s.rxTag := rfl
@[simp] theorem State.configured_rxq (s : State) (w : WdtCfg) : (s.configured w).rxq = s.rxq := rfl
@[simp] theorem State.configured_txbuf (s : State) (w : WdtCfg) : (s.configured w).txbuf = s.txbuf := rfl
@[simp] theorem State.configured_txTag (s : State) (w : WdtCfg) : (s.configured w).txTag = s.txTag := rfl
@[simp] theorem State.configured_handoffCause (s : State) (w : WdtCfg) : (s.configured w).handoffCause = s.handoffCause := rfl
@[simp] theorem State.configured_ev (s : State) (w : WdtCfg) : (s.configured w).ev = s.ev ++ [.config w] := rfl
@[simp] theorem State.configured_line (s : State) (w : WdtCfg) : (s.configured w).line = s.line := rfl
@[simp] theorem State.configured_air (s : State) (w : WdtCfg) : (s.configured w).air = s.air := rfl
@[simp] theorem State.configured_radioOut (s : State) (w : WdtCfg) : (s.configured w).radioOut = s.radioOut := rfl
@[simp] theorem State.configured_acks (s : State) (w : WdtCfg) : (s.configured w).acks = s.acks := rfl
@[simp] theorem State.configured_pauses (s : State) (w : WdtCfg) : (s.configured w).pauses = s.pauses := rfl
@[simp] theorem State.configured_draws (s : State) (w : WdtCfg) : (s.configured w).draws = s.draws := rfl

/-! ### `State.marked` -/

@[simp] theorem State.marked_cfg (s : State) : s.marked.cfg = s.cfg := rfl
@[simp] theorem State.marked_ph (s : State) : s.marked.ph = s.ph := rfl
@[simp] theorem State.marked_addr (s : State) : s.marked.addr = s.addr := rfl
@[simp] theorem State.marked_ext (s : State) : s.marked.ext = s.ext := rfl
@[simp] theorem State.marked_len (s : State) : s.marked.len = s.len := rfl
@[simp] theorem State.marked_memType (s : State) : s.marked.memType = s.memType := rfl
@[simp] theorem State.marked_pagebuf (s : State) : s.marked.pagebuf = s.pagebuf := rfl
@[simp] theorem State.marked_shadowRst (s : State) : s.marked.shadowRst = s.shadowRst := rfl
@[simp] theorem State.marked_shadowWdt (s : State) : s.marked.shadowWdt = s.shadowWdt := rfl
@[simp] theorem State.marked_shadowSet (s : State) : s.marked.shadowSet = s.shadowSet := rfl
@[simp] theorem State.marked_wdtCfg (s : State) : s.marked.wdtCfg = s.wdtCfg := rfl
@[simp] theorem State.marked_wdtCnt (s : State) : s.marked.wdtCnt = s.wdtCnt := rfl
@[simp] theorem State.marked_hwRstFlags (s : State) : s.marked.hwRstFlags = s.hwRstFlags := rfl
@[simp] theorem State.marked_resetCause (s : State) : s.marked.resetCause = s.resetCause := rfl
@[simp] theorem State.marked_marker (s : State) : s.marked.marker = true := rfl
@[simp] theorem State.marked_flash (s : State) : s.marked.flash = s.flash := rfl
@[simp] theorem State.marked_wbuf (s : State) : s.marked.wbuf = s.wbuf := rfl
@[simp] theorem State.marked_flashOp (s : State) : s.marked.flashOp = s.flashOp := rfl
@[simp] theorem State.marked_rwwBlocked (s : State) : s.marked.rwwBlocked = s.rwwBlocked := rfl
@[simp] theorem State.marked_eeprom (s : State) : s.marked.eeprom = s.eeprom := rfl
@[simp] theorem State.marked_eeBusy (s : State) : s.marked.eeBusy = s.eeBusy := rfl
@[simp] theorem State.marked_assoc (s : State) : s.marked.assoc = s.assoc := rfl
@[simp] theorem State.marked_peer (s : State) : s.marked.peer = s.peer := rfl
@[simp] theorem State.marked_maxlen (s : State) : s.marked.maxlen = s.maxlen := rfl
@[simp] theorem State.marked_rxTag (s : State) : s.marked.rxTag = s.rxTag := rfl
@[simp] theorem State.marked_rxq (s : State) : s.marked.rxq = s.rxq := rfl
@[simp] theorem State.marked_txbuf (s : State) : s.marked.txbuf = s.txbuf := rfl
@[simp] theorem State.marked_txTag (s : State) : s.marked.txTag = s.txTag := rfl
@[simp] theorem State.marked_handoffCause (s : State) : s.marked.handoffCause = s.handoffCause := rfl
@[simp] theorem State.marked_ev (s : State) : s.marked.ev = s.ev := rfl
@[simp] theorem State.marked_line (s : State) : s.marked.line = s.line := rfl
@[simp] theorem State.marked_air (s : State) : s.marked.air = s.air := rfl
@[simp] theorem State.marked_radioOut (s : State) : s.marked.radioOut = s.radioOut := rfl
@[simp] theorem State.marked_acks (s : State) : s.marked.acks = s.acks := rfl
@[simp] theorem State.marked_pauses (s : State) : s.marked.pauses = s.pauses := rfl
@[simp] theorem State.marked_draws (s : State) : s.marked.draws = s.draws := rfl

/-! ### `State.accepted` -/

@[simp] theorem State.accepted_cfg (s : State) (tag : Byte) (payload : List Byte) : (s.accepted tag payload).cfg = s.cfg := rfl
@[simp] theorem State.accepted_ph (s : State) (tag : Byte) (payload : List Byte) : (s.accepted tag payload).ph = s.ph := rfl
@[simp] theorem State.accepted_addr (s : State) (tag : Byte) (payload : List Byte) : (s.accepted tag payload).addr = s.addr := rfl
@[simp] theorem State.accepted_ext (s : State) (tag : Byte) (payload : List Byte) : (s.accepted tag payload).ext = s.ext := rfl
@[simp] theorem State.accepted_len (s : State) (tag : Byte) (payload : List Byte) : (s.accepted tag payload).len = s.len := rfl
@[simp] theorem State.accepted_memType (s : State) (tag : Byte) (payload : List Byte) : (s.accepted tag payload).memType = s.memType := rfl
@[simp] theorem State.accepted_pagebuf (s : State) (tag : Byte) (payload : List Byte) : (s.accepted tag payload).pagebuf = s.pagebuf := rfl
@[simp] theorem State.accepted_shadowRst (s : State) (tag : Byte) (payload : List Byte) : (s.accepted tag payload).shadowRst = s.shadowRst := rfl
@[simp] theorem State.accepted_shadowWdt (s : State) (tag : Byte) (payload : List Byte) : (s.accepted tag payload).shadowWdt = s.shadowWdt := rfl
@[simp] theorem State.accepted_shadowSet (s : State) (tag : Byte) (payload : List Byte) : (s.accepted tag payload).shadowSet = s.shadowSet := rfl
@[simp] theorem State.accepted_wdtCfg (s : State) (tag : Byte) (payload : List Byte) : (s.accepted tag payload).wdtCfg = s.wdtCfg := rfl
@[simp] theorem State.accepted_wdtCnt (s : State) (tag : Byte) (payload : List Byte) : (s.accepted tag payload).wdtCnt = s.wdtCnt := rfl
@[simp] theorem State.accepted_hwRstFlags (s : State) (tag : Byte) (payload : List Byte) : (s.accepted tag payload).hwRstFlags = s.hwRstFlags := rfl
@[simp] theorem State.accepted_resetCause (s : State) (tag : Byte) (payload : List Byte) : (s.accepted tag payload).resetCause = s.resetCause := rfl
@[simp] theorem State.accepted_marker (s : State) (tag : Byte) (payload : List Byte) : (s.accepted tag payload).marker = s.marker := rfl
@[simp] theorem State.accepted_flash (s : State) (tag : Byte) (payload : List Byte) : (s.accepted tag payload).flash = s.flash := rfl
@[simp] theorem State.accepted_wbuf (s : State) (tag : Byte) (payload : List Byte) : (s.accepted tag payload).wbuf = s.wbuf := rfl
@[simp] theorem State.accepted_flashOp (s : State) (tag : Byte) (payload : List Byte) : (s.accepted tag payload).flashOp = s.flashOp := rfl
@[simp] theorem State.accepted_rwwBlocked (s : State) (tag : Byte) (payload : List Byte) : (s.accepted tag payload).rwwBlocked = s.rwwBlocked := rfl
@[simp] theorem State.accepted_eeprom (s : State) (tag : Byte) (payload : List Byte) : (s.accepted tag payload).eeprom = s.eeprom := rfl
@[simp] theorem State.accepted_eeBusy (s : State) (tag : Byte) (payload : List Byte) : (s.accepted tag payload).eeBusy = s.eeBusy := rfl
@[simp] theorem State.accepted_assoc (s : State) (tag : Byte) (payload : List Byte) : (s.accepted tag payload).assoc = s.assoc := rfl
@[simp] theorem State.accepted_peer (s : State) (tag : Byte) (payload : List Byte) : (s.accepted tag payload).peer = s.peer := rfl
@[simp] theorem State.accepted_maxlen (s : State) (tag : Byte) (payload : List Byte) : (s.accepted tag payload).maxlen = s.maxlen := rfl
@[simp] theorem State.accepted_rxTag (s : State) (tag : Byte) (payload : List Byte) : (s.accepted tag payload).rxTag = some tag := rfl
@[simp] theorem State.accepted_rxq (s : State) (tag : Byte) (payload : List Byte) : (s.accepted tag payload).rxq = payload := rfl
@[simp] theorem State.accepted_txbuf (s : State) (tag : Byte) (payload : List Byte) : (s.accepted tag payload).txbuf = s.txbuf := rfl
@[simp] theorem State.accepted_txTag (s : State) (tag : Byte) (payload : List Byte) : (s.accepted tag payload).txTag = s.txTag := rfl
@[simp] theorem State.accepted_handoffCause (s : State) (tag : Byte) (payload : List Byte) : (s.accepted tag payload).handoffCause = s.handoffCause := rfl
@[simp] theorem State.accepted_ev (s : State) (tag : Byte) (payload : List Byte) : (s.accepted tag payload).ev = s.ev := rfl
@[simp] theorem State.accepted_line (s : State) (tag : Byte) (payload : List Byte) : (s.accepted tag payload).line = s.line := rfl
@[simp] theorem State.accepted_air (s : State) (tag : Byte) (payload : List Byte) : (s.accepted tag payload).air = s.air := rfl
@[simp] theorem State.accepted_radioOut (s : State) (tag : Byte) (payload : List Byte) : (s.accepted tag payload).radioOut = s.radioOut := rfl
@[simp] theorem State.accepted_acks (s : State) (tag : Byte) (payload : List Byte) : (s.accepted tag payload).acks = s.acks := rfl
@[simp] theorem State.accepted_pauses (s : State) (tag : Byte) (payload : List Byte) : (s.accepted tag payload).pauses = s.pauses := rfl
@[simp] theorem State.accepted_draws (s : State) (tag : Byte) (payload : List Byte) : (s.accepted tag payload).draws = s.draws := rfl

/-! ### `State.paired` -/

@[simp] theorem State.paired_cfg (s : State) (p : Byte × Byte × Byte) (m : Byte) : (s.paired p m).cfg = s.cfg := rfl
@[simp] theorem State.paired_ph (s : State) (p : Byte × Byte × Byte) (m : Byte) : (s.paired p m).ph = s.ph := rfl
@[simp] theorem State.paired_addr (s : State) (p : Byte × Byte × Byte) (m : Byte) : (s.paired p m).addr = s.addr := rfl
@[simp] theorem State.paired_ext (s : State) (p : Byte × Byte × Byte) (m : Byte) : (s.paired p m).ext = s.ext := rfl
@[simp] theorem State.paired_len (s : State) (p : Byte × Byte × Byte) (m : Byte) : (s.paired p m).len = s.len := rfl
@[simp] theorem State.paired_memType (s : State) (p : Byte × Byte × Byte) (m : Byte) : (s.paired p m).memType = s.memType := rfl
@[simp] theorem State.paired_pagebuf (s : State) (p : Byte × Byte × Byte) (m : Byte) : (s.paired p m).pagebuf = s.pagebuf := rfl
@[simp] theorem State.paired_shadowRst (s : State) (p : Byte × Byte × Byte) (m : Byte) : (s.paired p m).shadowRst = s.shadowRst := rfl
@[simp] theorem State.paired_shadowWdt (s : State) (p : Byte × Byte × Byte) (m : Byte) : (s.paired p m).shadowWdt = s.shadowWdt := rfl
@[simp] theorem State.paired_shadowSet (s : State) (p : Byte × Byte × Byte) (m : Byte) : (s.paired p m).shadowSet = s.shadowSet := rfl
@[simp] theorem State.paired_wdtCfg (s : State) (p : Byte × Byte × Byte) (m : Byte) : (s.paired p m).wdtCfg = s.wdtCfg := rfl
@[simp] theorem State.paired_wdtCnt (s : State) (p : Byte × Byte × Byte) (m : Byte) : (s.paired p m).wdtCnt = s.wdtCnt := rfl
@[simp] theorem State.paired_hwRstFlags (s : State) (p : Byte × Byte × Byte) (m : Byte) : (s.paired p m).hwRstFlags = s.hwRstFlags := rfl
@[simp] theorem State.paired_resetCause (s : State) (p : Byte × Byte × Byte) (m : Byte) : (s.paired p m).resetCause = s.resetCause := rfl
@[simp] theorem State.paired_marker (s : State) (p : Byte × Byte × Byte) (m : Byte) : (s.paired p m).marker = s.marker := rfl
@[simp] theorem State.paired_flash (s : State) (p : Byte × Byte × Byte) (m : Byte) : (s.paired p m).flash = s.flash := rfl
@[simp] theorem State.paired_wbuf (s : State) (p : Byte × Byte × Byte) (m : Byte) : (s.paired p m).wbuf = s.wbuf := rfl
@[simp] theorem State.paired_flashOp (s : State) (p : Byte × Byte × Byte) (m : Byte) : (s.paired p m).flashOp = s.flashOp := rfl
@[simp] theorem State.paired_rwwBlocked (s : State) (p : Byte × Byte × Byte) (m : Byte) : (s.paired p m).rwwBlocked = s.rwwBlocked := rfl
@[simp] theorem State.paired_eeprom (s : State) (p : Byte × Byte × Byte) (m : Byte) : (s.paired p m).eeprom = s.eeprom := rfl
@[simp] theorem State.paired_eeBusy (s : State) (p : Byte × Byte × Byte) (m : Byte) : (s.paired p m).eeBusy = s.eeBusy := rfl
@[simp] theorem State.paired_assoc (s : State) (p : Byte × Byte × Byte) (m : Byte) : (s.paired p m).assoc = true := rfl
@[simp] theorem State.paired_peer (s : State) (p : Byte × Byte × Byte) (m : Byte) : (s.paired p m).peer = p := rfl
@[simp] theorem State.paired_maxlen (s : State) (p : Byte × Byte × Byte) (m : Byte) : (s.paired p m).maxlen = m := rfl
@[simp] theorem State.paired_rxTag (s : State) (p : Byte × Byte × Byte) (m : Byte) : (s.paired p m).rxTag = s.rxTag := rfl
@[simp] theorem State.paired_rxq (s : State) (p : Byte × Byte × Byte) (m : Byte) : (s.paired p m).rxq = s.rxq := rfl
@[simp] theorem State.paired_txbuf (s : State) (p : Byte × Byte × Byte) (m : Byte) : (s.paired p m).txbuf = s.txbuf := rfl
@[simp] theorem State.paired_txTag (s : State) (p : Byte × Byte × Byte) (m : Byte) : (s.paired p m).txTag = s.txTag := rfl
@[simp] theorem State.paired_handoffCause (s : State) (p : Byte × Byte × Byte) (m : Byte) : (s.paired p m).handoffCause = s.handoffCause := rfl
@[simp] theorem State.paired_ev (s : State) (p : Byte × Byte × Byte) (m : Byte) : (s.paired p m).ev = s.ev := rfl
@[simp] theorem State.paired_line (s : State) (p : Byte × Byte × Byte) (m : Byte) : (s.paired p m).line = s.line := rfl
@[simp] theorem State.paired_air (s : State) (p : Byte × Byte × Byte) (m : Byte) : (s.paired p m).air = s.air := rfl
@[simp] theorem State.paired_radioOut (s : State) (p : Byte × Byte × Byte) (m : Byte) : (s.paired p m).radioOut = s.radioOut := rfl
@[simp] theorem State.paired_acks (s : State) (p : Byte × Byte × Byte) (m : Byte) : (s.paired p m).acks = s.acks := rfl
@[simp] theorem State.paired_pauses (s : State) (p : Byte × Byte × Byte) (m : Byte) : (s.paired p m).pauses = s.pauses := rfl
@[simp] theorem State.paired_draws (s : State) (p : Byte × Byte × Byte) (m : Byte) : (s.paired p m).draws = s.draws := rfl

/-! ### `State.hushed` -/

@[simp] theorem State.hushed_cfg (s : State) : s.hushed.cfg = s.cfg := rfl
@[simp] theorem State.hushed_ph (s : State) : s.hushed.ph = s.ph := rfl
@[simp] theorem State.hushed_addr (s : State) : s.hushed.addr = s.addr := rfl
@[simp] theorem State.hushed_ext (s : State) : s.hushed.ext = s.ext := rfl
@[simp] theorem State.hushed_len (s : State) : s.hushed.len = s.len := rfl
@[simp] theorem State.hushed_memType (s : State) : s.hushed.memType = s.memType := rfl
@[simp] theorem State.hushed_pagebuf (s : State) : s.hushed.pagebuf = s.pagebuf := rfl
@[simp] theorem State.hushed_shadowRst (s : State) : s.hushed.shadowRst = s.shadowRst := rfl
@[simp] theorem State.hushed_shadowWdt (s : State) : s.hushed.shadowWdt = s.shadowWdt := rfl
@[simp] theorem State.hushed_shadowSet (s : State) : s.hushed.shadowSet = s.shadowSet := rfl
@[simp] theorem State.hushed_wdtCfg (s : State) : s.hushed.wdtCfg = .off := rfl
@[simp] theorem State.hushed_wdtCnt (s : State) : s.hushed.wdtCnt = s.wdtCnt := rfl
@[simp] theorem State.hushed_hwRstFlags (s : State) : s.hushed.hwRstFlags = s.hwRstFlags := rfl
@[simp] theorem State.hushed_resetCause (s : State) : s.hushed.resetCause = s.resetCause := rfl
@[simp] theorem State.hushed_marker (s : State) : s.hushed.marker = s.marker := rfl
@[simp] theorem State.hushed_flash (s : State) : s.hushed.flash = s.flash := rfl
@[simp] theorem State.hushed_wbuf (s : State) : s.hushed.wbuf = s.wbuf := rfl
@[simp] theorem State.hushed_flashOp (s : State) : s.hushed.flashOp = s.flashOp := rfl
@[simp] theorem State.hushed_rwwBlocked (s : State) : s.hushed.rwwBlocked = s.rwwBlocked := rfl
@[simp] theorem State.hushed_eeprom (s : State) : s.hushed.eeprom = s.eeprom := rfl
@[simp] theorem State.hushed_eeBusy (s : State) : s.hushed.eeBusy = s.eeBusy := rfl
@[simp] theorem State.hushed_assoc (s : State) : s.hushed.assoc = s.assoc := rfl
@[simp] theorem State.hushed_peer (s : State) : s.hushed.peer = s.peer := rfl
@[simp] theorem State.hushed_maxlen (s : State) : s.hushed.maxlen = s.maxlen := rfl
@[simp] theorem State.hushed_rxTag (s : State) : s.hushed.rxTag = s.rxTag := rfl
@[simp] theorem State.hushed_rxq (s : State) : s.hushed.rxq = [] := rfl
@[simp] theorem State.hushed_txbuf (s : State) : s.hushed.txbuf = s.txbuf := rfl
@[simp] theorem State.hushed_txTag (s : State) : s.hushed.txTag = s.txTag := rfl
@[simp] theorem State.hushed_handoffCause (s : State) : s.hushed.handoffCause = s.handoffCause := rfl
@[simp] theorem State.hushed_ev (s : State) : s.hushed.ev = s.ev := rfl
@[simp] theorem State.hushed_line (s : State) : s.hushed.line = s.line := rfl
@[simp] theorem State.hushed_air (s : State) : s.hushed.air = s.air := rfl
@[simp] theorem State.hushed_radioOut (s : State) : s.hushed.radioOut = s.radioOut := rfl
@[simp] theorem State.hushed_acks (s : State) : s.hushed.acks = s.acks := rfl
@[simp] theorem State.hushed_pauses (s : State) : s.hushed.pauses = [] := rfl
@[simp] theorem State.hushed_draws (s : State) : s.hushed.draws = s.draws := rfl

/-! ### `State.handed` -/

@[simp] theorem State.handed_cfg (s : State) (a : Byte × Byte × Byte) (p : List Byte) : (s.handed a p).cfg = s.cfg := rfl
@[simp] theorem State.handed_ph (s : State) (a : Byte × Byte × Byte) (p : List Byte) : (s.handed a p).ph = s.ph := rfl
@[simp] theorem State.handed_addr (s : State) (a : Byte × Byte × Byte) (p : List Byte) : (s.handed a p).addr = s.addr := rfl
@[simp] theorem State.handed_ext (s : State) (a : Byte × Byte × Byte) (p : List Byte) : (s.handed a p).ext = s.ext := rfl
@[simp] theorem State.handed_len (s : State) (a : Byte × Byte × Byte) (p : List Byte) : (s.handed a p).len = s.len := rfl
@[simp] theorem State.handed_memType (s : State) (a : Byte × Byte × Byte) (p : List Byte) : (s.handed a p).memType = s.memType := rfl
@[simp] theorem State.handed_pagebuf (s : State) (a : Byte × Byte × Byte) (p : List Byte) : (s.handed a p).pagebuf = s.pagebuf := rfl
@[simp] theorem State.handed_shadowRst (s : State) (a : Byte × Byte × Byte) (p : List Byte) : (s.handed a p).shadowRst = s.shadowRst := rfl
@[simp] theorem State.handed_shadowWdt (s : State) (a : Byte × Byte × Byte) (p : List Byte) : (s.handed a p).shadowWdt = s.shadowWdt := rfl
@[simp] theorem State.handed_shadowSet (s : State) (a : Byte × Byte × Byte) (p : List Byte) : (s.handed a p).shadowSet = s.shadowSet := rfl
@[simp] theorem State.handed_wdtCfg (s : State) (a : Byte × Byte × Byte) (p : List Byte) : (s.handed a p).wdtCfg = s.wdtCfg := rfl
@[simp] theorem State.handed_wdtCnt (s : State) (a : Byte × Byte × Byte) (p : List Byte) : (s.handed a p).wdtCnt = s.wdtCnt := rfl
@[simp] theorem State.handed_hwRstFlags (s : State) (a : Byte × Byte × Byte) (p : List Byte) : (s.handed a p).hwRstFlags = s.hwRstFlags := rfl
@[simp] theorem State.handed_resetCause (s : State) (a : Byte × Byte × Byte) (p : List Byte) : (s.handed a p).resetCause = s.resetCause := rfl
@[simp] theorem State.handed_marker (s : State) (a : Byte × Byte × Byte) (p : List Byte) : (s.handed a p).marker = s.marker := rfl
@[simp] theorem State.handed_flash (s : State) (a : Byte × Byte × Byte) (p : List Byte) : (s.handed a p).flash = s.flash := rfl
@[simp] theorem State.handed_wbuf (s : State) (a : Byte × Byte × Byte) (p : List Byte) : (s.handed a p).wbuf = s.wbuf := rfl
@[simp] theorem State.handed_flashOp (s : State) (a : Byte × Byte × Byte) (p : List Byte) : (s.handed a p).flashOp = s.flashOp := rfl
@[simp] theorem State.handed_rwwBlocked (s : State) (a : Byte × Byte × Byte) (p : List Byte) : (s.handed a p).rwwBlocked = s.rwwBlocked := rfl
@[simp] theorem State.handed_eeprom (s : State) (a : Byte × Byte × Byte) (p : List Byte) : (s.handed a p).eeprom = s.eeprom := rfl
@[simp] theorem State.handed_eeBusy (s : State) (a : Byte × Byte × Byte) (p : List Byte) : (s.handed a p).eeBusy = s.eeBusy := rfl
@[simp] theorem State.handed_assoc (s : State) (a : Byte × Byte × Byte) (p : List Byte) : (s.handed a p).assoc = s.assoc := rfl
@[simp] theorem State.handed_peer (s : State) (a : Byte × Byte × Byte) (p : List Byte) : (s.handed a p).peer = s.peer := rfl
@[simp] theorem State.handed_maxlen (s : State) (a : Byte × Byte × Byte) (p : List Byte) : (s.handed a p).maxlen = s.maxlen := rfl
@[simp] theorem State.handed_rxTag (s : State) (a : Byte × Byte × Byte) (p : List Byte) : (s.handed a p).rxTag = s.rxTag := rfl
@[simp] theorem State.handed_rxq (s : State) (a : Byte × Byte × Byte) (p : List Byte) : (s.handed a p).rxq = s.rxq := rfl
@[simp] theorem State.handed_txbuf (s : State) (a : Byte × Byte × Byte) (p : List Byte) : (s.handed a p).txbuf = s.txbuf := rfl
@[simp] theorem State.handed_txTag (s : State) (a : Byte × Byte × Byte) (p : List Byte) : (s.handed a p).txTag = s.txTag := rfl
@[simp] theorem State.handed_handoffCause (s : State) (a : Byte × Byte × Byte) (p : List Byte) : (s.handed a p).handoffCause = s.handoffCause := rfl
@[simp] theorem State.handed_ev (s : State) (a : Byte × Byte × Byte) (p : List Byte) : (s.handed a p).ev = s.ev := rfl
@[simp] theorem State.handed_line (s : State) (a : Byte × Byte × Byte) (p : List Byte) : (s.handed a p).line = s.line := rfl
@[simp] theorem State.handed_air (s : State) (a : Byte × Byte × Byte) (p : List Byte) : (s.handed a p).air = s.air := rfl
@[simp] theorem State.handed_radioOut (s : State) (a : Byte × Byte × Byte) (p : List Byte) : (s.handed a p).radioOut = s.radioOut ++ [(a, p)] := rfl
@[simp] theorem State.handed_acks (s : State) (a : Byte × Byte × Byte) (p : List Byte) : (s.handed a p).acks = s.acks := rfl
@[simp] theorem State.handed_pauses (s : State) (a : Byte × Byte × Byte) (p : List Byte) : (s.handed a p).pauses = s.pauses := rfl
@[simp] theorem State.handed_draws (s : State) (a : Byte × Byte × Byte) (p : List Byte) : (s.handed a p).draws = s.draws := rfl

/-! ### `State.dequeued` -/

@[simp] theorem State.dequeued_cfg (s : State) : s.dequeued.cfg = s.cfg := rfl
@[simp] theorem State.dequeued_ph (s : State) : s.dequeued.ph = s.ph := rfl
@[simp] theorem State.dequeued_addr (s : State) : s.dequeued.addr = s.addr := rfl
@[simp] theorem State.dequeued_ext (s : State) : s.dequeued.ext = s.ext := rfl
@[simp] theorem State.dequeued_len (s : State) : s.dequeued.len = s.len := rfl
@[simp] theorem State.dequeued_memType (s : State) : s.dequeued.memType = s.memType := rfl
@[simp] theorem State.dequeued_pagebuf (s : State) : s.dequeued.pagebuf = s.pagebuf := rfl
@[simp] theorem State.dequeued_shadowRst (s : State) : s.dequeued.shadowRst = s.shadowRst := rfl
@[simp] theorem State.dequeued_shadowWdt (s : State) : s.dequeued.shadowWdt = s.shadowWdt := rfl
@[simp] theorem State.dequeued_shadowSet (s : State) : s.dequeued.shadowSet = s.shadowSet := rfl
@[simp] theorem State.dequeued_wdtCfg (s : State) : s.dequeued.wdtCfg = s.wdtCfg := rfl
@[simp] theorem State.dequeued_wdtCnt (s : State) : s.dequeued.wdtCnt = s.wdtCnt := rfl
@[simp] theorem State.dequeued_hwRstFlags (s : State) : s.dequeued.hwRstFlags = s.hwRstFlags := rfl
@[simp] theorem State.dequeued_resetCause (s : State) : s.dequeued.resetCause = s.resetCause := rfl
@[simp] theorem State.dequeued_marker (s : State) : s.dequeued.marker = s.marker := rfl
@[simp] theorem State.dequeued_flash (s : State) : s.dequeued.flash = s.flash := rfl
@[simp] theorem State.dequeued_wbuf (s : State) : s.dequeued.wbuf = s.wbuf := rfl
@[simp] theorem State.dequeued_flashOp (s : State) : s.dequeued.flashOp = s.flashOp := rfl
@[simp] theorem State.dequeued_rwwBlocked (s : State) : s.dequeued.rwwBlocked = s.rwwBlocked := rfl
@[simp] theorem State.dequeued_eeprom (s : State) : s.dequeued.eeprom = s.eeprom := rfl
@[simp] theorem State.dequeued_eeBusy (s : State) : s.dequeued.eeBusy = s.eeBusy := rfl
@[simp] theorem State.dequeued_assoc (s : State) : s.dequeued.assoc = s.assoc := rfl
@[simp] theorem State.dequeued_peer (s : State) : s.dequeued.peer = s.peer := rfl
@[simp] theorem State.dequeued_maxlen (s : State) : s.dequeued.maxlen = s.maxlen := rfl
@[simp] theorem State.dequeued_rxTag (s : State) : s.dequeued.rxTag = s.rxTag := rfl
@[simp] theorem State.dequeued_rxq (s : State) : s.dequeued.rxq = s.rxq.tail := rfl
@[simp] theorem State.dequeued_txbuf (s : State) : s.dequeued.txbuf = s.txbuf := rfl
@[simp] theorem State.dequeued_txTag (s : State) : s.dequeued.txTag = s.txTag := rfl
@[simp] theorem State.dequeued_handoffCause (s : State) : s.dequeued.handoffCause = s.handoffCause := rfl
@[simp] theorem State.dequeued_ev (s : State) : s.dequeued.ev = s.ev := rfl
@[simp] theorem State.dequeued_line (s : State) : s.dequeued.line = s.line := rfl
@[simp] theorem State.dequeued_air (s : State) : s.dequeued.air = s.air := rfl
@[simp] theorem State.dequeued_radioOut (s : State) : s.dequeued.radioOut = s.radioOut := rfl
@[simp] theorem State.dequeued_acks (s : State) : s.dequeued.acks = s.acks := rfl
@[simp] theorem State.dequeued_pauses (s : State) : s.dequeued.pauses = s.pauses := rfl
@[simp] theorem State.dequeued_draws (s : State) : s.dequeued.draws = s.draws := rfl

/-! ### `State.queued` -/

@[simp] theorem State.queued_cfg (s : State) (b : Byte) : (s.queued b).cfg = s.cfg := rfl
@[simp] theorem State.queued_ph (s : State) (b : Byte) : (s.queued b).ph = s.ph := rfl
@[simp] theorem State.queued_addr (s : State) (b : Byte) : (s.queued b).addr = s.addr := rfl
@[simp] theorem State.queued_ext (s : State) (b : Byte) : (s.queued b).ext = s.ext := rfl
@[simp] theorem State.queued_len (s : State) (b : Byte) : (s.queued b).len = s.len := rfl
@[simp] theorem State.queued_memType (s : State) (b : Byte) : (s.queued b).memType = s.memType := rfl
@[simp] theorem State.queued_pagebuf (s : State) (b : Byte) : (s.queued b).pagebuf = s.pagebuf := rfl
@[simp] theorem State.queued_shadowRst (s : State) (b : Byte) : (s.queued b).shadowRst = s.shadowRst := rfl
@[simp] theorem State.queued_shadowWdt (s : State) (b : Byte) : (s.queued b).shadowWdt = s.shadowWdt := rfl
@[simp] theorem State.queued_shadowSet (s : State) (b : Byte) : (s.queued b).shadowSet = s.shadowSet := rfl
@[simp] theorem State.queued_wdtCfg (s : State) (b : Byte) : (s.queued b).wdtCfg = s.wdtCfg := rfl
@[simp] theorem State.queued_wdtCnt (s : State) (b : Byte) : (s.queued b).wdtCnt = s.wdtCnt := rfl
@[simp] theorem State.queued_hwRstFlags (s : State) (b : Byte) : (s.queued b).hwRstFlags = s.hwRstFlags := rfl
@[simp] theorem State.queued_resetCause (s : State) (b : Byte) : (s.queued b).resetCause = s.resetCause := rfl
@[simp] theorem State.queued_marker (s : State) (b : Byte) : (s.queued b).marker = s.marker := rfl
@[simp] theorem State.queued_flash (s : State) (b : Byte) : (s.queued b).flash = s.flash := rfl
@[simp] theorem State.queued_wbuf (s : State) (b : Byte) : (s.queued b).wbuf = s.wbuf := rfl
@[simp] theorem State.queued_flashOp (s : State) (b : Byte) : (s.queued b).flashOp = s.flashOp := rfl
@[simp] theorem State.queued_rwwBlocked (s : State) (b : Byte) : (s.queued b).rwwBlocked = s.rwwBlocked := rfl
@[simp] theorem State.queued_eeprom (s : State) (b : Byte) : (s.queued b).eeprom = s.eeprom := rfl
@[simp] theorem State.queued_eeBusy (s : State) (b : Byte) : (s.queued b).eeBusy = s.eeBusy := rfl
@[simp] theorem State.queued_assoc (s : State) (b : Byte) : (s.queued b).assoc = s.assoc := rfl
@[simp] theorem State.queued_peer (s : State) (b : Byte) : (s.queued b).peer = s.peer := rfl
@[simp] theorem State.queued_maxlen (s : State) (b : Byte) : (s.queued b).maxlen = s.maxlen := rfl
@[simp] theorem State.queued_rxTag (s : State) (b : Byte) : (s.queued b).rxTag = s.rxTag := rfl
@[simp] theorem State.queued_rxq (s : State) (b : Byte) : (s.queued b).rxq = s.rxq := rfl
@[simp] theorem State.queued_txbuf (s : State) (b : Byte) : (s.queued b).txbuf = s.txbuf ++ [b] := rfl
@[simp] theorem State.queued_txTag (s : State) (b : Byte) : (s.queued b).txTag = s.txTag := rfl
@[simp] theorem State.queued_handoffCause (s : State) (b : Byte) : (s.queued b).handoffCause = s.handoffCause := rfl
@[simp] theorem State.queued_ev (s : State) (b : Byte) : (s.queued b).ev = s.ev := rfl
@[simp] theorem State.queued_line (s : State) (b : Byte) : (s.queued b).line = s.line := rfl
@[simp] theorem State.queued_air (s : State) (b : Byte) : (s.queued b).air = s.air := rfl
@[simp] theorem State.queued_radioOut (s : State) (b : Byte) : (s.queued b).radioOut = s.radioOut := rfl
@[simp] theorem State.queued_acks (s : State) (b : Byte) : (s.queued b).acks = s.acks := rfl
@[simp] theorem State.queued_pauses (s : State) (b : Byte) : (s.queued b).pauses = s.pauses := rfl
@[simp] theorem State.queued_draws (s : State) (b : Byte) : (s.queued b).draws = s.draws := rfl

/-! ### `State.nextPacket` -/

@[simp] theorem State.nextPacket_cfg (s : State) : s.nextPacket.cfg = s.cfg := rfl
@[simp] theorem State.nextPacket_ph (s : State) : s.nextPacket.ph = s.ph := rfl
@[simp] theorem State.nextPacket_addr (s : State) : s.nextPacket.addr = s.addr := rfl
@[simp] theorem State.nextPacket_ext (s : State) : s.nextPacket.ext = s.ext := rfl
@[simp] theorem State.nextPacket_len (s : State) : s.nextPacket.len = s.len := rfl
@[simp] theorem State.nextPacket_memType (s : State) : s.nextPacket.memType = s.memType := rfl
@[simp] theorem State.nextPacket_pagebuf (s : State) : s.nextPacket.pagebuf = s.pagebuf := rfl
@[simp] theorem State.nextPacket_shadowRst (s : State) : s.nextPacket.shadowRst = s.shadowRst := rfl
@[simp] theorem State.nextPacket_shadowWdt (s : State) : s.nextPacket.shadowWdt = s.shadowWdt := rfl
@[simp] theorem State.nextPacket_shadowSet (s : State) : s.nextPacket.shadowSet = s.shadowSet := rfl
@[simp] theorem State.nextPacket_wdtCfg (s : State) : s.nextPacket.wdtCfg = s.wdtCfg := rfl
@[simp] theorem State.nextPacket_wdtCnt (s : State) : s.nextPacket.wdtCnt = s.wdtCnt := rfl
@[simp] theorem State.nextPacket_hwRstFlags (s : State) : s.nextPacket.hwRstFlags = s.hwRstFlags := rfl
@[simp] theorem State.nextPacket_resetCause (s : State) : s.nextPacket.resetCause = s.resetCause := rfl
@[simp] theorem State.nextPacket_marker (s : State) : s.nextPacket.marker = s.marker := rfl
@[simp] theorem State.nextPacket_flash (s : State) : s.nextPacket.flash = s.flash := rfl
@[simp] theorem State.nextPacket_wbuf (s : State) : s.nextPacket.wbuf = s.wbuf := rfl
@[simp] theorem State.nextPacket_flashOp (s : State) : s.nextPacket.flashOp = s.flashOp := rfl
@[simp] theorem State.nextPacket_rwwBlocked (s : State) : s.nextPacket.rwwBlocked = s.rwwBlocked := rfl
@[simp] theorem State.nextPacket_eeprom (s : State) : s.nextPacket.eeprom = s.eeprom := rfl
@[simp] theorem State.nextPacket_eeBusy (s : State) : s.nextPacket.eeBusy = s.eeBusy := rfl
@[simp] theorem State.nextPacket_assoc (s : State) : s.nextPacket.assoc = s.assoc := rfl
@[simp] theorem State.nextPacket_peer (s : State) : s.nextPacket.peer = s.peer := rfl
@[simp] theorem State.nextPacket_maxlen (s : State) : s.nextPacket.maxlen = s.maxlen := rfl
@[simp] theorem State.nextPacket_rxTag (s : State) : s.nextPacket.rxTag = s.rxTag := rfl
@[simp] theorem State.nextPacket_rxq (s : State) : s.nextPacket.rxq = s.rxq := rfl
@[simp] theorem State.nextPacket_txbuf (s : State) : s.nextPacket.txbuf = [s.txTag + 1] := rfl
@[simp] theorem State.nextPacket_txTag (s : State) : s.nextPacket.txTag = s.txTag + 1 := rfl
@[simp] theorem State.nextPacket_handoffCause (s : State) : s.nextPacket.handoffCause = s.handoffCause := rfl
@[simp] theorem State.nextPacket_ev (s : State) : s.nextPacket.ev = s.ev := rfl
@[simp] theorem State.nextPacket_line (s : State) : s.nextPacket.line = s.line := rfl
@[simp] theorem State.nextPacket_air (s : State) : s.nextPacket.air = s.air := rfl
@[simp] theorem State.nextPacket_radioOut (s : State) : s.nextPacket.radioOut = s.radioOut := rfl
@[simp] theorem State.nextPacket_acks (s : State) : s.nextPacket.acks = s.acks := rfl
@[simp] theorem State.nextPacket_pauses (s : State) : s.nextPacket.pauses = s.pauses := rfl
@[simp] theorem State.nextPacket_draws (s : State) : s.nextPacket.draws = s.draws := rfl

/-! ### `State.patched` -/

@[simp] theorem State.patched_cfg (s : State) : s.patched.cfg = s.cfg := rfl
@[simp] theorem State.patched_ph (s : State) : s.patched.ph = s.ph := rfl
@[simp] theorem State.patched_addr (s : State) : s.patched.addr = s.addr := rfl
@[simp] theorem State.patched_ext (s : State) : s.patched.ext = s.ext := rfl
@[simp] theorem State.patched_len (s : State) : s.patched.len = s.len := rfl
@[simp] theorem State.patched_memType (s : State) : s.patched.memType = s.memType := rfl
@[simp] theorem State.patched_shadowRst (s : State) : s.patched.shadowRst = (s.bufByte 0, s.bufByte 1) := rfl
@[simp] theorem State.patched_shadowWdt (s : State) : s.patched.shadowWdt = (s.bufByte 8, s.bufByte 9) := rfl
@[simp] theorem State.patched_shadowSet (s : State) : s.patched.shadowSet = true := rfl
@[simp] theorem State.patched_wdtCfg (s : State) : s.patched.wdtCfg = s.wdtCfg := rfl
@[simp] theorem State.patched_wdtCnt (s : State) : s.patched.wdtCnt = s.wdtCnt := rfl
@[simp] theorem State.patched_hwRstFlags (s : State) : s.patched.hwRstFlags = s.hwRstFlags := rfl
@[simp] theorem State.patched_resetCause (s : State) : s.patched.resetCause = s.resetCause := rfl
@[simp] theorem State.patched_marker (s : State) : s.patched.marker = s.marker := rfl
@[simp] theorem State.patched_flash (s : State) : s.patched.flash = s.flash := rfl
@[simp] theorem State.patched_wbuf (s : State) : s.patched.wbuf = s.wbuf := rfl
@[simp] theorem State.patched_flashOp (s : State) : s.patched.flashOp = s.flashOp := rfl
@[simp] theorem State.patched_rwwBlocked (s : State) : s.patched.rwwBlocked = s.rwwBlocked := rfl
@[simp] theorem State.patched_eeprom (s : State) : s.patched.eeprom = s.eeprom := rfl
@[simp] theorem State.patched_eeBusy (s : State) : s.patched.eeBusy = s.eeBusy := rfl
@[simp] theorem State.patched_assoc (s : State) : s.patched.assoc = s.assoc := rfl
@[simp] theorem State.patched_peer (s : State) : s.patched.peer = s.peer := rfl
@[simp] theorem State.patched_maxlen (s : State) : s.patched.maxlen = s.maxlen := rfl
@[simp] theorem State.patched_rxTag (s : State) : s.patched.rxTag = s.rxTag := rfl
@[simp] theorem State.patched_rxq (s : State) : s.patched.rxq = s.rxq := rfl
@[simp] theorem State.patched_txbuf (s : State) : s.patched.txbuf = s.txbuf := rfl
@[simp] theorem State.patched_txTag (s : State) : s.patched.txTag = s.txTag := rfl
@[simp] theorem State.patched_handoffCause (s : State) : s.patched.handoffCause = s.handoffCause := rfl
@[simp] theorem State.patched_ev (s : State) : s.patched.ev = s.ev := rfl
@[simp] theorem State.patched_line (s : State) : s.patched.line = s.line := rfl
@[simp] theorem State.patched_air (s : State) : s.patched.air = s.air := rfl
@[simp] theorem State.patched_radioOut (s : State) : s.patched.radioOut = s.radioOut := rfl
@[simp] theorem State.patched_acks (s : State) : s.patched.acks = s.acks := rfl
@[simp] theorem State.patched_pauses (s : State) : s.patched.pauses = s.pauses := rfl
@[simp] theorem State.patched_draws (s : State) : s.patched.draws = s.draws := rfl

/-! ### `State.flagsTaken` -/

@[simp] theorem State.flagsTaken_cfg (s : State) : s.flagsTaken.cfg = s.cfg := rfl
@[simp] theorem State.flagsTaken_ph (s : State) : s.flagsTaken.ph = s.ph := rfl
@[simp] theorem State.flagsTaken_addr (s : State) : s.flagsTaken.addr = s.addr := rfl
@[simp] theorem State.flagsTaken_ext (s : State) : s.flagsTaken.ext = s.ext := rfl
@[simp] theorem State.flagsTaken_len (s : State) : s.flagsTaken.len = s.len := rfl
@[simp] theorem State.flagsTaken_memType (s : State) : s.flagsTaken.memType = s.memType := rfl
@[simp] theorem State.flagsTaken_pagebuf (s : State) : s.flagsTaken.pagebuf = s.pagebuf := rfl
@[simp] theorem State.flagsTaken_shadowRst (s : State) : s.flagsTaken.shadowRst = s.shadowRst := rfl
@[simp] theorem State.flagsTaken_shadowWdt (s : State) : s.flagsTaken.shadowWdt = s.shadowWdt := rfl
@[simp] theorem State.flagsTaken_shadowSet (s : State) : s.flagsTaken.shadowSet = s.shadowSet := rfl
@[simp] theorem State.flagsTaken_wdtCfg (s : State) : s.flagsTaken.wdtCfg = s.wdtCfg := rfl
@[simp] theorem State.flagsTaken_wdtCnt (s : State) : s.flagsTaken.wdtCnt = s.wdtCnt := rfl
@[simp] theorem State.flagsTaken_hwRstFlags (s : State) : s.flagsTaken.hwRstFlags = 0 := rfl
@[simp] theorem State.flagsTaken_resetCause (s : State) : s.flagsTaken.resetCause = s.hwRstFlags := rfl
@[simp] theorem State.flagsTaken_marker (s : State) : s.flagsTaken.marker = s.marker := rfl
@[simp] theorem State.flagsTaken_flash (s : State) : s.flagsTaken.flash = s.flash := rfl
@[simp] theorem State.flagsTaken_wbuf (s : State) : s.flagsTaken.wbuf = s.wbuf := rfl
@[simp] theorem State.flagsTaken_flashOp (s : State) : s.flagsTaken.flashOp = s.flashOp := rfl
@[simp] theorem State.flagsTaken_rwwBlocked (s : State) : s.flagsTaken.rwwBlocked = s.rwwBlocked := rfl
@[simp] theorem State.flagsTaken_eeprom (s : State) : s.flagsTaken.eeprom = s.eeprom := rfl
@[simp] theorem State.flagsTaken_eeBusy (s : State) : s.flagsTaken.eeBusy = s.eeBusy := rfl
@[simp] theorem State.flagsTaken_assoc (s : State) : s.flagsTaken.assoc = s.assoc := rfl
@[simp] theorem State.flagsTaken_peer (s : State) : s.flagsTaken.peer = s.peer := rfl
@[simp] theorem State.flagsTaken_maxlen (s : State) : s.flagsTaken.maxlen = s.maxlen := rfl
@[simp] theorem State.flagsTaken_rxTag (s : State) : s.flagsTaken.rxTag = s.rxTag := rfl
@[simp] theorem State.flagsTaken_rxq (s : State) : s.flagsTaken.rxq = s.rxq := rfl
@[simp] theorem State.flagsTaken_txbuf (s : State) : s.flagsTaken.txbuf = s.txbuf := rfl
@[simp] theorem State.flagsTaken_txTag (s : State) : s.flagsTaken.txTag = s.txTag := rfl
@[simp] theorem State.flagsTaken_handoffCause (s : State) : s.flagsTaken.handoffCause = s.handoffCause := rfl
@[simp] theorem State.flagsTaken_ev (s : State) : s.flagsTaken.ev = s.ev := rfl
@[simp] theorem State.flagsTaken_line (s : State) : s.flagsTaken.line = s.line := rfl
@[simp] theorem State.flagsTaken_air (s : State) : s.flagsTaken.air = s.air := rfl
@[simp] theorem State.flagsTaken_radioOut (s : State) : s.flagsTaken.radioOut = s.radioOut := rfl
@[simp] theorem State.flagsTaken_acks (s : State) : s.flagsTaken.acks = s.acks := rfl
@[simp] theorem State.flagsTaken_pauses (s : State) : s.flagsTaken.pauses = s.pauses := rfl
@[simp] theorem State.flagsTaken_draws (s : State) : s.flagsTaken.draws = s.draws := rfl

/-! ### `State.markerCleared` -/

@[simp] theorem State.markerCleared_cfg (s : State) : s.markerCleared.cfg = s.cfg := rfl
@[simp] theorem State.markerCleared_ph (s : State) : s.markerCleared.ph = s.ph := rfl
@[simp] theorem State.markerCleared_addr (s : State) : s.markerCleared.addr = s.addr := rfl
@[simp] theorem State.markerCleared_ext (s : State) : s.markerCleared.ext = s.ext := rfl
@[simp] theorem State.markerCleared_len (s : State) : s.markerCleared.len = s.len := rfl
@[simp] theorem State.markerCleared_memType (s : State) : s.markerCleared.memType = s.memType := rfl
@[simp] theorem State.markerCleared_pagebuf (s : State) : s.markerCleared.pagebuf = s.pagebuf := rfl
@[simp] theorem State.markerCleared_shadowRst (s : State) : s.markerCleared.shadowRst = s.shadowRst := rfl
@[simp] theorem State.markerCleared_shadowWdt (s : State) : s.markerCleared.shadowWdt = s.shadowWdt := rfl
@[simp] theorem State.markerCleared_shadowSet (s : State) : s.markerCleared.shadowSet = s.shadowSet := rfl
@[simp] theorem State.markerCleared_wdtCfg (s : State) : s.markerCleared.wdtCfg = s.wdtCfg := rfl
@[simp] theorem State.markerCleared_wdtCnt (s : State) : s.markerCleared.wdtCnt = s.wdtCnt := rfl
@[simp] theorem State.markerCleared_hwRstFlags (s : State) : s.markerCleared.hwRstFlags = s.hwRstFlags := rfl
@[simp] theorem State.markerCleared_resetCause (s : State) : s.markerCleared.resetCause = s.resetCause := rfl
@[simp] theorem State.markerCleared_marker (s : State) : s.markerCleared.marker = false := rfl
@[simp] theorem State.markerCleared_flash (s : State) : s.markerCleared.flash = s.flash := rfl
@[simp] theorem State.markerCleared_wbuf (s : State) : s.markerCleared.wbuf = s.wbuf := rfl
@[simp] theorem State.markerCleared_flashOp (s : State) : s.markerCleared.flashOp = s.flashOp := rfl
@[simp] theorem State.markerCleared_rwwBlocked (s : State) : s.markerCleared.rwwBlocked = s.rwwBlocked := rfl
@[simp] theorem State.markerCleared_eeprom (s : State) : s.markerCleared.eeprom = s.eeprom := rfl
@[simp] theorem State.markerCleared_eeBusy (s : State) : s.markerCleared.eeBusy = s.eeBusy := rfl
@[simp] theorem State.markerCleared_assoc (s : State) : s.markerCleared.assoc = s.assoc := rfl
@[simp] theorem State.markerCleared_peer (s : State) : s.markerCleared.peer = s.peer := rfl
@[simp] theorem State.markerCleared_maxlen (s : State) : s.markerCleared.maxlen = s.maxlen := rfl
@[simp] theorem State.markerCleared_rxTag (s : State) : s.markerCleared.rxTag = s.rxTag := rfl
@[simp] theorem State.markerCleared_rxq (s : State) : s.markerCleared.rxq = s.rxq := rfl
@[simp] theorem State.markerCleared_txbuf (s : State) : s.markerCleared.txbuf = s.txbuf := rfl
@[simp] theorem State.markerCleared_txTag (s : State) : s.markerCleared.txTag = s.txTag := rfl
@[simp] theorem State.markerCleared_handoffCause (s : State) : s.markerCleared.handoffCause = s.handoffCause := rfl
@[simp] theorem State.markerCleared_ev (s : State) : s.markerCleared.ev = s.ev := rfl
@[simp] theorem State.markerCleared_line (s : State) : s.markerCleared.line = s.line := rfl
@[simp] theorem State.markerCleared_air (s : State) : s.markerCleared.air = s.air := rfl
@[simp] theorem State.markerCleared_radioOut (s : State) : s.markerCleared.radioOut = s.radioOut := rfl
@[simp] theorem State.markerCleared_acks (s : State) : s.markerCleared.acks = s.acks := rfl
@[simp] theorem State.markerCleared_pauses (s : State) : s.markerCleared.pauses = s.pauses := rfl
@[simp] theorem State.markerCleared_draws (s : State) : s.markerCleared.draws = s.draws := rfl

/-! ### `State.handedOver` -/

@[simp] theorem State.handedOver_cfg (s : State) : s.handedOver.cfg = s.cfg := rfl
@[simp] theorem State.handedOver_ph (s : State) : s.handedOver.ph = .handedOff := rfl
@[simp] theorem State.handedOver_addr (s : State) : s.handedOver.addr = s.addr := rfl
@[simp] theorem State.handedOver_ext (s : State) : s.handedOver.ext = s.ext := rfl
@[simp] theorem State.handedOver_len (s : State) : s.handedOver.len = s.len := rfl
@[simp] theorem State.handedOver_memType (s : State) : s.handedOver.memType = s.memType := rfl
@[simp] theorem State.handedOver_pagebuf (s : State) : s.handedOver.pagebuf = s.pagebuf := rfl
@[simp] theorem State.handedOver_shadowRst (s : State) : s.handedOver.shadowRst = s.shadowRst := rfl
@[simp] theorem State.handedOver_shadowWdt (s : State) : s.handedOver.shadowWdt = s.shadowWdt := rfl
@[simp] theorem State.handedOver_shadowSet (s : State) : s.handedOver.shadowSet = s.shadowSet := rfl
@[simp] theorem State.handedOver_wdtCfg (s : State) : s.handedOver.wdtCfg = s.wdtCfg := rfl
@[simp] theorem State.handedOver_wdtCnt (s : State) : s.handedOver.wdtCnt = s.wdtCnt := rfl
@[simp] theorem State.handedOver_hwRstFlags (s : State) : s.handedOver.hwRstFlags = s.hwRstFlags := rfl
@[simp] theorem State.handedOver_resetCause (s : State) : s.handedOver.resetCause = s.resetCause := rfl
@[simp] theorem State.handedOver_marker (s : State) : s.handedOver.marker = s.marker := rfl
@[simp] theorem State.handedOver_flash (s : State) : s.handedOver.flash = s.flash := rfl
@[simp] theorem State.handedOver_wbuf (s : State) : s.handedOver.wbuf = s.wbuf := rfl
@[simp] theorem State.handedOver_flashOp (s : State) : s.handedOver.flashOp = s.flashOp := rfl
@[simp] theorem State.handedOver_rwwBlocked (s : State) : s.handedOver.rwwBlocked = s.rwwBlocked := rfl
@[simp] theorem State.handedOver_eeprom (s : State) : s.handedOver.eeprom = s.eeprom := rfl
@[simp] theorem State.handedOver_eeBusy (s : State) : s.handedOver.eeBusy = s.eeBusy := rfl
@[simp] theorem State.handedOver_assoc (s : State) : s.handedOver.assoc = s.assoc := rfl
@[simp] theorem State.handedOver_peer (s : State) : s.handedOver.peer = s.peer := rfl
@[simp] theorem State.handedOver_maxlen (s : State) : s.handedOver.maxlen = s.maxlen := rfl
@[simp] theorem State.handedOver_rxTag (s : State) : s.handedOver.rxTag = s.rxTag := rfl
@[simp] theorem State.handedOver_rxq (s : State) : s.handedOver.rxq = s.rxq := rfl
@[simp] theorem State.handedOver_txbuf (s : State) : s.handedOver.txbuf = s.txbuf := rfl
@[simp] theorem State.handedOver_txTag (s : State) : s.handedOver.txTag = s.txTag := rfl
@[simp] theorem State.handedOver_handoffCause (s : State) : s.handedOver.handoffCause = s.resetCause := rfl
@[simp] theorem State.handedOver_ev (s : State) : s.handedOver.ev = s.ev := rfl
@[simp] theorem State.handedOver_line (s : State) : s.handedOver.line = s.line := rfl
@[simp] theorem State.handedOver_air (s : State) : s.handedOver.air = s.air := rfl
@[simp] theorem State.handedOver_radioOut (s : State) : s.handedOver.radioOut = s.radioOut := rfl
@[simp] theorem State.handedOver_acks (s : State) : s.handedOver.acks = s.acks := rfl
@[simp] theorem State.handedOver_pauses (s : State) : s.handedOver.pauses = s.pauses := rfl
@[simp] theorem State.handedOver_draws (s : State) : s.handedOver.draws = s.draws := rfl

/-! ### The flash controller at rest -/

theorem flashComplete_idle {s : State} (h : s.flashOp = .idle) : flashComplete s = s := by
  simp [flashComplete, h]

end Sys2Proof.Machine
end

