-- ==== Sys2Proof/Laws/Moves.lean ====
section
/-! SUPPORT. What a step can do to the state, said once: a step that answers a next state is a chain of
`Move`s, each a small update with the conditions under which the rules make it. An invariant, or a
frame, is then proved move by move. `D` says that a device reset may strike, `A` that ADDR and EXT may be
written, `P` holds of the page bases a rule may erase or commit, `E` of the EEPROM addresses it may write. -/

namespace Sys2Proof.Machine

/-- The phases of the command loop: neither Boot nor HandedOff. -/
def State.InLoop (s : State) : Prop := s.ph ≠ .boot ∧ s.ph ≠ .handedOff

/-- One small update of the state by the engine or its environment. -/
inductive Move (D A : Prop) (P E : Nat → Prop) : State → State → Prop
  | emit (s : State) (e : Event) : Move D A P E s (s.emit e)
  | pause (s : State) (dt : Nat) : Move D A P E s (s.popPause.addTime dt)
  | popPause (s : State) : Move D A P E s s.popPause
  | flashDone (s : State) : Move D A P E s (flashComplete s)
  | eeDone (s : State) : Move D A P E s (eeComplete s)
  | reset (s : State) (src : ResetSource) (hD : D) : Move D A P E s (deviceReset src s)
  | service (s : State) : Move D A P E s s.serviced
  | armShort (s : State) (h : s.InLoop) : Move D A P E s (s.configured (.on s.cfg.wdtShort))
  | phase (s : State) (p : Phase) (h : s.InLoop) (hp : p ≠ .boot ∧ p ≠ .handedOff) :
      Move D A P E s (s.setPh p)
  | mark (s : State) : Move D A P E s s.marked
  | clearMarker (s : State) (h : s.ph = .boot) : Move D A P E s s.markerCleared
  | draw (s : State) : Move D A P E s s.countDraw
  | setLine (s : State) (l : List LineByte) : Move D A P E s (s.setLine l)
  | setAir (s : State) (a : List (List Byte)) : Move D A P E s (s.setAir a)
  | setAcks (s : State) (a : List Bool) : Move D A P E s (s.setAcks a)
  | dequeue (s : State) : Move D A P E s s.dequeued
  | accept (s : State) (tag : Byte) (payload : List Byte) (ha : s.assoc = true)
      (hl : payload.length + 1 ≤ Config.pktCap) : Move D A P E s (s.accepted tag payload)
  | pair (s : State) (a : Byte × Byte × Byte) (m : Byte) (ha : s.assoc = false)
      (hm : badMaxlen m = false) : Move D A P E s (s.paired a m)
  | queue (s : State) (b : Byte) (ha : s.assoc = true) (hl : s.txbuf.length + 1 ≠ s.maxlen.toNat) :
      Move D A P E s (s.queued b)
  | handOut (s : State) (peer : Byte × Byte × Byte) (packet : List Byte) :
      Move D A P E s (s.handed peer packet)
  | nextPacket (s : State) : Move D A P E s s.nextPacket
  | setLen (s : State) (n : Byte) : Move D A P E s (s.setLen n)
  | setType (s : State) (n : Byte) : Move D A P E s (s.setType n)
  | setBuf (s : State) (i : Nat) (b : Byte) : Move D A P E s (s.setBuf i b)
  | patch (s : State) : Move D A P E s s.patched
  | setAddr (s : State) (a : Word) (hA : A) : Move D A P E s (s.setAddr a)
  | setAddress (s : State) (e : BitVec 1) (a : Word) (hA : A) (he : s.cfg.hasExt = false → e = s.ext) :
      Move D A P E s (s.setAddress e a)
  | pageOp (s : State) (p : Nat) (op : FlashOp) (hop : op = .erasing p ∨ op = .writing p) (hp : P p)
      (hi : s.flashOp = .idle) (ha : p % s.cfg.pageSize = 0) (hr : p < s.cfg.flashSize) :
      Move D A P E s (s.startOp op)
  | fill (s : State) (i : Nat) (w : Word) (hP : ∃ p, P p) : Move D A P E s (s.fillPair i w)
  | unblock (s : State) : Move D A P E s s.unblock
  | latch (s : State) (a : Nat) (b : Byte) (ha : E a) (hr : a < s.cfg.eepromSize) :
      Move D A P E s (s.latch a b)
  | takeFlags (s : State) (h : s.ph = .boot) : Move D A P E s s.flagsTaken
  | bootConfig (s : State) (w : WdtCfg) (h : s.ph = .boot) : Move D A P E s (s.configured w)
  | enterLoop (s : State) (h : s.ph = .boot) (hw : s.wdtCfg = .on s.cfg.wdtMedium) :
      Move D A P E s (s.setPh .awaitCommand)
  | handOver (s : State) (h : s.ph = .boot) : Move D A P E s s.handedOver

/-- A chain of moves. -/
abbrev Moves (D A : Prop) (P E : Nat → Prop) : State → State → Prop :=
  Relation.ReflTransGen (Move D A P E)

/-- The rule only makes moves. It runs to its end inside the command loop and without a device reset; if
it stops early, a reset may have struck. -/
abbrev LoopRule {α : Type} (A : Prop) (P E : Nat → Prop) (m : Eng α) : Prop :=
  Keeps State.InLoop (Moves False A P E) (Moves True A P E) m

section Rules

variable {D A : Prop} {P E : Nat → Prop} {α β : Type}

/-- Where a rule that only makes moves lands. -/
abbrev LoopLands {α : Type} (A : Prop) (P E : Nat → Prop) (I : State → Prop) (s : State)
    (x : Except Stop (α × State)) : Prop :=
  Lands I (Moves False A P E) (Moves True A P E) s x

/-- Moves stay moves when more is allowed. -/
theorem Move.mono {D' A' : Prop} {P' E' : Nat → Prop} (hD : D → D') (hA : A → A')
    (hP : ∀ p, P p → P' p) (hE : ∀ a, E a → E' a) {s t : State} (h : Move D A P E s t) :
    Move D' A' P' E' s t := by
  cases h with
  | reset src h => exact .reset _ _ (hD h)
  | setAddr a h => exact .setAddr _ _ (hA h)
  | setAddress e a h he => exact .setAddress _ _ _ (hA h) he
  | pageOp p op hop hp hi ha hr => exact .pageOp _ p _ hop (hP _ hp) hi ha hr
  | fill i w hp => exact .fill _ _ _ (hp.elim fun p h => ⟨p, hP p h⟩)
  | latch a b ha hr => exact .latch _ _ _ (hE _ ha) hr
  | enterLoop h hw => exact .enterLoop _ h hw
  | _ => constructor <;> assumption

theorem Moves.weaken {D' A' : Prop} {P' E' : Nat → Prop} (hD : D → D') (hA : A → A')
    (hP : ∀ p, P p → P' p) (hE : ∀ a, E a → E' a) {s t : State} (h : Moves D A P E s t) :
    Moves D' A' P' E' s t := by
  induction h with
  | refl => exact .refl
  | tail _ h ih => exact .tail ih (h.mono hD hA hP hE)

/-- A chain of moves without a reset is one that allows resets too. -/
theorem Moves.mono {s t : State} (h : Moves False A P E s t) : Moves D A P E s t :=
  h.weaken False.elim id (fun _ h => h) (fun _ h => h)

theorem moves_compose : Composes (Moves False A P E) (Moves True A P E) :=
  ⟨fun _ => .refl, fun _ _ _ h g => h.trans g, fun _ _ _ h g => (Moves.mono h).trans g⟩

theorem loop_bind {m : Eng α} {f : α → Eng β} (hm : LoopRule A P E m) (hf : ∀ a, LoopRule A P E (f a)) :
    LoopRule A P E (m >>= f) := keeps_bind moves_compose hm hf

theorem loop_pure (a : α) : LoopRule A P E (pure a : Eng α) := keeps_pure moves_compose a

theorem loop_look (f : State → α) : LoopRule A P E (look f) := keeps_look moves_compose f

theorem loop_ite (p : Prop) [Decidable p] {m n : Eng α} (hm : p → LoopRule A P E m)
    (hn : ¬ p → LoopRule A P E n) : LoopRule A P E (if p then m else n) := keeps_ite p hm hn

theorem loop_onlyIf (b : Bool) {m : Eng Unit} (hm : LoopRule A P E m) : LoopRule A P E (onlyIf b m) :=
  loop_ite _ (fun _ => hm) (fun _ => loop_pure _)

/-- A rule that makes one move and leaves the phase in the loop. -/
theorem loop_update {f : State → State} (h : ∀ s, s.InLoop → Move False A P E s (f s))
    (hp : ∀ s, s.InLoop → (f s).InLoop) : LoopRule A P E (update f) :=
  keeps_update (fun s hs => ⟨.single (h s hs), hp s hs⟩)

theorem loop_emit (e : Event) : LoopRule A P E (emit e) :=
  loop_update (fun s _ => .emit s e) (fun _ h => h)

theorem flashComplete_ph (s : State) : (flashComplete s).ph = s.ph := by
  unfold flashComplete; split <;> rfl

theorem eeComplete_ph (s : State) : (eeComplete s).ph = s.ph := by
  unfold eeComplete; split <;> rfl

theorem settle_moves (p : Pause) (s : State) :
    Moves D A P E s (settle p s) ∧ (settle p s).ph = s.ph ∧ (settle p s).assoc = s.assoc := by
  have hf : (flashComplete s).assoc = s.assoc := by unfold flashComplete; split <;> rfl
  have he : ∀ u, (eeComplete u).assoc = u.assoc := fun u => by unfold eeComplete; split <;> rfl
  unfold settle
  cases p.flashDone <;> cases p.eeDone
  · exact ⟨.refl, rfl, rfl⟩
  · exact ⟨.single (.eeDone s), eeComplete_ph s, he s⟩
  · exact ⟨.single (.flashDone s), flashComplete_ph s, hf⟩
  · exact ⟨.tail (.single (.flashDone s)) (.eeDone _), (eeComplete_ph _).trans (flashComplete_ph s),
      (he _).trans hf⟩

theorem resetBy_moves (srcs : List ResetSource) (s : State) : Moves True A P E s (resetBy srcs s) := by
  induction srcs generalizing s with
  | nil => exact .refl
  | cons src srcs ih => exact .head (.reset s src trivial) (ih _)

theorem resetBy_ph {srcs : List ResetSource} (h : srcs ≠ []) (s : State) :
    (resetBy srcs s).ph = .boot := by
  induction srcs generalizing s with
  | nil => exact absurd rfl h
  | cons src srcs ih =>
    cases srcs with
    | nil => rfl
    | cons src2 srcs => exact ih (by simp) _

/-- What a pause can do: time passes, controllers complete, and either the rule goes on or a reset of
at least one source cuts it off. -/
theorem takePause_moves (extra : Nat) (svc : Bool) (s : State) :
    LoopLands A P E (fun t => t.ph = s.ph ∧ t.assoc = s.assoc) s (takePause extra svc s) := by
  have h := settle_moves (D := False) (A := A) (P := P) (E := E) (s.pauses.headD Pause.quiet)
    (s.popPause.addTime (extra + (s.pauses.headD Pause.quiet).dt))
  have h1 : Moves False A P E s _ := .head (.pause s (extra + (s.pauses.headD Pause.quiet).dt)) h.1
  unfold takePause
  dsimp only
  by_cases hq : (strikes svc (s.pauses.headD Pause.quiet) (settle (s.pauses.headD Pause.quiet)
      (s.popPause.addTime (extra + (s.pauses.headD Pause.quiet).dt)))).isEmpty = true
  · rw [if_pos hq]; exact ⟨h1, h.2⟩
  · rw [if_neg hq]
    exact ⟨(Moves.mono h1).trans (resetBy_moves _ _), .inl (resetBy_ph (by simpa using hq) _)⟩

/-- A refusal gives no next state, unless a reset strikes before it. -/
theorem refuse_moves (r : Refusal) (s : State) :
    LoopLands A P E (fun _ => False) s ((refuse r : Eng α) s) := by
  have h := takePause_moves (A := A) (P := P) (E := E) 0 false s
  unfold refuse
  rw [bind_run]
  cases e : takePause 0 false s with
  | ok q => simp [instant, e, Lands]
  | error x => rw [e] at h; simp only [instant, e]; cases x <;> exact h

theorem keeps_refuseIf {I : State → Prop} (b : Bool) (r : Refusal) :
    Keeps I (Moves False A P E) (Moves True A P E) (refuseIf b r) := by
  intro s hs
  cases b
  · exact ⟨.refl, hs⟩
  · exact (refuse_moves r s).weaken (fun _ _ h => h.elim)

/-- What follows a check runs with the check passed. -/
theorem lands_refuseIf {K : State → Prop} {b : Bool} {r : Refusal} {f : Unit → Eng β} {s : State}
    (h : b = false → LoopLands A P E K s (f () s)) : LoopLands A P E K s ((refuseIf b r >>= f) s) := by
  cases b
  · exact h rfl
  · exact lands_bind (J := fun _ => False) moves_compose (rfl : s = s)
      (fun t ht => by rw [← ht]; exact refuse_moves r s) (fun _ _ h => False.elim h)

theorem loop_refuse (r : Refusal) : LoopRule A P E (refuse r : Eng α) :=
  fun s _ => (refuse_moves r s).weaken (fun _ _ h => h.elim)

theorem loop_refuseIf (b : Bool) (r : Refusal) : LoopRule A P E (refuseIf b r) := keeps_refuseIf b r

theorem loop_takePause (extra : Nat) (svc : Bool) : LoopRule A P E (takePause extra svc) :=
  fun s hs => (takePause_moves extra svc s).weaken
    (fun t _ h => by unfold State.InLoop; rw [h.1]; exact hs)

theorem loop_record (e : Event) : LoopRule A P E (record e) :=
  loop_bind (loop_takePause _ _) (fun _ => loop_emit e)

theorem loop_drawByte : LoopRule A P E drawByte := fun s hs => ⟨.single (.draw s), hs⟩

theorem loop_wdtService : LoopRule A P E wdtService :=
  loop_update (fun s _ => .service s) (fun _ h => h)

theorem loop_serviceStep : LoopRule A P E serviceStep :=
  loop_bind (loop_takePause _ _) (fun _ => loop_wdtService)

theorem loop_flashDone : LoopRule A P E (update flashComplete) :=
  loop_update (fun s _ => .flashDone s)
    (fun s h => by unfold State.InLoop; rw [flashComplete_ph]; exact h)

theorem loop_eeDone : LoopRule A P E (update eeComplete) :=
  loop_update (fun s _ => .eeDone s)
    (fun s h => by unfold State.InLoop; rw [eeComplete_ph]; exact h)

theorem windowEnds_moves (s : State) : Moves True A P E s (windowEnds s) :=
  .tail (.tail (.single (.flashDone s)) (.eeDone _)) (.reset _ _ trivial)

theorem loop_silenceFrom (ps : List Pause) : LoopRule A P E (silenceFrom ps : Eng α) := by
  induction ps with
  | nil =>
    intro s _
    simp only [silenceFrom, expireOrBlock]
    cases s.wdtCfg with
    | off => trivial
    | on d => exact ⟨windowEnds_moves s, .inl rfl⟩
  | cons p ps ih => exact loop_bind (loop_takePause _ _) (fun _ => ih)

theorem loop_silence : LoopRule A P E (silence : Eng α) :=
  fun s hs => loop_silenceFrom s.pauses s hs

theorem loop_filterBody (p : List Byte) (tag : Byte) (payload : List Byte) :
    payload.length + 1 ≤ Config.pktCap →
    Keeps (fun s => s.InLoop ∧ s.assoc = true) (Moves False A P E) (Moves True A P E)
      (filterBody p tag payload) := by
  intro hl s hs
  unfold filterBody
  simp only [bind_run, look_run, ite_run, emit, update_run]
  by_cases hr : s.rxTag = some tag
  · simp only [hr, if_true]; exact ⟨.single (.emit s _), hs⟩
  · simp only [hr, if_false]
    exact ⟨.tail (.single (.accept s tag payload hs.2 hl)) (.emit _ _), hs⟩

theorem Lands.afterMoves {I J : State → Prop} (hI : ∀ s, I s → J s) {s t : State}
    {x : Except Stop (α × State)} (h : Moves False A P E s t) (g : LoopLands A P E I t x) :
    LoopLands A P E J s x :=
  (g.weaken (fun _ _ h => hI _ h)).after moves_compose h

theorem loop_ordinary (p : List Byte) (hc : p.length ≤ Config.pktCap) (s : State) (hs : s.InLoop)
    (ha : s.assoc = true) :
    LoopLands A P E State.InLoop s (ordinary p s) := by
  cases p with
  | nil => exact ⟨.single (.emit s _), hs⟩
  | cons tag payload =>
    have h := loop_filterBody (A := A) (P := P) (E := E) (tag :: payload) tag payload (by simpa using hc) s
      ⟨hs, ha⟩
    exact h.weaken (fun _ _ hi => hi.1)

/-- A pause inside the loop leaves the association as it is, unless a reset strikes. -/
theorem loop_takePause_assoc (extra : Nat) (svc : Bool) :
    Keeps (fun s => s.InLoop ∧ s.assoc = true) (Moves False A P E) (Moves True A P E)
      (takePause extra svc) := fun s hs =>
  (takePause_moves extra svc s).weaken (fun t _ (h : t.ph = s.ph ∧ t.assoc = s.assoc) =>
    ⟨by unfold State.InLoop; rw [h.1]; exact hs.1, h.2.trans hs.2⟩)

theorem loop_associate (p : List Byte) (hc : p.length ≤ Config.pktCap) (s : State) (hs : s.InLoop)
    (ha : s.assoc = false) :
    LoopLands A P E State.InLoop s (associate p s) := by
  rcases p with _ | ⟨a0, _ | ⟨a1, _ | ⟨a2, _ | ⟨m, body⟩⟩⟩⟩
  iterate 4 exact ⟨.single (.emit s _), hs⟩
  refine lands_refuseIf (fun hm => ?_)
  simp only [bind_run, update_run, emit]
  have h1 : Moves False A P E s _ := .tail (.single (.pair s (a0, a1, a2) m ha hm))
    (.emit _ (.pktIn (a0 :: a1 :: a2 :: m :: body) .associated))
  cases body with
  | nil => exact ⟨h1, hs⟩
  | cons tag payload =>
    have hc' : payload.length + 1 ≤ Config.pktCap := by simp at hc; omega
    have h2 := lands_bind (moves_compose (A := A) (P := P) (E := E))
      (I := fun u => u.InLoop ∧ u.assoc = true)
      (s := (s.paired (a0, a1, a2) m).emit (.pktIn (a0 :: a1 :: a2 :: m :: tag :: payload) .associated))
      ⟨hs, rfl⟩ (keeps_look moves_compose (fun s => s.brings tag payload)) (fun svc u hu =>
        lands_bind moves_compose hu (loop_takePause_assoc 0 svc)
          (fun _ u hu => loop_filterBody (a0 :: a1 :: a2 :: m :: tag :: payload) tag payload hc' u hu))
    exact h2.afterMoves (fun _ h => h.1) h1

theorem loop_processPacket (p : List Byte) : LoopRule A P E (processPacket p) := by
  intro s hs
  refine lands_refuseIf (fun hc => ?_)
  have hc' : p.length ≤ Config.pktCap := by simpa using hc
  simp only [bind_run, look_run, ite_run]
  cases ha : s.assoc with
  | true => simpa using loop_ordinary p hc' s hs ha
  | false => simpa using loop_associate p hc' s hs ha

theorem loop_awaitPackets (ps : List (List Byte)) : LoopRule A P E (awaitPackets ps) := by
  induction ps with
  | nil => exact loop_bind (loop_look _) (fun _ => loop_ite _ (fun _ => loop_silence) (fun _ => loop_pure _))
  | cons p ps ih =>
    exact loop_bind (loop_look _) (fun _ => loop_ite _
      (fun _ => loop_bind (loop_look _) (fun _ => loop_bind (loop_takePause _ _) (fun _ =>
        loop_bind (loop_update (fun s _ => .setAir s ps) (fun _ h => h)) (fun _ =>
          loop_bind (loop_processPacket p) (fun _ => ih)))))
      (fun _ => loop_pure _))

theorem loop_recvByte (b : Byte) : LoopRule A P E (recvByte b) := by
  refine loop_bind (loop_look _) (fun _ => loop_ite _ (fun _ => ?_) (fun _ => ?_))
  · exact loop_bind (loop_look _) (fun _ => loop_bind (loop_awaitPackets _) (fun _ =>
      loop_bind (loop_takePause _ _) (fun _ =>
      loop_bind (loop_update (fun s _ => .dequeue s) (fun _ h => h)) (fun _ =>
      loop_bind loop_wdtService (fun _ => loop_record _)))))
  · refine loop_bind (loop_look _) (fun l => ?_)
    cases l with
    | nil => exact loop_silence
    | cons e rest =>
      exact loop_bind (loop_takePause _ _) (fun _ =>
        loop_bind (loop_update (fun s _ => .setLine s rest) (fun _ h => h)) (fun _ =>
        loop_bind (loop_onlyIf _ loop_wdtService) (fun _ => loop_record _)))

theorem loop_discard (bs : List Byte) : LoopRule A P E (discard bs) := by
  induction bs with
  | nil => exact loop_pure _
  | cons b bs ih => exact loop_bind (loop_recvByte b) (fun _ => ih)

theorem loop_nextAck : LoopRule A P E nextAck := by
  intro s hs
  unfold nextAck
  cases s.acks with
  | nil => exact ⟨.single (.draw s), hs⟩
  | cons a rest => exact ⟨.single (.setAcks s _), hs⟩

theorem loop_delay (d : Nat) : LoopRule A P E (delay d) :=
  loop_bind (loop_record _) (fun _ => loop_bind (loop_takePause _ _) (fun _ => loop_takePause _ _))

theorem loop_radioTx (peer : Byte × Byte × Byte) (packet : List Byte) :
    LoopRule A P E (radioTx peer packet) :=
  loop_bind (loop_update (fun s _ => .handOut s _ _) (fun _ h => h)) (fun _ =>
    loop_bind (loop_takePause _ _) (fun _ => loop_nextAck))

theorem loop_flushAttempts (guard : Nat) (peer : Byte × Byte × Byte) (packet : List Byte) (n k : Nat) :
    LoopRule A P E (flushAttempts guard peer packet n k) := by
  induction n generalizing k with
  | zero => exact loop_pure _
  | succ n ih =>
    exact loop_bind (loop_delay _) (fun _ => loop_bind (loop_radioTx _ _) (fun _ =>
      loop_bind (loop_emit _) (fun _ => loop_ite _ (fun _ => loop_pure _) (fun _ => ih _))))

/-- TXBUF replaced. -/
def State.setTxbuf (s : State) (x : List Byte) : State := { s with txbuf := x }

/-- The rule neither reads nor writes TXBUF, unless a device reset strikes. -/
def IgnoresTxbuf (m : Eng α) : Prop :=
  ∀ s x, m (s.setTxbuf x) = match m s with
    | .ok (a, t) => .ok (a, t.setTxbuf x)
    | .error e => .error e

theorem ignores_bind {m : Eng α} {f : α → Eng β} (hm : IgnoresTxbuf m) (hf : ∀ a, IgnoresTxbuf (f a)) :
    IgnoresTxbuf (m >>= f) := by
  intro s x
  simp only [bind_run, hm s x]
  cases m s with
  | ok q => exact hf q.1 q.2 x
  | error e => rfl

theorem ignores_emit (e : Event) : IgnoresTxbuf (emit e) := fun _ _ => rfl

theorem ignores_takePause (extra : Nat) (svc : Bool) : IgnoresTxbuf (takePause extra svc) := by
  intro s x
  have hf : ∀ u : State, flashComplete (u.setTxbuf x) = (flashComplete u).setTxbuf x := by
    intro u; unfold flashComplete; cases h : u.flashOp <;> simp [State.setTxbuf, h] <;> rfl
  have he : ∀ u : State, eeComplete (u.setTxbuf x) = (eeComplete u).setTxbuf x := by
    intro u; unfold eeComplete; cases h : u.eeBusy <;> simp [State.setTxbuf, h]
  have hs : ∀ (p : Pause) (u : State), settle p (u.setTxbuf x) = (settle p u).setTxbuf x := by
    intro p u; unfold settle; cases p.flashDone <;> cases p.eeDone <;> simp [hf, he]
  have hr : ∀ (srcs : List ResetSource) (u : State), srcs ≠ [] →
      resetBy srcs (u.setTxbuf x) = resetBy srcs u := by
    intro srcs u h
    cases srcs with
    | nil => exact absurd rfl h
    | cons src srcs => rfl
  obtain ⟨p, hp⟩ : ∃ p, s.pauses.headD Pause.quiet = p := ⟨_, rfl⟩
  have h1 : ((s.setTxbuf x).popPause.addTime (extra + p.dt)) =
      (s.popPause.addTime (extra + p.dt)).setTxbuf x := rfl
  have h2 : ∀ u : State, strikes svc p (u.setTxbuf x) = strikes svc p u := fun _ => rfl
  have h3 : (s.setTxbuf x).pauses.headD Pause.quiet = p := hp
  simp only [takePause, hp, h3, h1, hs, h2]
  split
  · rfl
  · rename_i h
    rw [hr _ _ (by simpa using h)]

theorem ignores_flushAttempts (guard : Nat) (peer : Byte × Byte × Byte) (packet : List Byte) (n k : Nat) :
    IgnoresTxbuf (flushAttempts guard peer packet n k) := by
  induction n generalizing k with
  | zero => exact fun _ _ => rfl
  | succ n ih =>
    refine ignores_bind (ignores_bind (ignores_bind (ignores_takePause _ _) (fun _ => ignores_emit _))
      (fun _ => ignores_bind (ignores_takePause _ _) (fun _ => ignores_takePause _ _)))
      (fun _ => ignores_bind (ignores_bind (fun _ _ => rfl)
      (fun _ => ignores_bind (ignores_takePause _ _) (fun _ s x => ?_)))
      (fun a => ignores_bind (ignores_emit _) (fun _ => ?_)))
    · unfold nextAck
      show (match s.acks with | a :: rest => _ | [] => _) = _
      cases s.acks <;> rfl
    · cases a
      · exact ih _
      · exact fun _ _ => rfl

/-- A byte is sent: it joins TXBUF, which has not reached MAXLEN then, or the packet it ends goes out. -/
theorem loop_radioSendByte (b : Byte) : LoopRule A P E (radioSendByte b) := by
  intro s hs
  unfold radioSendByte
  rw [bind_run, look_run]
  refine lands_refuseIf (fun ha => ?_)
  have ha : s.assoc = true := by simpa using ha
  simp only [bind_run, look_run, update_run]
  by_cases hf : s.txbuf.length + 1 = s.maxlen.toNat ∨ b = s.cfg.respOk
  · have hrun : flush (s.queued b) = (flushAttempts s.cfg.txGuard s.peer (s.txbuf ++ [b]) s.cfg.txAttempts 1
        >>= fun _ => update State.nextPacket) s := by
      have h := ignores_flushAttempts s.cfg.txGuard s.peer (s.txbuf ++ [b]) s.cfg.txAttempts 1 s
        (s.txbuf ++ [b])
      have h2 : flush (s.queued b) = (flushAttempts s.cfg.txGuard s.peer (s.txbuf ++ [b])
          s.cfg.txAttempts 1 >>= fun _ => update State.nextPacket) (s.setTxbuf (s.txbuf ++ [b])) := rfl
      rw [h2, bind_run, bind_run, h]
      cases flushAttempts s.cfg.txGuard s.peer (s.txbuf ++ [b]) s.cfg.txAttempts 1 s <;> rfl
    have h := loop_bind (A := A) (P := P) (E := E)
      (loop_flushAttempts s.cfg.txGuard s.peer (s.txbuf ++ [b]) s.cfg.txAttempts 1)
      (fun _ => loop_update (fun s _ => .nextPacket s) (fun _ h => h)) s hs
    rw [← hrun] at h
    simpa [onlyIf, hf] using h
  · have h : Moves False A P E s (s.queued b) := .single (.queue s b ha (fun h => hf (.inl h)))
    have : LoopLands A P E State.InLoop s (.ok ((), s.queued b)) := ⟨h, hs⟩
    simpa [onlyIf, hf] using this

theorem loop_sendByte (b : Byte) : LoopRule A P E (sendByte b) :=
  loop_bind (loop_look _) (fun _ => loop_ite _
    (fun _ => loop_bind (loop_record _) (fun _ => loop_radioSendByte b)) (fun _ => loop_record _))

theorem loop_setPh (p : Phase) (hp : p ≠ .boot ∧ p ≠ .handedOff) :
    LoopRule A P E (update (fun s => s.setPh p)) :=
  loop_update (fun s h => .phase s p h hp) (fun _ _ => hp)

theorem loop_openRequest (b : Byte) (k : Command) : LoopRule A P E (openRequest b k) :=
  loop_bind (loop_recvByte b) (fun _ => loop_setPh _ (by simp))

theorem loop_raiseDesync : LoopRule A P E (raiseDesync : Eng α) :=
  keeps_endWith (fun s h => ⟨.single (.phase s _ h (by simp)), .inr rfl⟩)

theorem loop_checkTerminator (t : Byte) : LoopRule A P E (checkTerminator t) :=
  loop_bind (loop_recvByte t) (fun _ => loop_bind (loop_look _) (fun _ =>
    loop_ite _ (fun _ => loop_pure _) (fun _ => loop_raiseDesync)))

theorem loop_verifyTerminator (t : Byte) : LoopRule A P E (verifyTerminator t) :=
  loop_bind (loop_checkTerminator t) (fun _ => loop_bind (loop_look _) (fun _ => loop_sendByte _))

theorem loop_respond : LoopRule A P E respond :=
  loop_bind (loop_setPh _ (by simp)) (fun _ => loop_bind (loop_look _) (fun _ =>
    loop_bind (loop_sendByte _) (fun _ => loop_bind loop_serviceStep (fun _ =>
    loop_setPh _ (by simp)))))

/-! ### Requests without a programmer -/

theorem loop_skipRule (b : Byte) (k : Command) (body : List Byte) (t : Byte) :
    LoopRule A P E (skipRule b k body t) :=
  loop_bind (loop_openRequest b k) (fun _ => loop_bind (loop_discard body) (fun _ =>
    loop_bind (loop_verifyTerminator t) (fun _ => loop_respond)))

theorem loop_ackRule (b t : Byte) : LoopRule A P E (ackRule b t) :=
  loop_bind (loop_openRequest b _) (fun _ => loop_bind (loop_verifyTerminator t)
    (fun _ => loop_respond))

theorem loop_getParameterRule (c : Config) (p t : Byte) : LoopRule A P E (getParameterRule c p t) :=
  loop_bind (loop_openRequest _ _) (fun _ => loop_bind (loop_recvByte p) (fun _ =>
    loop_bind (loop_verifyTerminator t) (fun _ => loop_bind (loop_sendByte _)
    (fun _ => loop_respond))))

theorem loop_universalRule (c : Config) (body : List Byte) (t : Byte) :
    LoopRule A P E (universalRule c body t) :=
  loop_bind (loop_openRequest _ _) (fun _ => loop_bind (loop_discard body) (fun _ =>
    loop_bind (loop_checkTerminator t) (fun _ => loop_bind (loop_sendByte _) (fun _ =>
    loop_bind (loop_sendByte _) (fun _ => loop_respond)))))

theorem loop_readSignatureRule (c : Config) (t : Byte) : LoopRule A P E (readSignatureRule c t) :=
  loop_bind (loop_openRequest _ _) (fun _ => loop_bind (loop_verifyTerminator t) (fun _ =>
    loop_bind (loop_sendByte _) (fun _ => loop_bind (loop_sendByte _) (fun _ =>
    loop_bind (loop_sendByte _) (fun _ => loop_respond)))))

/-! ### Requests with a programmer -/

/-- Moves never write the configuration. -/
theorem move_cfg {s t : State} (h : Move D A P E s t) : t.cfg = s.cfg := by
  cases h <;> try rfl
  · unfold flashComplete; split <;> rfl
  · unfold eeComplete; split <;> rfl

theorem Moves.cfg {s t : State} (h : Moves D A P E s t) : t.cfg = s.cfg := by
  induction h with
  | refl => rfl
  | tail _ h ih => exact (move_cfg h).trans ih

/-- A loop rule, run after the configuration has been read. -/
theorem loop_withCfg {c : Config} {m : Eng α} (h : LoopRule A P E m) :
    Keeps (fun s => s.InLoop ∧ s.cfg = c) (Moves False A P E) (Moves True A P E) m :=
  fun s hs => (h s hs.1).weaken (fun _ hr hi => ⟨hi, (Moves.cfg hr).trans hs.2⟩)

/-- A rule for the machine's own configuration only. -/
abbrev CfgRule (c : Config) (A : Prop) (P E : Nat → Prop) (m : Eng α) : Prop :=
  Keeps (fun s => s.InLoop ∧ s.cfg = c) (Moves False A P E) (Moves True A P E) m

theorem cfg_bind {c : Config} {m : Eng α} {f : α → Eng β} (hm : CfgRule c A P E m)
    (hf : ∀ a, CfgRule c A P E (f a)) : CfgRule c A P E (m >>= f) := keeps_bind moves_compose hm hf

theorem cfg_loadAddressRule (hA : A) (c : Config) (lo hi t : Byte) :
    CfgRule c A P E (loadAddressRule c lo hi t) := by
  refine cfg_bind (loop_withCfg (loop_openRequest _ _)) (fun _ =>
    cfg_bind (loop_withCfg (loop_recvByte lo)) (fun _ =>
    cfg_bind (loop_withCfg (loop_recvByte hi)) (fun _ =>
    cfg_bind (loop_withCfg (loop_verifyTerminator t)) (fun _ =>
    cfg_bind (keeps_update (fun s hs => ⟨.single (.setAddress s _ _ hA ?_), hs⟩)) (fun _ =>
    loop_withCfg loop_respond)))))
  intro h
  rw [hs.2] at h
  simp [h]

/-- `WdtConfig`: a configuration, and after a pause the marker where R193 sets it. -/
theorem wdtConfig_lands {I J : State → Prop} {pause : Eng Unit} {w : WdtCfg}
    (hI : Keeps I (Moves False A P E) (Moves True A P E) pause)
    (hJ : Keeps J (Moves False A P E) (Moves True A P E) pause)
    (hw : ∀ s, I s → Move False A P E s (s.configured w) ∧ J (s.configured w))
    (hm : ∀ s, J s → J s.marked) (s : State) (hs : I s) :
    LoopLands A P E J s (wdtConfig pause w s) := by
  refine lands_bind moves_compose hs hI (fun _ s hs => ?_)
  refine lands_bind (J := J) moves_compose hs (fun s hs => ⟨.single (hw s hs).1, (hw s hs).2⟩)
    (fun _ s hs => ?_)
  refine lands_bind moves_compose hs (keeps_look moves_compose _) (fun _ s hs => ?_)
  exact keeps_ite _ (fun _ => keeps_bind moves_compose hJ (fun _ =>
    keeps_update (fun s hs => ⟨.single (.mark s), hm s hs⟩))) (fun _ => keeps_pure moves_compose ()) s hs

theorem cfg_leaveProgModeRule (c : Config) (t : Byte) : CfgRule c A P E (leaveProgModeRule c t) := by
  refine cfg_bind (loop_withCfg (loop_openRequest _ _)) (fun _ =>
    cfg_bind (loop_withCfg (loop_verifyTerminator t)) (fun _ =>
    cfg_bind (wdtConfig_lands (loop_withCfg (loop_takePause _ _)) (loop_withCfg (loop_takePause _ _))
      (fun s hs => ⟨?_, hs⟩) (fun _ hs => hs)) (fun _ => loop_withCfg loop_respond)))
  rw [← hs.2]
  exact .armShort s hs.1

theorem loop_programHeader (lh n ty : Byte) : LoopRule A P E (programHeader lh n ty) :=
  loop_bind (loop_look _) (fun _ => loop_bind (loop_openRequest _ _) (fun _ =>
    loop_bind (loop_recvByte _) (fun _ => loop_bind (loop_recvByte _) (fun _ =>
    loop_bind (loop_update (fun s _ => .setLen s _) (fun _ h => h)) (fun _ =>
    loop_bind (loop_recvByte _) (fun _ =>
    loop_bind (loop_update (fun s _ => .setType s _) (fun _ h => h)) (fun _ =>
    loop_refuseIf _ _)))))))

theorem loop_readHeader (lh n ty t : Byte) : LoopRule A P E (readHeader lh n ty t) :=
  loop_bind (loop_look _) (fun _ => loop_bind (loop_openRequest _ _) (fun _ =>
    loop_bind (loop_recvByte _) (fun _ => loop_bind (loop_recvByte _) (fun _ =>
    loop_bind (loop_update (fun s _ => .setLen s _) (fun _ h => h)) (fun _ =>
    loop_bind (loop_recvByte _) (fun _ =>
    loop_bind (loop_update (fun s _ => .setType s _) (fun _ h => h)) (fun _ =>
    loop_bind (loop_verifyTerminator _) (fun _ => loop_refuseIf _ _))))))))

theorem loop_receivePayload (i : Nat) (bs : List Byte) : LoopRule A P E (receivePayload i bs) := by
  induction bs generalizing i with
  | nil => exact loop_pure _
  | cons b bs ih =>
    exact loop_bind (loop_recvByte b) (fun _ =>
      loop_bind (loop_update (fun s _ => .setBuf s i b) (fun _ h => h)) (fun _ => ih _))

theorem loop_stall : LoopRule A P E stall := loop_bind (loop_takePause _ _) (fun _ => loop_flashDone)

theorem loop_waitReady : LoopRule A P E waitReady := loop_bind (loop_record _) (fun _ => loop_stall)

theorem loop_rwwEnable : LoopRule A P E rwwEnable :=
  loop_bind (loop_record _) (fun _ => loop_update (fun s _ => .unblock s) (fun _ h => h))

theorem loop_keepAlive (k : KeepPoint) : LoopRule A P E (keepAlive k) :=
  loop_bind (loop_look _) (fun _ => loop_onlyIf _ loop_serviceStep)

/-! ### Flash pages -/

theorem settle_idle {p : Pause} {s : State} (h : s.flashOp = .idle) :
    (settle p s).flashOp = .idle := by
  unfold settle
  rw [flashComplete_idle h]
  cases p.flashDone <;> cases p.eeDone <;> simp [h, eeComplete] <;> split <;> simp [h]

/-- What holds between the checks of a page primitive and its start. -/
def PageReady (c : Config) (p : Nat) (s : State) : Prop :=
  s.InLoop ∧ s.cfg = c ∧ s.flashOp = .idle ∧ p % c.pageSize = 0 ∧ p < c.flashSize

theorem takePause_ready (c : Config) (p extra : Nat) (svc : Bool) :
    Keeps (PageReady c p) (Moves False A P E) (Moves True A P E) (takePause extra svc) := by
  intro s hs
  have h := loop_withCfg (A := A) (P := P) (E := E) (c := c) (loop_takePause extra svc) s ⟨hs.1, hs.2.1⟩
  have hi : ∀ u t, takePause extra svc s = .ok (u, t) → t.flashOp = .idle := by
    intro u t e
    unfold takePause at e
    dsimp only at e
    split at e
    · simp only [Except.ok.injEq, Prod.mk.injEq] at e
      rw [← e.2]; exact settle_idle hs.2.2.1
    · cases e
  cases e : takePause extra svc s with
  | ok q => rw [e] at h; exact ⟨h.1, h.2.1, h.2.2, hi q.1 q.2 (by rw [e]), hs.2.2.2⟩
  | error x => rw [e] at h; cases x <;> exact h

theorem record_ready (c : Config) (p : Nat) (e : Event) :
    Keeps (PageReady c p) (Moves False A P E) (Moves True A P E) (record e) :=
  keeps_bind moves_compose (takePause_ready c p 0 false)
    (fun _ => keeps_update (fun s hs => ⟨.single (.emit s e), hs⟩))

theorem checkPage_ready (c : Config) (p : Nat) (s : State) (hs : s.InLoop ∧ s.cfg = c) :
    LoopLands A P E (PageReady c p) s (checkPage p s) := by
  obtain ⟨hl, rfl⟩ := hs
  unfold checkPage
  rw [bind_run, look_run]
  refine lands_refuseIf (fun h1 => lands_refuseIf (fun h2 => ?_))
  by_cases h3 : s.cfg.flashSize ≤ p
  · simp only [id, h3, decide_true, refuseIf_true]
    exact (refuse_moves _ s).weaken (fun _ _ h => h.elim)
  · simp only [id, h3, decide_false, refuseIf_false]
    exact ⟨.refl, hl, rfl, by simpa using h1, by simpa using h2, by omega⟩

theorem startPageOp_lands (c : Config) (p : Nat) (op : FlashOp) (hop : op = .erasing p ∨ op = .writing p)
    (hP : P p) (s : State) (hs : PageReady c p s) :
    LoopLands A P E State.InLoop s (startPageOp p op s) := by
  refine lands_bind moves_compose hs (takePause_ready c p 0 false) (fun _ s hs => ?_)
  obtain ⟨hl, rfl, hi, ha, hr⟩ := hs
  rw [bind_run, update_run]
  have h1 : Moves False A P E s (s.startOp op) := .single (.pageOp s p op hop hP hi ha hr)
  have h2 := loop_bind (A := A) (P := P) (E := E) (loop_look (fun s => isRww s.cfg p))
    (fun r => loop_onlyIf (!r) loop_stall) (s.startOp op) hl
  exact h2.after moves_compose h1

/-- `commit_page` starts an operation on its page only. -/
theorem loop_commitPage (p : Nat) (hP : P p) : LoopRule A P E (commitPage p) := by
  intro s hs
  refine lands_bind moves_compose (I := fun t => t.InLoop ∧ t.cfg = s.cfg) ⟨hs, rfl⟩
    (fun t ht => checkPage_ready s.cfg p t ht) (fun _ t ht => ?_)
  exact lands_bind moves_compose ht (record_ready s.cfg p _) (fun _ t ht =>
    startPageOp_lands s.cfg p _ (Or.inr rfl) hP t ht)

/-- `erase_page` starts an operation on its page only, and a page of the bootloader it refuses. -/
theorem erasePage_lands (c : Config) (p : Nat) (hP : p < c.bootStart → P p) (s : State)
    (hs : s.InLoop ∧ s.cfg = c) :
    LoopLands A P E (fun t => (t.InLoop ∧ t.cfg = c) ∧ p < c.bootStart) s (erasePage p s) := by
  by_cases hb : c.bootStart ≤ p
  · refine lands_bind moves_compose hs (checkPage_ready c p) (fun _ t ht => ?_)
    rw [bind_run, look_run]
    exact lands_refuseIf (fun h => by simp [ht.2.1, hb] at h)
  · have hlt : p < c.bootStart := by omega
    have key : LoopLands A P E (fun t => t.InLoop ∧ t.cfg = c) s (erasePage p s) := by
      have h : LoopLands A P E State.InLoop s (erasePage p s) := by
        refine lands_bind moves_compose hs (checkPage_ready c p) (fun _ t ht => ?_)
        refine lands_bind moves_compose ht (keeps_look moves_compose _) (fun _ t ht => ?_)
        refine lands_bind moves_compose ht (keeps_refuseIf _ _) (fun _ t ht => ?_)
        exact lands_bind moves_compose ht (record_ready c p _) (fun _ t ht =>
          startPageOp_lands c p _ (Or.inl rfl) (hP hlt) t ht)
      exact h.weaken (fun t hr hi => ⟨hi, (Moves.cfg hr).trans hs.2⟩)
    exact key.weaken (fun t _ hi => ⟨hi, hlt⟩)

theorem loop_fillWord (hP : ∃ p, P p) (a : Nat) (w : Word) : LoopRule A P E (fillWord a w) :=
  loop_bind (loop_look _) (fun _ => loop_bind (loop_refuseIf _ _) (fun _ =>
    loop_bind (loop_refuseIf _ _) (fun _ => loop_bind (loop_refuseIf _ _) (fun _ =>
    loop_bind (loop_refuseIf _ _) (fun _ => loop_bind (loop_record _) (fun _ =>
    loop_update (fun s _ => .fill s _ w hP) (fun _ h => h)))))))

theorem loop_fillLoop (hP : ∃ p, P p) (a n k : Nat) : LoopRule A P E (fillLoop a n k) := by
  induction n generalizing k with
  | zero => exact loop_pure _
  | succ n ih =>
    exact loop_bind (loop_look _) (fun _ => loop_bind (loop_fillWord hP _ _) (fun _ => ih _))

theorem loop_commitSequence (c : Config) (a : Nat) (hP : P a) : LoopRule A P E (commitSequence c a) :=
  loop_bind (loop_keepAlive _) (fun _ => loop_bind loop_waitReady (fun _ =>
    loop_bind (loop_onlyIf _ (loop_update (fun s _ => .patch s) (fun _ h => h))) (fun _ =>
    loop_bind (loop_keepAlive _) (fun _ => loop_bind (loop_fillLoop ⟨a, hP⟩ _ _ _) (fun _ =>
    loop_bind (loop_commitPage a hP) (fun _ => loop_bind (loop_keepAlive _) (fun _ =>
    loop_bind loop_waitReady (fun _ => loop_onlyIf _ loop_rwwEnable))))))))

theorem loop_advanceBy (hA : A) (n : Nat) : LoopRule A P E (advanceBy n) :=
  loop_bind (loop_look _) (fun _ => loop_bind (loop_refuseIf _ _) (fun _ =>
    loop_update (fun s _ => .setAddr s _ hA) (fun _ h => h)))

theorem loop_advanceByte (hA : A) : LoopRule A P E advanceByte :=
  loop_bind (loop_look _) (fun _ => loop_bind (loop_refuseIf _ _) (fun _ =>
    loop_update (fun s _ => .setAddr s _ hA) (fun _ h => h)))

/-- ProgramFlash erases and commits the page at the flash address, and only below BOOT_START. -/
theorem programFlash_lands (hA : A) (c : Config) (payload : List Byte) (t : Byte) (s : State)
    (hs : s.InLoop ∧ s.cfg = c) (hP : s.flashAddress < c.bootStart → P s.flashAddress) :
    LoopLands A P E (fun t => t.InLoop ∧ t.cfg = c) s (programFlash c payload t s) := by
  unfold programFlash
  rw [bind_run, look_run]
  dsimp only
  generalize s.flashAddress = a at hP
  refine lands_bind moves_compose (I := fun s => s.InLoop ∧ s.cfg = c) hs
    (keeps_refuseIf _ _) (fun _ s hs => ?_)
  refine lands_bind moves_compose (I := fun s => s.InLoop ∧ s.cfg = c) hs
    (keeps_refuseIf _ _) (fun _ s hs => ?_)
  have rest : a < c.bootStart → CfgRule c A P E (do
      verifyTerminator t
      commitSequence c a
      advanceBy (advanceAmount c (payloadLength payload))) := fun h =>
    loop_withCfg (loop_bind (loop_verifyTerminator t) (fun _ =>
      loop_bind (loop_commitSequence c a (hP h)) (fun _ => loop_advanceBy hA _)))
  cases hr : isRww c a with
  | true =>
    refine lands_bind moves_compose hs (erasePage_lands c a hP) (fun _ u hu => ?_)
    refine lands_bind moves_compose (I := fun s => s.InLoop ∧ s.cfg = c) hu.1
      (loop_withCfg (loop_receivePayload 0 payload)) (fun _ v hv => ?_)
    exact lands_bind moves_compose hv (keeps_pure moves_compose ()) (fun _ w hw => rest hu.2 w hw)
  | false =>
    refine lands_bind moves_compose (I := fun s => s.InLoop ∧ s.cfg = c) hs
      (keeps_pure moves_compose ()) (fun _ u hu => ?_)
    refine lands_bind moves_compose hu (loop_withCfg (loop_receivePayload 0 payload))
      (fun _ v hv => ?_)
    exact lands_bind moves_compose hv (erasePage_lands c a hP) (fun _ w hw => rest hw.2 w hw.1)

/-- Moves that neither reset nor write ADDR and EXT leave the flash address. -/
theorem Moves.flashAddress {s t : State} (h : Moves False False P E s t) :
    t.addr = s.addr ∧ t.flashAddress = s.flashAddress := by
  induction h with
  | refl => exact ⟨rfl, rfl⟩
  | tail _ h ih =>
    have step : ∀ {u v : State}, Move False False P E u v →
        v.addr = u.addr ∧ v.flashAddress = u.flashAddress := by
      intro u v h
      cases h with
      | reset _ h => exact h.elim
      | setAddr _ h => exact h.elim
      | setAddress _ _ h _ => exact h.elim
      | flashDone => unfold flashComplete; split <;> exact ⟨rfl, rfl⟩
      | eeDone => unfold eeComplete; split <;> exact ⟨rfl, rfl⟩
      | _ => exact ⟨rfl, rfl⟩
    exact ⟨(step h).1.trans ih.1, (step h).2.trans ih.2⟩

/-- A loop rule that writes no address, run from a state of a known flash address and configuration. -/
theorem loop_withAddress {c : Config} {a : Nat} {w : Word} {m : Eng α} (h : LoopRule False P E m)
    (s : State) (hs : s.InLoop ∧ s.cfg = c ∧ s.addr = w ∧ s.flashAddress = a) :
    LoopLands A P E (fun t => t.InLoop ∧ t.cfg = c ∧ t.addr = w ∧ t.flashAddress = a) s (m s) := by
  have h1 := h s hs.1
  cases e : m s with
  | ok p =>
    rw [e] at h1
    have hf := Moves.flashAddress h1.1
    exact ⟨h1.1.weaken id False.elim (fun _ h => h) (fun _ h => h), h1.2,
      (Moves.cfg h1.1).trans hs.2.1, hf.1.trans hs.2.2.1, hf.2.trans hs.2.2.2⟩
  | error x =>
    rw [e] at h1
    cases x with
    | ended t => exact ⟨h1.1.weaken id False.elim (fun _ h => h) (fun _ h => h), h1.2⟩
    | fault _ => trivial
    | refused _ => trivial

theorem programPageFRule_lands (hA : A) (lh : Byte) (payload : List Byte) (t : Byte) (s : State)
    (hs : s.InLoop) (hP : s.flashAddress < s.cfg.bootStart → P s.flashAddress) :
    LoopLands A P E State.InLoop s (programPageFRule s.cfg lh payload t s) := by
  refine lands_bind moves_compose (I := fun u => u.InLoop ∧ u.cfg = s.cfg ∧ u.addr = s.addr ∧
    u.flashAddress = s.flashAddress) ⟨hs, rfl, rfl, rfl⟩
    (loop_withAddress (loop_programHeader lh (payloadLength payload) Config.typeFlash)) (fun _ u hu => ?_)
  refine lands_bind moves_compose (I := fun v => v = u) rfl
    (fun v hv => ?_) (fun _ v hv => loop_respond v hv)
  subst hv
  exact (programFlash_lands hA s.cfg payload t v ⟨hu.1, hu.2.1⟩ (by rw [hu.2.2.2]; exact hP)).weaken
    (fun _ _ h => h.1)

theorem loop_flashRead (a : Nat) : LoopRule A P E (flashRead a) := by
  refine loop_bind (loop_look _) (fun _ => loop_bind (loop_refuseIf _ _) (fun _ =>
    loop_bind (loop_record _) (fun _ => loop_bind (loop_look _) (fun s => ?_))))
  split
  · exact loop_pure _
  · exact loop_drawByte

theorem loop_hostFlashRead (fa : Nat) : LoopRule A P E (hostFlashRead fa) :=
  loop_bind (loop_look _) (fun _ => loop_ite _
    (fun _ => loop_bind (loop_look _) (fun _ => loop_ite _ (fun _ => loop_pure _)
      (fun _ => loop_drawByte)))
    (fun _ => loop_flashRead fa))

theorem loop_readFlash (hA : A) (n : Nat) : LoopRule A P E (readFlash n) := by
  induction n with
  | zero => exact loop_pure _
  | succ n ih =>
    exact loop_bind (loop_bind (loop_look _) (fun _ => loop_bind (loop_refuseIf _ _) (fun _ =>
      loop_bind (loop_hostFlashRead _) (fun _ => loop_bind (loop_sendByte _)
      (fun _ => loop_advanceByte hA))))) (fun _ => ih)

theorem loop_readPageFRule (hA : A) (lh n t : Byte) : LoopRule A P E (readPageFRule lh n t) :=
  loop_bind (loop_readHeader _ _ _ _) (fun _ => loop_bind (loop_readFlash hA _) (fun _ => loop_respond))

theorem loop_programBadTypeRule (lh n ty : Byte) : LoopRule A P E (programBadTypeRule lh n ty) :=
  loop_bind (loop_programHeader _ _ _) (fun _ => loop_refuse _)

theorem loop_readBadTypeRule (lh n ty t : Byte) : LoopRule A P E (readBadTypeRule lh n ty t) :=
  loop_bind (loop_readHeader _ _ _ _) (fun _ => loop_refuse _)

/-! ### EEPROM -/

theorem loop_eeWait : LoopRule A P E eeWait := loop_bind (loop_takePause _ _) (fun _ => loop_eeDone)

theorem loop_eeRead (a : Nat) : LoopRule A P E (eeRead a) :=
  loop_bind (loop_look _) (fun _ => loop_bind (loop_refuseIf _ _) (fun _ =>
    loop_bind loop_eeWait (fun _ => loop_bind (loop_emit _) (fun _ => loop_look _))))

/-- `ee_write` latches a byte inside EEPROM. -/
theorem loop_eeWrite (a : Nat) (b : Byte) (hE : E a) : LoopRule A P E (eeWrite a b) := by
  intro s hs
  unfold eeWrite
  rw [bind_run, look_run]
  refine lands_refuseIf (fun hr => ?_)
  have hr : ¬ s.cfg.eepromSize ≤ a := by simpa using hr
  have h2 : LoopLands A P E State.InLoop s
      ((eeWait >>= fun _ => emit (.eeWrite a b) >>= fun _ => instant >>= fun _ =>
        update (fun s => s.latch a b)) s) := by
    refine lands_bind moves_compose (I := fun t => t.InLoop ∧ t.cfg = s.cfg) ⟨hs, rfl⟩
      (loop_withCfg loop_eeWait) (fun _ t ht => ?_)
    refine lands_bind moves_compose ht (loop_withCfg (loop_emit _)) (fun _ t ht => ?_)
    exact lands_bind moves_compose ht (loop_withCfg (loop_takePause _ _)) (fun _ u hu =>
      ⟨.single (.latch u a b hE (by rw [hu.2]; omega)), hu.1⟩)
  simpa only [bind_run, update_run] using h2

/-- The write loop latches only the `n` addresses from ADDR on. -/
theorem writeEeprom_lands (hA : A) (n i : Nat) (s : State) (hs : s.InLoop)
    (hE : ∀ k < n, E (s.addr.toNat + k)) :
    LoopLands A P E State.InLoop s (writeEeprom n i s) := by
  induction n generalizing i s with
  | zero => exact loop_pure () s hs
  | succ n ih =>
    have key : LoopLands A P E (fun t => t.InLoop ∧ (n = 0 ∨ t.addr.toNat = s.addr.toNat + 1)) s
        (writeEepromByte i s) := by
      unfold writeEepromByte
      rw [bind_run, look_run]
      dsimp only [id]
      refine lands_bind moves_compose (I := fun u => u.InLoop ∧ u.cfg = s.cfg ∧ u.addr = s.addr ∧
        u.flashAddress = s.flashAddress) ⟨hs, rfl, rfl, rfl⟩
        (keeps_refuseIf _ _) (fun _ u hu => ?_)
      refine lands_bind moves_compose hu (loop_withAddress loop_serviceStep) (fun _ u hu => ?_)
      refine lands_bind moves_compose hu
        (loop_withAddress (loop_eeWrite _ _ (by simpa using hE 0 (by omega)))) (fun _ u hu => ?_)
      unfold advanceByte
      rw [bind_run, look_run]
      refine lands_refuseIf (fun hw => ?_)
      have hw : ¬ u.addr = 0xFFFF := by simpa using hw
      refine ⟨.single (.setAddr u _ hA), hu.1, .inr ?_⟩
      rw [State.setAddr_addr, hu.2.2.1]
      have : s.addr.toNat ≠ 65535 := by
        intro h; apply hw; rw [hu.2.2.1]; exact BitVec.eq_of_toNat_eq h
      have := s.addr.isLt
      rw [BitVec.toNat_add]; simp; omega
    refine lands_bind moves_compose (I := fun v => v = s)
      (J := fun t => t.InLoop ∧ (n = 0 ∨ t.addr.toNat = s.addr.toNat + 1)) rfl
      (fun v hv => by subst hv; exact key) (fun _ v hv => ih (i + 1) v hv.1 (fun k hk => ?_))
    rcases hv.2 with h0 | h1
    · omega
    · rw [h1]
      have := hE (k + 1) (by omega)
      rwa [show s.addr.toNat + 1 + k = s.addr.toNat + (k + 1) by omega]

theorem programPageERule_lands (hA : A) (lh : Byte) (payload : List Byte) (t : Byte) (s : State)
    (hs : s.InLoop) (hE : ∀ k < payload.length, E (s.addr.toNat + k)) :
    LoopLands A P E State.InLoop s (programPageERule lh payload t s) := by
  refine lands_bind moves_compose (I := fun u => u.InLoop ∧ u.cfg = s.cfg ∧ u.addr = s.addr ∧
    u.flashAddress = s.flashAddress) ⟨hs, rfl, rfl, rfl⟩
    (loop_withAddress (loop_programHeader lh (payloadLength payload) Config.typeEeprom)) (fun _ u hu => ?_)
  refine lands_bind moves_compose hu (loop_withAddress (loop_receivePayload _ _)) (fun _ u hu => ?_)
  refine lands_bind moves_compose hu (loop_withAddress (loop_verifyTerminator t)) (fun _ u hu => ?_)
  refine lands_bind moves_compose (I := fun v => v = u) rfl
    (fun v hv => ?_) (fun _ v hv => loop_respond v hv)
  subst hv
  exact writeEeprom_lands hA _ _ v hu.1 (by rw [hu.2.2.1]; exact hE)

theorem loop_readEeprom (hA : A) (n : Nat) : LoopRule A P E (readEeprom n) := by
  induction n with
  | zero => exact loop_pure _
  | succ n ih =>
    exact loop_bind (loop_bind (loop_look _) (fun _ => loop_bind (loop_refuseIf _ _) (fun _ =>
      loop_bind (loop_eeRead _) (fun _ => loop_bind (loop_sendByte _)
      (fun _ => loop_advanceByte hA))))) (fun _ => ih)

theorem loop_readPageERule (hA : A) (lh n t : Byte) : LoopRule A P E (readPageERule lh n t) :=
  loop_bind (loop_readHeader _ _ _ _) (fun _ => loop_bind (loop_readEeprom hA _) (fun _ => loop_respond))

/-! ### Instructions -/

/-- How a step that answers a next state got there: by moves without a reset to a phase of the loop, or
by moves to a stopped state. -/
def NextBy (A : Prop) (P E : Nat → Prop) (s t : State) : Prop :=
  (Moves False A P E s t ∧ t.InLoop) ∨ (Moves True A P E s t ∧ t.Stopped)

theorem NextBy.moves {s t : State} (h : NextBy A P E s t) : Moves True A P E s t := by
  rcases h with h | h
  · exact h.1.mono
  · exact h.1

theorem cfg_next {c : Config} {m : Eng Unit} (h : CfgRule c A P E m) {s t : State}
    (hs : s.InLoop ∧ s.cfg = c) (e : runRule m s = .next t) : NextBy A P E s t := by
  rcases h.next hs e with h | h
  · exact .inl ⟨h.1, h.2.1⟩
  · exact .inr h

/-- An instruction that answers a next state from the command loop gets there by moves: a ProgramPage
'F' works on the page at the flash address, a ProgramPage 'E' on the bytes from ADDR on, and no other
instruction on either memory. -/
theorem exec_moves {i : Instr} {s t : State} (hs : s.InLoop) (hA : A)
    (hP : ∀ lh payload x, i = .programPageF lh payload x → s.flashAddress < s.cfg.bootStart →
      P s.flashAddress)
    (hE : ∀ lh payload x, i = .programPageE lh payload x → ∀ k < payload.length,
      E (s.addr.toNat + k))
    (h : exec i s = .next t) : NextBy A P E s t := by
  cases i with
  | getParameter p x => exact (loop_getParameterRule s.cfg p x).next hs h
  | setDevice body x => exact (loop_skipRule _ _ body x).next hs h
  | setDeviceExt body x => exact (loop_skipRule _ _ body x).next hs h
  | loadAddress lo hi x => exact cfg_next (cfg_loadAddressRule hA s.cfg lo hi x) ⟨hs, rfl⟩ h
  | universal body x => exact (loop_universalRule s.cfg body x).next hs h
  | programPageF lh payload x =>
    exact (programPageFRule_lands hA lh payload x s hs (hP lh payload x rfl)).next h
  | programPageE lh payload x =>
    exact (programPageERule_lands hA lh payload x s hs (hE lh payload x rfl)).next h
  | readPageF lh n x => exact (loop_readPageFRule hA lh n x).next hs h
  | readPageE lh n x => exact (loop_readPageERule hA lh n x).next hs h
  | readSignature x => exact (loop_readSignatureRule s.cfg x).next hs h
  | leaveProgMode x => exact cfg_next (cfg_leaveProgModeRule s.cfg x) ⟨hs, rfl⟩ h
  | other b x => exact (loop_ackRule b x).next hs h
  | programPageBadType lh n ty => exact (loop_programBadTypeRule lh n ty).next hs h
  | readPageBadType lh n ty x => exact (loop_readBadTypeRule lh n ty x).next hs h
  | pkt tag payload => exact (loop_processPacket _).next hs h
  | hello a0 a1 a2 m body => exact (loop_processPacket _).next hs h
  | getSync x => exact (loop_ackRule _ x).next hs h
  | enterProgMode x => exact (loop_ackRule _ x).next hs h

/-! ### Steps -/

theorem bootPause_lands (I : State → Prop) (hI : ∀ s, I s → I s.popPause) :
    Keeps I (Moves False A P E) (Moves True A P E) bootPause := by
  intro s hs
  unfold bootPause
  dsimp only
  by_cases hq : (s.pauses.headD Pause.quiet).sources.isEmpty = true
  · rw [if_pos hq]; exact ⟨.single (.popPause s), hI s hs⟩
  · rw [if_neg hq]
    exact ⟨.head (.popPause s) (resetBy_moves _ _), .inl (resetBy_ph (by simpa using hq) _)⟩

/-- `EnterLoop` leaves Boot for the command loop, with the watchdog on WDT_MEDIUM. -/
theorem enterLoop_lands (s : State) (hs : s.ph = .boot) :
    LoopLands A P E (fun t => t.ph = .awaitCommand) s (enterLoop s) := by
  unfold enterLoop
  rw [bind_run, look_run]
  dsimp only
  obtain ⟨c, hc⟩ : ∃ c, s.cfg = c := ⟨_, rfl⟩
  rw [hc]
  refine lands_bind moves_compose (I := fun s => s.ph = .boot ∧ s.cfg = c)
    (J := fun s => s.ph = .boot ∧ s.wdtCfg = .on s.cfg.wdtMedium) ⟨hs, hc⟩
    (wdtConfig_lands (bootPause_lands _ (fun _ h => h)) (bootPause_lands _ (fun _ h => h))
      (fun s hs => ⟨.bootConfig s _ hs.1, hs.1, by rw [← hs.2]; rfl⟩) (fun _ h => h)) (fun _ s hs => ?_)
  exact ⟨.single (.enterLoop s hs.1 hs.2), rfl⟩

/-- The handoff leaves Boot for the application. -/
theorem handoff_lands (s : State) (hs : s.ph = .boot) :
    LoopLands A P E (fun t => t.ph = .handedOff) s (handoff s) := by
  have hbp : Keeps (fun s : State => s.ph = .boot) (Moves False A P E) (Moves True A P E) bootPause :=
    bootPause_lands _ (fun _ h => h)
  refine lands_bind moves_compose (I := fun s : State => s.ph = .boot) hs (keeps_look moves_compose _)
    (fun c s hs => ?_)
  refine lands_bind moves_compose hs (wdtConfig_lands (J := fun s : State => s.ph = .boot) hbp hbp
    (fun s hs => ⟨.bootConfig s _ hs, hs⟩) (fun _ h => h)) (fun _ s hs => ?_)
  refine lands_bind moves_compose hs hbp (fun _ s hs => ?_)
  exact ⟨.tail (.single (.handOver s hs)) (.emit _ _), rfl⟩

/-- The boot sequence ends in the command loop or in the application. -/
theorem boot_moves (s : State) (hs : s.ph = .boot) :
    LoopLands A P E (fun t => t.ph = .awaitCommand ∨ t.ph = .handedOff) s (bootSequence s) := by
  have hbp : Keeps (fun s : State => s.ph = .boot) (Moves False A P E) (Moves True A P E) bootPause :=
    bootPause_lands _ (fun _ h => h)
  refine lands_bind moves_compose hs hbp (fun _ s hs => ?_)
  refine lands_bind moves_compose hs (keeps_update (I := fun s : State => s.ph = .boot)
    (fun s hs => ⟨.single (.takeFlags s hs), hs⟩)) (fun _ s hs => ?_)
  refine lands_bind moves_compose hs hbp (fun _ s hs => ?_)
  refine lands_bind moves_compose (I := fun s : State => s.ph = .boot) hs (keeps_look moves_compose _)
    (fun u s hs => ?_)
  refine lands_bind moves_compose hs (keeps_ite (I := fun s : State => s.ph = .boot) _
    (fun _ => keeps_update (fun s hs => ⟨.single (.clearMarker s hs), hs⟩))
    (fun _ => keeps_pure moves_compose ())) (fun _ s hs => ?_)
  cases skipsLoop u.cfg u.resetCause u.marker with
  | true => exact (handoff_lands s hs).weaken (fun _ _ h => .inr h)
  | false => exact (enterLoop_lands s hs).weaken (fun _ _ h => .inl h)

/-- An idle step: time passes, controllers complete, and the phase stays; or a reset strikes. -/
theorem idle_moves {s t : State} (h : idle s = .next t) :
    (Moves False A P E s t ∧ t.ph = s.ph) ∨ (Moves True A P E s t ∧ t.ph = .boot) := by
  unfold idle at h
  split at h
  · have this := takePause_moves (A := A) (P := P) (E := E) 0 false s
    rcases runRule_next.1 h with ⟨u, e⟩ | e
    · rw [show takePause 0 false s = _ from e] at this; exact .inl ⟨this.1, this.2.1⟩
    · rw [show takePause 0 false s = _ from e] at this
      refine .inr ⟨this.1, ?_⟩
      unfold instant takePause at e
      dsimp only at e
      split at e
      · cases e
      · rename_i hq
        simp only [Except.error.injEq, Stop.ended.injEq] at e
        rw [← e]; exact resetBy_ph (by simpa using hq) _
  · split at h
    · cases h; exact .inr ⟨windowEnds_moves s, rfl⟩
    · cases h

theorem receivePacket_moves {p : List Byte} {ps : List (List Byte)} {s t : State} (hs : s.InLoop)
    (hA : A) (hP : ∀ a, a < s.cfg.bootStart → P a) (hE : ∀ a, E a)
    (h : receivePacket p ps s = .next t) : NextBy A P E s t := by
  have h1 := loop_takePause (A := A) (P := P) (E := E) 0 (s.delivers p) s hs
  unfold receivePacket at h
  cases e : takePause 0 (s.delivers p) s with
  | error x =>
    rw [e] at h h1
    exact Lands.next (m := fun _ => .error x) h1 h
  | ok q =>
    rw [e] at h h1
    have h2 : Moves False A P E s (q.2.setAir ps) := .tail h1.1 (.setAir _ _)
    have hl : (q.2.setAir ps).InLoop := h1.2
    have hc : (q.2.setAir ps).cfg = s.cfg := Moves.cfg h2
    have after : NextBy A P E (q.2.setAir ps) t → NextBy A P E s t := by
      rintro (g | g)
      · exact .inl ⟨h2.trans g.1, g.2⟩
      · exact .inr ⟨h2.mono.trans g.1, g.2⟩
    dsimp only at h
    split at h
    · exact after (exec_moves hl hA (fun _ _ _ _ hb => hP _ (hc ▸ hb)) (fun _ _ _ _ _ _ => hE _) h)
    · exact after ((loop_processPacket p).next hl h)

/-- A step of the command loop. -/
theorem loop_moves {s t : State} (hs : s.ph = .awaitCommand) (hA : A)
    (hP : ∀ a, a < s.cfg.bootStart → P a) (hE : ∀ a, E a) (h : loopStep s = .next t) :
    NextBy A P E s t := by
  have hl : s.InLoop := by simp [State.InLoop, hs]
  have hidle : idle s = .next t → NextBy A P E s t := by
    intro h
    rcases idle_moves h with g | g
    · exact .inl ⟨g.1, by unfold State.InLoop; rw [g.2]; exact hl⟩
    · exact .inr ⟨g.1, .inl g.2⟩
  unfold loopStep at h
  split at h
  · split at h
    · exact hidle h
    · exact receivePacket_moves hl hA hP hE h
  · split at h
    · exact exec_moves hl hA (fun _ _ _ _ hb => hP _ hb) (fun _ _ _ _ _ _ => hE _) h
    · exact hidle h

/-- A step that answers a next state gets there by moves; its page operations are below BOOT_START. -/
theorem step_moves {s t : State} (hA : A) (hP : ∀ a, a < s.cfg.bootStart → P a) (hE : ∀ a, E a)
    (h : step s = .next t) : Moves True A P E s t := by
  have hidle : idle s = .next t → Moves True A P E s t := fun h => by
    rcases idle_moves h with g | g
    · exact g.1.mono
    · exact g.1
  unfold step at h
  split at h
  · unfold phaseStep at h
    split at h
    · rcases (boot_moves s (by assumption)).next h with g | g
      · exact g.1.mono
      · exact g.1
    · exact (loop_moves (by assumption) hA hP hE h).moves
    · exact hidle h
    · exact hidle h
    · cases h
    · cases h
  · cases h

end Rules
end Sys2Proof.Machine
end

