-- ==== Sys2Proof/Laws/Talk.lean ====
section
/-! SUPPORT. What the shared operations of the byte channel do in a quiet environment, said once: they
complete, and they change nothing but the channel (`Talk`). A command's result is then its register
updates, with `Talk` around them. -/

namespace Sys2Proof.Machine

/-! ### The fields talking may change -/

/-- The fields of the state that talking may change. -/
structure Chan where
  ph : Phase
  wdtCnt : Nat
  ev : List Event
  line : List LineByte
  air : List (List Byte)
  radioOut : List ((Byte × Byte × Byte) × List Byte)
  acks : List Bool
  draws : Nat
  rxq : List Byte
  rxTag : Option Byte
  txbuf : List Byte
  txTag : Byte

/-- Those fields of a state. -/
def State.chan (s : State) : Chan :=
  { ph := s.ph, wdtCnt := s.wdtCnt, ev := s.ev, line := s.line, air := s.air, radioOut := s.radioOut,
    acks := s.acks, draws := s.draws, rxq := s.rxq, rxTag := s.rxTag, txbuf := s.txbuf, txTag := s.txTag }

/-- A state with those fields replaced. -/
def State.withChan (s : State) (c : Chan) : State :=
  { s with
    ph := c.ph, wdtCnt := c.wdtCnt, ev := c.ev, line := c.line, air := c.air, radioOut := c.radioOut,
    acks := c.acks, draws := c.draws, rxq := c.rxq, rxTag := c.rxTag, txbuf := c.txbuf, txTag := c.txTag }

theorem State.withChan_self (s : State) : s.withChan s.chan = s := rfl

/-! ### A pause nobody uses -/

@[simp] theorem State.addTime_zero (s : State) : s.addTime 0 = s := rfl

/-- A pause nobody uses passes. -/
theorem takePause_calm {s : State} (hq : s.pauses = []) {extra : Nat} (ha : s.Awake extra)
    (svc : Bool) : takePause extra svc s = .ok ((), s.addTime extra) := by
  have hp : s.popPause = s := by cases s; simp_all [State.popPause]
  have he : expired s.wdtCfg (s.wdtCnt + extra) svc false = false := by
    unfold expired
    cases hw : s.wdtCfg with
    | off => rfl
    | on d =>
      have := ha d hw
      have h1 : ¬ d < s.wdtCnt + extra := by omega
      have h2 : ¬ s.wdtCnt + extra = d := by omega
      simp [h1, h2]
  simp [takePause, hq, hp, settle, strikes, Pause.quiet, Pause.sources, he]

/-- The pause of a step that takes no time. -/
theorem takePause_still {s : State} (hq : s.pauses = []) (ha : s.Awake 0) (svc : Bool) :
    takePause 0 svc s = .ok ((), s) := takePause_calm hq ha svc

/-- An event recorded at an instant nobody uses. -/
theorem record_still {s : State} (hq : s.pauses = []) (ha : s.Awake 0) (e : Event) :
    record e s = .ok ((), s.emit e) := by
  simp [record, takePause_still hq ha, emit]

/-! ### The inbound stream depends on the link alone -/

/-- Two states agree on what the inbound stream depends on. -/
structure SameInbound (s t : State) : Prop where
  cfg : t.cfg = s.cfg
  assoc : t.assoc = s.assoc
  rxTag : t.rxTag = s.rxTag
  rxq : t.rxq = s.rxq

theorem filterBody_inbound {s t : State} (h : SameInbound s t) (p : List Byte) (tag : Byte)
    (payload : List Byte) :
    ∃ u v, filterBody p tag payload s = .ok ((), u) ∧ filterBody p tag payload t = .ok ((), v) ∧
      SameInbound u v := by
  simp only [filterBody, bind_run, look_run, ite_run, emit, update_run, h.rxTag]
  by_cases hr : s.rxTag = some tag
  · simp only [hr, if_true]
    exact ⟨_, _, rfl, rfl, by constructor <;> simp [h.cfg, h.assoc, h.rxTag, h.rxq]⟩
  · simp only [hr, if_false]
    exact ⟨_, _, rfl, rfl, by constructor <;> simp [h.cfg, h.assoc]⟩

/-- Nothing is waiting to strike: no pause, and the watchdog not expired. -/
def State.Still (s : State) : Prop := s.pauses = [] ∧ s.Awake 0

/-- Nothing strikes in the environment in which the stream is read. -/
theorem State.hushed_still (s : State) : s.hushed.Still := ⟨rfl, fun _ hd => by cases hd⟩

/-- A refusal at an instant nobody uses. -/
theorem refuse_still {α : Type} {s : State} (h : s.Still) (r : Refusal) :
    (refuse r : Eng α) s = .error (.refused r) := by
  simp [refuse, instant, takePause_still h.1 h.2]

/-- A packet is processed alike in still states that agree on the inbound side: refused in both, or in
neither. -/
theorem processPacket_inbound {s t : State} (h : SameInbound s t) (qs : s.Still) (qt : t.Still)
    (p : List Byte) :
    (∃ r, processPacket p s = .error (.refused r) ∧ processPacket p t = .error (.refused r)) ∨
      ∃ u v, processPacket p s = .ok ((), u) ∧ processPacket p t = .ok ((), v) ∧ SameInbound u v := by
  simp only [processPacket, bind_run, look_run, refuseIf_run, ite_run, refuse_still qs, refuse_still qt]
  by_cases hc : Config.pktCap < p.length
  · exact .inl ⟨.packetLength, by simp [hc], by simp [hc]⟩
  simp only [hc, decide_false, Bool.false_eq_true, if_false, h.assoc]
  cases ha : s.assoc with
  | true =>
    simp only [if_true]
    cases p with
    | nil =>
      exact .inr ⟨_, _, rfl, rfl, by constructor <;> simp [h.cfg, h.assoc, h.rxTag, h.rxq]⟩
    | cons tag payload =>
      exact .inr (filterBody_inbound h _ tag payload)
  | false =>
    simp only [Bool.false_eq_true, if_false]
    rcases p with _ | ⟨a0, _ | ⟨a1, _ | ⟨a2, _ | ⟨m, body⟩⟩⟩⟩
    iterate 4
      exact .inr ⟨_, _, rfl, rfl, by constructor <;> simp [h.cfg, h.assoc, h.rxTag, h.rxq]⟩
    simp only [associate, bind_run, refuseIf_run, refuse_still qs, refuse_still qt]
    cases badMaxlen m with
    | true => exact .inl ⟨.maxlen, by simp, by simp⟩
    | false =>
      simp only [Bool.false_eq_true, if_false, update_run, emit]
      have h2 : SameInbound ((s.paired (a0, a1, a2) m).emit (.pktIn (a0 :: a1 :: a2 :: m :: body) .associated))
          ((t.paired (a0, a1, a2) m).emit (.pktIn (a0 :: a1 :: a2 :: m :: body) .associated)) := by
        constructor <;> simp [h.cfg, h.rxTag, h.rxq]
      cases body with
      | nil => exact .inr ⟨_, _, rfl, rfl, h2⟩
      | cons tag payload =>
        right
        have is := takePause_still (s := (s.paired (a0, a1, a2) m).emit
          (.pktIn (a0 :: a1 :: a2 :: m :: tag :: payload) .associated)) qs.1 qs.2
        have it := takePause_still (s := (t.paired (a0, a1, a2) m).emit
          (.pktIn (a0 :: a1 :: a2 :: m :: tag :: payload) .associated)) qt.1 qt.2
        simp only [bind_run, look_run, is, it]
        exact filterBody_inbound h2 _ tag payload

theorem streamFrom_inbound {s t : State} (h : SameInbound s t) (ps : List (List Byte)) :
    streamFrom ps t = streamFrom ps s := by
  induction ps generalizing s t with
  | nil => exact h.rxq
  | cons p ps ih =>
    have h2 : SameInbound s.hushed t.hushed := ⟨h.cfg, h.assoc, h.rxTag, rfl⟩
    simp only [streamFrom, h.rxq]
    rcases processPacket_inbound h2 s.hushed_still t.hushed_still p with ⟨r, e1, e2⟩ | ⟨u, v, e1, e2, h3⟩
    · rw [e1, e2]
    · rw [e1, e2]
      simp only [ih h3]

theorem incoming_inbound {s t : State} (h : SameInbound s t) (hl : t.line = s.line)
    (ha : t.air = s.air) : t.incoming = s.incoming := by
  simp only [State.incoming, h.cfg, hl, ha, streamFrom_inbound h]

/-! ### The outbound side -/

/-- The same packet and the same acknowledgments, no later. -/
structure Outbound.Within (a b : Outbound) : Prop where
  queued : a.queued = b.queued
  acks : a.acks = b.acks
  time : a.time ≤ b.time

theorem Outbound.Within.trans {a b c : Outbound} (h : a.Within b) (g : b.Within c) : a.Within c :=
  ⟨h.queued.trans g.queued, h.acks.trans g.acks, h.time.trans g.time⟩

section Outbound

variable {c : Config} {m : Nat} {a b : Outbound}

theorem Outbound.send_within (h : a.Within b) (x : Byte) : (a.send c m x).Within (b.send c m x) := by
  unfold Outbound.send
  rw [h.queued, h.acks]
  split
  · exact ⟨rfl, rfl, Nat.add_le_add_right h.time _⟩
  · exact ⟨rfl, rfl, h.time⟩

theorem Outbound.sends_within (h : a.Within b) (bs : List Byte) :
    (bs.foldl (Outbound.send c m) a).Within (bs.foldl (Outbound.send c m) b) := by
  induction bs generalizing a b with
  | nil => exact h
  | cons x bs ih => exact ih (Outbound.send_within h x)

theorem Outbound.sends_time (bs : List Byte) : a.time ≤ (bs.foldl (Outbound.send c m) a).time := by
  induction bs generalizing a with
  | nil => exact Nat.le_refl _
  | cons x bs ih =>
    refine Nat.le_trans ?_ ih
    unfold Outbound.send; split
    · exact Nat.le_add_right _ _
    · exact Nat.le_refl _

end Outbound

section Sending

variable {s t : State} {bs bs' : List Byte}

@[simp] theorem State.afterSending_nil (s : State) : s.afterSending [] = s.outbound := by
  simp [State.afterSending]

theorem State.afterSending_wired (hr : s.cfg.radioEnabled = false) : s.afterSending bs = s.outbound := by
  simp [State.afterSending, hr]

theorem State.afterSending_time (s : State) (bs : List Byte) : s.wdtCnt ≤ (s.afterSending bs).time := by
  unfold State.afterSending; split
  · exact Outbound.sends_time (a := s.outbound) bs
  · exact Nat.le_refl _

/-- Sending on takes no time back. -/
theorem State.afterSending_prefix (s : State) (h : bs <+: bs') :
    (s.afterSending bs).time ≤ (s.afterSending bs').time := by
  obtain ⟨r, rfl⟩ := h
  unfold State.afterSending; split
  · rw [List.foldl_append]; exact Outbound.sends_time _
  · exact Nat.le_refl _

/-- Sending in two parts. -/
theorem State.afterSending_append (hc : t.cfg = s.cfg) (hm : t.maxlen = s.maxlen)
    (h : t.outbound.Within (s.afterSending bs)) :
    (t.afterSending bs').Within (s.afterSending (bs ++ bs')) := by
  unfold State.afterSending at h ⊢
  rw [hc, hm]
  split
  · rename_i hr
    rw [if_pos hr] at h
    rw [List.foldl_append]; exact Outbound.sends_within h bs'
  · rename_i hr
    rw [if_neg hr] at h; exact h

end Sending

/-! ### Talking -/

/-- From `s` to `t` the engine has only talked. -/
structure Talk (s t : State) (heard : Nat) (said : List Byte) : Prop where
  frame : t = s.withChan t.chan
  wired : s.cfg.radioEnabled = false →
    t.rxTag = s.rxTag ∧ t.rxq = s.rxq ∧ t.txbuf = s.txbuf ∧ t.txTag = s.txTag
  received : t.incoming = s.incoming.drop heard
  passed : t.passed = s.passed ++ said
  sent : t.sent = s.sent ++ said
  destination : ∃ new, t.radioOut = s.radioOut ++ new ∧ ∀ x ∈ new, x.1 = s.peer
  trace : s.ev <+: t.ev
  out : t.outbound.Within (s.afterSending said)
  full : s.txbuf ≠ [] → t.txbuf ≠ []

section Talk

variable {s t u : State} {h h' : Nat} {said said' bs bs' : List Byte}

/-- Nothing has been handed to the radio driver. -/
theorem noTransmission {s t : State} (h : t.radioOut = s.radioOut) :
    ∃ new, t.radioOut = s.radioOut ++ new ∧ ∀ x ∈ new, x.1 = s.peer := ⟨[], by simp [h], by simp⟩

theorem Talk.refl (s : State) : Talk s s 0 [] :=
  ⟨rfl, fun _ => ⟨rfl, rfl, rfl, rfl⟩, by simp, by simp, by simp, noTransmission rfl, List.prefix_rfl,
    by rw [State.afterSending_nil]; exact ⟨rfl, rfl, Nat.le_refl _⟩, fun h => h⟩

theorem Talk.cfg (a : Talk s t h said) : t.cfg = s.cfg := by rw [a.frame]; rfl
theorem Talk.wdtCfg (a : Talk s t h said) : t.wdtCfg = s.wdtCfg := by rw [a.frame]; rfl
theorem Talk.assoc (a : Talk s t h said) : t.assoc = s.assoc := by rw [a.frame]; rfl
theorem Talk.maxlen (a : Talk s t h said) : t.maxlen = s.maxlen := by rw [a.frame]; rfl
theorem Talk.peer (a : Talk s t h said) : t.peer = s.peer := by rw [a.frame]; rfl
theorem Talk.pauses (a : Talk s t h said) : t.pauses = s.pauses := by rw [a.frame]; rfl
theorem Talk.pagebuf (a : Talk s t h said) : t.pagebuf = s.pagebuf := by rw [a.frame]; rfl
theorem Talk.addr (a : Talk s t h said) : t.addr = s.addr := by rw [a.frame]; rfl
theorem Talk.ext (a : Talk s t h said) : t.ext = s.ext := by rw [a.frame]; rfl

theorem Talk.trans (a : Talk s t h said) (b : Talk t u h' said') :
    Talk s u (h + h') (said ++ said') := by
  have hc := a.cfg
  refine ⟨?_, fun hw => ?_, ?_, ?_, ?_, ?_, a.trace.trans b.trace,
    b.out.trans (State.afterSending_append hc a.maxlen a.out), fun hn => b.full (a.full hn)⟩
  · rw [b.frame, a.frame]; rfl
  · have h1 := a.wired hw
    have h2 := b.wired (by rw [hc]; exact hw)
    exact ⟨h2.1.trans h1.1, h2.2.1.trans h1.2.1, h2.2.2.1.trans h1.2.2.1, h2.2.2.2.trans h1.2.2.2⟩
  · rw [b.received, a.received, List.drop_drop]
  · rw [b.passed, a.passed, List.append_assoc]
  · rw [b.sent, a.sent, List.append_assoc]
  · obtain ⟨n1, e1, h1⟩ := a.destination
    obtain ⟨n2, e2, h2⟩ := b.destination
    refine ⟨n1 ++ n2, by rw [e2, e1, List.append_assoc], fun x hx => ?_⟩
    rcases List.mem_append.1 hx with hx | hx
    · exact h1 x hx
    · rw [← a.peer]; exact h2 x hx

/-- An update of registers that talking does not touch commutes with talking. -/
theorem Talk.map {g : State → State} (a : Talk s t h said)
    (hg : ∀ c, g (s.withChan c) = (g s).withChan c) (hs : (g s).chan = s.chan)
    (hc : (g s).cfg = s.cfg) (ha : (g s).assoc = s.assoc) (hm : (g s).maxlen = s.maxlen)
    (hp : (g s).peer = s.peer) : Talk (g s) (g t) h said := by
  have ht : g t = (g s).withChan t.chan := by rw [a.frame]; exact hg _
  have hs' : s.chan = (g s).chan := hs.symm
  simp only [State.chan, Chan.mk.injEq] at hs'
  obtain ⟨-, h2, h3, h4, h5, h12, h6, -, h8, h9, h10, h11⟩ := hs'
  have hi1 : (g s).incoming = s.incoming := incoming_inbound ⟨hc, ha, h9.symm, h8.symm⟩ h4.symm h5.symm
  have hi2 : (g t).incoming = t.incoming := by
    rw [ht]
    exact incoming_inbound ⟨hc.trans a.cfg.symm, ha.trans a.assoc.symm, rfl, rfl⟩ rfl rfl
  refine ⟨?_, fun hw => ?_, ?_, ?_, ?_, ?_, ?_, ?_, ?_⟩
  · rw [ht]; rfl
  · rw [ht, ← h8, ← h9, ← h10, ← h11]
    exact a.wired (by rw [← hc]; exact hw)
  · rw [hi1, hi2]; exact a.received
  · have e1 : (g s).passed = s.passed := by simp only [State.passed, ← h3]
    have e2 : (g t).passed = t.passed := by rw [ht]; rfl
    rw [e1, e2]; exact a.passed
  · have e1 : (g s).sent = s.sent := by simp only [State.sent, State.passed, hc, ← h3, ← h10]
    have e2 : (g t).sent = t.sent := by
      rw [ht]; simp only [State.sent, State.passed, a.cfg]
      show _ = _
      simp [State.withChan, State.chan, hc]
    rw [e1, e2]; exact a.sent
  · have e2 : (g t).radioOut = t.radioOut := by rw [ht]; rfl
    rw [e2, ← h12, hp]; exact a.destination
  · rw [ht, ← h3]; exact a.trace
  · have e1 : (g t).outbound = t.outbound := by rw [ht]; rfl
    have e2 : (g s).afterSending said = s.afterSending said := by
      simp only [State.afterSending, State.outbound, hc, hm, ← h2, ← h6, ← h10]
    rw [e1, e2]; exact a.out
  · rw [ht, ← h10]; exact a.full

/-- What `Talk` says in the terms of Safety. -/
theorem Talk.talked (a : Talk s t h said) : Talked s t h said := by
  refine ⟨?_, ?_, a.wdtCfg, ?_, ?_, a.received, a.passed, a.sent, a.destination, a.trace,
    a.pauses⟩
  · rw [a.frame]; constructor <;> rfl
  · rw [a.frame]; constructor <;> rfl
  · rw [a.frame]; constructor <;> first | rfl | exact fun _ => rfl
  · exact ⟨a.assoc, by rw [a.frame]; rfl, by rw [a.frame]; rfl, a.wired⟩

/-- The engine can hear `h` more bytes and send `bs`. -/
structure CanTalk (s : State) (h : Nat) (bs : List Byte) : Prop where
  quiet : s.pauses = []
  holds : ∀ d, s.wdtCfg = .on d → (s.afterSending bs).time < d
  link : s.LinkUp
  bytes : h ≤ s.incoming.length

theorem CanTalk.awake (c : CanTalk s h bs) : s.Awake 0 := fun d hd => by
  have := c.holds d hd
  have := s.afterSending_time bs
  omega

theorem CanTalk.weaken (c : CanTalk s h bs) (hh : h' ≤ h) (hb : bs' <+: bs) : CanTalk s h' bs' :=
  ⟨c.quiet, fun d e => (s.afterSending_prefix hb).trans_lt (c.holds d e), c.link, hh.trans c.bytes⟩

/-- A rule that hears no more than `h'` bytes and sends nothing. -/
theorem CanTalk.hear (c : CanTalk s h bs) (hh : h' ≤ h) : CanTalk s h' [] := c.weaken hh List.nil_prefix

theorem Talk.can (a : Talk s t h said) (c : CanTalk s (h + h') (said ++ bs)) : CanTalk t h' bs := by
  refine ⟨a.pauses.trans c.quiet, fun d hd => ?_, fun hr => ?_, ?_⟩
  · have := c.holds d (a.wdtCfg ▸ hd)
    have := (State.afterSending_append (bs' := bs) a.cfg a.maxlen a.out).time
    omega
  · have hl := c.link (a.cfg ▸ hr)
    exact ⟨a.assoc.trans hl.1, a.full hl.2.1, by rw [a.cfg]; exact hl.2.2⟩
  · have := c.bytes
    rw [a.received, List.length_drop]; omega

/-! ### The channel's operations -/

/-- One event of the engine that sends nothing. -/
theorem talk_emit (s : State) (e : Event) (he : passedBy e = [] ∧ packedBy e = []) :
    Talk s (s.emit e) 0 [] :=
  ⟨rfl, fun _ => ⟨rfl, rfl, rfl, rfl⟩, by
    rw [List.drop_zero]; exact incoming_inbound ⟨rfl, rfl, rfl, rfl⟩ rfl rfl,
    by simp [State.passed, he], by simp [State.sent, State.passed, he], noTransmission rfl, by simp,
    by rw [State.afterSending_nil]; exact ⟨rfl, rfl, Nat.le_refl _⟩, fun h => h⟩

theorem talk_setPh (s : State) (p : Phase) : Talk s (s.setPh p) 0 [] :=
  ⟨rfl, fun _ => ⟨rfl, rfl, rfl, rfl⟩, by
    rw [List.drop_zero]; exact incoming_inbound ⟨rfl, rfl, rfl, rfl⟩ rfl rfl,
    by simp [State.passed], (List.append_nil _).symm, noTransmission rfl, by simp,
    by rw [State.afterSending_nil]; exact ⟨rfl, rfl, Nat.le_refl _⟩, fun h => h⟩

theorem talk_serviced (s : State) : Talk s s.serviced 0 [] :=
  ⟨rfl, fun _ => ⟨rfl, rfl, rfl, rfl⟩, by
    rw [List.drop_zero]; exact incoming_inbound ⟨rfl, rfl, rfl, rfl⟩ rfl rfl,
    by simp [State.passed, passedBy], by simp [State.sent, State.passed, passedBy, packedBy],
    noTransmission rfl, by simp,
    by rw [State.afterSending_nil]; exact ⟨rfl, rfl, Nat.zero_le _⟩, fun h => h⟩

/-- A service that follows no wait. -/
theorem serviceStep_calm {s : State} (hq : s.pauses = []) (ha : s.Awake 0) :
    serviceStep s = .ok ((), s.serviced) := by
  simp [serviceStep, takePause_still hq ha, wdtService]

/-- An ordinary packet, whatever becomes of it, changes nothing but the inbound side and EV. -/
theorem ordinary_calm (p : List Byte) (u : State) :
    ∃ t, ordinary p u = .ok ((), t) ∧ t = u.withChan t.chan ∧ t.air = u.air ∧ t.radioOut = u.radioOut ∧
      t.txbuf = u.txbuf ∧ t.txTag = u.txTag ∧ t.wdtCnt = u.wdtCnt ∧ t.acks = u.acks ∧
      ∃ v, t.ev = u.ev ++ [.pktIn p v] := by
  cases p with
  | nil => exact ⟨_, rfl, rfl, rfl, rfl, rfl, rfl, rfl, rfl, _, rfl⟩
  | cons tag payload =>
    simp only [ordinary, filterBody, bind_run, look_run, ite_run, emit, update_run]
    by_cases ht : u.rxTag = some tag
    · simp only [ht, if_true]
      exact ⟨_, rfl, by simp [State.withChan, State.chan, State.emit], rfl, rfl, rfl, rfl, rfl, rfl, _, rfl⟩
    · simp only [ht, if_false]
      exact ⟨_, rfl, rfl, rfl, rfl, rfl, rfl, rfl, rfl, _, rfl⟩

/-- On an associated link a packet is refused for its length or processed as an ordinary one. -/
theorem processPacket_associated {u : State} (hu : u.assoc = true) (hq : u.Still) (p : List Byte) :
    processPacket p u = .error (.refused .packetLength) ∨ processPacket p u = ordinary p u := by
  by_cases hc : Config.pktCap < p.length
  · exact .inl (by simp [processPacket, refuseIf_run, refuse_still hq, hc])
  · exact .inr (by simp [processPacket, refuseIf_run, hc, hu])

/-- The packets an associated link takes until it holds a byte, when the stream has one. -/
theorem awaitPackets_calm (ps : List (List Byte)) {s : State} (ha : s.assoc = true)
    (hq : s.pauses = []) (hw : s.Awake 0) (hair : s.air = ps) (hb : streamFrom ps s ≠ []) :
    ∃ t, awaitPackets ps s = .ok ((), t) ∧ t.rxq ≠ [] ∧ t = s.withChan t.chan ∧
      streamFrom t.air t = streamFrom ps s ∧ t.radioOut = s.radioOut ∧ t.txbuf = s.txbuf ∧
      t.txTag = s.txTag ∧ t.wdtCnt = s.wdtCnt ∧ t.acks = s.acks ∧ s.ev <+: t.ev ∧
      t.ev.flatMap passedBy = s.ev.flatMap passedBy ∧ t.ev.flatMap packedBy = s.ev.flatMap packedBy := by
  induction ps generalizing s with
  | nil =>
    have hr : s.rxq ≠ [] := hb
    exact ⟨s, by simp [awaitPackets, hr], hr, rfl, by rw [hair], rfl, rfl, rfl, rfl, rfl, List.prefix_rfl,
      rfl, rfl⟩
  | cons p ps ih =>
    by_cases hr : s.rxq = []
    · have hrun : awaitPackets (p :: ps) s =
          (processPacket p >>= fun _ => awaitPackets ps) (s.setAir ps) := by
        simp [awaitPackets, hr, takePause_still hq hw]
      rw [hrun]
      have hsr : streamFrom (p :: ps) s = match processPacket p s.hushed with
          | .ok (_, t) => streamFrom ps t
          | .error _ => [] := by
        rw [streamFrom, hr]; exact List.nil_append _
      rcases processPacket_inbound (s := s.hushed) (t := s.setAir ps) ⟨rfl, rfl, rfl, hr⟩
        s.hushed_still ⟨hq, hw⟩ p with ⟨r, e1, e2⟩ | ⟨u, v, e1, e2, h3⟩
      · rw [hsr, e1] at hb; exact absurd rfl hb
      · obtain ⟨t, e3, f1, f2, f3, f4, f5, f6, f7, vd, f8⟩ := ordinary_calm p (s.setAir ps)
        rcases processPacket_associated (u := s.setAir ps) ha ⟨hq, hw⟩ p with e4 | e4
        · rw [e2] at e4; cases e4
        · rw [e2, e3] at e4; cases e4
          have hsv : streamFrom ps v = streamFrom (p :: ps) s := by
            rw [hsr, e1]; exact streamFrom_inbound h3 ps
          have hv1 : v.assoc = true := by rw [f1]; exact ha
          have hv2 : v.pauses = [] := by rw [f1]; exact hq
          have hv3 : v.Awake 0 := by
            intro d hd
            have : v.wdtCfg = s.wdtCfg := by rw [f1]; rfl
            rw [f6]; exact hw d (this ▸ hd)
          have f8' : v.ev = s.ev ++ [.pktIn p vd] := f8
          obtain ⟨t, g1, g2, g3, g4, g5, g6, g7, g8, g9, g10, g11, g12⟩ :=
            ih hv1 hv2 hv3 f2 (by rw [hsv]; exact hb)
          refine ⟨t, by simp [e2, g1], g2, ?_, g4.trans hsv, g5.trans f3, g6.trans f4, g7.trans f5,
            g8.trans f6, g9.trans f7, ?_, ?_, ?_⟩
          · rw [g3, f1]; rfl
          · rw [f8'] at g10; exact (List.prefix_append _ _).trans g10
          · rw [g11, f8']; simp [passedBy]
          · rw [g12, f8']; simp [packedBy]
    · exact ⟨s, by simp [awaitPackets, hr], hr, rfl, by rw [hair], rfl, rfl, rfl, rfl, rfl, List.prefix_rfl,
        rfl, rfl⟩

/-- Taking a byte from RXQ takes it from the stream. -/
theorem streamFrom_dequeued (ps : List (List Byte)) {s : State} (h : s.rxq ≠ []) :
    streamFrom ps s.dequeued = (streamFrom ps s).tail := by
  cases ps with
  | nil => rfl
  | cons p ps =>
    have hd : s.dequeued.hushed = s.hushed := rfl
    simp only [streamFrom, hd, State.dequeued_rxq]
    cases hq : s.rxq with
    | nil => exact absurd hq h
    | cons a r => rfl

/-- Once serviced, a watchdog that has not expired does not expire at once. -/
theorem State.Awake.serviced {s : State} {slack : Nat} (h : s.Awake slack) : s.serviced.Awake 0 := by
  intro d hd
  have := h d hd
  simp only [State.serviced_wdtCnt]; omega

theorem talk_radioRecv {s : State} (b : Byte) (hrad : s.cfg.radioEnabled = true) (c : CanTalk s 1 []) :
    ∃ t, radioRecvByte b s = .ok ((), t) ∧ Talk s t 1 [] := by
  have hl := c.link hrad
  have hi : s.incoming = streamFrom s.air s := by simp [State.incoming, hrad]
  have hb : streamFrom s.air s ≠ [] := by
    intro h; have := c.bytes; rw [hi, h] at this; simp at this
  obtain ⟨t, e, hr, f1, f2, f3, f4, f5, f6, f7, f8, f9, f10⟩ :=
    awaitPackets_calm s.air hl.1 c.quiet c.awake rfl hb
  have hq : t.pauses = [] := by rw [f1]; exact c.quiet
  have hw : t.Awake 0 := by
    intro d hd
    have : t.wdtCfg = s.wdtCfg := by rw [f1]; rfl
    rw [f6]; exact c.awake d (this ▸ hd)
  have hw2 : t.dequeued.serviced.Awake 0 := State.Awake.serviced (s := t.dequeued) hw
  refine ⟨t.dequeued.serviced.emit (.rx b), ?_, ?_⟩
  · simp [radioRecvByte, e, takePause_still hq hw, wdtService,
      record_still (s := t.dequeued.serviced) hq hw2]
  · have hcfg : t.cfg = s.cfg := by rw [f1]; rfl
    refine ⟨?_, fun h => ?_, ?_, ?_, ?_, noTransmission f3, ?_, ?_, ?_⟩
    · have : t.dequeued.serviced.emit (.rx b) =
          t.withChan (t.dequeued.serviced.emit (.rx b)).chan := rfl
      rw [this, f1]; rfl
    · rw [hrad] at h; cases h
    · have h1 : (t.dequeued.serviced.emit (.rx b)).incoming = streamFrom t.air t.dequeued := by
        simp only [State.incoming, State.emit_cfg, State.serviced_cfg, State.dequeued_cfg, hcfg, hrad,
          if_true]
        exact streamFrom_inbound (s := t.dequeued) (t := t.dequeued.serviced.emit (.rx b))
          ⟨rfl, rfl, rfl, rfl⟩ t.air
      rw [h1, streamFrom_dequeued _ hr, f2, hi, List.drop_one]
    · simp [State.passed, f9, passedBy]
    · simp [State.sent, hcfg, hrad, f4, f10, packedBy]
    · have : (t.dequeued.serviced.emit (.rx b)).ev = t.ev ++ [.service, .rx b] := by simp
      rw [this]; exact f8.trans (List.prefix_append _ _)
    · rw [State.afterSending_nil]
      exact ⟨by simp [State.outbound, f4], by simp [State.outbound, f7], by simp [State.outbound]⟩
    · simp [f4]

theorem talk_wiredRecv {s : State} (b : Byte) (hrad : s.cfg.radioEnabled = false) (c : CanTalk s 1 []) :
    ∃ t, wiredRecvByte b s = .ok ((), t) ∧ Talk s t 1 [] := by
  have hi : s.incoming = s.line.map LineByte.byte := by simp [State.incoming, hrad]
  cases hl : s.line with
  | nil => have := c.bytes; rw [hi, hl] at this; simp at this
  | cons e rest =>
    have h1 : Talk s (s.setLine rest) 1 [] := by
      refine ⟨rfl, fun _ => ⟨rfl, rfl, rfl, rfl⟩, ?_, by simp [State.passed],
        (List.append_nil _).symm, noTransmission rfl, List.prefix_rfl,
        by rw [State.afterSending_nil]; exact ⟨rfl, rfl, Nat.le_refl _⟩, fun h => h⟩
      rw [hi, hl]; simp [State.incoming, hrad]
    have hw : (s.setLine rest).Awake 0 := c.awake
    cases he : e.ok with
    | true =>
      refine ⟨(s.setLine rest).serviced.emit (.rx b), ?_,
        (h1.trans (talk_serviced _)).trans (talk_emit _ _ ⟨rfl, rfl⟩)⟩
      simp [wiredRecvByte, hl, he, takePause_still c.quiet c.awake, onlyIf, wdtService,
        record_still (s := (s.setLine rest).serviced) c.quiet hw.serviced]
    | false =>
      refine ⟨(s.setLine rest).emit (.rx b), ?_, h1.trans (talk_emit _ _ ⟨rfl, rfl⟩)⟩
      simp [wiredRecvByte, hl, he, takePause_still c.quiet c.awake, onlyIf,
        record_still (s := s.setLine rest) c.quiet hw]

/-- `RecvByte` of a byte the channel holds takes it and does nothing else. -/
theorem talk_recvByte {s : State} (b : Byte) (c : CanTalk s 1 []) :
    ∃ t, recvByte b s = .ok ((), t) ∧ Talk s t 1 [] := by
  simp only [recvByte, bind_run, look_run, ite_run]
  cases hrad : s.cfg.radioEnabled with
  | true => simpa using talk_radioRecv b hrad c
  | false => simpa using talk_wiredRecv b hrad c

@[simp] theorem attemptsFor_nil (n : Nat) : attemptsFor n [] = n := by cases n <;> rfl

theorem attemptsFor_pos (n : Nat) (l : List Bool) : 1 ≤ attemptsFor (n + 1) l := by
  rcases l with _ | ⟨_ | _, r⟩ <;> simp [attemptsFor]

/-- The acknowledgment of an attempt, when `n` more may follow it. -/
theorem nextAck_calm (n : Nat) (u : State) :
    ∃ a v, nextAck u = .ok (a, v) ∧ v = u.withChan v.chan ∧ v.line = u.line ∧ v.air = u.air ∧
      v.radioOut = u.radioOut ∧ v.rxq = u.rxq ∧ v.rxTag = u.rxTag ∧ v.txbuf = u.txbuf ∧
      v.txTag = u.txTag ∧ v.wdtCnt = u.wdtCnt ∧ v.ev = u.ev ∧
      (a = true → v.acks = u.acks.drop (attemptsFor (n + 1) u.acks)) ∧
      (a = false → v.acks = u.acks.drop 1 ∧ attemptsFor (n + 1) u.acks = 1 + attemptsFor n v.acks) := by
  cases h : u.acks with
  | nil =>
    refine ⟨Config.freeBool u.draws, u.countDraw, by simp only [nextAck, h], rfl, rfl, rfl, rfl, rfl, rfl,
      rfl, rfl, rfl, rfl, fun _ => ?_, fun _ => ?_⟩
    · exact h
    · exact ⟨h, by rw [show u.countDraw.acks = [] from h]; simp; omega⟩
  | cons a r =>
    refine ⟨a, u.setAcks r, by simp only [nextAck, h], rfl, rfl, rfl, rfl, rfl, rfl, rfl, rfl, rfl, rfl,
      fun ht => ?_, fun ht => ?_⟩
    · rw [ht]; rfl
    · rw [ht]; exact ⟨rfl, rfl⟩

/-- The attempts of a flush from attempt `k` on. -/
theorem flushAttempts_calm (guard : Nat) (peer : Byte × Byte × Byte) (packet : List Byte) (n : Nat) {k : Nat}
    (hk : 1 ≤ k) {s : State} (hq : s.pauses = []) (h0 : s.Awake 0)
    (ha : s.Awake (attemptsFor n s.acks * guard)) :
    ∃ t, flushAttempts guard peer packet n k s = .ok ((), t) ∧ t = s.withChan t.chan ∧ t.line = s.line ∧
      t.air = s.air ∧ t.rxq = s.rxq ∧ t.rxTag = s.rxTag ∧ t.txbuf = s.txbuf ∧ t.txTag = s.txTag ∧
      t.wdtCnt ≤ s.wdtCnt + attemptsFor n s.acks * guard ∧
      t.acks = s.acks.drop (attemptsFor n s.acks) ∧ s.ev <+: t.ev ∧
      t.ev.flatMap passedBy = s.ev.flatMap passedBy ∧
      t.ev.flatMap packedBy = s.ev.flatMap packedBy ++ (if k = 1 ∧ n ≠ 0 then packet.tail else []) ∧
      ∃ new, t.radioOut = s.radioOut ++ new ∧ ∀ x ∈ new, x = (peer, packet) := by
  induction n generalizing k s with
  | zero =>
    exact ⟨s, rfl, rfl, rfl, rfl, rfl, rfl, rfl, rfl, by simp, by simp [attemptsFor], List.prefix_rfl, rfl,
      by simp, [], by simp, by simp⟩
  | succ n ih =>
    have hpos : 1 ≤ attemptsFor (n + 1) s.acks := attemptsFor_pos n s.acks
    have hg : guard ≤ attemptsFor (n + 1) s.acks * guard := Nat.le_mul_of_pos_left _ hpos
    have h1 : (s.emit (.delay guard)).Awake guard := by
      intro d hd; have := ha d hd; simp only [State.emit_wdtCnt]; omega
    have h3 : (s.emit (.delay guard)).Awake 0 := fun d hd => h0 d hd
    obtain ⟨u, hu⟩ : ∃ u, u = ((s.emit (.delay guard)).addTime guard).handed peer packet := ⟨_, rfl⟩
    have h2 : u.Awake 0 := by
      intro d hd
      have := ha d (by rw [hu] at hd; exact hd)
      simp only [hu, State.handed_wdtCnt, State.addTime_wdtCnt, State.emit_wdtCnt]; omega
    have hqu : u.pauses = [] := by rw [hu]; exact hq
    obtain ⟨a, v, e, f1, f2, f3, fr, f4, f5, f6, f7, f8, f9, f10, f11⟩ := nextAck_calm n u
    have hrun : flushAttempts guard peer packet (n + 1) k s =
        (if a = true then pure () else flushAttempts guard peer packet n (k + 1))
          (v.emit (.pktOut packet k a)) := by
      simp [flushAttempts, delay, radioTx, record_still hq h0, emit,
        takePause_still (s := s.emit (.delay guard)) hq h3, takePause_calm (by exact hq) h1, ← hu,
        takePause_still hqu h2, e]
    rw [hrun]
    have hv : v.emit (.pktOut packet k a) = s.withChan (v.emit (.pktOut packet k a)).chan := by
      have : v.emit (.pktOut packet k a) = v.withChan (v.emit (.pktOut packet k a)).chan := rfl
      rw [this, f1, hu]; rfl
    have hev : (v.emit (.pktOut packet k a)).ev = s.ev ++ [.delay guard, .pktOut packet k a] := by
      simp [f9, hu]
    have hro : v.radioOut = s.radioOut ++ [(peer, packet)] := by rw [fr, hu]; rfl
    rw [hu] at f2 f3 f4 f5 f6 f7 f8 f10 f11
    simp only [State.handed_line, State.addTime_line, State.emit_line, State.handed_air, State.addTime_air,
      State.emit_air, State.handed_rxq, State.addTime_rxq, State.emit_rxq, State.handed_rxTag,
      State.addTime_rxTag, State.emit_rxTag, State.handed_txbuf, State.addTime_txbuf, State.emit_txbuf,
      State.handed_txTag, State.addTime_txTag, State.emit_txTag, State.handed_wdtCnt, State.addTime_wdtCnt,
      State.emit_wdtCnt, State.handed_acks, State.addTime_acks, State.emit_acks] at f2 f3 f4 f5 f6 f7 f8 f10 f11
    cases a with
    | true =>
      refine ⟨_, by simp, hv, f2, f3, f4, f5, f6, f7, ?_, f10 rfl, ?_, ?_, ?_, _, hro, by simp⟩
      · simp only [State.emit_wdtCnt, f8]; omega
      · rw [hev]; exact List.prefix_append _ _
      · rw [hev]; simp [passedBy]
      · rw [hev]; simp [packedBy]
    | false =>
      obtain ⟨hvd, hva⟩ := f11 rfl
      have hsum : attemptsFor (n + 1) s.acks * guard = guard + attemptsFor n v.acks * guard := by
        rw [hva]; ring
      have hq' : (v.emit (.pktOut packet k false)).pauses = [] := by rw [hv]; exact hq
      have hw' : (v.emit (.pktOut packet k false)).wdtCfg = s.wdtCfg := by rw [hv]; rfl
      have ha' : (v.emit (.pktOut packet k false)).Awake
          (attemptsFor n (v.emit (.pktOut packet k false)).acks * guard) := by
        intro d hd
        have := ha d (hw' ▸ hd)
        simp only [State.emit_wdtCnt, State.emit_acks, f8]; omega
      obtain ⟨t, g0, g1, g2, g3, g4, g5, g6, g7, g8, ga, g9, gb, g10, new, g11, g12⟩ :=
        ih (k := k + 1) (by omega) hq' (fun d hd => by have := ha' d hd; omega) ha'
      refine ⟨t, by simpa using g0, ?_, g2.trans f2, g3.trans f3, g4.trans f4, g5.trans f5,
        g6.trans f6, g7.trans f7, ?_, ?_, ?_, ?_, ?_, (peer, packet) :: new, ?_, ?_⟩
      · rw [g1, hv]; rfl
      · simp only [State.emit_wdtCnt, State.emit_acks, f8] at g8; omega
      · rw [ga, State.emit_acks, hva, hvd, List.drop_drop]
      · rw [hev] at g9; exact (List.prefix_append _ _).trans g9
      · rw [gb, hev]; simp [passedBy]
      · have hk1 : k ≠ 0 := by omega
        rw [g10, hev]; simp [packedBy, hk1]
      · rw [g11, State.emit_radioOut, hro]; simp
      · intro x hx
        rcases List.mem_cons.1 hx with rfl | hx
        · rfl
        · exact g12 x hx

/-- `Flush` sends the packet once for the byte channel, whatever the acknowledgments, and always to PEER. -/
theorem flush_calm {s : State} (hq : s.pauses = []) (h0 : s.Awake 0)
    (ha : s.Awake (attemptsFor s.cfg.txAttempts s.acks * s.cfg.txGuard)) :
    ∃ t, flush s = .ok ((), t) ∧ t = s.withChan t.chan ∧ t.line = s.line ∧ t.air = s.air ∧
      t.rxq = s.rxq ∧ t.rxTag = s.rxTag ∧ t.txbuf = [t.txTag] ∧ t.txTag = s.txTag + 1 ∧
      t.wdtCnt ≤ s.wdtCnt + attemptsFor s.cfg.txAttempts s.acks * s.cfg.txGuard ∧
      t.acks = s.acks.drop (attemptsFor s.cfg.txAttempts s.acks) ∧ s.ev <+: t.ev ∧
      t.ev.flatMap passedBy = s.ev.flatMap passedBy ∧
      t.ev.flatMap packedBy = s.ev.flatMap packedBy ++
        (if s.cfg.txAttempts ≠ 0 then s.txbuf.tail else []) ∧
      ∃ new, t.radioOut = s.radioOut ++ new ∧ ∀ x ∈ new, x = (s.peer, s.txbuf) := by
  obtain ⟨t, g0, g1, g2, g3, g4, g5, g6, g7, g8, ga, g9, gb, g10, g11⟩ :=
    flushAttempts_calm s.cfg.txGuard s.peer s.txbuf s.cfg.txAttempts (Nat.le_refl 1) hq h0 ha
  refine ⟨t.nextPacket, by simp [flush, g0], ?_, g2, g3, g4, g5, rfl, by simp [g7], g8, ga, g9, gb, ?_, g11⟩
  · have : t.nextPacket = t.withChan t.nextPacket.chan := rfl
    rw [this, g1]; rfl
  · simpa using g10

/-- `RadioSendByte` of a byte just recorded. -/
theorem talk_radioSend {s : State} (b : Byte) (hrad : s.cfg.radioEnabled = true) {h : Nat}
    {bs : List Byte} (c : CanTalk s h (b :: bs)) :
    ∃ t, radioSendByte b (s.emit (.tx b)) = .ok ((), t) ∧ Talk s t 0 [b] ∧
      (b = s.cfg.respOk → t.txbuf = [t.txTag]) := by
  obtain ⟨ha, hn, h1⟩ := c.link hrad
  have hone : s.afterSending [b] = s.outbound.send s.cfg s.maxlen.toNat b := by
    simp [State.afterSending, hrad]
  have htime := (c.weaken (bs' := [b]) (Nat.le_refl h) ⟨bs, rfl⟩).holds
  rw [hone] at htime
  have hsent : s.ev.flatMap packedBy ++ (s.txbuf ++ [b]).tail = s.sent ++ [b] := by
    cases ht : s.txbuf with
    | nil => exact absurd ht hn
    | cons x r => simp [State.sent, hrad, ht]
  by_cases hf : s.txbuf.length + 1 = s.maxlen.toNat ∨ b = s.cfg.respOk
  · have hout : s.outbound.send s.cfg s.maxlen.toNat b =
        { queued := 1
          acks := s.acks.drop (attemptsFor s.cfg.txAttempts s.acks)
          time := s.wdtCnt + attemptsFor s.cfg.txAttempts s.acks * s.cfg.txGuard } := by
      simp [Outbound.send, State.outbound, hf]
    obtain ⟨t, g0, g1, g2, g3, g4, g5, g6, g7, g8, ga, g9, gb, g10, new, g11, g12⟩ :=
      flush_calm (s := (s.emit (.tx b)).queued b) c.quiet c.awake (fun d hd => by
        have := htime d hd; rw [hout] at this; exact this)
    have hc : t.cfg = s.cfg := by rw [g1]; rfl
    have hev : s.ev <+: t.ev := (List.prefix_append _ _).trans (State.emit_ev s _ ▸ g9)
    refine ⟨t, ?_, ⟨?_, fun hw => ?_, ?_, ?_, ?_, ⟨new, g11, ?_⟩, hev, ?_, ?_⟩, fun _ => g6⟩
    · rw [← g0]
      simp only [radioSendByte, bind_run, look_run, State.emit_assoc, ha, Bool.not_true, refuseIf_false,
        update_run, onlyIf, id, State.queued_txbuf, State.queued_maxlen, State.queued_cfg,
        State.emit_txbuf, State.emit_maxlen, State.emit_cfg, List.length_append, List.length_singleton,
        hf, decide_true, if_true]
    · rw [g1]; rfl
    · rw [hrad] at hw; cases hw
    · rw [List.drop_zero]
      exact incoming_inbound ⟨hc, by rw [g1]; rfl, g5, g4⟩ g2 g3
    · rw [State.passed, gb]; simp [State.passed, passedBy]
    · have h0 : s.cfg.txAttempts ≠ 0 := by omega
      have : t.sent = t.ev.flatMap packedBy := by simp [State.sent, hc, hrad, g6]
      rw [this, g10, ← hsent]
      simp [h0, packedBy]
    · intro x hx; rw [g12 x hx]; rfl
    · rw [hone, hout]; exact ⟨by simp [State.outbound, g6], ga, g8⟩
    · intro _; rw [g6]; simp
  · have hout : s.outbound.send s.cfg s.maxlen.toNat b =
        { s.outbound with queued := s.txbuf.length + 1 } := by
      rw [Outbound.send, State.outbound, if_neg hf]
    refine ⟨(s.emit (.tx b)).queued b, ?_, ⟨rfl, fun hw => ?_, ?_, ?_, ?_, noTransmission rfl, by simp, ?_,
      by simp⟩, fun hb => ?_⟩
    · simp only [radioSendByte, bind_run, look_run, State.emit_assoc, ha, Bool.not_true, refuseIf_false,
        update_run, onlyIf, id, State.queued_txbuf, State.queued_maxlen, State.queued_cfg,
        State.emit_txbuf, State.emit_maxlen, State.emit_cfg, List.length_append, List.length_singleton,
        hf, decide_false, Bool.false_eq_true, if_false, pure_run]
    · rw [hrad] at hw; cases hw
    · rw [List.drop_zero]; exact incoming_inbound ⟨rfl, rfl, rfl, rfl⟩ rfl rfl
    · simp [State.passed, passedBy]
    · rw [← hsent]; simp [State.sent, hrad, packedBy]
    · rw [hone, hout]; exact ⟨by simp [State.outbound], rfl, Nat.le_refl _⟩
    · exact absurd (Or.inr hb) hf

theorem talk_wiredSend {s : State} (b : Byte) (hrad : s.cfg.radioEnabled = false)
    (hq : s.pauses = []) (ha : s.Awake 0) :
    wiredSendByte b s = .ok ((), s.emit (.tx b)) ∧ Talk s (s.emit (.tx b)) 0 [b] := by
  refine ⟨record_still hq ha _, rfl, fun _ => ⟨rfl, rfl, rfl, rfl⟩, ?_,
    by simp [State.passed, passedBy], by simp [State.sent, State.passed, passedBy, hrad], noTransmission rfl,
    by simp, ?_, fun h => h⟩
  · rw [List.drop_zero]; exact incoming_inbound ⟨rfl, rfl, rfl, rfl⟩ rfl rfl
  · rw [State.afterSending_wired hrad]; exact ⟨rfl, rfl, Nat.le_refl _⟩

/-- `SendByte` sends the byte and does nothing else; RESP_OK empties TXBUF down to its tag. -/
theorem talk_sendByte {s : State} (b : Byte) {h : Nat} {bs : List Byte} (c : CanTalk s h (b :: bs)) :
    ∃ t, sendByte b s = .ok ((), t) ∧ Talk s t 0 [b] ∧
      (s.cfg.radioEnabled = true → b = s.cfg.respOk → t.txbuf = [t.txTag]) := by
  simp only [sendByte, bind_run, look_run, ite_run]
  cases hrad : s.cfg.radioEnabled with
  | true =>
    obtain ⟨t, e, k, hb⟩ := talk_radioSend b hrad c
    exact ⟨t, by simpa [record_still c.quiet c.awake] using e, k, fun _ => hb⟩
  | false =>
    obtain ⟨e, k⟩ := talk_wiredSend b hrad c.quiet c.awake
    exact ⟨_, by simpa using e, k, by simp⟩

/-! ### The procedures every command shares -/

theorem talk_openRequest (b : Byte) (k : Command) (c : CanTalk s 1 []) :
    ∃ t, openRequest b k s = .ok ((), t) ∧ Talk s t 1 [] := by
  obtain ⟨t, e, a⟩ := talk_recvByte b c
  exact ⟨t.setPh (.execute k), by simp [openRequest, e], a.trans (talk_setPh t _)⟩

theorem talk_discard (bs : List Byte) (c : CanTalk s bs.length []) :
    ∃ t, discard bs s = .ok ((), t) ∧ Talk s t bs.length [] := by
  induction bs generalizing s with
  | nil => exact ⟨s, rfl, Talk.refl s⟩
  | cons b bs ih =>
    obtain ⟨t, e, a⟩ := talk_recvByte b (c.hear (by simp))
    obtain ⟨u, e2, a2⟩ := ih (a.can (h' := bs.length) (bs := [])
      (by rw [List.length_cons] at c; rwa [Nat.add_comm]))
    exact ⟨u, by simp [discard, e, e2], by
      have := a.trans a2; rwa [List.length_cons, Nat.add_comm bs.length 1]⟩

/-- The right terminator passes the check. -/
theorem talk_checkTerminator {x : Byte} (hx : x = s.cfg.term) (c : CanTalk s 1 []) :
    ∃ t, checkTerminator x s = .ok ((), t) ∧ Talk s t 1 [] := by
  obtain ⟨t, e, a⟩ := talk_recvByte x c
  have hxt : x = t.cfg.term := by rw [a.cfg]; exact hx
  exact ⟨t, by simp only [checkTerminator, bind_run, e, look_run, ite_run, if_pos hxt, pure_run], a⟩

/-- A wrong terminator abandons the session, and nothing is sent (40_dispatcher.md R104). -/
theorem checkTerminator_wrong {x : Byte} (hx : x ≠ s.cfg.term) (c : CanTalk s 1 []) :
    ∃ t, checkTerminator x s = .error (.ended (t.setPh .abandoned)) ∧ Talk s t 1 [] := by
  obtain ⟨t, e, a⟩ := talk_recvByte x c
  exact ⟨t, by simp [checkTerminator, e, a.cfg, hx, raiseDesync], a⟩

theorem talk_verifyTerminator {x : Byte} (hx : x = s.cfg.term)
    (c : CanTalk s 1 (s.cfg.respInsync :: bs)) :
    ∃ t, verifyTerminator x s = .ok ((), t) ∧ Talk s t 1 [s.cfg.respInsync] := by
  obtain ⟨t, e, a⟩ := talk_checkTerminator hx (c.hear (Nat.le_refl 1))
  have c2 : CanTalk t 0 (t.cfg.respInsync :: bs) := a.can (by rw [a.cfg]; exact c)
  obtain ⟨u, e2, a2, -⟩ := talk_sendByte t.cfg.respInsync c2
  refine ⟨u, by simp [verifyTerminator, e, e2], ?_⟩
  have := a.trans a2
  rwa [a.cfg] at this

theorem verifyTerminator_wrong {x : Byte} (hx : x ≠ s.cfg.term) (c : CanTalk s 1 []) :
    ∃ t, verifyTerminator x s = .error (.ended (t.setPh .abandoned)) ∧ Talk s t 1 [] := by
  obtain ⟨t, e, a⟩ := checkTerminator_wrong hx c
  exact ⟨t, by simp [verifyTerminator, e], a⟩

/-- `Respond` sends RESP_OK, services the watchdog and completes the command. -/
theorem talk_respond (c : CanTalk s h (s.cfg.respOk :: bs)) :
    ∃ t, respond s = .ok ((), t) ∧ Talk s t 0 [s.cfg.respOk] ∧ Completed t := by
  have a0 := talk_setPh s .respond
  have c1 : CanTalk (s.setPh .respond) h (s.cfg.respOk :: bs) := a0.can (by simpa using c)
  obtain ⟨t, e, a, hb⟩ := talk_sendByte s.cfg.respOk c1
  have c2 : CanTalk t h bs := a.can (by simpa using c1)
  refine ⟨t.serviced.setPh .awaitCommand, ?_, ?_, rfl, rfl, ?_⟩
  · simp [respond, e, serviceStep_calm c2.quiet c2.awake]
  · have := ((a0.trans a).trans (talk_serviced t)).trans (talk_setPh t.serviced .awaitCommand)
    simpa using this
  · intro hr
    exact hb (by rw [← a.cfg]; exact hr) rfl

end Talk
end Sys2Proof.Machine
end

