-- ==== Sys2Proof/Laws/Pages.lean ====
section
/-! SUPPORT. What the flash and EEPROM primitives do in a quiet environment, said once each: the update
they make of the state, with `Talk` around it. -/

namespace Sys2Proof.Machine

section Pages

variable {s : State} {h h' : Nat} {bs : List Byte}

theorem flashComplete_withChan (s : State) (c : Chan) :
    flashComplete (s.withChan c) = (flashComplete s).withChan c := by
  unfold flashComplete
  cases h : s.flashOp <;> simp [State.withChan, h] <;> rfl

theorem flashComplete_same (s : State) : (flashComplete s).chan = s.chan ∧
    (flashComplete s).cfg = s.cfg ∧ (flashComplete s).assoc = s.assoc ∧
    (flashComplete s).maxlen = s.maxlen ∧ (flashComplete s).pauses = s.pauses ∧
    (flashComplete s).wdtCfg = s.wdtCfg ∧ (flashComplete s).peer = s.peer := by
  unfold flashComplete; cases s.flashOp <;> exact ⟨rfl, rfl, rfl, rfl, rfl, rfl, rfl⟩

/-- Completing the flash operation commutes with talking. -/
theorem Talk.flashComplete {t : State} {said : List Byte} (a : Talk s t h said) :
    Talk (flashComplete s) (Sys2Proof.Machine.flashComplete t) h said :=
  have e := flashComplete_same s
  a.map (fun c => flashComplete_withChan s c) e.1 e.2.1 e.2.2.1 e.2.2.2.1 e.2.2.2.2.2.2

theorem CanTalk.fillPair (c : CanTalk s h bs) (i : Nat) (w : Word) : CanTalk (s.fillPair i w) h bs :=
  ⟨c.quiet, c.holds, c.link, by
    rw [incoming_inbound (s := s) (t := s.fillPair i w) ⟨rfl, rfl, rfl, rfl⟩ rfl rfl]; exact c.bytes⟩

theorem stall_calm (c : CanTalk s h []) : stall s = .ok ((), flashComplete s) := by
  simp [stall, takePause_still c.quiet c.awake]

theorem checkPage_calm (p : Nat) (hi : s.flashOp = .idle) (ha : p % s.cfg.pageSize = 0)
    (hr : p < s.cfg.flashSize) : checkPage p s = .ok ((), s) := by
  simp [checkPage, hi, ha, Nat.not_le.2 hr]

theorem startPageOp_calm (p : Nat) (op : FlashOp) (c : CanTalk s h []) :
    startPageOp p op s = .ok ((), s.begun p op) := by
  have hst : stall (s.startOp op) = .ok ((), flashComplete (s.startOp op)) := by
    simp [stall, takePause_still (s := s.startOp op) c.quiet c.awake]
  cases hr : isRww s.cfg p <;>
    simp [startPageOp, takePause_still c.quiet c.awake, State.begun, hr, onlyIf, hst]

theorem erasePage_calm (p : Nat) (c : CanTalk s h []) (hi : s.flashOp = .idle)
    (ha : p % s.cfg.pageSize = 0) (hr : p < s.cfg.flashSize) (hb : p < s.cfg.bootStart) :
    erasePage p s = .ok ((), (s.emit (.erase p)).begun p (.erasing p)) := by
  have c2 : CanTalk (s.emit (.erase p)) h [] := (talk_emit s _ ⟨rfl, rfl⟩).can (by simpa using c)
  simp [erasePage, checkPage_calm p hi ha hr, Nat.not_le.2 hb, record_still c.quiet c.awake,
    startPageOp_calm p _ c2]

theorem commitPage_calm (p : Nat) (c : CanTalk s h []) (hi : s.flashOp = .idle)
    (ha : p % s.cfg.pageSize = 0) (hr : p < s.cfg.flashSize) :
    commitPage p s = .ok ((), (s.emit (.commit p)).begun p (.writing p)) := by
  have c2 : CanTalk (s.emit (.commit p)) h [] := (talk_emit s _ ⟨rfl, rfl⟩).can (by simpa using c)
  simp [commitPage, checkPage_calm p hi ha hr, record_still c.quiet c.awake, startPageOp_calm p _ c2]

theorem waitReady_calm (c : CanTalk s h []) :
    waitReady s = .ok ((), flashComplete (s.emit .waitReady)) := by
  have c2 : CanTalk (s.emit .waitReady) h [] := (talk_emit s _ ⟨rfl, rfl⟩).can (by simpa using c)
  simp [waitReady, record_still c.quiet c.awake, stall_calm c2]

theorem rwwEnable_calm (c : CanTalk s h []) :
    rwwEnable s = .ok ((), (s.emit .rwwEnable).unblock) := by
  simp [rwwEnable, record_still c.quiet c.awake]

theorem keepAlive_calm (k : KeepPoint) (c : CanTalk s h []) :
    ∃ t, keepAlive k s = .ok ((), t) ∧ Talk s t 0 [] := by
  by_cases hk : k ∈ s.cfg.flashKeepalive
  · exact ⟨s.serviced, by simp [keepAlive, hk, onlyIf, serviceStep_calm c.quiet c.awake], talk_serviced s⟩
  · exact ⟨s, by simp [keepAlive, hk, onlyIf], Talk.refl s⟩

theorem fillWord_calm (a : Nat) (w : Word) (c : CanTalk s h []) (hi : s.flashOp = .idle)
    (he : a % 2 = 0) (hr : a < s.cfg.flashSize) (hf : s.filledAt a = false)
    (hf2 : s.filledAt (a + 1) = false) :
    fillWord a w s = .ok ((), (s.emit (.fill a w)).fillPair (a % s.cfg.pageSize) w) := by
  simp [fillWord, hi, he, Nat.not_le.2 hr, hf, hf2, record_still c.quiet c.awake]

/-- The whole write buffer is filled from PAGEBUF (41_flash_programmer.md R135). -/
def State.bufferFilled (s : State) : State := { s with wbuf := s.pagebuf.map some }

@[simp] theorem lo8_wordOf (lo hi : Byte) : lo8 (wordOf lo hi) = lo := by
  unfold lo8 wordOf; ext i h; simp; rw [BitVec.getLsbD_append]; simp [h]

@[simp] theorem hi8_wordOf (lo hi : Byte) : hi8 (wordOf lo hi) = hi := by
  unfold hi8 wordOf; ext i h; simp; rw [BitVec.getLsbD_append]; simp [h]

/-- Filling the pair from index `2 * k` on extends the filled prefix of the buffer. -/
theorem fill_extends (buf : List Byte) (n k : Nat) (hl : buf.length = 2 * (k + (n + 1))) :
    (((buf.take (2 * k)).map some ++ List.replicate (2 * (n + 1)) none).set (2 * k)
      (some (buf.getD (2 * k) 0))).set (2 * k + 1) (some (buf.getD (2 * k + 1) 0)) =
    (buf.take (2 * (k + 1))).map some ++ List.replicate (2 * n) (none : Option Byte) := by
  apply List.ext_getElem?
  intro i
  have hk : (List.map some (List.take (2 * k) buf)).length = 2 * k := by simp; omega
  have hk1 : (List.map some (List.take (2 * (k + 1)) buf)).length = 2 * (k + 1) := by simp; omega
  simp only [List.getElem?_set, List.getElem?_append, hk, hk1, List.length_set, List.length_append,
    List.length_replicate, List.getElem?_map, List.getElem?_take, List.getElem?_replicate]
  have hg : ∀ j, j < buf.length → buf[j]? = some (buf.getD j 0) := by
    intro j hj; rw [List.getD_eq_getElem?_getD, List.getElem?_eq_getElem hj]; rfl
  by_cases h1 : 2 * k + 1 = i
  · subst h1
    rw [if_pos rfl, if_pos (by omega), if_pos (by omega), if_pos (by omega), hg _ (by omega)]; rfl
  · rw [if_neg h1]
    by_cases h2 : 2 * k = i
    · subst h2
      rw [if_pos rfl, if_pos (by omega), if_pos (by omega), if_pos (by omega), hg _ (by omega)]; rfl
    · rw [if_neg h2]
      by_cases h3 : i < 2 * k
      · simp only [h3, if_true, show i < 2 * (k + 1) by omega]
      · have h5 : ¬ i < 2 * (k + 1) := by omega
        have h6 : i - 2 * k < 2 * (n + 1) ↔ i - 2 * (k + 1) < 2 * n := by omega
        simp only [h3, h5, h6, if_false]

/-- The fill loop fills the cells from word `k` on, two at a time. -/
theorem fillLoop_calm (a n k : Nat) (c : CanTalk s h []) (hi : s.flashOp = .idle)
    (hpos : 0 < s.cfg.pageSize) (heven : s.cfg.pageSize % 2 = 0)
    (ha : a % s.cfg.pageSize = 0) (hr : a + s.cfg.pageSize ≤ s.cfg.flashSize)
    (hn : 2 * (k + n) = s.cfg.pageSize) (hl : s.pagebuf.length = s.cfg.pageSize)
    (hw : s.wbuf = (s.pagebuf.take (2 * k)).map some ++ List.replicate (2 * n) none) :
    ∃ t, fillLoop a n k s = .ok ((), t) ∧ Talk s.bufferFilled t 0 [] := by
  induction n generalizing k s with
  | zero =>
    refine ⟨s, rfl, ?_⟩
    have : s.bufferFilled = s := by
      have h1 : s.pagebuf.take (2 * k) = s.pagebuf := List.take_of_length_le (by omega)
      rw [h1] at hw
      cases s; simp_all [State.bufferFilled]
    rw [this]; exact Talk.refl s
  | succ n ih =>
    have hidx : (a + 2 * k) % s.cfg.pageSize = 2 * k := by
      rw [Nat.add_mod, ha, Nat.zero_add, Nat.mod_mod, Nat.mod_eq_of_lt (by omega)]
    have hidx1 : (a + 2 * k + 1) % s.cfg.pageSize = 2 * k + 1 := by
      rw [Nat.add_assoc, Nat.add_mod, ha, Nat.zero_add, Nat.mod_mod, Nat.mod_eq_of_lt (by omega)]
    have hmin : min (2 * k) s.pagebuf.length = 2 * k := by omega
    have hf : s.filledAt (a + 2 * k) = false := by
      simp [State.filledAt, hidx, hw, hmin]
    have hf1 : s.filledAt (a + 2 * k + 1) = false := by
      simp [State.filledAt, hidx1, hw, List.getElem?_append, hmin, List.getElem?_replicate]
    have hdvd : a % 2 = 0 := by
      have h1 : s.cfg.pageSize ∣ a := Nat.dvd_of_mod_eq_zero ha
      have h2 : 2 ∣ s.cfg.pageSize := Nat.dvd_of_mod_eq_zero heven
      exact Nat.mod_eq_zero_of_dvd (h2.trans h1)
    have hrun := fillWord_calm (a + 2 * k) (wordOf (s.bufByte (2 * k)) (s.bufByte (2 * k + 1))) c hi
      (by omega) (by omega) hf hf1
    rw [hidx] at hrun
    have a1 := talk_emit s (.fill (a + 2 * k) (wordOf (s.bufByte (2 * k)) (s.bufByte (2 * k + 1)))) ⟨rfl, rfl⟩
    have a2 := a1.map (g := fun u => u.fillPair (2 * k) (wordOf (s.bufByte (2 * k)) (s.bufByte (2 * k + 1))))
      (fun _ => rfl) rfl rfl rfl rfl rfl
    obtain ⟨t, e, b⟩ := ih (s := (s.emit (.fill (a + 2 * k) (wordOf (s.bufByte (2 * k))
      (s.bufByte (2 * k + 1))))).fillPair (2 * k) (wordOf (s.bufByte (2 * k)) (s.bufByte (2 * k + 1))))
      (k + 1) ((a1.can (by simpa using c)).fillPair _ _) hi hpos heven ha hr (by simpa using by omega) hl (by
        simp only [State.fillPair_wbuf, State.emit_wbuf, hw, lo8_wordOf, hi8_wordOf, State.bufByte,
          State.fillPair_pagebuf, State.emit_pagebuf]
        exact fill_extends s.pagebuf n k (by omega))
    refine ⟨t, by simp only [fillLoop, bind_run, look_run, hrun, e], ?_⟩
    have a3 := a2.map (g := State.bufferFilled) (fun _ => rfl) rfl rfl rfl rfl rfl
    have a4 := a3.trans b
    exact a4

/-! ### Headers, payload and the commit sequence -/

/-- `PAGEBUF` replaced. -/
def State.setPagebuf (s : State) (b : List Byte) : State := { s with pagebuf := b }

theorem talk_receivePayload (bs : List Byte) (i : Nat) (hi : i + bs.length ≤ s.pagebuf.length)
    (c : CanTalk s bs.length []) :
    ∃ t, receivePayload i bs s = .ok ((), t) ∧
      Talk (s.setPagebuf (s.pagebuf.take i ++ bs ++ s.pagebuf.drop (i + bs.length))) t bs.length [] := by
  induction bs generalizing i s with
  | nil =>
    refine ⟨s, rfl, ?_⟩
    have : s.setPagebuf (s.pagebuf.take i ++ [] ++ s.pagebuf.drop (i + ([] : List Byte).length)) = s := by
      simp [State.setPagebuf]
    rw [this]; exact Talk.refl s
  | cons b bs ih =>
    rw [List.length_cons] at hi c
    obtain ⟨t, e, a⟩ := talk_recvByte b (c.hear (by omega))
    have c1 := a.can (h' := bs.length) (bs := []) (by rwa [Nat.add_comm 1])
    have m1 := a.map (g := fun u => u.setBuf i b) (fun _ => rfl) rfl rfl rfl rfl rfl
    have c2 : CanTalk (t.setBuf i b) bs.length [] := ⟨c1.quiet, c1.holds, c1.link, by
      rw [incoming_inbound (s := t) (t := t.setBuf i b) ⟨rfl, rfl, rfl, rfl⟩ rfl rfl]; exact c1.bytes⟩
    obtain ⟨u, e2, a2⟩ := ih (s := t.setBuf i b) (i + 1) (by
      rw [State.setBuf_pagebuf, List.length_set, a.pagebuf]; omega) c2
    refine ⟨u, by simp [receivePayload, e, e2], ?_⟩
    have m2 := m1.map (g := fun v => v.setPagebuf ((t.setBuf i b).pagebuf.take (i + 1) ++ bs ++
      (t.setBuf i b).pagebuf.drop (i + 1 + bs.length))) (fun _ => rfl) rfl rfl rfl rfl rfl
    have m3 := m2.trans a2
    have : (s.setBuf i b).setPagebuf ((t.setBuf i b).pagebuf.take (i + 1) ++ bs ++
        (t.setBuf i b).pagebuf.drop (i + 1 + bs.length)) =
        s.setPagebuf (s.pagebuf.take i ++ b :: bs ++ s.pagebuf.drop (i + (b :: bs).length)) := by
      have h1 : (s.pagebuf.set i b).take (i + 1) = s.pagebuf.take i ++ [b] := by
        rw [List.take_add_one, List.take_set, List.set_eq_of_length_le (by simp)]
        simp [show i < s.pagebuf.length by omega]
      have h2 : (s.pagebuf.set i b).drop (i + 1 + bs.length) = s.pagebuf.drop (i + (bs.length + 1)) := by
        rw [List.drop_set_of_lt (by omega)]; congr 1; omega
      simp only [State.setBuf_pagebuf, a.pagebuf, h1, h2, List.length_cons]
      simp [State.setPagebuf, State.setBuf]
    rw [this] at m3
    simpa [Nat.add_comm] using m3

theorem CanTalk.same {t : State} (c : CanTalk s h bs) (h1 : t.pauses = s.pauses)
    (h2 : t.wdtCfg = s.wdtCfg) (hc : t.cfg = s.cfg) (ha : t.assoc = s.assoc) (hm : t.maxlen = s.maxlen)
    (hch : t.chan = s.chan) : CanTalk t h bs := by
  simp only [State.chan, Chan.mk.injEq] at hch
  obtain ⟨-, g2, g3, g4, g5, -, g6, -, g8, g9, g10, g11⟩ := hch
  refine ⟨h1.trans c.quiet, fun d hd => ?_, fun hr => ?_, ?_⟩
  · have e : t.afterSending bs = s.afterSending bs := by
      simp only [State.afterSending, State.outbound, hc, hm, g2, g6, g10]
    rw [e]; exact c.holds d (h2 ▸ hd)
  · have := c.link (hc ▸ hr); rw [ha, g10, hc]; exact this
  · rw [incoming_inbound (s := s) (t := t) ⟨hc, ha, g9, g8⟩ g4 g5]; exact c.bytes

theorem talk_programHeader (lh n ty : Byte) (hn : badProgramLength s.cfg n = false)
    (c : CanTalk s 4 []) :
    ∃ t, programHeader lh n ty s = .ok ((), t) ∧ Talk ((s.setLen n).setType ty) t 4 [] := by
  obtain ⟨t1, e1, a1⟩ := talk_openRequest s.cfg.cmdProgPage .programPage (c.hear (by omega))
  have c1 := a1.can (h' := 3) (bs := []) c
  obtain ⟨t2, e2, a2⟩ := talk_recvByte lh (c1.hear (by omega))
  have c2 := a2.can (h' := 2) (bs := []) c1
  obtain ⟨t3, e3, a3⟩ := talk_recvByte n (c2.hear (by omega))
  have c3 := a3.can (h' := 1) (bs := []) c2
  have a123 := (((a1.trans a2).trans a3).map (g := fun u => u.setLen n) (fun _ => rfl) rfl rfl rfl rfl rfl)
  have c3' : CanTalk (t3.setLen n) 1 [] := c3.same rfl rfl rfl rfl rfl rfl
  obtain ⟨t4, e4, a4⟩ := talk_recvByte ty c3'
  have a5 := (a123.trans a4).map (g := fun u => u.setType ty) (fun _ => rfl) rfl rfl rfl rfl rfl
  refine ⟨t4.setType ty, ?_, a5⟩
  simp [programHeader, e1, e2, e3, e4, hn]

theorem Talk.field {α : Type} {t : State} {said : List Byte} (a : Talk s t h said) (f : State → α)
    (hf : ∀ (u : State) (c : Chan), f (u.withChan c) = f u) : f t = f s := by rw [a.frame]; exact hf _ _

theorem flashComplete_idem (u : State) : flashComplete (flashComplete u) = flashComplete u := by
  apply flashComplete_idle
  unfold flashComplete; cases h : u.flashOp <;> simp [h]

theorem flashComplete_begun (u : State) (p : Nat) (op : FlashOp) :
    flashComplete (u.begun p op) = flashComplete (u.startOp op) := by
  unfold State.begun; split
  · rfl
  · exact flashComplete_idem _

theorem talk_begun {u t : State} {said : List Byte} (a : Talk u t h said) (p : Nat) (op : FlashOp) :
    Talk (u.begun p op) (t.begun p op) h said := by
  have e : isRww t.cfg p = isRww u.cfg p := by rw [a.cfg]
  have m : Talk (u.startOp op) (t.startOp op) h said :=
    a.map (g := fun v => v.startOp op) (fun _ => rfl) rfl rfl rfl rfl rfl
  unfold State.begun; rw [e]; split
  · exact m
  · exact m.flashComplete

theorem CanTalk.flashComplete (c : CanTalk s h bs) : CanTalk (Sys2Proof.Machine.flashComplete s) h bs :=
  have e := flashComplete_same s
  c.same e.2.2.2.2.1 e.2.2.2.2.2.1 e.2.1 e.2.2.1 e.2.2.2.1 e.1

theorem CanTalk.begun (c : CanTalk s h bs) (p : Nat) (op : FlashOp) : CanTalk (s.begun p op) h bs := by
  have c1 : CanTalk (s.startOp op) h bs := c.same rfl rfl rfl rfl rfl rfl
  unfold State.begun; split
  · exact c1
  · exact c1.flashComplete

theorem vbpPatched_withChan (u : State) (c : Chan) :
    (u.withChan c).vbpPatched = u.vbpPatched.withChan c := by
  have : (u.withChan c).flashAddress = u.flashAddress := rfl
  unfold State.vbpPatched; rw [this]
  have : (u.withChan c).cfg = u.cfg := rfl
  rw [this]; split <;> rfl

theorem vbpPatched_same (u : State) : u.vbpPatched.chan = u.chan ∧ u.vbpPatched.cfg = u.cfg ∧
    u.vbpPatched.assoc = u.assoc ∧ u.vbpPatched.maxlen = u.maxlen ∧
    u.vbpPatched.pauses = u.pauses ∧ u.vbpPatched.wdtCfg = u.wdtCfg ∧
    u.vbpPatched.flashOp = u.flashOp ∧ u.vbpPatched.flash = u.flash ∧ u.vbpPatched.wbuf = u.wbuf ∧
    u.vbpPatched.rwwBlocked = u.rwwBlocked ∧ u.vbpPatched.flashAddress = u.flashAddress ∧
    u.vbpPatched.pagebuf.length = u.pagebuf.length ∧ u.vbpPatched.peer = u.peer := by
  unfold State.vbpPatched; split
  · exact ⟨rfl, rfl, rfl, rfl, rfl, rfl, rfl, rfl, rfl, rfl, rfl, by simp [State.patched], rfl⟩
  · exact ⟨rfl, rfl, rfl, rfl, rfl, rfl, rfl, rfl, rfl, rfl, rfl, rfl, rfl⟩

/-- The flash controller's fields replaced. -/
def State.ctrl (s : State) (F : List (Nat × FlashCell)) (w : List (Option Byte)) (op : FlashOp)
    (b : Bool) : State := { s with flash := F, wbuf := w, flashOp := op, rwwBlocked := b }

theorem vbpPatched_ctrl (u : State) (F w op b) :
    (u.ctrl F w op b).vbpPatched = u.vbpPatched.ctrl F w op b := by
  have : (u.ctrl F w op b).flashAddress = u.flashAddress := rfl
  unfold State.vbpPatched; rw [this]
  have : (u.ctrl F w op b).cfg = u.cfg := rfl
  rw [this]; split <;> rfl

theorem CanTalk.vbp (c : CanTalk s h bs) : CanTalk s.vbpPatched h bs :=
  have e := vbpPatched_same s
  c.same e.2.2.2.2.1 e.2.2.2.2.2.1 e.2.1 e.2.2.1 e.2.2.2.1 e.1

theorem commitSequence_calm (a : Nat) (hwf : s.cfg.wf = true) (ha : a % s.cfg.pageSize = 0)
    (hr : a < s.cfg.bootStart) (haddr : s.flashAddress = a)
    (hop : s.flashOp = .idle ∨ s.flashOp = .erasing a)
    (he : s.flashOp = .idle → ∀ i < s.cfg.pageSize, flashCell s.flash (a + i) = .erased)
    (hbuf : s.pagebuf.length = s.cfg.pageSize) (hun : s.wbuf = List.replicate s.cfg.pageSize none)
    (hfl : FlashWf s.flash) (c : CanTalk s h []) :
    ∃ F t, commitSequence s.cfg a s = .ok ((), t) ∧
      Talk (s.vbpPatched.pageStored.ctrl F (List.replicate s.cfg.pageSize none) .idle
        (s.rwwBlocked && !s.cfg.needsRwwEnable)) t 0 [] ∧
      ∀ x, flashCell F x = flashCell s.vbpPatched.pageStored.flash x := by
  -- geometry
  have hgeo : s.cfg.geometryOk = true := by simp [Config.wf] at hwf; exact hwf.1.1.1.2
  simp only [Config.geometryOk, decide_eq_true_eq] at hgeo
  obtain ⟨g1, g2, g3, g4, g5, g6, g7, g8, g9, g10, g11⟩ := hgeo
  have hrange : a + s.cfg.pageSize ≤ s.cfg.flashSize := by
    obtain ⟨k, hk⟩ := Nat.dvd_of_mod_eq_zero ha
    obtain ⟨m, hm⟩ := Nat.dvd_of_mod_eq_zero g5
    have : k < m := by
      by_contra hkm
      have : s.cfg.pageSize * m ≤ s.cfg.pageSize * k := Nat.mul_le_mul_left _ (by omega)
      omega
    have : s.cfg.pageSize * (k + 1) ≤ s.cfg.pageSize * m := Nat.mul_le_mul_left _ (by omega)
    rw [Nat.mul_add] at this
    omega
  -- step 4
  obtain ⟨t0, e0, a0⟩ := keepAlive_calm .s4 c
  have c0 := a0.can (h' := h) (bs := []) (by simpa using c)
  have e1 := waitReady_calm c0
  have a1 := (a0.trans (talk_emit t0 .waitReady ⟨rfl, rfl⟩)).flashComplete
  have c1 : CanTalk (flashComplete (t0.emit .waitReady)) h [] :=
    CanTalk.flashComplete ((talk_emit t0 .waitReady ⟨rfl, rfl⟩).can (by simpa using c0))
  obtain ⟨F1, hF1, hF1w, hF1e, hF1o⟩ : ∃ F1, flashComplete s = s.ctrl F1 s.wbuf .idle s.rwwBlocked ∧
      FlashWf F1 ∧ (∀ i < s.cfg.pageSize, flashCell F1 (a + i) = .erased) ∧
      (∀ x, ¬ (a ≤ x ∧ x < a + s.cfg.pageSize) → flashCell F1 x = flashCell s.flash x) := by
    rcases hop with h1 | h1
    · refine ⟨s.flash, ?_, hfl, he h1, fun _ _ => rfl⟩
      rw [flashComplete_idle h1]; cases s; simp_all [State.ctrl]
    · refine ⟨s.pageFilled a .erased, by simp [flashComplete, h1, State.ctrl],
        setFlashCells_wf hfl _ _, fun i hi => ?_, fun x hx => ?_⟩
      · rw [State.pageFilled, flashCell_setFlashCells hfl, if_pos (by simp; omega)]
        simp [hi]
      · rw [State.pageFilled, flashCell_setFlashCells hfl, if_neg (by simpa using hx)]
  rw [hF1] at a1
  -- step 5
  have a2 := a1.map (g := State.vbpPatched) (fun c => vbpPatched_withChan _ c) (vbpPatched_same _).1
    (vbpPatched_same _).2.1 (vbpPatched_same _).2.2.1 (vbpPatched_same _).2.2.2.1
    (vbpPatched_same _).2.2.2.2.2.2.2.2.2.2.2.2
  rw [vbpPatched_ctrl] at a2
  have c2 := c1.vbp
  have e2 : onlyIf (decide (s.cfg.vbpEnabled = true ∧ a = 0)) (update State.patched)
      (flashComplete (t0.emit .waitReady)) = .ok ((), (flashComplete (t0.emit .waitReady)).vbpPatched) := by
    have h1 : (flashComplete (t0.emit .waitReady)).flashAddress = a := by
      rw [← haddr]; exact a1.field State.flashAddress (fun _ _ => rfl)
    have h2 : (flashComplete (t0.emit .waitReady)).cfg = s.cfg := a1.cfg
    unfold State.vbpPatched onlyIf; rw [h1, h2]
    by_cases hp : s.cfg.vbpEnabled = true ∧ a = 0 <;> simp [hp]
  generalize ht2 : (flashComplete (t0.emit .waitReady)).vbpPatched = t2 at *
  obtain ⟨t3, e3, a3⟩ := keepAlive_calm .s6 c2
  have c3 := a3.can (h' := h) (bs := []) (by simpa using c2)
  have a3' := a2.trans a3
  have v := vbpPatched_same s
  have q1 : t3.cfg = s.cfg := a3'.cfg.trans v.2.1
  have q2 : t3.flashOp = .idle := a3'.field State.flashOp (fun _ _ => rfl)
  have q3 : t3.pagebuf = s.vbpPatched.pagebuf := a3'.field State.pagebuf (fun _ _ => rfl)
  have q4 : t3.wbuf = s.wbuf := a3'.field State.wbuf (fun _ _ => rfl)
  have q5 : s.vbpPatched.pagebuf.length = s.cfg.pageSize := v.2.2.2.2.2.2.2.2.2.2.2.1.trans hbuf
  -- step 6
  obtain ⟨t4, e4, a4⟩ := fillLoop_calm (s := t3) a (s.cfg.pageSize / 2) 0 c3 q2 (by rw [q1]; omega)
    (by rw [q1]; exact g3) (by rw [q1]; exact ha) (by rw [q1]; exact hrange) (by rw [q1]; omega)
    (by rw [q1, q3]; exact q5) (by
      rw [q4, hun]; simp only [Nat.mul_zero, List.take_zero, List.map_nil, List.nil_append]
      congr 1; omega)
  have a4' := (a3'.map (g := State.bufferFilled) (fun _ => rfl) rfl rfl rfl rfl rfl).trans a4
  have c4 : CanTalk t4 h [] := by
    have : CanTalk t3.bufferFilled h [] := c3.same rfl rfl rfl rfl rfl rfl
    exact a4.can (by simpa using this)
  -- step 7
  have r1 : t4.cfg = s.cfg := a4'.cfg.trans v.2.1
  have r2 : t4.flashOp = .idle := a4'.field State.flashOp (fun _ _ => rfl)
  have e5 := commitPage_calm a c4 r2 (by rw [r1]; exact ha) (by rw [r1]; omega)
  have a5 := talk_begun (a4'.trans (talk_emit t4 (.commit a) ⟨rfl, rfl⟩)) a (.writing a)
  have c5 : CanTalk ((t4.emit (.commit a)).begun a (.writing a)) h [] :=
    CanTalk.begun ((talk_emit t4 (.commit a) ⟨rfl, rfl⟩).can (by simpa using c4)) _ _
  obtain ⟨t6, e6, a6⟩ := keepAlive_calm .s7 c5
  have c6 := a6.can (h' := h) (bs := []) (by simpa using c5)
  have e7 := waitReady_calm c6
  have a7 := ((a5.trans a6).trans (talk_emit t6 .waitReady ⟨rfl, rfl⟩)).flashComplete
  rw [flashComplete_begun] at a7
  have c7 : CanTalk (flashComplete (t6.emit .waitReady)) h [] :=
    CanTalk.flashComplete ((talk_emit t6 .waitReady ⟨rfl, rfl⟩).can (by simpa using c6))
  have hu : flashComplete (State.startOp (State.bufferFilled (s.vbpPatched.ctrl F1 s.wbuf .idle s.rwwBlocked))
      (.writing a)) = s.vbpPatched.pageStored.ctrl (setFlashCells F1 a (s.vbpPatched.pagebuf.map .byte))
        (List.replicate s.cfg.pageSize none) .idle (s.rwwBlocked || s.cfg.needsRwwEnable) := by
    have hseq : (State.startOp (State.bufferFilled (s.vbpPatched.ctrl F1 s.wbuf .idle s.rwwBlocked))
        (.writing a)).commitInSequence a = true := by
      simp only [State.commitInSequence, State.pageCells, Bool.and_eq_true, List.all_eq_true,
        List.mem_map, List.mem_range]
      constructor
      · rintro _ ⟨i, hi, rfl⟩
        have hi' : i < s.cfg.pageSize := by
          have : (State.startOp (State.bufferFilled (s.vbpPatched.ctrl F1 s.wbuf .idle s.rwwBlocked))
            (.writing a)).cfg = s.cfg := v.2.1
          rwa [this] at hi
        exact decide_eq_true (hF1e i hi')
      · intro o ho
        simp only [State.bufferFilled, State.startOp_wbuf, List.mem_map] at ho
        obtain ⟨b, -, rfl⟩ := ho; rfl
    have hw : ((s.vbpPatched.pagebuf.map some).map wbufCell) = s.vbpPatched.pagebuf.map .byte := by
      simp [wbufCell]
    unfold flashComplete
    simp only [State.startOp_flashOp, hseq, if_true]
    simp only [State.startOp, State.bufferFilled, State.ctrl, State.pageStored, hw, v.2.1]
  rw [hu] at a7
  have hF2 : ∀ x, flashCell (setFlashCells F1 a (s.vbpPatched.pagebuf.map .byte)) x =
      flashCell s.vbpPatched.pageStored.flash x := by
    intro x
    simp only [State.pageStored, v.2.2.2.2.2.2.2.1, v.2.2.2.2.2.2.2.2.2.2.1, haddr]
    rw [flashCell_setFlashCells hF1w, flashCell_setFlashCells hfl]
    simp only [List.length_map, q5]
    split
    · rfl
    · exact hF1o x ‹_›
  -- step 8
  have hrun : ∀ u, onlyIf s.cfg.needsRwwEnable rwwEnable (flashComplete (t6.emit .waitReady)) = .ok ((), u) →
      commitSequence s.cfg a s = .ok ((), u) := by
    intro u hu8
    simp only [commitSequence, bind_run, e0, e1, e2, e3, e4, e5, e6, e7, hu8]
  refine ⟨setFlashCells F1 a (s.vbpPatched.pagebuf.map .byte), ?_⟩
  cases hn : s.cfg.needsRwwEnable with
  | true =>
    refine ⟨_, hrun _ (by rw [hn]; exact rwwEnable_calm c7), ?_, hF2⟩
    have := (a7.trans (talk_emit _ .rwwEnable ⟨rfl, rfl⟩)).map (g := State.unblock)
      (fun _ => rfl) rfl rfl rfl rfl rfl
    simpa [State.unblock, State.ctrl, hn] using this
  | false =>
    refine ⟨_, hrun _ (by rw [hn]; rfl), ?_, hF2⟩
    simpa [hn] using a7

end Pages
end Sys2Proof.Machine
end

