-- ==== Sys2Proof/Laws/PerInstr.lean ====
section
/-! SUPPORT. The family `EncodeLength`, per instruction: a well-formed request is as many bytes as the table
of 30_encoding.md rule R72 says, and a packet as many as its layout (rules R81, R82). -/

namespace Sys2Proof.Laws.EncodeLength

/-- The encoding of a well-formed instruction has the length of its format. -/
def Statement (i : Instr) : Prop :=
  ∀ c : Config, i.wf c = true → (encode c i).length = i.requestLength

theorem getParameter (p : Byte) (t : Byte) :
    Statement (.getParameter p t) := fun _ _ => rfl

theorem setDevice (body : List Byte) (t : Byte) :
    Statement (.setDevice body t) := by
  intro c h
  simp only [Instr.wf, decide_eq_true_eq] at h
  simp [encode, Instr.requestLength, h, Config.setDeviceLen]

theorem setDeviceExt (body : List Byte) (t : Byte) :
    Statement (.setDeviceExt body t) := by
  intro c h
  simp only [Instr.wf, decide_eq_true_eq] at h
  simp [encode, Instr.requestLength, h, Config.setDeviceExtLen]

theorem loadAddress (lo : Byte) (hi : Byte) (t : Byte) :
    Statement (.loadAddress lo hi t) := fun _ _ => rfl

theorem universal (body : List Byte) (t : Byte) :
    Statement (.universal body t) := by
  intro c h
  simp only [Instr.wf, decide_eq_true_eq] at h
  simp [encode, Instr.requestLength, h, Config.universalLen]

theorem programPageF (lenHigh : Byte) (payload : List Byte) (t : Byte) :
    Statement (.programPageF lenHigh payload t) := by
  intro c _
  simp [encode, Instr.requestLength]; omega

theorem programPageE (lenHigh : Byte) (payload : List Byte) (t : Byte) :
    Statement (.programPageE lenHigh payload t) := by
  intro c _
  simp [encode, Instr.requestLength]; omega

theorem readPageF (lenHigh : Byte) (n : Byte) (t : Byte) :
    Statement (.readPageF lenHigh n t) := fun _ _ => rfl

theorem readPageE (lenHigh : Byte) (n : Byte) (t : Byte) :
    Statement (.readPageE lenHigh n t) := fun _ _ => rfl

theorem readSignature (t : Byte) :
    Statement (.readSignature t) := fun _ _ => rfl

theorem leaveProgMode (t : Byte) :
    Statement (.leaveProgMode t) := fun _ _ => rfl

theorem other (b : Byte) (t : Byte) :
    Statement (.other b t) := fun _ _ => rfl

theorem programPageBadType (lenHigh : Byte) (n : Byte) (ty : Byte) :
    Statement (.programPageBadType lenHigh n ty) := fun _ _ => rfl

theorem readPageBadType (lenHigh : Byte) (n : Byte) (ty : Byte) (t : Byte) :
    Statement (.readPageBadType lenHigh n ty t) := fun _ _ => rfl

theorem pkt (tag : Byte) (payload : List Byte) :
    Statement (.pkt tag payload) := by
  intro c _
  simp [encode, Instr.requestLength]; omega

theorem hello (a0 : Byte) (a1 : Byte) (a2 : Byte) (m : Byte) (body : List Byte) :
    Statement (.hello a0 a1 a2 m body) := by
  intro c _
  simp [encode, Instr.requestLength]; omega

theorem getSync (t : Byte) :
    Statement (.getSync t) := fun _ _ => rfl

theorem enterProgMode (t : Byte) :
    Statement (.enterProgMode t) := fun _ _ => rfl

end Sys2Proof.Laws.EncodeLength
end

