-- ==== Sys2Proof/Tests/Slice0.lean ====
section
/-! SUPPORT. The model's own tests. The expected values are the spec's: the vectors V and programs P of
95_test_vectors.md, and the worked examples of the rules named. Then, for every statement with hypotheses,
concrete states and operands that meet them. -/

namespace Sys2Proof.Tests

open Sys2Proof Sys2Proof.Machine

-- One proof at a time: each kernel evaluation holds a thread with a large stack.
set_option Elab.async false

/-! ### States and observations -/

/-- Bytes on the wired line, without framing faults. -/
def onLine (bs : List Byte) : List LineByte := bs.map (fun b => ⟨b, true⟩)

/-- CFG_REF in the command loop, the bytes on the wired line. -/
def wired (bs : List Byte) : State :=
  { State.reset with ph := .awaitCommand, wdtCfg := .on 1000, ev := [], line := onLine bs }

/-- CFG_REF over the radio. -/
def radioCfg : Config := { Config.ref with radioEnabled := true }

/-- An associated radio link in the command loop, the bytes in RXQ, every attempt acknowledged. -/
def aired (bs : List Byte) : State :=
  { State.resetWith radioCfg with
    ph := .awaitCommand, wdtCfg := .on 1000, ev := [], assoc := true, rxq := bs,
    acks := List.replicate 40 true }

/-- A radio link that waits for these packets. -/
def packets (assoc : Bool) (ps : List (List Byte)) : State :=
  { aired [] with assoc := assoc, air := ps }

/-- The state after one step. -/
def after (s : State) : Option State :=
  match step s with
  | .next t => some t
  | .fault _ => none
  | .refused _ => none

/-- Why a step is refused. -/
def whyRefused (s : State) : Option Refusal :=
  match step s with
  | .refused r => some r
  | .next _ => none
  | .fault _ => none

/-- The bytes a step passes to `send_byte`. -/
def out (s : State) : Option (List Byte) := (after s).map State.passed

/-- The events a step appends, the services left out (the convention of 95_test_vectors.md). -/
def events (s : State) : Option (List Event) :=
  (after s).map (fun t => (t.ev.drop s.ev.length).filter (fun e => decide (e ≠ .service)))

/-- The packets a step sends. -/
def sentPackets (s : State) : Option (List (List Byte)) :=
  (after s).map (fun t => (t.ev.drop s.ev.length).filterMap (fun e =>
    match e with
    | .pktOut p _ _ => some p
    | _ => none))

/-- A pause in which an external reset strikes. -/
def external : Pause := { Pause.quiet with external := true }

/-- The bytes `0, 1, .. n - 1` from `k` on. -/
def bytesFrom (k n : Nat) : List Byte := (List.range n).map (fun i => BitVec.ofNat 8 (k + i))

/-! ### WellFormed: a term each check refuses -/

theorem smoke_setDevice_length :
    (Instr.setDevice (List.replicate 19 0) 0x20).wf Config.ref = false := by decide +kernel
theorem smoke_setDeviceExt_length :
    (Instr.setDeviceExt (List.replicate 6 0) 0x20).wf Config.ref = false := by decide +kernel
theorem smoke_universal_length : (Instr.universal [0, 0, 0] 0x20).wf Config.ref = false := by decide +kernel
theorem smoke_programPageF_length :
    (Instr.programPageF 0 (List.replicate 256 0) 0x20).wf Config.ref = false := by decide +kernel
theorem smoke_programPageE_length :
    (Instr.programPageE 0 (List.replicate 256 0) 0x20).wf Config.ref = false := by decide +kernel
theorem smoke_other_is_no_command : (Instr.other 0x41 0x20).wf Config.ref = false := by decide +kernel
theorem smoke_other_is_no_getSync : (Instr.other 0x30 0x20).wf Config.ref = false := by decide +kernel
theorem smoke_other_is_no_enterProgMode : (Instr.other 0x50 0x20).wf Config.ref = false := by decide +kernel
theorem smoke_programPage_type_F : (Instr.programPageBadType 0 1 0x46).wf Config.ref = false := by decide +kernel
theorem smoke_programPage_type_E : (Instr.programPageBadType 0 1 0x45).wf Config.ref = false := by decide +kernel
theorem smoke_readPage_type_F : (Instr.readPageBadType 0 1 0x46 0x20).wf Config.ref = false := by decide +kernel
theorem smoke_readPage_type_E : (Instr.readPageBadType 0 1 0x45 0x20).wf Config.ref = false := by decide +kernel
theorem smoke_pkt_length : (Instr.pkt 1 (List.replicate 32 0)).wf Config.ref = false := by decide +kernel
theorem smoke_hello_length : (Instr.hello 0 0 0 32 (List.replicate 29 0)).wf Config.ref = false := by
  decide +kernel
theorem smoke_getSync_is_a_command :
    (Instr.getSync 0x20).wf { Config.ref with cmdReadSign := 0x30 } = false := by decide +kernel
theorem smoke_enterProgMode_is_a_command :
    (Instr.enterProgMode 0x20).wf { Config.ref with cmdReadSign := 0x50 } = false := by decide +kernel

/-! ### Decoding: words written out from 30_encoding.md R72, R81, R82, R84 -/

theorem decode_getParameter :
    decodeRequest Config.ref [0x41, 0x81, 0x20] = .ok (.getParameter 0x81 0x20, []) := by decide +kernel
theorem decode_setDevice :
    decodeRequest Config.ref (0x42 :: (bytesFrom 1 20 ++ [0x20, 0x75])) =
      .ok (.setDevice (bytesFrom 1 20) 0x20, [0x75]) := by decide +kernel
theorem decode_setDeviceExt :
    decodeRequest Config.ref [0x45, 0x05, 0x04, 0xD7, 0xC2, 0x00, 0x20] =
      .ok (.setDeviceExt [0x05, 0x04, 0xD7, 0xC2, 0x00] 0x20, []) := by decide +kernel
theorem decode_loadAddress :
    decodeRequest Config.ref [0x55, 0x34, 0x12, 0x20] = .ok (.loadAddress 0x34 0x12 0x20, []) := by
  decide +kernel
theorem decode_universal :
    decodeRequest Config.ref [0x56, 0xAC, 0x53, 0x00, 0x01, 0x20] =
      .ok (.universal [0xAC, 0x53, 0x00, 0x01] 0x20, []) := by decide +kernel
theorem decode_programPageF :
    decodeRequest Config.ref [0x64, 0xFF, 0x02, 0x46, 0xAA, 0xBB, 0x20] =
      .ok (.programPageF 0xFF [0xAA, 0xBB] 0x20, []) := by decide +kernel
theorem decode_programPageE :
    decodeRequest Config.ref [0x64, 0x00, 0x03, 0x45, 0xAA, 0xBB, 0xCC, 0x20] =
      .ok (.programPageE 0x00 [0xAA, 0xBB, 0xCC] 0x20, []) := by decide +kernel
theorem decode_readPageF :
    decodeRequest Config.ref [0x74, 0x00, 0x04, 0x46, 0x20] = .ok (.readPageF 0x00 0x04 0x20, []) := by
  decide +kernel
theorem decode_readPageE :
    decodeRequest Config.ref [0x74, 0x01, 0x03, 0x45, 0x20] = .ok (.readPageE 0x01 0x03 0x20, []) := by
  decide +kernel
theorem decode_readSignature :
    decodeRequest Config.ref [0x75, 0x20] = .ok (.readSignature 0x20, []) := by decide +kernel
theorem decode_leaveProgMode :
    decodeRequest Config.ref [0x51, 0x20, 0x30, 0x20] = .ok (.leaveProgMode 0x20, [0x30, 0x20]) := by
  decide +kernel
theorem decode_other : decodeRequest Config.ref [0x20, 0x20] = .ok (.other 0x20 0x20, []) := by decide +kernel
theorem decode_programPageBadType :
    decodeRequest Config.ref [0x64, 0x00, 0x04, 0x58] = .ok (.programPageBadType 0x00 0x04 0x58, []) := by
  decide +kernel
theorem decode_readPageBadType :
    decodeRequest Config.ref [0x74, 0x00, 0x04, 0x58, 0x20] =
      .ok (.readPageBadType 0x00 0x04 0x58 0x20, []) := by decide +kernel
theorem decode_pkt : decodePacket true [0x02, 0x75, 0x20] = .ok (.pkt 0x02 [0x75, 0x20]) := by decide +kernel
theorem decode_hello :
    decodePacket false [0x30, 0x30, 0x31, 0x10] = .ok (.hello 0x30 0x30 0x31 0x10 []) := by decide +kernel
theorem decode_getSync : decodeRequest Config.ref [0x30, 0x20] = .ok (.getSync 0x20, []) := by decide +kernel
theorem decode_enterProgMode :
    decodeRequest Config.ref [0x50, 0x20] = .ok (.enterProgMode 0x20, []) := by decide +kernel

/-- A table word, byte 0 leftmost (log 16). -/
theorem decode_tableWord : decodeTableWord 32 0x74000446 = some (.readPageF 0x00 0x04 0x00) := by
  decide +kernel

/-! ### One step each -/

/-- V1 with the placement of the services. -/
theorem test_getParameter : (after (wired [0x41, 0x81, 0x20])).map State.ev =
    some [.service, .rx 0x41, .service, .rx 0x81, .service, .rx 0x20, .tx 0x14, .tx 0x04, .tx 0x10,
      .service] := by decide +kernel
/-- V4. -/
theorem test_getParameter_other : out (wired [0x41, 0x20, 0x20]) = some [0x14, 0x03, 0x10] := by
  decide +kernel
/-- V6. -/
theorem test_setDevice : out (wired (0x42 :: List.replicate 21 0x20)) = some [0x14, 0x10] := by decide +kernel
/-- V47. -/
theorem test_setDevice_desync :
    (after (wired (0x42 :: (List.replicate 19 0x00 ++ [0x20, 0x30])))).map (fun t => (t.ph, t.sent)) =
      some (.abandoned, []) := by decide +kernel
/-- V7. -/
theorem test_setDeviceExt : out (wired [0x45, 0x05, 0x04, 0xD7, 0xC2, 0x00, 0x20]) = some [0x14, 0x10] := by
  decide +kernel
/-- V22. -/
theorem test_loadAddress : (after (wired [0x55, 0x34, 0x12, 0x20])).map State.addr = some 0x2468 := by
  decide +kernel
/-- V25 with HAS_EXT. -/
theorem test_loadAddress_ext :
    (after { wired [0x55, 0x00, 0x80, 0x20] with cfg := { Config.ref with hasExt := true } }).map
      (fun t => (t.addr, t.ext)) = some (0x0000, 1) := by decide +kernel
/-- V8. -/
theorem test_universal : out (wired [0x56, 0xAC, 0x53, 0x00, 0x00, 0x20]) = some [0x00, 0x14, 0x10] := by
  decide +kernel
/-- V44. -/
theorem test_universal_desync :
    (after (wired [0x56, 0x00, 0x00, 0x00, 0x00, 0x10])).map (fun t => (t.ph, t.sent)) =
      some (.abandoned, []) := by decide +kernel
/-- V9. -/
theorem test_readSignature : out (wired [0x75, 0x20]) = some [0x14, 0x1E, 0x95, 0x0F, 0x10] := by
  decide +kernel
/-- R169's example: one packet of six bytes. -/
theorem test_readSignature_radio :
    sentPackets (aired [0x75, 0x20]) = some [[0x00, 0x14, 0x1E, 0x95, 0x0F, 0x10]] := by decide +kernel
/-- V10. -/
theorem test_leaveProgMode : events (wired [0x51, 0x20]) =
    some [.rx 0x51, .rx 0x20, .tx 0x14, .config (.on 16), .tx 0x10] := by decide +kernel
/-- V46. -/
theorem test_leaveProgMode_desync :
    (after (wired [0x51, 0x00])).map (fun t => (t.ph, t.wdtCfg)) = some (.abandoned, .on 1000) := by
  decide +kernel
/-- V13. -/
theorem test_other : out (wired [0x20, 0x20]) = some [0x14, 0x10] := by decide +kernel
/-- V11. -/
theorem test_getSync : out (wired [0x30, 0x20]) = some [0x14, 0x10] := by decide +kernel
/-- V12. -/
theorem test_enterProgMode : out (wired [0x50, 0x20]) = some [0x14, 0x10] := by decide +kernel

/-- The payload of P2. -/
def page0 : List Byte :=
  [0x33, 0xC0] ++ bytesFrom 2 6 ++ [0x18, 0x95] ++ bytesFrom 10 118

/-- P2: the physical page under the VirtualBootPatch, and the shadows. -/
theorem test_programPageF_vbp :
    (after (wired ([0x64, 0x00, 0x80, 0x46] ++ page0 ++ [0x20]))).map (fun t =>
      ((List.range 12).map (flashCell t.flash), t.shadowRst, t.shadowWdt)) =
    some ([0x7F, 0xCE, 0x02, 0x03, 0x04, 0x05, 0x06, 0x07, 0x2F, 0xC0, 0x0A, 0x0B].map FlashCell.byte,
      (0x33, 0xC0), (0x18, 0x95)) := by decide +kernel
/-- P6: the events of an NRWW page, the receptions and the fills left out but the last ones. -/
theorem test_programPageF_nrww :
    (events { wired ([0x64, 0x00, 0x80, 0x46] ++ List.replicate 128 0xA5 ++ [0x20]) with
        addr := 0x7000 }).map (fun es => (es.drop 131).filter (fun e =>
      match e with
      | .fill a _ => decide (a = 0x707E)
      | _ => true)) =
    some [.rx 0xA5, .erase 0x7000, .rx 0x20, .tx 0x14, .waitReady, .fill 0x707E 0xA5A5, .commit 0x7000,
      .waitReady, .rwwEnable, .tx 0x10] := by decide +kernel
/-- V68. -/
theorem test_programPageE :
    (after { wired [0x64, 0x00, 0x03, 0x45, 0xAA, 0xBB, 0xCC, 0x20] with addr := 0x0020 }).map
      (fun t => (t.ev.drop 16, t.addr)) =
    some ([.tx 0x14, .service, .eeWrite 0x20 0xAA, .service, .eeWrite 0x21 0xBB, .service,
      .eeWrite 0x22 0xCC, .tx 0x10, .service], 0x0023) := by decide +kernel
/-- V57. -/
theorem test_programPageE_range :
    whyRefused { wired [0x64, 0x00, 0x03, 0x45, 0x01, 0x02, 0x03, 0x20] with addr := 0x03FE } =
      some .range := by decide +kernel
/-- V30. -/
theorem test_readPageF :
    (after { wired [0x74, 0x00, 0x04, 0x46, 0x20] with
      addr := 0x0080, flash := setFlashCells [] 0x80 ((bytesFrom 0 8).map FlashCell.byte) }).map
      (fun t => (t.sent, t.addr)) = some ([0x14, 0x00, 0x01, 0x02, 0x03, 0x10], 0x0084) := by decide +kernel
/-- V89: the reply is cut by MAXLEN, then by RESP_OK. -/
theorem test_readPageF_radio :
    sentPackets { aired [0x74, 0x00, 0x14, 0x46, 0x20] with
      addr := 0x0080, maxlen := 16, txTag := 1, txbuf := [1],
      flash := setFlashCells [] 0x80 ((bytesFrom 0xA0 20).map FlashCell.byte) } =
    some [[0x01, 0x14] ++ bytesFrom 0xA0 14, [0x02] ++ bytesFrom 0xAE 6 ++ [0x10]] := by decide +kernel
/-- V33, the last write still in progress. -/
theorem test_readPageE :
    (after { wired [0x74, 0x00, 0x03, 0x45, 0x20] with
      addr := 0x0020, eeprom := [(0x20, 0xAA), (0x21, 0xBB)], eeBusy := some (0x22, 0xCC) }).map
      (fun t => (t.sent, t.addr)) = some ([0x14, 0xAA, 0xBB, 0xCC, 0x10], 0x0023) := by decide +kernel
/-- V52. -/
theorem test_programPageBadType : whyRefused (wired [0x64, 0x00, 0x04, 0x58]) = some .memoryType := by
  decide +kernel
/-- V51: the length is checked before the type. -/
theorem test_programPageBadType_length : whyRefused (wired [0x64, 0x00, 0x81, 0x58]) = some .length := by
  decide +kernel
/-- R119: refused after the terminator check. -/
theorem test_readPageBadType : whyRefused (wired [0x74, 0x00, 0x04, 0x58, 0x20]) = some .memoryType := by
  decide +kernel
/-- R119: a wrong terminator comes first. -/
theorem test_readPageBadType_desync :
    (after (wired [0x74, 0x00, 0x04, 0x58, 0x21])).map State.ph = some .abandoned := by decide +kernel
/-- V72, the second packet. -/
theorem test_pkt :
    (after { packets true [[0x02, 0x75, 0x20]] with rxTag := some 1 }).map (fun t => (t.rxTag, t.rxq)) =
      some (some 2, [0x75, 0x20]) := by decide +kernel
/-- V72, the third packet. -/
theorem test_pkt_duplicate :
    events { packets true [[0x02, 0x75, 0x20]] with rxTag := some 2 } =
      some [.pktIn [0x02, 0x75, 0x20] .droppedDuplicate] := by decide +kernel
/-- V76. -/
theorem test_hello : events (packets false [[0x30, 0x30, 0x31, 0x20, 0x00, 0x30, 0x20]]) =
    some [.pktIn [0x30, 0x30, 0x31, 0x20, 0x00, 0x30, 0x20] .associated,
      .pktIn [0x30, 0x30, 0x31, 0x20, 0x00, 0x30, 0x20] .droppedDuplicate] := by decide +kernel
/-- V78. -/
theorem test_hello_maxlen : whyRefused (packets false [[0x30, 0x30, 0x31, 0x01, 0x01]]) = some .maxlen := by
  decide +kernel
/-- 95_test_vectors.md 2.11: HANDOFF_WDT = Long. -/
theorem test_handoff_long :
    events (State.resetWith { Config.ref with handoffWdt := .long }) =
      some [.config (.on 8000), .transfer 8 0x01] := by decide +kernel

/-- V85, with the Tx events of 10_state.md R31 (log 19); the packet goes to PEER (R25). -/
theorem test_radio_events :
    events { aired [0x30, 0x20] with peer := (0x30, 0x30, 0x31) } =
      some [.rx 0x30, .rx 0x20, .tx 0x14, .tx 0x10, .delay 4, .pktOut [0x00, 0x14, 0x10] 1 true] ∧
    (after { aired [0x30, 0x20] with peer := (0x30, 0x30, 0x31) }).map State.radioOut =
      some [((0x30, 0x30, 0x31), [0x00, 0x14, 0x10])] := by decide +kernel
/-- 70_reset_and_hazards.md R240: a reset between the answer and the watchdog configuration. -/
theorem test_reset_before_config :
    events { wired [0x51, 0x20] with pauses := List.replicate 5 Pause.quiet ++ [external] } =
      some [.rx 0x51, .rx 0x20, .tx 0x14, .reset .external] := by decide +kernel
/-- 70_reset_and_hazards.md R240, 20_memory.md R59: the reset cuts the last byte before the end of EEPROM, when
the third byte is about to be refused (CFG_REF). -/
theorem test_reset_before_refusal :
    (after { wired [0x64, 0x00, 0x03, 0x45, 0x01, 0x02, 0x03, 0x20] with
        addr := 0x3FE, pauses := List.replicate 23 Pause.quiet ++ [external] }).map
      (fun t => (t.ph, t.ev.drop (t.ev.length - 2), t.eeprom.any (fun c => decide (c.1 = 0x3FF)))) =
      some (.boot, [.eeWrite 0x3FF 0x02, .reset .external], true) := by decide +kernel
/-- 43_radio_transport.md R171, R240: an external reset inside a guard delay that the window would not outlast
strikes alone. -/
theorem test_reset_inside_delay :
    events { aired [0x30, 0x20] with
      wdtCfg := .on 3, pauses := List.replicate 7 Pause.quiet ++ [external] } =
      some [.rx 0x30, .rx 0x20, .tx 0x14, .tx 0x10, .delay 4, .reset .external] := by decide +kernel
/-- 60_exceptions.md R221 (log 23): a handshake that brings a byte arrives at WDT_CNT = d; the service may
come first at both of its instants. -/
theorem test_handshake_tie :
    (after { packets false [[1, 2, 3, 32, 7, 0x30]] with
        wdtCnt := 1000, pauses := List.replicate 2 { Pause.quiet with serviceFirst := true } }).map
      (fun t => (t.ph, t.rxq)) = some (.awaitCommand, [0x30]) := by decide +kernel
/-- 44_watchdog.md R196, R198: the long watchdog elapses after a handoff that nothing services. -/
theorem test_handedOff_expires :
    events { wired [] with ph := .handedOff, wdtCfg := .on 8000 } = some [.reset .watchdog] := by
  decide +kernel

/-! ### Hypotheses that are met -/

/-- `Calm` and `Ready` as Bools, for concrete states. -/
def calm (s : State) (reply : List Byte) : Bool :=
  decide (s.pauses = []) &&
    match s.wdtCfg with
    | .on d => decide ((s.afterSending reply).time < d)
    | .off => true

def ready (s : State) (i : Instr) (reply : List Byte) : Bool :=
  calm s reply &&
    decide (s.cfg.radioEnabled = true → s.assoc = true ∧ s.txbuf ≠ [] ∧ 1 ≤ s.cfg.txAttempts) &&
    decide (encode s.cfg i <+: s.incoming)

theorem awake_of {s : State} {slack : Nat}
    (h : (match s.wdtCfg with
          | .on d => decide (s.wdtCnt + slack < d)
          | .off => true) = true) : s.Awake slack := by
  intro d hd
  rw [hd] at h
  exact of_decide_eq_true h

theorem calm_of {s : State} {reply : List Byte} (h : calm s reply = true) : s.Calm reply := by
  rw [calm, Bool.and_eq_true, decide_eq_true_eq] at h
  refine ⟨h.1, fun d hd => ?_⟩
  have h2 := h.2
  rw [hd] at h2
  exact of_decide_eq_true h2

theorem ready_of {s : State} {i : Instr} {reply : List Byte} (h : ready s i reply = true) :
    Ready s i reply := by
  simp only [ready, Bool.and_eq_true, decide_eq_true_eq] at h
  exact ⟨calm_of h.1.1, h.1.2, h.2⟩

/-- The wired line takes no time, so the reply does not matter. -/
theorem ready_wired {s : State} {i : Instr} (hr : s.cfg.radioEnabled = false) (h : Ready s i [])
    (reply : List Byte) : Ready s i reply := by
  refine ⟨⟨h.calm.1, fun d hd => ?_⟩, h.link, h.bytes⟩
  have := h.calm.2 d hd
  simpa [State.afterSending, hr] using this

/-- The reply of most commands under CFG_REF: Insync, Ok. -/
def insyncOk : List Byte := [0x14, 0x10]

/-- `exec` answers a next state. -/
def runs (i : Instr) (s : State) : Bool :=
  match exec i s with
  | .next _ => true
  | .fault _ => false
  | .refused _ => false

theorem runs_of {i : Instr} {s : State} (h : runs i s = true) : ∃ t, exec i s = .next t := by
  unfold runs at h
  cases e : exec i s with
  | next t => exact ⟨t, rfl⟩
  | fault f => rw [e] at h; cases h
  | refused r => rw [e] at h; cases h

/-- The instruction runs, and what is asked holds of the state it leaves. -/
theorem runsTo_of {i : Instr} {s : State} (f : State → Bool)
    (h : (match exec i s with
          | .next t => f t
          | .fault _ => false
          | .refused _ => false) = true) : ∃ t, exec i s = .next t ∧ f t = true := by
  cases e : exec i s with
  | next t => rw [e] at h; exact ⟨t, rfl, h⟩
  | fault r => rw [e] at h; cases h
  | refused r => rw [e] at h; cases h

theorem steps_of {s : State} (h : (after s).isSome = true) : ∃ t, step s = .next t := by
  unfold after at h
  cases e : step s with
  | next t => exact ⟨t, rfl⟩
  | fault f => rw [e] at h; cases h
  | refused r => rw [e] at h; cases h

/-- A rule runs to its end. -/
def ends (x : Except Stop (Unit × State)) : Bool :=
  match x with
  | .ok _ => true
  | .error _ => false

theorem ends_of {x : Except Stop (Unit × State)} (h : ends x = true) : ∃ t, x = .ok ((), t) := by
  cases x with
  | ok p => exact ⟨p.2, rfl⟩
  | error e => cases h

/-- A reset cuts a rule off. -/
def cutOff (x : Except Stop (Unit × State)) : Bool :=
  match x with
  | .error (.ended _) => true
  | _ => false

theorem cutOff_of {x : Except Stop (Unit × State)} (h : cutOff x = true) : ∃ t, x = .error (.ended t) := by
  unfold cutOff at h
  split at h
  · exact ⟨_, rfl⟩
  · cases h

/-- The wired state with ADDR at `a`. -/
def wiredAt (a : Word) (bs : List Byte) : State := { wired bs with addr := a }

/-- A full page. -/
def page : List Byte := List.replicate 128 0x5A

/-- A wired state presents a request, and may program its payload. -/
def programs (a : Word) (payload : List Byte) (x : Byte) : State :=
  wiredAt a (encode Config.ref (.programPageF 0x00 payload x))

theorem programmable_of {s : State} {payload : List Byte}
    (h : decide (s.cfg.wf = true ∧ (1 ≤ payload.length ∧ payload.length ≤ s.cfg.pageSize) ∧
      s.flashAddress % s.cfg.pageSize = 0 ∧ s.flashAddress < s.cfg.bootStart ∧ s.flashOp = .idle ∧
      s.pagebuf.length = s.cfg.pageSize ∧ s.wbuf = List.replicate s.cfg.pageSize none ∧ FlashWf s.flash ∧
      s.addr.toNat + advanceAmount s.cfg (payloadLength payload) < 65536) = true) :
    Programmable s payload := by
  obtain ⟨h1, h2, h3, h4, h5, h6, h7, h8, h9⟩ := of_decide_eq_true h
  exact ⟨h1, h2, h3, h4, h5, h6, h7, h8, h9⟩

theorem eepromWritable_of {s : State} {payload : List Byte}
    (h : decide ((1 ≤ payload.length ∧ payload.length ≤ s.cfg.pageSize) ∧ s.cfg.pageSize ≤ 255 ∧
      s.pagebuf.length = s.cfg.pageSize ∧ s.addr.toNat + payload.length ≤ s.cfg.eepromSize ∧
      s.addr.toNat + payload.length < 65536) = true) : EepromWritable s payload := by
  obtain ⟨h1, h2, h3, h4, h5⟩ := of_decide_eq_true h
  exact ⟨h1, h2, h3, h4, h5⟩

/-! Encodings. -/

theorem witness_DecodeEncodeAgree : Config.ref.commandsDistinct = true ∧
    (Instr.programPageF 0xFF (List.replicate 255 0x20) 0x21).wf Config.ref = true ∧
    (Instr.programPageF 0xFF (List.replicate 255 0x20) 0x21).isPacket = false := by decide +kernel
theorem witness_PacketDecodeEncodeAgree :
    ((Instr.pkt 0 (List.replicate 31 0)).wf Config.ref = true ∧
      (Instr.pkt 0 (List.replicate 31 0)).isPacket = true) ∧
    (Instr.hello 0 0 0 2 []).wf Config.ref = true ∧ (Instr.hello 0 0 0 2 []).isPacket = true := by
  decide +kernel
theorem witness_EncodeDecodeAgree :
    decodeRequest Config.ref [0x74, 0x00, 0x00, 0x58, 0x20, 0x30] =
      .ok (.readPageBadType 0x00 0x00 0x58 0x20, [0x30]) := by decide +kernel
theorem witness_PacketEncodeDecodeAgree :
    (List.replicate 32 (0 : Byte)).length ≤ Config.pktCap ∧ ([] : List Byte).length ≤ Config.pktCap := by
  decide +kernel
theorem witness_Classification : Config.ref.commandsDistinct = true := by decide +kernel

/-! Steps. -/

theorem witness_StepRunsDecodedRequest :
    (wired [0x75, 0x20]).cfg.wf = true ∧ (wired [0x75, 0x20]).ph = .awaitCommand ∧
    ((wired [0x75, 0x20]).cfg.radioEnabled = true → (wired [0x75, 0x20]).rxq ≠ []) ∧
    (Instr.readSignature 0x20).wf (wired [0x75, 0x20]).cfg = true ∧
    (Instr.readSignature 0x20).isPacket = false ∧
    encode Config.ref (.readSignature 0x20) <+: (wired [0x75, 0x20]).incoming := by decide +kernel
theorem witness_StepRunsDecodedRequest_radio :
    (aired [0x75, 0x20]).cfg.wf = true ∧ (aired [0x75, 0x20]).ph = .awaitCommand ∧
    ((aired [0x75, 0x20]).cfg.radioEnabled = true → (aired [0x75, 0x20]).rxq ≠ []) ∧
    encode radioCfg (.readSignature 0x20) <+: (aired [0x75, 0x20]).incoming := by decide +kernel
theorem witness_StepRunsReceivedPacket :
    let s := packets false [[0x30, 0x30, 0x31, 0x20]]
    s.cfg.wf = true ∧ s.ph = .awaitCommand ∧ s.cfg.radioEnabled = true ∧ s.rxq = [] ∧ s.pauses = [] ∧
      s.Awake 0 ∧ decodePacket s.assoc [0x30, 0x30, 0x31, 0x20] = .ok (.hello 0x30 0x30 0x31 0x20 []) :=
  ⟨by decide +kernel, rfl, rfl, rfl, rfl, awake_of (by decide +kernel), by decide +kernel⟩
theorem witness_AmbiguousCommandsRefused :
    ¬ ({ Config.ref with cmdReadSign := 0x41 } : Config).commandBytes.Nodup := by decide +kernel

/-! The simple commands, with the right and with a wrong terminator. -/

theorem witness_GetParameterReplies :
    Ready (wired [0x41, 0x81, 0x20]) (.getParameter 0x81 0x20) [0x14, 0x04, 0x10] ∧
    Ready (aired [0x41, 0x82, 0x20]) (.getParameter 0x82 0x20) [0x14, 0x04, 0x10] ∧
    Ready (wired [0x41, 0xFF, 0x21]) (.getParameter 0xFF 0x21) [] ∧ (0x21 : Byte) ≠ Config.ref.term :=
  ⟨ready_of (by decide +kernel), ready_of (by decide +kernel), ready_of (by decide +kernel),
    by decide +kernel⟩
theorem witness_SetDeviceReplies :
    (bytesFrom 0 20).length = 20 ∧
    Ready (wired (0x42 :: bytesFrom 0 20 ++ [0x20])) (.setDevice (bytesFrom 0 20) 0x20) insyncOk ∧
    Ready (wired (0x42 :: bytesFrom 0 20 ++ [0x00])) (.setDevice (bytesFrom 0 20) 0x00) [] :=
  ⟨by decide +kernel, ready_of (by decide +kernel), ready_of (by decide +kernel)⟩
theorem witness_SetDeviceExtReplies :
    (bytesFrom 0 5).length = 5 ∧
    Ready (wired (0x45 :: bytesFrom 0 5 ++ [0x20])) (.setDeviceExt (bytesFrom 0 5) 0x20) insyncOk ∧
    Ready (wired (0x45 :: bytesFrom 0 5 ++ [0x00])) (.setDeviceExt (bytesFrom 0 5) 0x00) [] :=
  ⟨by decide +kernel, ready_of (by decide +kernel), ready_of (by decide +kernel)⟩
theorem witness_UniversalReplies :
    (bytesFrom 0 4).length = 4 ∧
    Ready (wired (0x56 :: bytesFrom 0 4 ++ [0x20])) (.universal (bytesFrom 0 4) 0x20) [0x00, 0x14, 0x10] ∧
    Ready (wired (0x56 :: bytesFrom 0 4 ++ [0x00])) (.universal (bytesFrom 0 4) 0x00) [] :=
  ⟨by decide +kernel, ready_of (by decide +kernel), ready_of (by decide +kernel)⟩
theorem witness_ReadSignatureReplies :
    Ready (aired [0x75, 0x20]) (.readSignature 0x20) [0x14, 0x1E, 0x95, 0x0F, 0x10] ∧
    Ready (wired [0x75, 0xFF]) (.readSignature 0xFF) [] :=
  ⟨ready_of (by decide +kernel), ready_of (by decide +kernel)⟩
theorem witness_OtherAcknowledged :
    (0x20 : Byte) ∉ Config.ref.commandBytes ∧ Config.getSyncByte ∉ Config.ref.commandBytes ∧
    Config.enterProgModeByte ∉ Config.ref.commandBytes ∧ Ready (wired [0x20, 0x20]) (.other 0x20 0x20) insyncOk ∧
    Ready (wired [0x20, 0x00]) (.other 0x20 0x00) [] ∧
    Ready (wired [0x30, 0x20]) (.getSync 0x20) insyncOk ∧ Ready (wired [0x30, 0x00]) (.getSync 0x00) [] ∧
    Ready (aired [0x50, 0x20]) (.enterProgMode 0x20) insyncOk ∧
    Ready (wired [0x50, 0x00]) (.enterProgMode 0x00) [] :=
  ⟨by decide +kernel, by decide +kernel, by decide +kernel, ready_of (by decide +kernel),
    ready_of (by decide +kernel), ready_of (by decide +kernel), ready_of (by decide +kernel),
    ready_of (by decide +kernel), ready_of (by decide +kernel)⟩
theorem witness_LoadAddressSetsAddress :
    Ready (wired [0x55, 0xFF, 0xFF, 0x20]) (.loadAddress 0xFF 0xFF 0x20) insyncOk ∧
    Ready { wired [0x55, 0x00, 0x80, 0x20] with cfg := { Config.ref with hasExt := true } }
      (.loadAddress 0x00 0x80 0x20) insyncOk ∧
    Ready (wired [0x55, 0x00, 0x00, 0x21]) (.loadAddress 0x00 0x00 0x21) [] :=
  ⟨ready_of (by decide +kernel), ready_of (by decide +kernel), ready_of (by decide +kernel)⟩
/-- The last millisecond before the short window ends; over the radio one attempt takes its guard delay. -/
theorem witness_LeaveProgModeArmsShort :
    (Ready { wired [0x51, 0x20] with wdtCnt := 15 } (.leaveProgMode 0x20) insyncOk ∧
      ({ wired [0x51, 0x20] with wdtCnt := 15 }.afterSending insyncOk).time < Config.ref.wdtShort) ∧
    (Ready { aired [0x51, 0x20] with wdtCnt := 11 } (.leaveProgMode 0x20) insyncOk ∧
      ({ aired [0x51, 0x20] with wdtCnt := 11 }.afterSending insyncOk).time < Config.ref.wdtShort) ∧
    Ready (wired [0x51, 0x00]) (.leaveProgMode 0x00) [] :=
  ⟨⟨ready_of (by decide +kernel), by decide +kernel⟩, ⟨ready_of (by decide +kernel), by decide +kernel⟩,
    ready_of (by decide +kernel)⟩

/-! Flash: the first page under the VirtualBootPatch, the last RWW page, the first NRWW page and the last
page below the bootloader; a full page and a single byte. -/

theorem witness_ProgramPageFCompletes :
    (Ready (programs 0x0000 page 0x20) (.programPageF 0 page 0x20) insyncOk ∧
      Programmable (programs 0x0000 page 0x20) page) ∧
    Ready (programs 0x7D80 [0x5A] 0x20) (.programPageF 0 [0x5A] 0x20) insyncOk ∧
      Programmable (programs 0x7D80 [0x5A] 0x20) [0x5A] :=
  ⟨⟨ready_of (by decide +kernel), programmable_of (by decide +kernel)⟩, ready_of (by decide +kernel),
    programmable_of (by decide +kernel)⟩
theorem witness_ProgramPageFWritesPage :
    (Ready (programs 0x0000 [0x5A] 0x20) (.programPageF 0 [0x5A] 0x20) insyncOk ∧
      Programmable (programs 0x0000 [0x5A] 0x20) [0x5A]) ∧
    Ready (programs 0x0080 page 0x20) (.programPageF 0 page 0x20) insyncOk ∧
      Programmable (programs 0x0080 page 0x20) page :=
  ⟨⟨ready_of (by decide +kernel), programmable_of (by decide +kernel)⟩, ready_of (by decide +kernel),
    programmable_of (by decide +kernel)⟩
theorem witness_ProgramPageFDeserts :
    (0x00 : Byte) ≠ Config.ref.term ∧
    Ready (programs 0x0000 page 0x00) (.programPageF 0 page 0x00) [] ∧
      Programmable (programs 0x0000 page 0x00) page ∧
    Ready (programs 0x7000 page 0x00) (.programPageF 0 page 0x00) [] ∧
      Programmable (programs 0x7000 page 0x00) page :=
  ⟨by decide +kernel, ready_of (by decide +kernel), programmable_of (by decide +kernel),
    ready_of (by decide +kernel), programmable_of (by decide +kernel)⟩
theorem witness_BankScheduling :
    (Ready (programs 0x6F80 page 0x20) (.programPageF 0 page 0x20) insyncOk ∧
      Programmable (programs 0x6F80 page 0x20) page) ∧
    Ready (programs 0x7000 page 0x20) (.programPageF 0 page 0x20) insyncOk ∧
      Programmable (programs 0x7000 page 0x20) page :=
  ⟨⟨ready_of (by decide +kernel), programmable_of (by decide +kernel)⟩, ready_of (by decide +kernel),
    programmable_of (by decide +kernel)⟩
theorem witness_VbpPatchTransforms :
    10 ≤ ({ State.reset with pagebuf := List.replicate 10 0 } : State).pagebuf.length := by decide +kernel
theorem witness_ReadPageFReads :
    ((1 : Byte) ≠ 0 ∧ (wiredAt 0x7FFF []).flashAddress + 1 ≤ Config.ref.flashSize ∧
      ∀ data, (wiredAt 0x7FFF [0x74, 0x00, 0x01, 0x46, 0x20]).MayRead 1 data →
        Ready (wiredAt 0x7FFF [0x74, 0x00, 0x01, 0x46, 0x20]) (.readPageF 0 1 0x20)
          (0x14 :: (data ++ [0x10]))) ∧
    ∀ data, (wiredAt 0x0000 [0x74, 0x00, 0xFF, 0x46, 0x20]).MayRead 255 data →
      Ready (wiredAt 0x0000 [0x74, 0x00, 0xFF, 0x46, 0x20]) (.readPageF 0 0xFF 0x20)
        (0x14 :: (data ++ [0x10])) :=
  ⟨⟨by decide +kernel, by decide +kernel, fun _ _ => ready_wired rfl (ready_of (by decide +kernel)) _⟩,
    fun _ _ => ready_wired rfl (ready_of (by decide +kernel)) _⟩
/-- Over the radio, whatever byte the environment chooses for an erased cell, RESP_OK included. -/
theorem witness_ReadPageFReads_radio :
    ∀ data, (aired [0x74, 0x00, 0x01, 0x46, 0x20]).MayRead 1 data →
      Ready (aired [0x74, 0x00, 0x01, 0x46, 0x20]) (.readPageF 0 1 0x20) (0x14 :: (data ++ [0x10])) := by
  have h : ∀ b : Byte,
      ready (aired [0x74, 0x00, 0x01, 0x46, 0x20]) (.readPageF 0 1 0x20) [0x14, b, 0x10] = true := by
    decide +kernel
  rintro data ⟨hl, -⟩
  obtain ⟨b, rfl⟩ := List.length_eq_one_iff.1 hl
  exact ready_of (h b)
theorem witness_ReadPageDeserts :
    (0x21 : Byte) ≠ Config.ref.term ∧
    Ready (wired [0x74, 0x00, 0x04, 0x46, 0x21]) (.readPageF 0 4 0x21) [] ∧
    Ready (wired [0x74, 0x00, 0x00, 0x45, 0x21]) (.readPageE 0 0 0x21) [] ∧
    Ready (wired [0x74, 0x00, 0x04, 0x58, 0x21]) (.readPageBadType 0 4 0x58 0x21) [] :=
  ⟨by decide +kernel, ready_of (by decide +kernel), ready_of (by decide +kernel),
    ready_of (by decide +kernel)⟩
/-- The controller completes at the first pause, the erase is an RWW one. -/
theorem witness_PagePostcondition :
    let s := { State.reset with pauses := [⟨3, true, true, false, false, false, false⟩] }
    let ws := (List.range 64).map (fun i => BitVec.ofNat 16 (i * 514))
    s.cfg.wf = true ∧ FlashWf s.flash ∧ s.flashOp = .idle ∧ s.wbuf.length = s.cfg.pageSize ∧
      ws.length = s.cfg.pageSize / 2 ∧ ∃ t, pageSequence s.cfg 0x80 ws s = .ok ((), t) :=
  ⟨by decide +kernel, by decide +kernel, by decide +kernel, by decide +kernel, by decide +kernel,
    ends_of (by decide +kernel)⟩

/-- The session of R140 at flash byte address `a`. -/
def flashSession (a : Word) (lo hi n : Byte) : State :=
  wiredAt a (encode Config.ref (.programPageF 0 page 0x20) ++ encode Config.ref (.loadAddress lo hi 0x20) ++
    encode Config.ref (.readPageF 0 n 0x20))

theorem witness_FlashRoundTrip :
    (Programmable (flashSession 0x0000 0x00 0x00 0x80) page ∧ page.length = Config.ref.pageSize ∧
      (flashSession 0x0000 0x00 0x00 0x80).rwwBlocked = false ∧
      256 * (0x00 : Byte).toNat + (0x00 : Byte).toNat = (flashSession 0x0000 0x00 0x00 0x80).flashAddress / 2 ∧
      (flashSession 0x0000 0x00 0x00 0x80).Calm
        ([0x14, 0x10, 0x14, 0x10, 0x14] ++ page.take 128 ++ [0x10]) ∧
      (flashSession 0x0000 0x00 0x00 0x80).LinkUp ∧
      encode Config.ref (.programPageF 0 page 0x20) ++ encode Config.ref (.loadAddress 0x00 0x00 0x20) ++
        encode Config.ref (.readPageF 0 0x80 0x20) <+: (flashSession 0x0000 0x00 0x00 0x80).incoming) ∧
    Programmable (flashSession 0x7D80 0xC0 0x3E 0x01) page ∧
      256 * (0x3E : Byte).toNat + (0xC0 : Byte).toNat = (flashSession 0x7D80 0xC0 0x3E 0x01).flashAddress / 2 :=
  ⟨⟨programmable_of (by decide +kernel), by decide +kernel, rfl, by decide +kernel,
    calm_of (by decide +kernel), by unfold State.LinkUp; decide +kernel, by decide +kernel⟩,
    programmable_of (by decide +kernel), by decide +kernel⟩

/-! EEPROM. -/

/-- A wired state that presents a ProgramPage 'E'. -/
def stores (a : Word) (payload : List Byte) (x : Byte) : State :=
  wiredAt a (encode Config.ref (.programPageE 0x00 payload x))

theorem witness_ProgramPageECompletes :
    (Ready (stores 0x0380 page 0x20) (.programPageE 0 page 0x20) insyncOk ∧
      EepromWritable (stores 0x0380 page 0x20) page) ∧
    Ready (stores 0x0000 [0x5A] 0x14) (.programPageE 0 [0x5A] 0x14) [] ∧
      EepromWritable (stores 0x0000 [0x5A] 0x14) [0x5A] :=
  ⟨⟨ready_of (by decide +kernel), eepromWritable_of (by decide +kernel)⟩, ready_of (by decide +kernel),
    eepromWritable_of (by decide +kernel)⟩
theorem witness_ProgramPageEWritesBytes :
    Ready { stores 0x03FF [0x5A] 0x20 with eeBusy := some (0x03FF, 0x00) } (.programPageE 0 [0x5A] 0x20) insyncOk ∧
      EepromWritable { stores 0x03FF [0x5A] 0x20 with eeBusy := some (0x03FF, 0x00) } [0x5A] :=
  ⟨ready_of (by decide +kernel), eepromWritable_of (by decide +kernel)⟩
theorem witness_EepromKeepAlive :
    Ready (stores 0x0380 page 0x20) (.programPageE 0 page 0x20) insyncOk ∧
      EepromWritable (stores 0x0380 page 0x20) page :=
  witness_ProgramPageECompletes.1
theorem witness_ReadPageEReads :
    let s := { wiredAt 0x03FE [0x74, 0x00, 0x02, 0x45, 0x20] with
      eeprom := [(0x3FE, 0xAB)], eeBusy := some (0x3FF, 0xCD) }
    (2 : Byte) ≠ 0 ∧ Ready s (.readPageE 0 2 0x20) (0x14 :: (s.eepromData 2 ++ [0x10])) ∧
      s.eepromData 2 = [0xAB, 0xCD] ∧ s.addr.toNat + 2 ≤ Config.ref.eepromSize :=
  ⟨by decide +kernel, ready_wired rfl (ready_of (by decide +kernel)) _, by decide +kernel, by decide +kernel⟩
theorem witness_EepromRoundTrip :
    let s := wiredAt 0x0380 (encode Config.ref (.programPageE 0 page 0x20) ++
      encode Config.ref (.loadAddress 0xC0 0x01 0x20) ++ encode Config.ref (.readPageE 0 0x80 0x20))
    EepromWritable s page ∧ 2 * (256 * (0x01 : Byte).toNat + (0xC0 : Byte).toNat) = s.addr.toNat ∧
      s.Calm ([0x14, 0x10, 0x14, 0x10, 0x14] ++ page ++ [0x10]) ∧ s.LinkUp ∧
      encode Config.ref (.programPageE 0 page 0x20) ++ encode Config.ref (.loadAddress 0xC0 0x01 0x20) ++
        encode Config.ref (.readPageE 0 (BitVec.ofNat 8 page.length) 0x20) <+: s.incoming :=
  ⟨eepromWritable_of (by decide +kernel), by decide +kernel, calm_of (by decide +kernel),
    by unfold State.LinkUp; decide +kernel, by decide +kernel⟩

/-! Refusals. -/

theorem witness_ProgramBadTypeRefused :
    (0x58 : Byte) ≠ 0x46 ∧ (0x58 : Byte) ≠ 0x45 ∧
    Ready (wired [0x64, 0x00, 0x80, 0x58]) (.programPageBadType 0 0x80 0x58) [] ∧
    Ready (wired [0x64, 0x00, 0x81, 0x58]) (.programPageBadType 0 0x81 0x58) [] ∧
    Ready (wired [0x64, 0x00, 0x00, 0x58]) (.programPageBadType 0 0x00 0x58) [] :=
  ⟨by decide +kernel, by decide +kernel, ready_of (by decide +kernel), ready_of (by decide +kernel),
    ready_of (by decide +kernel)⟩
theorem witness_ReadBadTypeRefused :
    Ready (wired [0x74, 0x00, 0x01, 0x58, 0x20]) (.readPageBadType 0 1 0x58 0x20) [0x14] ∧
    Ready (wired [0x74, 0x00, 0x00, 0x58, 0x20]) (.readPageBadType 0 0 0x58 0x20) [0x14] :=
  ⟨ready_of (by decide +kernel), ready_of (by decide +kernel)⟩
theorem witness_IllegalLengthRefused :
    Ready (programs 0 [] 0x20) (.programPageF 0 [] 0x20) [] ∧
    Ready (programs 0 (0x5A :: page) 0x20) (.programPageF 0 (0x5A :: page) 0x20) [] ∧
    Ready (stores 0 [] 0x20) (.programPageE 0 [] 0x20) [] ∧
    Ready (stores 0 (0x5A :: page) 0x20) (.programPageE 0 (0x5A :: page) 0x20) [] ∧
    Ready (wired [0x74, 0x00, 0x00, 0x46, 0x20]) (.readPageF 0 0 0x20) [0x14] ∧
    Ready (wired [0x74, 0x00, 0x00, 0x45, 0x20]) (.readPageE 0 0 0x20) [0x14] :=
  ⟨ready_of (by decide +kernel), ready_of (by decide +kernel), ready_of (by decide +kernel),
    ready_of (by decide +kernel), ready_of (by decide +kernel), ready_of (by decide +kernel)⟩
theorem witness_FlashTargetRefused :
    (Ready (programs 0x0082 page 0x20) (.programPageF 0 page 0x20) [] ∧
      (programs 0x0082 page 0x20).flashAddress % Config.ref.pageSize ≠ 0) ∧
    (Ready (programs 0x8000 page 0x20) (.programPageF 0 page 0x20) [] ∧
      (programs 0x8000 page 0x20).flashAddress % Config.ref.pageSize = 0 ∧
      Config.ref.flashSize ≤ (programs 0x8000 page 0x20).flashAddress) ∧
    Ready (programs 0x7E00 page 0x20) (.programPageF 0 page 0x20) [] ∧
      (programs 0x7E00 page 0x20).flashAddress % Config.ref.pageSize = 0 ∧
      Config.ref.bootStart ≤ (programs 0x7E00 page 0x20).flashAddress :=
  ⟨⟨ready_of (by decide +kernel), by decide +kernel⟩,
    ⟨ready_of (by decide +kernel), by decide +kernel, by decide +kernel⟩, ready_of (by decide +kernel),
    by decide +kernel, by decide +kernel⟩
/-- A device with 64 KB of each memory, ADDR two below the top. -/
def topOf (bs : List Byte) : State :=
  { wiredAt 0xFFFE bs with cfg := { Config.ref with flashSize := 65536, eepromSize := 65536 } }
/-- V37: the third byte is outside. A first byte outside. V58: at the top of the memory ADDR cannot advance. -/
theorem witness_MemoryEndRefused_F :
    ((wiredAt 0x7FFE []).cutShort Config.ref.flashSize (wiredAt 0x7FFE []).flashAddress 4 = some (2, .range) ∧
      ∀ data, (wiredAt 0x7FFE [0x74, 0x00, 0x04, 0x46, 0x20]).MayRead 2 data →
        Ready (wiredAt 0x7FFE [0x74, 0x00, 0x04, 0x46, 0x20]) (.readPageF 0 4 0x20) (0x14 :: data)) ∧
    ((wiredAt 0x8000 []).cutShort Config.ref.flashSize (wiredAt 0x8000 []).flashAddress 1 = some (0, .range) ∧
      ∀ data, (wiredAt 0x8000 [0x74, 0x00, 0x01, 0x46, 0x20]).MayRead 0 data →
        Ready (wiredAt 0x8000 [0x74, 0x00, 0x01, 0x46, 0x20]) (.readPageF 0 1 0x20) (0x14 :: data)) ∧
    (topOf []).cutShort 65536 (topOf []).flashAddress 2 = some (2, .wrap) ∧
    ∀ data, (topOf [0x74, 0x00, 0x02, 0x46, 0x20]).MayRead 2 data →
      Ready (topOf [0x74, 0x00, 0x02, 0x46, 0x20]) (.readPageF 0 2 0x20) (0x14 :: data) :=
  ⟨⟨by decide +kernel, fun _ _ => ready_wired rfl (ready_of (by decide +kernel)) _⟩,
    ⟨by decide +kernel, fun _ _ => ready_wired rfl (ready_of (by decide +kernel)) _⟩, by decide +kernel,
    fun _ _ => ready_wired rfl (ready_of (by decide +kernel)) _⟩
/-- V38: the second byte is outside. At the top of the memory ADDR cannot advance past the second. -/
theorem witness_MemoryEndRefused_E :
    ((wiredAt 0x03FF []).cutShort Config.ref.eepromSize (wiredAt 0x03FF []).addr.toNat 2 = some (1, .range) ∧
      Ready (wiredAt 0x03FF [0x74, 0x00, 0x02, 0x45, 0x20]) (.readPageE 0 2 0x20)
        (0x14 :: (wiredAt 0x03FF [0x74, 0x00, 0x02, 0x45, 0x20]).eepromData 1)) ∧
    (topOf []).cutShort 65536 (topOf []).addr.toNat 3 = some (2, .wrap) ∧
    Ready (topOf [0x74, 0x00, 0x03, 0x45, 0x20]) (.readPageE 0 3 0x20)
      (0x14 :: (topOf [0x74, 0x00, 0x03, 0x45, 0x20]).eepromData 2) :=
  ⟨⟨by decide +kernel, ready_wired rfl (ready_of (by decide +kernel)) _⟩, by decide +kernel,
    ready_wired rfl (ready_of (by decide +kernel)) _⟩
/-- V57; the last address of 16 bits; and the payload's last byte at the top of the memory. -/
theorem witness_MemoryEndRefused_programE :
    ((stores 0x03FE [1, 2, 3] 0x20).cutShort Config.ref.eepromSize 0x03FE 3 = some (2, .range) ∧
      Ready (stores 0x03FE [1, 2, 3] 0x20) (.programPageE 0 [1, 2, 3] 0x20) [0x14]) ∧
    ((stores 0xFFFF [1] 0x20).cutShort Config.ref.eepromSize 0xFFFF 1 = some (0, .range) ∧
      Ready (stores 0xFFFF [1] 0x20) (.programPageE 0 [1] 0x20) [0x14]) ∧
    (topOf []).cutShort 65536 0xFFFE 2 = some (2, .wrap) ∧
    Ready (topOf [0x64, 0x00, 0x02, 0x45, 0x01, 0x02, 0x20]) (.programPageE 0 [1, 2] 0x20) [0x14] :=
  ⟨⟨by decide +kernel, ready_of (by decide +kernel)⟩, ⟨by decide +kernel, ready_of (by decide +kernel)⟩,
    by decide +kernel, ready_of (by decide +kernel)⟩

/-! Radio. -/

theorem witness_PacketFiltered :
    (aired []).assoc = true ∧ (List.replicate 31 (0 : Byte)).length ≤ 31 := by decide +kernel
theorem witness_HelloAssociates :
    (packets false []).assoc = false ∧ (List.replicate 28 (0 : Byte)).length ≤ 28 ∧
    (packets false []).pauses = [] ∧ (packets false []).Awake 0 :=
  ⟨rfl, by decide +kernel, rfl, awake_of (by decide +kernel)⟩
theorem witness_ShapelessPacketDropped :
    ((packets false []).assoc = false ∧ ([1, 2, 3] : List Byte).length < 4) ∧ (aired []).assoc = true := by
  decide +kernel
/-- An ordinary packet, one of the greatest length, and a first packet. -/
theorem witness_AtMostOnce :
    ((aired []).assoc = true ∧
      (∃ t, exec (.pkt 0x02 [0x75, 0x20]) (aired []) = .next t) ∧
      ∃ t, exec (.pkt 0x02 (List.replicate 31 0)) (aired []) = .next t) ∧
    (packets false []).assoc = false ∧
    ∃ t, exec (.hello 1 2 3 32 [0x07, 0x30]) (packets false []) = .next t ∧ t.assoc = true :=
  ⟨⟨rfl, runs_of (by decide +kernel), runs_of (by decide +kernel)⟩, rfl,
    runsTo_of State.assoc (by decide +kernel)⟩
theorem witness_PacketCut :
    (aired []).assoc = true ∧
      (packets false []).assoc = false ∧ (packets false []).pauses = [] ∧ (packets false []).Awake 0 :=
  ⟨rfl, rfl, rfl, awake_of (by decide +kernel)⟩
/-- MAXLEN at its least, so that every byte ends a packet; a byte that ends none; and a flush that a reset
cuts off. -/
theorem witness_FramedByMaxlen :
    (badMaxlen (2 : Byte) = false ∧ ({ aired [] with maxlen := 2 } : State).txbuf.length < (2 : Byte).toNat ∧
      ∃ t, radioSendByte 0x14 { aired [] with maxlen := 2 } = .ok ((), t)) ∧
    ((aired []).txbuf.head? = some (aired []).txTag ∧ ∃ t, radioSendByte 0x14 (aired []) = .ok ((), t)) ∧
    ∃ t, radioSendByte 0x10 { aired [] with pauses := [Pause.quiet, external] } = .error (.ended t) :=
  ⟨⟨by decide +kernel, by decide +kernel, ends_of (by decide +kernel)⟩,
    ⟨by decide +kernel, ends_of (by decide +kernel)⟩, cutOff_of (by decide +kernel)⟩
theorem witness_FlushRetries :
    (aired []).pauses = [] ∧ (aired []).Awake ((aired []).cfg.txAttempts * (aired []).cfg.txGuard) :=
  ⟨rfl, awake_of (by decide +kernel)⟩

/-! Watchdog, reset, boot. -/

theorem witness_FramingFaultNotServiced :
    let s := { wired [] with line := [⟨0x41, false⟩, ⟨0x81, true⟩], wdtCnt := 999 }
    s.cfg.radioEnabled = false ∧ s.line = ⟨0x41, false⟩ :: [⟨0x81, true⟩] ∧ s.pauses = [] ∧ s.Awake 0 :=
  ⟨rfl, rfl, rfl, awake_of (by decide +kernel)⟩
/-- Past the window, before a service too; and at the window itself, before a service and without one. -/
theorem witness_WatchdogExpires :
    let s := { wired [] with wdtCnt := 900, pauses := [⟨101, false, false, false, false, false, true⟩] }
    let u := { wired [] with wdtCnt := 900, pauses := [⟨100, false, false, false, false, false, true⟩] }
    (s.pauses = ⟨101, false, false, false, false, false, true⟩ :: [] ∧ s.wdtCfg = .on 1000 ∧
      1000 ≤ s.wdtCnt + 0 + 101 ∧ 1000 ≠ s.wdtCnt + 0 + 101) ∧
    u.pauses = ⟨100, false, false, false, false, false, true⟩ :: [] ∧ u.wdtCfg = .on 1000 ∧
      1000 = u.wdtCnt + 0 + 100 ∧ ((false : Bool) = false ∨ (true : Bool) = false) := by decide +kernel
theorem witness_SilenceEndsInReset :
    ((wired []).cfg.wf = true ∧ (wired []).pauses = [] ∧ (wired []).wdtCfg = .on 1000 ∧
      (wired []).ph = .awaitCommand ∧ (wired []).HostSilent) ∧
    ((packets true []).cfg.wf = true ∧ (packets true []).ph = .awaitCommand ∧
      (packets true []).wdtCfg = .on 1000 ∧ (packets true []).HostSilent) ∧
    ({ wired [] with ph := .execute .readPage } : State).HostSilent ∧
    ({ wired [0x41] with ph := .abandoned } : State).ph = .abandoned ∧
    ({ wired [] with ph := .handedOff, wdtCfg := .on 8000 } : State).ph = .handedOff := by
  unfold State.HostSilent; decide +kernel
theorem witness_AbandonedDoesNothing :
    (∃ t, step { wired [] with ph := .abandoned } = .next t) ∧
    ∃ t, step { wired [] with
      ph := .handedOff, wdtCfg := .off, pauses := [⟨5, false, true, false, false, true, false⟩] } = .next t :=
  ⟨steps_of (by decide +kernel), steps_of (by decide +kernel)⟩
theorem witness_ResetTable :
    let s := { wired [] with
      flashOp := .erasing 0x80, flash := [(0x80, .byte 1), (0x100, .byte 2)], eeBusy := some (3, 4) }
    FlashWf s.flash ∧ 0x80 ∈ s.flashOp.page ∧ (∀ p ∈ s.flashOp.page, 0x100 < p ∨ p + s.cfg.pageSize ≤ 0x100) ∧
      ∀ q ∈ s.eeBusy, q.1 ≠ 2 := by decide +kernel
theorem witness_BootEntersLoop :
    let s := { State.reset with hwRstFlags := 0x02 }
    s.cfg.wf = true ∧ s.ph = .boot ∧ s.pauses = [] ∧ ¬ SkipsLoop s := by
  unfold SkipsLoop; decide +kernel
theorem witness_BootHandsOff :
    State.reset.cfg.wf = true ∧ State.reset.ph = .boot ∧ State.reset.pauses = [] ∧ SkipsLoop State.reset ∧
    SkipsLoop { State.reset with hwRstFlags := 0x08 } ∧ SkipsLoop { State.reset with hwRstFlags := 0x04 } := by
  unfold SkipsLoop; decide +kernel
theorem witness_PhaseTransitions :
    (∃ t, step State.reset = .next t) ∧ (∃ t, step (wired [0x75, 0x20]) = .next t) ∧
    (∃ t, step (wired [0x75, 0x00]) = .next t) ∧ ∃ t, step { wired [] with ph := .abandoned } = .next t :=
  ⟨steps_of (by decide +kernel), steps_of (by decide +kernel), steps_of (by decide +kernel),
    steps_of (by decide +kernel)⟩

/-! The machine as a whole: a command in progress of the radio link, and a page being programmed. -/

theorem inv_of {s : State}
    (h : decide ((FlashWf s.flash ∧ (∀ e ∈ s.flash, e.1 < s.cfg.flashSize) ∧ Rising s.eeprom ∧
        (∀ e ∈ s.eeprom, e.1 < s.cfg.eepromSize) ∧ ∀ p ∈ s.eeBusy, p.1 < s.cfg.eepromSize) ∧
      ((∀ p ∈ s.flashOp.page, p % s.cfg.pageSize = 0 ∧ p < s.cfg.bootStart) ∧
        s.wbuf.length = s.cfg.pageSize ∧ s.pagebuf.length = s.cfg.pageSize ∧
        (s.rwwBlocked = true → s.cfg.needsRwwEnable = true) ∧ (s.cfg.hasExt = false → s.ext = 0)) ∧
      (badMaxlen s.maxlen = false ∧ s.txbuf.head? = some s.txTag ∧ s.txbuf.length < s.maxlen.toNat ∧
        s.rxq.length + 1 ≤ Config.pktCap ∧ (s.assoc = false → s.rxq = [] ∧ s.txbuf = [s.txTag])) ∧
      (s.ph ≠ .boot → s.ph ≠ .handedOff →
        s.wdtCfg = .on s.cfg.wdtMedium ∨ s.wdtCfg = .on s.cfg.wdtShort)) = true) : Inv s := by
  obtain ⟨⟨a1, a2, a3, a4, a5⟩, ⟨b1, b2, b3, b4, b5⟩, ⟨c1, c2, c3, c4, c5⟩, d⟩ := of_decide_eq_true h
  exact ⟨⟨a1, a2, a3, a4, a5⟩, ⟨b1, b2, b3, b4, b5⟩, ⟨c1, c2, c3, c4, c5⟩, d⟩

theorem witness_NeverSendsUnassociated : Inv (packets false [[0x30, 0x30, 0x31, 0x20, 0x01, 0x75, 0x20]]) :=
  inv_of (by decide +kernel)
theorem witness_StepKeepsInv :
    (Inv (aired [0x75, 0x20]) ∧ ∃ t, step (aired [0x75, 0x20]) = .next t) ∧
    Inv (programs 0x7D80 page 0x20) ∧ ∃ t, step (programs 0x7D80 page 0x20) = .next t :=
  ⟨⟨inv_of (by decide +kernel), steps_of (by decide +kernel)⟩, inv_of (by decide +kernel),
    steps_of (by decide +kernel)⟩
theorem witness_ResetHasInv : Config.ref.wf = true ∧ radioCfg.wf = true := by decide +kernel
theorem witness_StepKeepsAtRest :
    (AtRest (programs 0x0080 page 0x20) ∧ ∃ t, step (programs 0x0080 page 0x20) = .next t) ∧
    AtRest { wired [] with ph := .abandoned, flashOp := .erasing 0x80 } ∧
      ∃ t, step { wired [] with ph := .abandoned, flashOp := .erasing 0x80 } = .next t :=
  ⟨⟨fun _ => by decide +kernel, steps_of (by decide +kernel)⟩, fun h => by simp at h,
    steps_of (by decide +kernel)⟩
theorem witness_TraceOnlyGrows : ∃ t, step (wired [0x75, 0x20]) = .next t := steps_of (by decide +kernel)
theorem witness_BootloaderPagesKept :
    Inv (programs 0x7D80 page 0x20) ∧ (∃ t, step (programs 0x7D80 page 0x20) = .next t) ∧
      Config.ref.bootStart ≤ 0x7E00 :=
  ⟨inv_of (by decide +kernel), steps_of (by decide +kernel), by decide +kernel⟩
theorem witness_FlashFrame :
    Inv (programs 0x0080 page 0x20) ∧ AtRest (programs 0x0080 page 0x20) ∧
    (programs 0x0080 page 0x20).ph = .awaitCommand ∧
    (∃ t, exec (.programPageF 0 page 0x20) (programs 0x0080 page 0x20) = .next t) ∧
    (0x7F < (programs 0x0080 page 0x20).flashAddress ∨
      (programs 0x0080 page 0x20).flashAddress + Config.ref.pageSize ≤ 0x7F) ∧
    ((programs 0x0080 page 0x20).flashAddress + Config.ref.pageSize ≤ 0x100) :=
  ⟨inv_of (by decide +kernel), fun _ => by decide +kernel, rfl, runs_of (by decide +kernel),
    by decide +kernel, by decide +kernel⟩
theorem witness_EepromFrame :
    (stores 0x0020 [0xAA, 0xBB] 0x20).ph = .awaitCommand ∧
    (∃ t, exec (.programPageE 0 [0xAA, 0xBB] 0x20) (stores 0x0020 [0xAA, 0xBB] 0x20) = .next t) ∧
    (∀ p ∈ (stores 0x0020 [0xAA, 0xBB] 0x20).eeBusy, p.1 ≠ 0x22) ∧
    (stores 0x0020 [0xAA, 0xBB] 0x20).addr.toNat + 2 ≤ 0x22 :=
  ⟨rfl, runs_of (by decide +kernel), by decide +kernel, by decide +kernel⟩

end Sys2Proof.Tests
end

section
/-! SUPPORT. What an admissible configuration guarantees (00_scope.md R6), and what a step does with any
other. -/

namespace Sys2Proof.Proofs

open Sys2Proof Sys2Proof.Machine

/-- The part of admissibility that R6 itself adds to the constraints of R5. -/
theorem commandBytes_nodup_of_wf {c : Config} (h : c.wf = true) : c.commandBytes.Nodup := by
  rw [Config.wf, Bool.and_eq_true] at h
  obtain ⟨-, hdistinct⟩ := h
  exact of_decide_eq_true hdistinct

theorem step_of_not_wf {s : State} (h : ¬ s.cfg.wf = true) : step s = .refused .configuration :=
  if_neg h

/-- Settles O9: equal command bytes make the configuration inadmissible, which a step checks before it looks
at the phase. -/
theorem ambiguousCommandsRefused : Obligations.AmbiguousCommandsRefused := by
  intro s hambiguous
  have hnotWf : ¬ s.cfg.wf = true := fun hwf => hambiguous (commandBytes_nodup_of_wf hwf)
  exact step_of_not_wf hnotWf

end Sys2Proof.Proofs
end

section
/-! SUPPORT. The invariant of a run (10_state.md R37), proved once per `Move` and once for the state right
after power-on; and what every move leaves of the trace, of the record of sent packets and of the
configuration. -/

namespace Sys2Proof.Proofs

open Sys2Proof Sys2Proof.Machine

/-! ### What an admissible configuration guarantees -/

/-- The page grid of 20_memory.md R44: the bootloader starts on a page inside FLASH. -/
theorem geometry_of_wf {c : Config} (h : c.wf = true) :
    c.bootStart % c.pageSize = 0 ∧ c.bootStart < c.flashSize := by
  simp only [Config.wf, Config.geometryOk, Bool.and_eq_true, decide_eq_true_eq] at h
  tauto

theorem maxlenDefault_of_wf {c : Config} (h : c.wf = true) :
    2 ≤ c.maxlenDefault.toNat ∧ c.maxlenDefault.toNat ≤ Config.pktCap := by
  simp only [Config.wf, Config.radioOk, Bool.and_eq_true, decide_eq_true_eq] at h
  tauto

/-- A page that begins below BOOT_START ends inside FLASH: both lie on the page grid. -/
theorem page_end_le_flashSize {c : Config} (h : c.wf = true) {p : Nat} (hgrid : p % c.pageSize = 0)
    (hbelow : p < c.bootStart) : p + c.pageSize ≤ c.flashSize := by
  obtain ⟨hbootGrid, hboot⟩ := geometry_of_wf h
  have hdvd : c.pageSize ∣ c.bootStart - p :=
    Nat.dvd_sub (Nat.dvd_of_mod_eq_zero hbootGrid) (Nat.dvd_of_mod_eq_zero hgrid)
  have := Nat.le_of_dvd (by omega) hdvd
  omega

theorem badMaxlen_eq_false_iff {m : Byte} :
    badMaxlen m = false ↔ 2 ≤ m.toNat ∧ m.toNat ≤ Config.pktCap := by
  rw [badMaxlen, decide_eq_false_iff_not, not_or, not_lt, not_lt]

/-! ### The memories -/

theorem lt_of_mem_setFlashCells {m : List (Nat × FlashCell)} {a n : Nat} {cs : List FlashCell}
    (h : ∀ e ∈ m, e.1 < n) (hend : a + cs.length ≤ n) : ∀ e ∈ setFlashCells m a cs, e.1 < n := by
  intro e he
  rcases mem_setFlashCells he with hin | hin
  · omega
  · exact h e hin

theorem lt_of_mem_putCell {α : Type} {m : List (Nat × α)} {a n : Nat} {v : α}
    (h : ∀ e ∈ m, e.1 < n) (ha : a < n) : ∀ e ∈ putCell m a v, e.1 < n := by
  intro e he
  rcases mem_putCell he with rfl | hin
  · exact ha
  · exact h e hin

/-- FLASH in canonical form and inside its range. -/
def LegalFlash (c : Config) (m : List (Nat × FlashCell)) : Prop :=
  FlashWf m ∧ ∀ e ∈ m, e.1 < c.flashSize

/-- A whole page of cells written where the flash controller works leaves FLASH legal. -/
theorem legalFlash_setPage {s : State} (hwf : s.cfg.wf = true) (hm : MemoryInv s) (hc : ControllerInv s)
    {p : Nat} (hp : p ∈ s.flashOp.page) {cs : List FlashCell} (hlen : cs.length = s.cfg.pageSize) :
    LegalFlash s.cfg (setFlashCells s.flash p cs) := by
  obtain ⟨hgrid, hbelow⟩ := hc.page p hp
  refine ⟨setFlashCells_wf hm.flashWf p cs, lt_of_mem_setFlashCells hm.flashRange ?_⟩
  rw [hlen]
  exact page_end_le_flashSize hwf hgrid hbelow

theorem legalFlash_flashComplete {s : State} (hwf : s.cfg.wf = true) (hm : MemoryInv s)
    (hc : ControllerInv s) : LegalFlash s.cfg (flashComplete s).flash := by
  unfold flashComplete
  cases hop : s.flashOp with
  | idle => exact ⟨hm.flashWf, hm.flashRange⟩
  | erasing p => exact legalFlash_setPage hwf hm hc (by simp [hop, FlashOp.page]) (by simp)
  | writing p =>
    have hp : p ∈ s.flashOp.page := by simp [hop, FlashOp.page]
    dsimp only
    split
    · exact legalFlash_setPage hwf hm hc hp (by simpa using hc.wbufSize)
    · exact legalFlash_setPage hwf hm hc hp (by simp)

theorem legalFlash_flashCut {s : State} (hwf : s.cfg.wf = true) (hm : MemoryInv s)
    (hc : ControllerInv s) : LegalFlash s.cfg s.flashCut := by
  unfold State.flashCut
  cases hop : s.flashOp with
  | idle => exact ⟨hm.flashWf, hm.flashRange⟩
  | erasing p | writing p =>
    exact legalFlash_setPage hwf hm hc (by simp [hop, FlashOp.page]) (by simp)

/-- EEPROM in canonical form and inside its range; a write cut short touches the latched byte only. -/
theorem legalEeprom_eepromCut {s : State} (hm : MemoryInv s) :
    Rising s.eepromCut ∧ ∀ e ∈ s.eepromCut, e.1 < s.cfg.eepromSize := by
  unfold State.eepromCut
  split
  · exact ⟨hm.eepromWf, hm.eepromRange⟩
  · rename_i a b hbusy
    exact ⟨rising_putCell hm.eepromWf a _, lt_of_mem_putCell hm.eepromRange (hm.latch (a, b) hbusy)⟩

/-! ### The controllers' completions, by the fields they write -/

theorem flashComplete_frame (s : State) :
    ∃ m wb, flashComplete s = { s with flash := m, wbuf := wb, flashOp := .idle } := by
  unfold flashComplete
  cases hop : s.flashOp with
  | idle => exact ⟨s.flash, s.wbuf, congrArg (fun op => { s with flashOp := op }) hop⟩
  | erasing p | writing p => exact ⟨_, _, rfl⟩

theorem flashComplete_flashOp (s : State) : (flashComplete s).flashOp = .idle := by
  obtain ⟨m, wb, h⟩ := flashComplete_frame s
  rw [h]

theorem flashComplete_wbuf (s : State) :
    (flashComplete s).wbuf = s.wbuf ∨ (flashComplete s).wbuf = List.replicate s.cfg.pageSize none := by
  unfold flashComplete
  split
  · exact .inl rfl
  · exact .inl rfl
  · exact .inr rfl

theorem eeComplete_frame (s : State) :
    ∃ m, eeComplete s = { s with eeprom := m, eeBusy := none } := by
  unfold eeComplete
  cases hbusy : s.eeBusy with
  | none => exact ⟨s.eeprom, congrArg (fun busy => { s with eeBusy := busy }) hbusy⟩
  | some latched => exact ⟨_, rfl⟩

/-! ### Each part of the invariant reads a few registers only -/

theorem memoryInv_congr {s t : State} (h : MemoryInv s) (hcfg : t.cfg = s.cfg) (hflash : t.flash = s.flash)
    (heeprom : t.eeprom = s.eeprom) (hbusy : t.eeBusy = s.eeBusy) : MemoryInv t := by
  obtain ⟨hflashWf, hflashRange, heepromWf, heepromRange, hlatch⟩ := h
  constructor <;> simpa only [hcfg, hflash, heeprom, hbusy]

theorem controllerInv_congr {s t : State} (h : ControllerInv s) (hcfg : t.cfg = s.cfg)
    (hop : t.flashOp = s.flashOp) (hwbuf : t.wbuf.length = s.wbuf.length)
    (hbuf : t.pagebuf.length = s.pagebuf.length) (hblocked : t.rwwBlocked = s.rwwBlocked)
    (hext : t.ext = s.ext) : ControllerInv t := by
  obtain ⟨hpage, hwbufSize, hbufSize, hneeds, hnoExt⟩ := h
  constructor <;> simpa only [hcfg, hop, hwbuf, hbuf, hblocked, hext]

theorem linkInv_congr {s t : State} (h : LinkInv s) (hmaxlen : t.maxlen = s.maxlen)
    (htxbuf : t.txbuf = s.txbuf) (htag : t.txTag = s.txTag) (hrxq : t.rxq = s.rxq)
    (hassoc : t.assoc = s.assoc) : LinkInv t := by
  obtain ⟨hlegal, hhead, hroom, hqueue, hsilent⟩ := h
  constructor <;> simpa only [hmaxlen, htxbuf, htag, hrxq, hassoc]

theorem watchdogInv_congr {s t : State} (h : WatchdogInv s) (hcfg : t.cfg = s.cfg) (hph : t.ph = s.ph)
    (hwdt : t.wdtCfg = s.wdtCfg) : WatchdogInv t := by
  simpa only [WatchdogInv, hcfg, hph, hwdt]

/-! ### The parts of the invariant, move by move -/

section Moves

variable {D A : Prop} {E : Nat → Prop} {s t : State}

theorem move_keeps_memoryInv {P : Nat → Prop} (h : Move D A P E s t) (hwf : s.cfg.wf = true)
    (hm : MemoryInv s) (hc : ControllerInv s) : MemoryInv t := by
  cases h with
  | flashDone =>
    obtain ⟨hcanonical, hrange⟩ := legalFlash_flashComplete hwf hm hc
    obtain ⟨m, wb, hframe⟩ := flashComplete_frame s
    rw [hframe] at hcanonical hrange ⊢
    exact ⟨hcanonical, hrange, hm.eepromWf, hm.eepromRange, hm.latch⟩
  | eeDone =>
    unfold eeComplete
    split
    · exact hm
    · rename_i a b hbusy
      exact ⟨hm.flashWf, hm.flashRange, rising_putCell hm.eepromWf a b,
        lt_of_mem_putCell hm.eepromRange (hm.latch (a, b) hbusy), by simp⟩
  | reset src =>
    obtain ⟨hcanonical, hrange⟩ := legalFlash_flashCut hwf hm hc
    obtain ⟨hcut, hcutRange⟩ := legalEeprom_eepromCut hm
    exact ⟨hcanonical, hrange, hcut, hcutRange, by simp [deviceReset]⟩
  | latch a b ha hr =>
    exact ⟨hm.flashWf, hm.flashRange, hm.eepromWf, hm.eepromRange, by simpa [State.latch] using hr⟩
  | _ => exact memoryInv_congr hm rfl rfl rfl rfl

theorem move_keeps_controllerInv (h : Move D A (· < s.cfg.bootStart) E s t) (hc : ControllerInv s) :
    ControllerInv t := by
  cases h with
  | flashDone =>
    have hwbuf := flashComplete_wbuf s
    obtain ⟨m, wb, hframe⟩ := flashComplete_frame s
    rw [hframe] at hwbuf ⊢
    refine ⟨by simp [FlashOp.page], ?_, hc.bufSize, hc.blocked, hc.noExt⟩
    rcases hwbuf with rfl | rfl
    · exact hc.wbufSize
    · exact List.length_replicate
  | eeDone =>
    obtain ⟨m, hframe⟩ := eeComplete_frame s
    rw [hframe]
    exact controllerInv_congr hc rfl rfl rfl rfl rfl rfl
  | reset src =>
    refine ⟨by simp [deviceReset, FlashOp.page], by simp [deviceReset], by simp [deviceReset],
      by simp [deviceReset], fun h => ?_⟩
    have habsent : s.cfg.hasExt = false := h
    simpa [deviceReset, habsent] using hc.noExt habsent
  | setBuf i b => exact controllerInv_congr hc rfl rfl rfl (by simp [State.setBuf]) rfl rfl
  | patch => exact controllerInv_congr hc rfl rfl rfl (by simp [State.patched]) rfl rfl
  | fill i w => exact controllerInv_congr hc rfl rfl (by simp [State.fillPair]) rfl rfl rfl
  | setAddress e a hA he =>
    exact ⟨hc.page, hc.wbufSize, hc.bufSize, hc.blocked, fun h => (he h).trans (hc.noExt h)⟩
  | pageOp p op hop hbelow hidle hgrid hrange =>
    refine ⟨?_, hc.wbufSize, hc.bufSize, ?_, hc.noExt⟩
    · rcases hop with rfl | rfl <;> simp [State.startOp, FlashOp.page, hgrid, hbelow]
    · intro hblocked
      rcases Bool.or_eq_true_iff.1 hblocked with hbefore | hneeds
      · exact hc.blocked hbefore
      · exact hneeds
  | unblock => exact ⟨hc.page, hc.wbufSize, hc.bufSize, by simp [State.unblock], hc.noExt⟩
  | _ => exact controllerInv_congr hc rfl rfl rfl rfl rfl rfl

theorem move_keeps_linkInv {P : Nat → Prop} (h : Move D A P E s t) (hwf : s.cfg.wf = true)
    (hl : LinkInv s) : LinkInv t := by
  cases h with
  | flashDone =>
    obtain ⟨m, wb, hframe⟩ := flashComplete_frame s
    rw [hframe]
    exact linkInv_congr hl rfl rfl rfl rfl rfl
  | eeDone =>
    obtain ⟨m, hframe⟩ := eeComplete_frame s
    rw [hframe]
    exact linkInv_congr hl rfl rfl rfl rfl rfl
  | reset src =>
    have hmaxlen := maxlenDefault_of_wf hwf
    exact ⟨badMaxlen_eq_false_iff.2 hmaxlen, rfl, hmaxlen.1, by simp [deviceReset, Config.pktCap],
      fun _ => ⟨rfl, rfl⟩⟩
  | dequeue =>
    have hqueue := hl.queue
    refine ⟨hl.maxlen, hl.tag, hl.room, ?_, fun ha => ?_⟩
    · simp only [State.dequeued, List.length_tail]; omega
    · obtain ⟨hrxq, htxbuf⟩ := hl.silent ha
      exact ⟨by simp [State.dequeued, hrxq], htxbuf⟩
  | accept tag payload ha hlen =>
    exact ⟨hl.maxlen, hl.tag, hl.room, hlen, fun hna => by simp [State.accepted, ha] at hna⟩
  | pair a m ha hm =>
    obtain ⟨hrxq, htxbuf⟩ := hl.silent ha
    refine ⟨hm, hl.tag, ?_, hl.queue, fun hna => by simp [State.paired] at hna⟩
    simp only [State.paired, htxbuf, List.length_singleton]
    exact (badMaxlen_eq_false_iff.1 hm).1
  | queue b ha hfull =>
    have hroom := hl.room
    refine ⟨hl.maxlen, ?_, ?_, hl.queue, fun hna => by simp [State.queued, ha] at hna⟩
    · simp [State.queued, hl.tag]
    · simp only [State.queued, List.length_append, List.length_singleton]; omega
  | nextPacket =>
    exact ⟨hl.maxlen, rfl, (badMaxlen_eq_false_iff.1 hl.maxlen).1, hl.queue,
      fun ha => ⟨(hl.silent ha).1, rfl⟩⟩
  | _ => exact linkInv_congr hl rfl rfl rfl rfl rfl

theorem move_keeps_watchdogInv {P : Nat → Prop} (h : Move D A P E s t) (hw : WatchdogInv s) :
    WatchdogInv t := by
  cases h with
  | flashDone =>
    obtain ⟨m, wb, hframe⟩ := flashComplete_frame s
    rw [hframe]
    exact watchdogInv_congr hw rfl rfl rfl
  | eeDone =>
    obtain ⟨m, hframe⟩ := eeComplete_frame s
    rw [hframe]
    exact watchdogInv_congr hw rfl rfl rfl
  | reset src => exact fun hboot => absurd rfl hboot
  | armShort => exact fun _ _ => .inr rfl
  | phase p hloop hp => exact fun _ _ => hw hloop.1 hloop.2
  | bootConfig w hboot => exact fun hnot => absurd hboot hnot
  | enterLoop hboot hmedium => exact fun _ _ => .inl hmedium
  | handOver => exact fun _ hnot => absurd rfl hnot
  | _ => exact watchdogInv_congr hw rfl rfl rfl

theorem move_keeps_inv (h : Move D A (· < s.cfg.bootStart) E s t) (hwf : s.cfg.wf = true) (hi : Inv s) :
    Inv t :=
  ⟨move_keeps_memoryInv h hwf hi.memory hi.controller, move_keeps_controllerInv h hi.controller,
    move_keeps_linkInv h hwf hi.link, move_keeps_watchdogInv h hi.watchdog⟩

theorem moves_keep_inv (h : Moves D A (· < s.cfg.bootStart) E s t) (hwf : s.cfg.wf = true) (hi : Inv s) :
    Inv t := by
  induction h with
  | refl => exact hi
  | tail hmoves hmove ih =>
    have hcfg := Moves.cfg hmoves
    rw [← hcfg] at hmove hwf
    exact move_keeps_inv hmove hwf ih

/-- EV and the record of sent packets grow at their end only. -/
theorem move_appends {P : Nat → Prop} (h : Move D A P E s t) :
    s.ev <+: t.ev ∧ s.radioOut <+: t.radioOut := by
  cases h with
  | flashDone =>
    obtain ⟨m, wb, hframe⟩ := flashComplete_frame s
    rw [hframe]
    exact ⟨List.prefix_rfl, List.prefix_rfl⟩
  | eeDone =>
    obtain ⟨m, hframe⟩ := eeComplete_frame s
    rw [hframe]
    exact ⟨List.prefix_rfl, List.prefix_rfl⟩
  | emit | reset | service | armShort | bootConfig => exact ⟨List.prefix_append _ _, List.prefix_rfl⟩
  | handOut => exact ⟨List.prefix_rfl, List.prefix_append _ _⟩
  | _ => exact ⟨List.prefix_rfl, List.prefix_rfl⟩

theorem moves_append {P : Nat → Prop} (h : Moves D A P E s t) :
    s.ev <+: t.ev ∧ s.radioOut <+: t.radioOut := by
  induction h with
  | refl => exact ⟨List.prefix_rfl, List.prefix_rfl⟩
  | tail _ hmove ih =>
    obtain ⟨hev, hout⟩ := move_appends hmove
    exact ⟨ih.1.trans hev, ih.2.trans hout⟩

end Moves

/-! ### What a device reset leaves -/

/-- A read after a run of cells became Undef; the cells need not be in canonical form. -/
theorem flashCell_setFlashCells_undef (m : List (Nat × FlashCell)) (p n a : Nat) :
    flashCell (setFlashCells m p (List.replicate n .undef)) a =
      if p ≤ a ∧ a < p + n then .undef else flashCell m a := by
  induction n generalizing m p with
  | zero => exact (if_neg (by omega)).symm
  | succ n ih =>
    have hfirst : flashCell (setFlashCell m p .undef) a = if a = p then .undef else flashCell m a := by
      simp only [flashCell, setFlashCell, cellAt_putCell]
      split <;> rfl
    rw [List.replicate_succ, setFlashCells, ih, hfirst]
    by_cases hrest : p + 1 ≤ a ∧ a < p + 1 + n
    · rw [if_pos hrest, if_pos (by omega)]
    · by_cases ha : a = p
      · rw [if_neg hrest, if_pos ha, if_pos (by omega)]
      · rw [if_neg hrest, if_neg ha, if_neg (by omega)]

/-- 20_memory.md R55: the page under erase or commit becomes Undef, and no other cell changes. -/
theorem flashCell_flashCut (s : State) (a : Nat) :
    flashCell s.flashCut a =
      if ∃ p ∈ s.flashOp.page, p ≤ a ∧ a < p + s.cfg.pageSize then .undef else flashCell s.flash a := by
  unfold State.flashCut
  cases hop : s.flashOp with
  | idle => simp [FlashOp.page]
  | erasing p | writing p => simp [FlashOp.page, State.pageFilled, flashCell_setFlashCells_undef]

theorem eepromByte_eepromCut {s : State} {a : Nat} (h : ∀ q ∈ s.eeBusy, q.1 ≠ a) :
    eepromByte s.eepromCut a = eepromByte s.eeprom a := by
  unfold State.eepromCut
  split
  · rfl
  · rename_i q b hbusy
    rw [eepromByte_putCell, if_neg (h (q, b) hbusy).symm]

/-- Settles O49: the rows are the fields of `deviceReset`; the two memories are cut where a write was in
progress. -/
theorem resetTable : Obligations.ResetTable := by
  intro s src
  refine ⟨rfl, rfl, rfl, rfl, rfl, rfl, rfl, rfl, rfl, rfl, rfl, rfl, rfl, rfl, rfl, rfl, ?outside, ?page,
    fun a hother => eepromByte_eepromCut hother⟩
  case outside =>
    intro a hout
    refine (flashCell_flashCut s a).trans (if_neg ?_)
    rintro ⟨p, hp, hin⟩
    have := hout p hp
    omega
  case page =>
    intro _ p hp a hfrom hto
    exact (flashCell_flashCut s a).trans (if_pos ⟨p, hp, hfrom, hto⟩)

/-- Settles O55. -/
theorem resetHasInv : Obligations.ResetHasInv := by
  intro c hwf
  have hmaxlen := maxlenDefault_of_wf hwf
  refine ⟨⟨?memory, ?controller, ?link, ?watchdog⟩, fun _ => ⟨rfl, rfl, rfl⟩⟩
  case memory => constructor <;> simp [State.resetWith, FlashWf, Rising]
  case controller => constructor <;> simp [State.resetWith, FlashOp.page]
  case link =>
    exact ⟨badMaxlen_eq_false_iff.2 hmaxlen, rfl, hmaxlen.1, by simp [State.resetWith, Config.pktCap],
      fun _ => ⟨rfl, rfl⟩⟩
  case watchdog => exact fun hboot => absurd rfl hboot

/-! ### Steps -/

/-- A step runs in an admissible configuration only, and its page operations stay below BOOT_START. -/
theorem moves_of_step {s t : State} (h : step s = .next t) :
    s.cfg.wf = true ∧ Moves True True (· < s.cfg.bootStart) (fun _ => True) s t := by
  refine ⟨?_, step_moves trivial (fun _ hbelow => hbelow) (fun _ => trivial) h⟩
  by_contra hnot
  rw [step_of_not_wf hnot] at h
  cases h

/-- Settles O54: every move keeps each part of the invariant. -/
theorem stepKeepsInv : Obligations.StepKeepsInv := by
  intro s t hinv hstep
  obtain ⟨hwf, hmoves⟩ := moves_of_step hstep
  exact moves_keep_inv hmoves hwf hinv

/-- Settles O57: no move rewrites the trace, the record of sent packets or the configuration. -/
theorem traceOnlyGrows : Obligations.TraceOnlyGrows := by
  intro s t hstep
  obtain ⟨-, hmoves⟩ := moves_of_step hstep
  obtain ⟨hev, hout⟩ := moves_append hmoves
  exact ⟨hev, hout, Moves.cfg hmoves⟩

end Sys2Proof.Proofs
end

section
/-! SUPPORT. The flash controller through a step (10_state.md R37 (d)): a rule that starts no page operation
leaves it as it is but for completions, and ProgramPage 'F' takes it from rest, through the erase, the fill
and the commit, back to rest (41_flash_programmer.md R131). -/

namespace Sys2Proof.Proofs

open Sys2Proof Sys2Proof.Machine

/-! ### A step of the command loop -/

/-- The rule by which the loop takes a packet between two requests. -/
def packetRule (p : List Byte) (ps : List (List Byte)) (svc : Bool) : Eng Unit := do
  takePause 0 svc
  update (fun s => s.setAir ps)
  processPacket p

/-- A packet read as an instruction is processed by the transport. -/
theorem exec_of_decodePacket {assoc : Bool} {p : List Byte} {i : Instr} (h : decodePacket assoc p = .ok i)
    (s : State) : exec i s = runRule (processPacket p) s := by
  unfold decodePacket at h
  split at h
  · cases h
  · split at h
    · split at h <;> cases h
      rfl
    · split at h <;> cases h
      rfl

theorem receivePacket_eq_runRule (p : List Byte) (ps : List (List Byte)) (s : State) :
    receivePacket p ps s = runRule (packetRule p ps (s.delivers p)) s := by
  unfold receivePacket packetRule
  cases hpause : takePause 0 (s.delivers p) s with
  | error stop => simp only [runRule, bind_run, hpause]
  | ok q =>
    have hrest : runRule (processPacket p) (q.2.setAir ps) = runRule (do
        takePause 0 (s.delivers p)
        update (fun s => s.setAir ps)
        processPacket p) s := by
      simp only [runRule, bind_run, hpause, update_run]
    dsimp only
    split
    · rename_i i hdecode
      rw [exec_of_decodePacket hdecode, hrest]
    · exact hrest

/-- A step in phase AwaitCommand: a pause of an idle loop, a packet, or a request, which over the radio has
its first byte in RXQ. -/
theorem loopStep_cases (s : State) : loopStep s = idle s ∨
    (∃ p ps, loopStep s = runRule (packetRule p ps (s.delivers p)) s) ∨
    ∃ i, (s.cfg.radioEnabled = true → s.rxq ≠ []) ∧ loopStep s = exec i s := by
  unfold loopStep
  split
  · split
    · exact .inl rfl
    · exact .inr (.inl ⟨_, _, receivePacket_eq_runRule _ _ s⟩)
  · rename_i hrequest
    split
    · exact .inr (.inr ⟨_, fun hradio hrxq => hrequest ⟨hradio, hrxq⟩, rfl⟩)
    · exact .inl rfl

theorem loop_packetRule {A : Prop} {P E : Nat → Prop} (p : List Byte) (ps : List (List Byte)) (svc : Bool) :
    LoopRule A P E (packetRule p ps svc) :=
  loop_bind (loop_takePause _ _) (fun _ =>
    loop_bind (loop_update (fun s _ => .setAir s ps) (fun _ h => h)) (fun _ => loop_processPacket p))

/-! ### Moves without a page operation -/

/-- No page operation is started and no cell of the write buffer filled. -/
def NoPage : Nat → Prop := fun _ => False

/-- The controller is as it was, but for the RWW bank, which may have been enabled again. -/
structure SameController (s t : State) : Prop where
  cfg : t.cfg = s.cfg
  op : t.flashOp = s.flashOp
  wbuf : t.wbuf = s.wbuf
  blocked : t.rwwBlocked = true → s.rwwBlocked = true

/-- Without a page operation only a completion and a device reset reach the controller. -/
theorem move_noPage_cases {D A : Prop} {E : Nat → Prop} {s t : State} (h : Move D A NoPage E s t) :
    t = flashComplete s ∨ (D ∧ ∃ src, t = deviceReset src s) ∨ SameController s t := by
  cases h with
  | flashDone => exact .inl rfl
  | reset src hD => exact .inr (.inl ⟨hD, src, rfl⟩)
  | eeDone =>
    obtain ⟨m, hframe⟩ := eeComplete_frame s
    rw [hframe]
    exact .inr (.inr ⟨rfl, rfl, rfl, id⟩)
  | pageOp p op hop hpage => exact hpage.elim
  | fill i w hpage => exact hpage.elim fun _ hfalse => hfalse.elim
  | unblock => exact .inr (.inr ⟨rfl, rfl, rfl, fun h => by simp [State.unblock] at h⟩)
  | _ => exact .inr (.inr ⟨rfl, rfl, rfl, id⟩)

/-- What a completion leaves of the controller. -/
theorem flashComplete_rwwBlocked (s : State) : (flashComplete s).rwwBlocked = s.rwwBlocked := by
  obtain ⟨m, wb, hframe⟩ := flashComplete_frame s
  rw [hframe]

theorem flashComplete_cfg (s : State) : (flashComplete s).cfg = s.cfg := by
  obtain ⟨m, wb, hframe⟩ := flashComplete_frame s
  rw [hframe]

/-! ### The stages of the controller -/

/-- The write buffer is unfilled. -/
def Unfilled (s : State) : Prop := s.wbuf = List.replicate s.cfg.pageSize none

/-- The RWW bank is blocked only where the target has to enable it again (20_memory.md R50, R52). -/
def BlockedByNeed (s : State) : Prop := s.rwwBlocked = true → s.cfg.needsRwwEnable = true

/-- Before the fill. -/
def Erasing (s : State) : Prop := Unfilled s ∧ BlockedByNeed s

/-- From the commit on: the write buffer is unfilled again once the commit has completed. -/
def Committing (s : State) : Prop := ((∃ p, s.flashOp = .writing p) ∨ Unfilled s) ∧ BlockedByNeed s

/-- The commit has completed. -/
def Drained (s : State) : Prop := s.flashOp = .idle ∧ Unfilled s ∧ BlockedByNeed s

/-- The controller at rest, as `AtRest` says of it. -/
def Rested (s : State) : Prop := s.flashOp = .idle ∧ Unfilled s ∧ s.rwwBlocked = false

/-- What a completion and what leaves the controller alone do not end. -/
structure Stable (K : State → Prop) : Prop where
  completes : ∀ s, K s → K (flashComplete s)
  same : ∀ s t, SameController s t → K s → K t

theorem unfilled_flashComplete {s : State} (h : Unfilled s) : Unfilled (flashComplete s) := by
  rw [Unfilled, flashComplete_cfg]
  rcases flashComplete_wbuf s with hkept | hnew
  · exact hkept.trans h
  · exact hnew

theorem unfilled_flashComplete_of_writing {s : State} {p : Nat} (h : s.flashOp = .writing p) :
    Unfilled (flashComplete s) := by
  simp [Unfilled, flashComplete, h]

theorem unfilled_same {s t : State} (hsame : SameController s t) (h : Unfilled s) : Unfilled t := by
  rw [Unfilled, hsame.wbuf, hsame.cfg]
  exact h

theorem stable_blockedByNeed : Stable BlockedByNeed where
  completes s h := by rw [BlockedByNeed, flashComplete_rwwBlocked, flashComplete_cfg]; exact h
  same s t hsame h := by rw [BlockedByNeed, hsame.cfg]; exact fun hb => h (hsame.blocked hb)

theorem stable_erasing : Stable Erasing where
  completes s h := ⟨unfilled_flashComplete h.1, stable_blockedByNeed.completes s h.2⟩
  same s t hsame h := ⟨unfilled_same hsame h.1, stable_blockedByNeed.same s t hsame h.2⟩

/-- Once the commit has completed the write buffer is unfilled and the controller idle. -/
theorem drained_flashComplete {s : State} (h : Committing s) : Drained (flashComplete s) := by
  obtain ⟨⟨p, hwriting⟩ | hunfilled, hblocked⟩ := h
  · exact ⟨flashComplete_flashOp s, unfilled_flashComplete_of_writing hwriting,
      stable_blockedByNeed.completes s hblocked⟩
  · exact ⟨flashComplete_flashOp s, unfilled_flashComplete hunfilled,
      stable_blockedByNeed.completes s hblocked⟩

theorem stable_committing : Stable Committing where
  completes _ h := by
    obtain ⟨-, hunfilled, hblocked⟩ := drained_flashComplete h
    exact ⟨.inr hunfilled, hblocked⟩
  same s t hsame h := by
    refine ⟨h.1.imp ?_ (unfilled_same hsame), stable_blockedByNeed.same s t hsame h.2⟩
    rintro ⟨p, hwriting⟩
    exact ⟨p, hsame.op.trans hwriting⟩

theorem stable_drained : Stable Drained where
  completes _ h := drained_flashComplete ⟨.inr h.2.1, h.2.2⟩
  same s t hsame h :=
    ⟨hsame.op.trans h.1, unfilled_same hsame h.2.1, stable_blockedByNeed.same s t hsame h.2.2⟩

theorem stable_rested : Stable Rested where
  completes _ h := by rw [flashComplete_idle h.1]; exact h
  same s t hsame h :=
    ⟨hsame.op.trans h.1, unfilled_same hsame h.2.1,
      Bool.eq_false_iff.2 fun hb => by simpa [h.2.2] using hsame.blocked hb⟩

theorem erasing_of_rested {s : State} (h : Rested s) : Erasing s :=
  ⟨h.2.1, fun hb => by simp [h.2.2] at hb⟩

theorem rested_deviceReset (src : ResetSource) (s : State) : Rested (deviceReset src s) :=
  ⟨rfl, rfl, rfl⟩

/-! ### Rules and the stages they lead from and to -/

/-- Where a device reset has ended a rule, the controller is at rest. -/
def RestsInBoot (s : State) : Prop := s.ph = .boot → Rested s

theorem moves_keep_stable {A : Prop} {E : Nat → Prop} {K : State → Prop} (hK : Stable K) {s t : State}
    (h : Moves False A NoPage E s t) (hs : K s) : K t := by
  induction h with
  | refl => exact hs
  | tail _ hmove ih =>
    rcases move_noPage_cases hmove with rfl | ⟨hfalse, -⟩ | hsame
    · exact hK.completes _ ih
    · exact hfalse.elim
    · exact hK.same _ _ hsame ih

theorem moves_keep_rested {D A : Prop} {E : Nat → Prop} {s t : State} (h : Moves D A NoPage E s t)
    (hs : Rested s) : Rested t := by
  induction h with
  | refl => exact hs
  | tail _ hmove ih =>
    rcases move_noPage_cases hmove with rfl | ⟨-, src, rfl⟩ | hsame
    · exact stable_rested.completes _ ih
    · exact rested_deviceReset src _
    · exact stable_rested.same _ _ hsame ih

/-- Only a device reset leads to phase Boot. -/
theorem move_to_boot {D A : Prop} {P E : Nat → Prop} {s t : State} (h : Move D A P E s t)
    (ht : t.ph = .boot) : s.ph = .boot ∨ ∃ src, t = deviceReset src s := by
  cases h with
  | reset src => exact .inr ⟨src, rfl⟩
  | flashDone => exact .inl ((flashComplete_ph s).symm.trans ht)
  | eeDone => exact .inl ((eeComplete_ph s).symm.trans ht)
  | phase p hloop hp => exact absurd ht hp.1
  | enterLoop | handOver => cases ht
  | _ => exact .inl ht

theorem moves_keep_restsInBoot {D A : Prop} {E : Nat → Prop} {s t : State} (h : Moves D A NoPage E s t)
    (hs : RestsInBoot s) : RestsInBoot t := by
  induction h with
  | refl => exact hs
  | tail _ hmove ih =>
    intro hboot
    rcases move_to_boot hmove hboot with hbefore | ⟨src, rfl⟩
    · exact moves_keep_rested (.single hmove) (ih hbefore)
    · exact rested_deviceReset src _

theorem restsInBoot_of_inLoop {s : State} (h : s.InLoop) : RestsInBoot s := fun hboot => absurd hboot h.1

section Stages

variable {α β : Type} {c : Config} {I J K L : State → Prop}

/-- In the command loop, in configuration `c`, with the controller in a stage. -/
def InStage (c : Config) (K : State → Prop) (s : State) : Prop := s.InLoop ∧ s.cfg = c ∧ K s

/-- From stage `J` the rule leads to stage `K`; a device reset that ends it leaves the controller at rest. -/
def Leads (c : Config) (J K : State → Prop) (m : Eng α) : Prop :=
  ∀ s, InStage c J s → Lands (InStage c K) (fun _ _ => True) (fun _ t => RestsInBoot t) s (m s)

theorem stages_compose : Composes (fun _ _ => True) (fun _ t => RestsInBoot t) :=
  ⟨fun _ => trivial, fun _ _ _ _ _ => trivial, fun _ _ _ _ h => h⟩

theorem Leads.bind {m : Eng α} {f : α → Eng β} (hm : Leads c J K m) (hf : ∀ a, Leads c K L (f a)) :
    Leads c J L (m >>= f) := fun _ hs => lands_bind stages_compose hs hm hf

/-- A rule that starts no page operation stays in its stage. -/
theorem Stable.leads (hK : Stable K) {m : Eng α} (h : LoopRule True NoPage NoPage m) : Leads c K K m := by
  intro s hs
  obtain ⟨hloop, hcfg, hstage⟩ := hs
  have hlands := h s hloop
  revert hlands
  rcases m s with stop | ⟨a, t⟩
  · cases stop with
    | ended t => exact fun hlands => ⟨moves_keep_restsInBoot hlands.1 (restsInBoot_of_inLoop hloop), hlands.2⟩
    | fault _ => exact fun _ => trivial
    | refused _ => exact fun _ => trivial
  · exact fun hlands => ⟨trivial, hlands.2, (Moves.cfg hlands.1).trans hcfg,
      moves_keep_stable hK hlands.1 hstage⟩

theorem leads_of_imp (h : ∀ s, I s → J s) {m : Eng α} (hm : Leads c J K m) : Leads c I K m :=
  fun s hs => hm s ⟨hs.1, hs.2.1, h s hs.2.2⟩

theorem leads_update {f : State → State} (hph : ∀ s, (f s).ph = s.ph) (hcfg : ∀ s, (f s).cfg = s.cfg)
    (h : ∀ s, J s → K (f s)) : Leads c J K (update f) := by
  intro s hs
  obtain ⟨hloop, hc, hstage⟩ := hs
  exact ⟨trivial, by rwa [State.InLoop, hph], (hcfg s).trans hc, h s hstage⟩

theorem leads_onlyIf {b : Bool} {m : Eng Unit} (hm : Leads c J J m) : Leads c J J (onlyIf b m) := by
  cases b with
  | true => exact hm
  | false => exact fun s hs => ⟨trivial, hs⟩

theorem loop_checkPage {A : Prop} {P E : Nat → Prop} (p : Nat) : LoopRule A P E (checkPage p) :=
  loop_bind (loop_look _) (fun _ => loop_bind (loop_refuseIf _ _) (fun _ =>
    loop_bind (loop_refuseIf _ _) (fun _ => loop_refuseIf _ _)))

theorem blockedByNeed_startOp {s : State} (h : BlockedByNeed s) (op : FlashOp) :
    BlockedByNeed (s.startOp op) := by
  intro hblocked
  rcases Bool.or_eq_true_iff.1 hblocked with hbefore | hneeds
  · exact h hbefore
  · exact hneeds

theorem leads_startPageOp (hJ : Stable J) (hK : Stable K) (p : Nat) {op : FlashOp}
    (h : ∀ s, J s → K (s.startOp op)) : Leads c J K (startPageOp p op) :=
  (hJ.leads (loop_takePause _ _)).bind fun _ =>
  (leads_update (f := fun s => s.startOp op) (fun _ => rfl) (fun _ => rfl) h).bind fun _ =>
  hK.leads (loop_bind (loop_look _) (fun _ => loop_onlyIf _ loop_stall))

/-- An erase leaves the write buffer unfilled. -/
theorem leads_erasePage (p : Nat) : Leads c Erasing Erasing (erasePage p) :=
  (stable_erasing.leads (loop_checkPage p)).bind fun _ =>
  (stable_erasing.leads (loop_look _)).bind fun _ =>
  (stable_erasing.leads (loop_refuseIf _ _)).bind fun _ =>
  (stable_erasing.leads (loop_record _)).bind fun _ =>
  leads_startPageOp stable_erasing stable_erasing p (fun _ h => ⟨h.1, blockedByNeed_startOp h.2 _⟩)

theorem leads_fillWord (a : Nat) (w : Word) : Leads c BlockedByNeed BlockedByNeed (fillWord a w) :=
  (stable_blockedByNeed.leads (loop_look _)).bind fun _ =>
  (stable_blockedByNeed.leads (loop_refuseIf _ _)).bind fun _ =>
  (stable_blockedByNeed.leads (loop_refuseIf _ _)).bind fun _ =>
  (stable_blockedByNeed.leads (loop_refuseIf _ _)).bind fun _ =>
  (stable_blockedByNeed.leads (loop_refuseIf _ _)).bind fun _ =>
  (stable_blockedByNeed.leads (loop_record _)).bind fun _ =>
  leads_update (fun _ => rfl) (fun _ => rfl) (fun _ h => h)

theorem leads_fillLoop (a n k : Nat) : Leads c BlockedByNeed BlockedByNeed (fillLoop a n k) := by
  induction n generalizing k with
  | zero => exact fun s hs => ⟨trivial, hs⟩
  | succ n ih =>
    exact (stable_blockedByNeed.leads (loop_look _)).bind fun _ =>
      (leads_fillWord _ _).bind fun _ => ih _

/-- A commit empties the write buffer when it completes, whatever was filled. -/
theorem leads_commitPage (p : Nat) : Leads c BlockedByNeed Committing (commitPage p) :=
  (stable_blockedByNeed.leads (loop_checkPage p)).bind fun _ =>
  (stable_blockedByNeed.leads (loop_record _)).bind fun _ =>
  leads_startPageOp stable_blockedByNeed stable_committing p
    (fun _ h => ⟨.inl ⟨p, rfl⟩, blockedByNeed_startOp h _⟩)

theorem leads_waitReady : Leads c Committing Drained waitReady :=
  (stable_committing.leads (loop_record _)).bind fun _ =>
  (stable_committing.leads (loop_takePause _ _)).bind fun _ =>
  leads_update flashComplete_ph flashComplete_cfg (fun _ => drained_flashComplete)

/-- The RWW bank is readable again: it is enabled, or was never blocked. -/
theorem leads_rwwEnable : Leads c Drained Rested (onlyIf c.needsRwwEnable rwwEnable) := by
  cases hneeds : c.needsRwwEnable with
  | true =>
    exact (stable_drained.leads (loop_record _)).bind fun _ =>
      leads_update (fun _ => rfl) (fun _ => rfl) (fun _ h => ⟨h.1, h.2.1, rfl⟩)
  | false =>
    rintro s ⟨hloop, rfl, hidle, hunfilled, hblocked⟩
    exact ⟨trivial, hloop, rfl, hidle, hunfilled,
      Bool.eq_false_iff.2 fun hb => by simpa [hneeds] using hblocked hb⟩

theorem leads_commitSequence (a : Nat) : Leads c Erasing Rested (commitSequence c a) :=
  leads_of_imp (fun _ h => h.2) <|
  (stable_blockedByNeed.leads (loop_keepAlive _)).bind fun _ =>
  (stable_blockedByNeed.leads loop_waitReady).bind fun _ =>
  (stable_blockedByNeed.leads
    (loop_onlyIf _ (loop_update (fun s _ => .patch s) (fun _ h => h)))).bind fun _ =>
  (stable_blockedByNeed.leads (loop_keepAlive _)).bind fun _ =>
  (leads_fillLoop _ _ _).bind fun _ =>
  (leads_commitPage a).bind fun _ =>
  (stable_committing.leads (loop_keepAlive _)).bind fun _ =>
  leads_waitReady.bind fun _ =>
  leads_rwwEnable

/-- An RWW page is erased before the payload, an NRWW page after it: in either order the write buffer is
unfilled until the fill. -/
theorem leads_programFlash (payload : List Byte) (t : Byte) :
    Leads c Rested Rested (programFlash c payload t) :=
  leads_of_imp (fun _ => erasing_of_rested) <|
  (stable_erasing.leads (loop_look _)).bind fun a =>
  (stable_erasing.leads (loop_refuseIf _ _)).bind fun _ =>
  (stable_erasing.leads (loop_refuseIf _ _)).bind fun _ =>
  (leads_onlyIf (leads_erasePage a)).bind fun _ =>
  (stable_erasing.leads (loop_receivePayload _ _)).bind fun _ =>
  (leads_onlyIf (leads_erasePage a)).bind fun _ =>
  (stable_erasing.leads (loop_verifyTerminator t)).bind fun _ =>
  (leads_commitSequence a).bind fun _ =>
  stable_rested.leads (loop_advanceBy trivial _)

theorem leads_programPageFRule (lenHigh : Byte) (payload : List Byte) (t : Byte) :
    Leads c Rested Rested (programPageFRule c lenHigh payload t) :=
  (stable_rested.leads (loop_programHeader _ _ _)).bind fun _ =>
  (leads_programFlash payload t).bind fun _ =>
  stable_rested.leads loop_respond

end Stages

/-! ### Steps -/

theorem atRest_of_rested {s : State} (h : Rested s) : AtRest s := fun _ => h

theorem atRest_of_stopped {s : State} (h : RestsInBoot s) (hstopped : s.Stopped) : AtRest s := by
  rcases hstopped with hboot | habandoned
  · exact atRest_of_rested (h hboot)
  · intro hph
    simp [habandoned] at hph

/-- Every instruction that completes leaves the controller as it found it, at rest. -/
theorem exec_keeps_rest {i : Instr} {s t : State} (hloop : s.InLoop) (hrest : Rested s)
    (h : exec i s = .next t) : AtRest t := by
  by_cases hprogram : ∃ lenHigh payload x, i = .programPageF lenHigh payload x
  · obtain ⟨lenHigh, payload, x, rfl⟩ := hprogram
    have hlands := leads_programPageFRule lenHigh payload x s ⟨hloop, rfl, hrest⟩
    rcases hlands.next h with ⟨-, -, -, hrested⟩ | ⟨hboot, hstopped⟩
    · exact atRest_of_rested hrested
    · exact atRest_of_stopped hboot hstopped
  · have hmoves : NextBy True NoPage (fun _ => True) s t :=
      exec_moves hloop trivial (fun _ _ _ heq => absurd ⟨_, _, _, heq⟩ hprogram)
        (fun _ _ _ _ _ _ => trivial) h
    exact atRest_of_rested (moves_keep_rested hmoves.moves hrest)

/-- An idle step starts nothing: it can only complete, or reset, what an abandoned session left. -/
theorem idle_keeps_rest {s t : State} (hs : s.ph = .abandoned ∨ Rested s) (h : idle s = .next t) :
    AtRest t := by
  have hmoves := idle_moves (A := True) (P := NoPage) (E := NoPage) h
  rcases hs with habandoned | hrest
  · have hstart : RestsInBoot s := fun hboot => by simp [habandoned] at hboot
    rcases hmoves with ⟨hmoves, hph⟩ | ⟨hmoves, hph⟩
    · exact atRest_of_stopped (moves_keep_restsInBoot hmoves hstart) (.inr (hph.trans habandoned))
    · exact atRest_of_stopped (moves_keep_restsInBoot hmoves hstart) (.inl hph)
  · rcases hmoves with ⟨hmoves, -⟩ | ⟨hmoves, -⟩
    · exact atRest_of_rested (moves_keep_rested hmoves hrest)
    · exact atRest_of_rested (moves_keep_rested hmoves hrest)

theorem loopStep_keeps_rest {s t : State} (hph : s.ph = .awaitCommand) (hrest : Rested s)
    (h : loopStep s = .next t) : AtRest t := by
  have hloop : s.InLoop := by simp [State.InLoop, hph]
  rcases loopStep_cases s with heq | ⟨p, ps, heq⟩ | ⟨i, -, heq⟩
  · exact idle_keeps_rest (.inr hrest) (heq ▸ h)
  · have hmoves := (loop_packetRule (A := True) (P := NoPage) (E := NoPage) p ps (s.delivers p)).next hloop
      (heq ▸ h)
    exact atRest_of_rested (moves_keep_rested (NextBy.moves hmoves) hrest)
  · exact exec_keeps_rest hloop hrest (heq ▸ h)

/-- Settles O56: a session is the only thing that works the flash controller, one that completes has
committed and enabled the bank again, and a device reset cuts off what it interrupts. -/
theorem stepKeepsAtRest : Obligations.StepKeepsAtRest := by
  intro s t hrest hstep
  have hphase : phaseStep s = .next t := by
    obtain ⟨hwf, -⟩ := moves_of_step hstep
    rwa [step, if_pos hwf] at hstep
  unfold phaseStep at hphase
  cases hph : s.ph with
  | boot =>
    rw [hph] at hphase
    rcases (boot_moves (A := True) (P := NoPage) (E := NoPage) s hph).next hphase with h | h
    · exact atRest_of_rested (moves_keep_rested h.1 (hrest (.inr (.inl hph))))
    · exact atRest_of_rested (moves_keep_rested h.1 (hrest (.inr (.inl hph))))
  | awaitCommand =>
    rw [hph] at hphase
    exact loopStep_keeps_rest hph (hrest (.inl hph)) hphase
  | abandoned =>
    rw [hph] at hphase
    exact idle_keeps_rest (.inl hph) hphase
  | handedOff =>
    rw [hph] at hphase
    exact idle_keeps_rest (.inr (hrest (.inr (.inr hph)))) hphase
  | execute k | respond =>
    rw [hph] at hphase
    cases hphase

end Sys2Proof.Proofs
end

section
/-! SUPPORT. Why a reply never meets an unassociated link (10_state.md R37 (c)): over the radio a request
begins with a byte of RXQ, RXQ is empty while the link is unassociated, and nothing but a device reset, which
ends the request, undoes an association. -/

namespace Sys2Proof.Proofs

open Sys2Proof Sys2Proof.Machine

/-! ### Conditions on the link -/

/-- No association is lost. -/
def LinkKept (s t : State) : Prop := t.cfg = s.cfg ∧ (s.assoc = true → t.assoc = true)

/-- A condition on the link that lasts as long as associations do. -/
structure LinkCondition where
  holds : State → Prop
  kept : ∀ s t, LinkKept s t → holds s → holds t

namespace LinkCondition

/-- Nothing is asked of the link. -/
def anyLink : LinkCondition := ⟨fun _ => True, fun _ _ _ _ => trivial⟩

/-- The link is associated. -/
def associated : LinkCondition := ⟨fun s => s.assoc = true, fun _ _ hkept h => hkept.2 h⟩

/-- Where there is a radio, the link is associated. -/
def linked : LinkCondition where
  holds s := s.cfg.radioEnabled = true → s.assoc = true
  kept _ _ hkept h := fun hradio => hkept.2 (h (hkept.1 ▸ hradio))

end LinkCondition

open LinkCondition

/-- The outcome is no refusal to send; at a rule's end the condition holds. -/
def Sendable {α : Type} (L : LinkCondition) : Except Stop (α × State) → Prop
  | .ok (_, t) => L.holds t
  | .error (.refused r) => r ≠ .unassociated
  | .error _ => True

/-- Under the condition the rule never refuses to send, and it keeps the condition. -/
def Sends {α : Type} (L : LinkCondition) (m : Eng α) : Prop := ∀ s, L.holds s → Sendable L (m s)

section Sends

variable {α β : Type} {L : LinkCondition}

theorem Sends.ne_unassociated {m : Eng Unit} (h : Sends L m) {s : State} (hs : L.holds s) :
    runRule m s ≠ .refused .unassociated := by
  have hm := h s hs
  unfold runRule
  rcases hrun : m s with stop | ⟨u, t⟩
  · rw [hrun] at hm
    cases stop with
    | ended t => simp
    | fault f => simp
    | refused r => exact fun heq => hm (by simpa using heq)
  · simp

theorem sends_bind {m : Eng α} {f : α → Eng β} (hm : Sends L m) (hf : ∀ a, Sends L (f a)) :
    Sends L (m >>= f) := by
  intro s hs
  have hms := hm s hs
  rw [bind_run]
  rcases hrun : m s with stop | ⟨a, t⟩
  · rw [hrun] at hms
    cases stop <;> exact hms
  · rw [hrun] at hms
    exact hf a t hms

theorem Sendable.imp {L' : LinkCondition} (h : ∀ t, L.holds t → L'.holds t)
    {x : Except Stop (α × State)} (hx : Sendable L x) : Sendable L' x := by
  rcases x with stop | ⟨a, t⟩
  · cases stop <;> exact hx
  · exact h t hx

theorem sends_pure (a : α) : Sends L (pure a : Eng α) := fun _ hs => hs

theorem sends_look (f : State → α) : Sends L (look f) := fun _ hs => hs

theorem sends_update {f : State → State} (h : ∀ s, LinkKept s (f s)) : Sends L (update f) :=
  fun s hs => L.kept s (f s) (h s) hs

theorem sends_ite (p : Prop) [Decidable p] {m n : Eng α} (hm : Sends L m) (hn : Sends L n) :
    Sends L (if p then m else n) := by
  split
  · exact hm
  · exact hn

theorem sends_onlyIf (b : Bool) {m : Eng Unit} (hm : Sends L m) : Sends L (onlyIf b m) :=
  sends_ite _ hm (sends_pure ())

theorem linkKept_same {s t : State} (hcfg : t.cfg = s.cfg) (hassoc : t.assoc = s.assoc) : LinkKept s t :=
  ⟨hcfg, hassoc.trans⟩

/-- An update that leaves the link alone, as every one but `State.paired` and the completions does by its
definition. -/
theorem sends_write {f : State → State} (hcfg : ∀ s, (f s).cfg = s.cfg := by exact fun _ => rfl)
    (hassoc : ∀ s, (f s).assoc = s.assoc := by exact fun _ => rfl) : Sends L (update f) :=
  sends_update (fun s => linkKept_same (hcfg s) (hassoc s))

/-- A pause that does not end the rule leaves the association as it is. -/
theorem sends_takePause (extra : Nat) (svc : Bool) : Sends L (takePause extra svc) := by
  intro s hs
  have hpause := takePause_moves (A := True) (P := NoPage) (E := NoPage) extra svc s
  unfold takePause at hpause ⊢
  dsimp only at hpause ⊢
  split at hpause
  · rename_i hquiet
    rw [if_pos hquiet]
    obtain ⟨hmoves, -, hassoc⟩ := hpause
    exact L.kept s _ (linkKept_same (Moves.cfg hmoves) hassoc) hs
  · rename_i hstruck
    rw [if_neg hstruck]
    trivial

theorem sends_emit (e : Event) : Sends L (emit e) := sends_write

theorem sends_record (e : Event) : Sends L (record e) :=
  sends_bind (sends_takePause _ _) fun _ => sends_emit e

theorem sends_refuse {r : Refusal} (h : r ≠ .unassociated := by simp) : Sends L (refuse r : Eng α) :=
  sends_bind (sends_takePause _ _) fun _ => fun _ _ => h

theorem sends_refuseIf (b : Bool) {r : Refusal} (h : r ≠ .unassociated := by simp) :
    Sends L (refuseIf b r) :=
  sends_onlyIf b (sends_refuse h)

theorem sends_drawByte : Sends L drawByte := fun s hs => L.kept s _ (linkKept_same rfl rfl) hs

theorem sends_wdtService : Sends L wdtService := sends_write

theorem sends_serviceStep : Sends L serviceStep :=
  sends_bind (sends_takePause _ _) fun _ => sends_wdtService

theorem sends_wdtConfig {pause : Eng Unit} (hpause : Sends L pause) (w : WdtCfg) :
    Sends L (wdtConfig pause w) :=
  sends_bind hpause fun _ => sends_bind sends_write fun _ => sends_bind (sends_look _) fun _ =>
  sends_onlyIf _ (sends_bind hpause fun _ => sends_write)

theorem sends_silenceFrom (ps : List Pause) : Sends L (silenceFrom ps : Eng α) := by
  induction ps with
  | nil =>
    intro s _
    simp only [silenceFrom, expireOrBlock]
    cases s.wdtCfg <;> trivial
  | cons p ps ih => exact sends_bind (sends_takePause _ _) fun _ => ih

theorem sends_silence : Sends L (silence : Eng α) := fun s hs => sends_silenceFrom s.pauses s hs

/-! ### Packets: the one update that reaches the association makes one -/

theorem sends_filterBody (p : List Byte) (tag : Byte) (payload : List Byte) :
    Sends L (filterBody p tag payload) :=
  sends_bind (sends_look _) fun _ => sends_ite _ (sends_emit _)
    (sends_bind sends_write fun _ => sends_emit _)

theorem sends_associate (p : List Byte) : Sends L (associate p) := by
  rcases p with _ | ⟨a0, _ | ⟨a1, _ | ⟨a2, _ | ⟨m, body⟩⟩⟩⟩
  iterate 4 exact sends_emit _
  refine sends_bind (sends_refuseIf _) fun _ => sends_bind (sends_update fun s => ?kept) fun _ =>
    sends_bind (sends_emit _) fun _ => ?rest
  case kept => exact ⟨rfl, fun _ => rfl⟩
  cases body with
  | nil => exact sends_pure ()
  | cons tag payload =>
    exact sends_bind (sends_look _) fun _ => sends_bind (sends_takePause _ _) fun _ =>
      sends_filterBody _ _ _

theorem sends_ordinary (p : List Byte) : Sends L (ordinary p) := by
  cases p with
  | nil => exact sends_emit _
  | cons tag payload => exact sends_filterBody _ _ _

theorem sends_processPacket (p : List Byte) : Sends L (processPacket p) :=
  sends_bind (sends_refuseIf _) fun _ => sends_bind (sends_look _) fun _ =>
  sends_ite _ (sends_ordinary p) (sends_associate p)

theorem sends_setAir (ps : List (List Byte)) : Sends L (update (fun s => s.setAir ps)) :=
  sends_write

theorem sends_packetRule (p : List Byte) (ps : List (List Byte)) (svc : Bool) :
    Sends L (packetRule p ps svc) :=
  sends_bind (sends_takePause _ _) fun _ => sends_bind (sends_setAir ps) fun _ =>
  sends_processPacket p

theorem sends_awaitPackets (ps : List (List Byte)) : Sends L (awaitPackets ps) := by
  induction ps with
  | nil => exact sends_bind (sends_look _) fun _ => sends_ite _ sends_silence (sends_pure ())
  | cons p ps ih =>
    refine sends_bind (sends_look _) fun _ => sends_ite _ ?_ (sends_pure ())
    exact sends_bind (sends_look _) fun _ => sends_bind (sends_takePause _ _) fun _ =>
      sends_bind (sends_setAir ps) fun _ => sends_bind (sends_processPacket p) fun _ => ih

/-! ### The byte channel -/

theorem sends_recvByte (b : Byte) : Sends L (recvByte b) := by
  refine sends_bind (sends_look _) fun _ => sends_ite _ ?radio ?wired
  case radio =>
    exact sends_bind (sends_look _) fun _ => sends_bind (sends_awaitPackets _) fun _ =>
      sends_bind (sends_takePause _ _) fun _ => sends_bind sends_write fun _ =>
      sends_bind sends_wdtService fun _ => sends_record _
  case wired =>
    refine sends_bind (sends_look _) fun line => ?_
    cases line with
    | nil => exact sends_silence
    | cons e rest =>
      exact sends_bind (sends_takePause _ _) fun _ => sends_bind sends_write fun _ =>
        sends_bind (sends_onlyIf _ sends_wdtService) fun _ => sends_record _

theorem sends_discard (bs : List Byte) : Sends L (discard bs) := by
  induction bs with
  | nil => exact sends_pure ()
  | cons b bs ih => exact sends_bind (sends_recvByte b) fun _ => ih

theorem sends_delay (d : Nat) : Sends L (delay d) :=
  sends_bind (sends_record _) fun _ => sends_bind (sends_takePause _ _) fun _ => sends_takePause _ _

theorem sends_nextAck : Sends L nextAck := by
  intro s hs
  unfold nextAck
  split <;> exact L.kept s _ (linkKept_same rfl rfl) hs

theorem sends_flushAttempts (guard : Nat) (peer : Byte × Byte × Byte) (packet : List Byte) (n k : Nat) :
    Sends L (flushAttempts guard peer packet n k) := by
  induction n generalizing k with
  | zero => exact sends_pure ()
  | succ n ih =>
    have hradioTx : Sends L (radioTx peer packet) :=
      sends_bind sends_write fun _ => sends_bind (sends_takePause _ _) fun _ => sends_nextAck
    exact sends_bind (sends_delay _) fun _ => sends_bind hradioTx fun _ =>
      sends_bind (sends_emit _) fun _ => sends_ite _ (sends_pure ()) (ih _)

theorem sends_flush : Sends L flush :=
  sends_bind (sends_look _) fun _ => sends_bind (sends_flushAttempts _ _ _ _ _) fun _ => sends_write

/-- On an associated link the check of R169 passes. -/
theorem sends_radioSendByte (b : Byte) : Sends associated (radioSendByte b) := by
  intro s hs
  have hassoc : s.assoc = true := hs
  unfold radioSendByte
  rw [bind_run, look_run]
  simp only [hassoc, Bool.not_true]
  exact sends_bind (sends_pure ()) (fun _ => sends_bind sends_write fun _ =>
    sends_bind (sends_look _) fun _ => sends_onlyIf _ sends_flush) s hs

theorem sends_sendByte (b : Byte) : Sends linked (sendByte b) := by
  intro s hs
  unfold sendByte
  rw [bind_run, look_run]
  dsimp only
  split
  · rename_i hradio
    have hsent := sends_bind (sends_record (.tx b)) (fun _ => sends_radioSendByte b) s (hs hradio)
    exact hsent.imp fun t hassoc _ => hassoc
  · exact sends_record _ s hs

theorem sends_setPh (p : Phase) : Sends L (update (fun s => s.setPh p)) := sends_write

theorem sends_openRequest (b : Byte) (k : Command) : Sends L (openRequest b k) :=
  sends_bind (sends_recvByte b) fun _ => sends_setPh _

theorem sends_checkTerminator (t : Byte) : Sends L (checkTerminator t) :=
  sends_bind (sends_recvByte t) fun _ => sends_bind (sends_look _) fun _ =>
  sends_ite _ (sends_pure ()) (fun _ _ => trivial)

end Sends

section Requests

variable {c : Config}

theorem sends_verifyTerminator (t : Byte) : Sends linked (verifyTerminator t) :=
  sends_bind (sends_checkTerminator t) fun _ => sends_bind (sends_look _) fun _ => sends_sendByte _

theorem sends_respond : Sends linked respond :=
  sends_bind (sends_setPh _) fun _ => sends_bind (sends_look _) fun _ =>
  sends_bind (sends_sendByte _) fun _ => sends_bind sends_serviceStep fun _ => sends_setPh _

/-! ### Requests without a programmer -/

theorem sends_skipRule (b : Byte) (k : Command) (body : List Byte) (t : Byte) :
    Sends linked (skipRule b k body t) :=
  sends_bind (sends_openRequest b k) fun _ => sends_bind (sends_discard body) fun _ =>
  sends_bind (sends_verifyTerminator t) fun _ => sends_respond

theorem sends_ackRule (b t : Byte) : Sends linked (ackRule b t) :=
  sends_bind (sends_openRequest b _) fun _ => sends_bind (sends_verifyTerminator t) fun _ =>
  sends_respond

theorem sends_getParameterRule (p t : Byte) : Sends linked (getParameterRule c p t) :=
  sends_bind (sends_openRequest _ _) fun _ => sends_bind (sends_recvByte p) fun _ =>
  sends_bind (sends_verifyTerminator t) fun _ => sends_bind (sends_sendByte _) fun _ =>
  sends_respond

theorem sends_loadAddressRule (lo hi t : Byte) : Sends linked (loadAddressRule c lo hi t) :=
  sends_bind (sends_openRequest _ _) fun _ => sends_bind (sends_recvByte lo) fun _ =>
  sends_bind (sends_recvByte hi) fun _ => sends_bind (sends_verifyTerminator t) fun _ =>
  sends_bind sends_write fun _ => sends_respond

theorem sends_universalRule (body : List Byte) (t : Byte) : Sends linked (universalRule c body t) :=
  sends_bind (sends_openRequest _ _) fun _ => sends_bind (sends_discard body) fun _ =>
  sends_bind (sends_checkTerminator t) fun _ => sends_bind (sends_sendByte _) fun _ =>
  sends_bind (sends_sendByte _) fun _ => sends_respond

theorem sends_readSignatureRule (t : Byte) : Sends linked (readSignatureRule c t) :=
  sends_bind (sends_openRequest _ _) fun _ => sends_bind (sends_verifyTerminator t) fun _ =>
  sends_bind (sends_sendByte _) fun _ => sends_bind (sends_sendByte _) fun _ =>
  sends_bind (sends_sendByte _) fun _ => sends_respond

theorem sends_leaveProgModeRule (t : Byte) : Sends linked (leaveProgModeRule c t) :=
  sends_bind (sends_openRequest _ _) fun _ => sends_bind (sends_verifyTerminator t) fun _ =>
  sends_bind (sends_wdtConfig (sends_takePause _ _) _) fun _ => sends_respond

/-! ### Requests with a programmer -/

theorem sends_programHeader (lenHigh n ty : Byte) : Sends linked (programHeader lenHigh n ty) :=
  sends_bind (sends_look _) fun _ => sends_bind (sends_openRequest _ _) fun _ =>
  sends_bind (sends_recvByte _) fun _ => sends_bind (sends_recvByte _) fun _ =>
  sends_bind sends_write fun _ => sends_bind (sends_recvByte _) fun _ =>
  sends_bind sends_write fun _ => sends_refuseIf _

theorem sends_readHeader (lenHigh n ty t : Byte) : Sends linked (readHeader lenHigh n ty t) :=
  sends_bind (sends_look _) fun _ => sends_bind (sends_openRequest _ _) fun _ =>
  sends_bind (sends_recvByte _) fun _ => sends_bind (sends_recvByte _) fun _ =>
  sends_bind sends_write fun _ => sends_bind (sends_recvByte _) fun _ =>
  sends_bind sends_write fun _ => sends_bind (sends_verifyTerminator t) fun _ => sends_refuseIf _

theorem sends_receivePayload (i : Nat) (bs : List Byte) : Sends linked (receivePayload i bs) := by
  induction bs generalizing i with
  | nil => exact sends_pure ()
  | cons b bs ih =>
    exact sends_bind (sends_recvByte b) fun _ => sends_bind sends_write fun _ => ih _

theorem linkKept_flashComplete (s : State) : LinkKept s (flashComplete s) := by
  obtain ⟨m, wb, hframe⟩ := flashComplete_frame s
  rw [hframe]
  exact linkKept_same rfl rfl

theorem linkKept_eeComplete (s : State) : LinkKept s (eeComplete s) := by
  obtain ⟨m, hframe⟩ := eeComplete_frame s
  rw [hframe]
  exact linkKept_same rfl rfl

theorem sends_stall : Sends linked stall :=
  sends_bind (sends_takePause _ _) fun _ => sends_update linkKept_flashComplete

theorem sends_waitReady : Sends linked waitReady := sends_bind (sends_record _) fun _ => sends_stall

theorem sends_keepAlive (k : KeepPoint) : Sends linked (keepAlive k) :=
  sends_bind (sends_look _) fun _ => sends_onlyIf _ sends_serviceStep

theorem sends_checkPage (p : Nat) : Sends linked (checkPage p) :=
  sends_bind (sends_look _) fun _ => sends_bind (sends_refuseIf _) fun _ =>
  sends_bind (sends_refuseIf _) fun _ => sends_refuseIf _

theorem sends_startPageOp (p : Nat) (op : FlashOp) : Sends linked (startPageOp p op) :=
  sends_bind (sends_takePause _ _) fun _ => sends_bind sends_write fun _ =>
  sends_bind (sends_look _) fun _ => sends_onlyIf _ sends_stall

theorem sends_erasePage (p : Nat) : Sends linked (erasePage p) :=
  sends_bind (sends_checkPage p) fun _ => sends_bind (sends_look _) fun _ =>
  sends_bind (sends_refuseIf _) fun _ => sends_bind (sends_record _) fun _ => sends_startPageOp _ _

theorem sends_commitPage (p : Nat) : Sends linked (commitPage p) :=
  sends_bind (sends_checkPage p) fun _ => sends_bind (sends_record _) fun _ => sends_startPageOp _ _

theorem sends_fillWord (a : Nat) (w : Word) : Sends linked (fillWord a w) :=
  sends_bind (sends_look _) fun _ => sends_bind (sends_refuseIf _) fun _ =>
  sends_bind (sends_refuseIf _) fun _ => sends_bind (sends_refuseIf _) fun _ =>
  sends_bind (sends_refuseIf _) fun _ => sends_bind (sends_record _) fun _ => sends_write

theorem sends_fillLoop (a n k : Nat) : Sends linked (fillLoop a n k) := by
  induction n generalizing k with
  | zero => exact sends_pure ()
  | succ n ih =>
    exact sends_bind (sends_look _) fun _ => sends_bind (sends_fillWord _ _) fun _ => ih _

theorem sends_commitSequence (a : Nat) : Sends linked (commitSequence c a) :=
  sends_bind (sends_keepAlive _) fun _ => sends_bind sends_waitReady fun _ =>
  sends_bind (sends_onlyIf _ sends_write) fun _ => sends_bind (sends_keepAlive _) fun _ =>
  sends_bind (sends_fillLoop _ _ _) fun _ => sends_bind (sends_commitPage a) fun _ =>
  sends_bind (sends_keepAlive _) fun _ => sends_bind sends_waitReady fun _ =>
  sends_onlyIf _ (sends_bind (sends_record _) fun _ => sends_write)

theorem sends_advanceBy (n : Nat) : Sends linked (advanceBy n) :=
  sends_bind (sends_look _) fun _ => sends_bind (sends_refuseIf _) fun _ => sends_write

theorem sends_advanceByte : Sends linked advanceByte :=
  sends_bind (sends_look _) fun _ => sends_bind (sends_refuseIf _) fun _ => sends_write

theorem sends_programFlash (payload : List Byte) (t : Byte) : Sends linked (programFlash c payload t) :=
  sends_bind (sends_look _) fun a => sends_bind (sends_refuseIf _) fun _ =>
  sends_bind (sends_refuseIf _) fun _ => sends_bind (sends_onlyIf _ (sends_erasePage a)) fun _ =>
  sends_bind (sends_receivePayload _ _) fun _ =>
  sends_bind (sends_onlyIf _ (sends_erasePage a)) fun _ =>
  sends_bind (sends_verifyTerminator t) fun _ => sends_bind (sends_commitSequence a) fun _ =>
  sends_advanceBy _

theorem sends_programPageFRule (lenHigh : Byte) (payload : List Byte) (t : Byte) :
    Sends linked (programPageFRule c lenHigh payload t) :=
  sends_bind (sends_programHeader _ _ _) fun _ => sends_bind (sends_programFlash payload t) fun _ =>
  sends_respond

theorem sends_flashRead (a : Nat) : Sends linked (flashRead a) := by
  refine sends_bind (sends_look _) fun _ => sends_bind (sends_refuseIf _) fun _ =>
    sends_bind (sends_record _) fun _ => sends_bind (sends_look _) fun s => ?_
  split
  · exact sends_pure _
  · exact sends_drawByte

theorem sends_hostFlashRead (fa : Nat) : Sends linked (hostFlashRead fa) :=
  sends_bind (sends_look _) fun _ => sends_ite _
    (sends_bind (sends_look _) fun _ => sends_ite _ (sends_pure _) sends_drawByte)
    (sends_flashRead fa)

theorem sends_readFlash (n : Nat) : Sends linked (readFlash n) := by
  have hbyte : Sends linked readFlashByte :=
    sends_bind (sends_look _) fun _ => sends_bind (sends_refuseIf _) fun _ =>
    sends_bind (sends_hostFlashRead _) fun _ => sends_bind (sends_sendByte _) fun _ =>
    sends_advanceByte
  induction n with
  | zero => exact sends_pure ()
  | succ n ih => exact sends_bind hbyte fun _ => ih

theorem sends_readPageFRule (lenHigh n t : Byte) : Sends linked (readPageFRule lenHigh n t) :=
  sends_bind (sends_readHeader _ _ _ _) fun _ => sends_bind (sends_readFlash _) fun _ =>
  sends_respond

theorem sends_programBadTypeRule (lenHigh n ty : Byte) :
    Sends linked (programBadTypeRule lenHigh n ty) :=
  sends_bind (sends_programHeader _ _ _) fun _ => sends_refuse

theorem sends_readBadTypeRule (lenHigh n ty t : Byte) : Sends linked (readBadTypeRule lenHigh n ty t) :=
  sends_bind (sends_readHeader _ _ _ _) fun _ => sends_refuse

theorem sends_eeWait : Sends linked eeWait :=
  sends_bind (sends_takePause _ _) fun _ => sends_update linkKept_eeComplete

theorem sends_eeRead (a : Nat) : Sends linked (eeRead a) :=
  sends_bind (sends_look _) fun _ => sends_bind (sends_refuseIf _) fun _ =>
  sends_bind sends_eeWait fun _ => sends_bind (sends_emit _) fun _ => sends_look _

theorem sends_eeWrite (a : Nat) (b : Byte) : Sends linked (eeWrite a b) :=
  sends_bind (sends_look _) fun _ => sends_bind (sends_refuseIf _) fun _ =>
  sends_bind sends_eeWait fun _ => sends_bind (sends_emit _) fun _ =>
  sends_bind (sends_takePause _ _) fun _ => sends_write

theorem sends_writeEeprom (n i : Nat) : Sends linked (writeEeprom n i) := by
  induction n generalizing i with
  | zero => exact sends_pure ()
  | succ n ih =>
    have hbyte : Sends linked (writeEepromByte i) :=
      sends_bind (sends_look _) fun _ => sends_bind (sends_refuseIf _) fun _ =>
      sends_bind sends_serviceStep fun _ => sends_bind (sends_eeWrite _ _) fun _ =>
      sends_advanceByte
    exact sends_bind hbyte fun _ => ih _

theorem sends_programPageERule (lenHigh : Byte) (payload : List Byte) (t : Byte) :
    Sends linked (programPageERule lenHigh payload t) :=
  sends_bind (sends_programHeader _ _ _) fun _ => sends_bind (sends_receivePayload _ _) fun _ =>
  sends_bind (sends_verifyTerminator t) fun _ => sends_bind (sends_writeEeprom _ _) fun _ =>
  sends_respond

theorem sends_readEeprom (n : Nat) : Sends linked (readEeprom n) := by
  have hbyte : Sends linked readEepromByte :=
    sends_bind (sends_look _) fun _ => sends_bind (sends_refuseIf _) fun _ =>
    sends_bind (sends_eeRead _) fun _ => sends_bind (sends_sendByte _) fun _ => sends_advanceByte
  induction n with
  | zero => exact sends_pure ()
  | succ n ih => exact sends_bind hbyte fun _ => ih

theorem sends_readPageERule (lenHigh n t : Byte) : Sends linked (readPageERule lenHigh n t) :=
  sends_bind (sends_readHeader _ _ _ _) fun _ => sends_bind (sends_readEeprom _) fun _ =>
  sends_respond

end Requests

/-! ### Steps -/

theorem exec_ne_unassociated (i : Instr) {s : State} (hs : linked.holds s) :
    exec i s ≠ .refused .unassociated := by
  cases i with
  | getParameter p x => exact (sends_getParameterRule p x).ne_unassociated hs
  | setDevice body x => exact (sends_skipRule _ _ body x).ne_unassociated hs
  | setDeviceExt body x => exact (sends_skipRule _ _ body x).ne_unassociated hs
  | loadAddress lo hi x => exact (sends_loadAddressRule lo hi x).ne_unassociated hs
  | universal body x => exact (sends_universalRule body x).ne_unassociated hs
  | programPageF lenHigh payload x => exact (sends_programPageFRule lenHigh payload x).ne_unassociated hs
  | programPageE lenHigh payload x => exact (sends_programPageERule lenHigh payload x).ne_unassociated hs
  | readPageF lenHigh n x => exact (sends_readPageFRule lenHigh n x).ne_unassociated hs
  | readPageE lenHigh n x => exact (sends_readPageERule lenHigh n x).ne_unassociated hs
  | readSignature x => exact (sends_readSignatureRule x).ne_unassociated hs
  | leaveProgMode x => exact (sends_leaveProgModeRule x).ne_unassociated hs
  | other b x => exact (sends_ackRule b x).ne_unassociated hs
  | programPageBadType lenHigh n ty => exact (sends_programBadTypeRule lenHigh n ty).ne_unassociated hs
  | readPageBadType lenHigh n ty x => exact (sends_readBadTypeRule lenHigh n ty x).ne_unassociated hs
  | pkt tag payload => exact (sends_processPacket _).ne_unassociated hs
  | hello a0 a1 a2 m body => exact (sends_processPacket _).ne_unassociated hs
  | getSync x => exact (sends_ackRule _ x).ne_unassociated hs
  | enterProgMode x => exact (sends_ackRule _ x).ne_unassociated hs

/-- The boot sequence sends nothing, and so asks nothing of the link. -/
theorem sends_bootSequence : Sends anyLink bootSequence := by
  have hpause : Sends anyLink bootPause := by
    intro s _
    unfold bootPause
    dsimp only
    split <;> trivial
  have hhandoff : Sends anyLink handoff :=
    sends_bind (sends_look _) fun _ => sends_bind (sends_wdtConfig hpause _) fun _ =>
    sends_bind hpause fun _ => sends_bind sends_write fun _ => sends_bind (sends_look _) fun _ =>
    sends_emit _
  have henterLoop : Sends anyLink enterLoop :=
    sends_bind (sends_look _) fun _ => sends_bind (sends_wdtConfig hpause _) fun _ => sends_setPh _
  exact sends_bind hpause fun _ => sends_bind sends_write fun _ => sends_bind hpause fun _ =>
    sends_bind (sends_look _) fun _ => sends_bind (sends_onlyIf _ sends_write) fun _ =>
    sends_ite _ hhandoff henterLoop

theorem idle_ne_unassociated (s : State) : idle s ≠ .refused .unassociated := by
  unfold idle
  split
  · exact Sends.ne_unassociated (L := anyLink) (sends_takePause 0 false) trivial
  · split <;> simp

/-- A request over the radio starts from a byte in RXQ, which an unassociated link does not hold. -/
theorem loopStep_ne_unassociated {s : State} (hlink : LinkInv s) : loopStep s ≠ .refused .unassociated := by
  rcases loopStep_cases s with heq | ⟨p, ps, heq⟩ | ⟨i, hqueue, heq⟩
  · rw [heq]
    exact idle_ne_unassociated s
  · rw [heq]
    exact Sends.ne_unassociated (L := anyLink) (sends_packetRule p ps _) trivial
  · rw [heq]
    refine exec_ne_unassociated i fun hradio => ?_
    by_contra hassoc
    obtain ⟨hempty, -⟩ := hlink.silent (Bool.eq_false_iff.2 hassoc)
    exact hqueue hradio hempty

/-- Settles O44: what sends is a request, and a request starts on an associated link. -/
theorem neverSendsUnassociated : Obligations.NeverSendsUnassociated := by
  intro s hinv
  unfold step
  split
  · unfold phaseStep
    split
    · exact sends_bootSequence.ne_unassociated trivial
    · exact loopStep_ne_unassociated hinv.link
    · exact idle_ne_unassociated s
    · exact idle_ne_unassociated s
    · simp
    · simp
  · simp

end Sys2Proof.Proofs
end

section
/-! SUPPORT. What a run leaves of the two memories: a cell is written only where an operation in progress
completes or is cut short, and never outside the page, or the byte, that operation was started on
(20_memory.md R54, R55, R59). -/

namespace Sys2Proof.Proofs

open Sys2Proof Sys2Proof.Machine

variable {D A : Prop} {P E : Nat → Prop} {s t : State}

/-! ### FLASH -/

/-- The address lies outside the page the flash controller works on. -/
def OffPage (a : Nat) (s : State) : Prop := ∀ p ∈ s.flashOp.page, a < p ∨ p + s.cfg.pageSize ≤ a

theorem flashCell_setPage_outside {m : List (Nat × FlashCell)} (hm : FlashWf m) {p n a : Nat}
    {cs : List FlashCell} (hlen : cs.length = n) (hout : a < p ∨ p + n ≤ a) :
    flashCell (setFlashCells m p cs) a = flashCell m a := by
  rw [flashCell_setFlashCells hm, if_neg (by omega)]

theorem flashCell_flashComplete_outside (hm : FlashWf s.flash) (hbuf : s.wbuf.length = s.cfg.pageSize)
    {a : Nat} (hout : OffPage a s) : flashCell (flashComplete s).flash a = flashCell s.flash a := by
  unfold flashComplete
  cases hop : s.flashOp with
  | idle => rfl
  | erasing p =>
    exact flashCell_setPage_outside hm List.length_replicate (hout p (by simp [hop, FlashOp.page]))
  | writing p =>
    have hp := hout p (by simp [hop, FlashOp.page])
    dsimp only
    split
    · exact flashCell_setPage_outside hm (by rw [List.length_map, hbuf]) hp
    · exact flashCell_setPage_outside hm List.length_replicate hp

theorem flashCell_flashCut_outside {a : Nat} (hout : OffPage a s) :
    flashCell s.flashCut a = flashCell s.flash a := by
  refine (flashCell_flashCut s a).trans (if_neg ?_)
  rintro ⟨p, hp, hin⟩
  have := hout p hp
  omega

/-- Only a completion and a device reset write FLASH. -/
theorem move_flash_cases (h : Move D A P E s t) :
    t.flash = s.flash ∨ t = flashComplete s ∨ ∃ src, t = deviceReset src s := by
  cases h with
  | flashDone => exact .inr (.inl rfl)
  | reset src => exact .inr (.inr ⟨src, rfl⟩)
  | eeDone =>
    obtain ⟨m, hframe⟩ := eeComplete_frame s
    rw [hframe]
    exact .inl rfl
  | _ => exact .inl rfl

theorem move_keeps_flashCell (h : Move D A P E s t) (hi : Inv s) {a : Nat} (hout : OffPage a s) :
    flashCell t.flash a = flashCell s.flash a := by
  rcases move_flash_cases h with hsame | rfl | ⟨src, rfl⟩
  · rw [hsame]
  · exact flashCell_flashComplete_outside hi.memory.flashWf hi.controller.wbufSize hout
  · exact flashCell_flashCut_outside hout

/-- A page that begins below BOOT_START ends at or below it: both lie on the page grid. -/
theorem page_end_le_bootStart {c : Config} (h : c.wf = true) {p : Nat} (hgrid : p % c.pageSize = 0)
    (hbelow : p < c.bootStart) : p + c.pageSize ≤ c.bootStart := by
  obtain ⟨hbootGrid, -⟩ := geometry_of_wf h
  have hdvd : c.pageSize ∣ c.bootStart - p :=
    Nat.dvd_sub (Nat.dvd_of_mod_eq_zero hbootGrid) (Nat.dvd_of_mod_eq_zero hgrid)
  have := Nat.le_of_dvd (by omega) hdvd
  omega

theorem offPage_of_bootStart_le (hwf : s.cfg.wf = true) (hc : ControllerInv s) {a : Nat}
    (ha : s.cfg.bootStart ≤ a) : OffPage a s := by
  intro p hp
  obtain ⟨hgrid, hbelow⟩ := hc.page p hp
  have := page_end_le_bootStart hwf hgrid hbelow
  omega

theorem moves_keep_bootloader (h : Moves D A (· < s.cfg.bootStart) E s t) (hwf : s.cfg.wf = true)
    (hi : Inv s) {a : Nat} (ha : s.cfg.bootStart ≤ a) : flashCell t.flash a = flashCell s.flash a := by
  induction h with
  | refl => rfl
  | tail hmoves hmove ih =>
    have hinv := moves_keep_inv hmoves hwf hi
    have hcfg := Moves.cfg hmoves
    rw [← hcfg] at hwf ha
    exact (move_keeps_flashCell hmove hinv (offPage_of_bootStart_le hwf hinv.controller ha)).trans ih

/-- Settles O58: the flash controller works on pages below BOOT_START only, which the invariant says of every
state of the run. -/
theorem bootloaderPagesKept : Obligations.BootloaderPagesKept := by
  intro s t hinv hstep a ha
  obtain ⟨hwf, hmoves⟩ := moves_of_step hstep
  exact moves_keep_bootloader hmoves hwf hinv ha

/-! ### EEPROM -/

/-- The byte at address `a` is not the one the EEPROM controller has latched. -/
def NotLatched (a : Nat) (s : State) : Prop := ∀ q ∈ s.eeBusy, q.1 ≠ a

theorem eepromByte_eeComplete {a : Nat} (h : NotLatched a s) :
    eepromByte (eeComplete s).eeprom a = eepromByte s.eeprom a := by
  unfold eeComplete
  split
  · rfl
  · rename_i q b hbusy
    exact (eepromByte_putCell _ _ _ _).trans (if_neg (h (q, b) hbusy).symm)

/-- The EEPROM side of a state is written by a completion, a device reset and a latch only. -/
theorem move_eeprom_cases (h : Move D A P E s t) :
    (t.eeprom = s.eeprom ∧ (t.eeBusy = s.eeBusy ∨ ∃ a b, E a ∧ t.eeBusy = some (a, b))) ∨
      t = eeComplete s ∨ ∃ src, t = deviceReset src s := by
  cases h with
  | eeDone => exact .inr (.inl rfl)
  | reset src => exact .inr (.inr ⟨src, rfl⟩)
  | latch a b ha hr => exact .inl ⟨rfl, .inr ⟨a, b, ha, rfl⟩⟩
  | flashDone =>
    obtain ⟨m, wb, hframe⟩ := flashComplete_frame s
    rw [hframe]
    exact .inl ⟨rfl, .inl rfl⟩
  | _ => exact .inl ⟨rfl, .inl rfl⟩

/-- Where no rule may write the byte at `a` and it is not latched, it stays as it is, and unlatched. -/
theorem move_keeps_eepromByte {a : Nat} (h : Move D A P (· ≠ a) s t) (hs : NotLatched a s) :
    eepromByte t.eeprom a = eepromByte s.eeprom a ∧ NotLatched a t := by
  rcases move_eeprom_cases h with ⟨hsame, hbusy⟩ | rfl | ⟨src, rfl⟩
  · refine ⟨by rw [hsame], ?_⟩
    rcases hbusy with hbusy | ⟨q, b, hne, hbusy⟩
    · rwa [NotLatched, hbusy]
    · simpa [NotLatched, hbusy] using hne
  · refine ⟨eepromByte_eeComplete hs, ?_⟩
    obtain ⟨m, hframe⟩ := eeComplete_frame s
    simp [NotLatched, hframe]
  · exact ⟨eepromByte_eepromCut hs, by simp [NotLatched, deviceReset]⟩

theorem moves_keep_eepromByte {a : Nat} (h : Moves D A P (· ≠ a) s t) (hs : NotLatched a s) :
    eepromByte t.eeprom a = eepromByte s.eeprom a ∧ NotLatched a t := by
  induction h with
  | refl => exact ⟨rfl, hs⟩
  | tail _ hmove ih =>
    obtain ⟨hkept, hfree⟩ := move_keeps_eepromByte hmove ih.2
    exact ⟨hkept.trans ih.1, hfree⟩

/-- Settles O60: a ProgramPage 'E' latches the bytes of its range only, and no other instruction latches
any. -/
theorem eepromFrame : Obligations.EepromFrame := by
  intro i s t hph hexec a hfree hout
  have hloop : s.InLoop := by simp [State.InLoop, hph]
  have hmoves : NextBy True (fun _ => True) (· ≠ a) s t := by
    refine exec_moves hloop trivial (fun _ _ _ _ _ => trivial) ?_ hexec
    intro lenHigh payload x hprogram k hk
    have := hout lenHigh payload x hprogram
    omega
  exact (moves_keep_eepromByte hmoves.moves hfree).1

end Sys2Proof.Proofs
end

section
/-! SUPPORT. The page postcondition (20_memory.md R65): erase, wait, fill, commit and wait take one page
through the stages of the flash controller, whatever completes in the pauses between them, and touch no cell
outside it. -/

namespace Sys2Proof.Proofs

open Sys2Proof Sys2Proof.Machine

/-! ### Rules that run to their end -/

section EndsIn

variable {α β : Type} {J K L : State → Prop}

/-- From a state in `J` the rule, if it runs to its end, ends in a state in `K`. -/
def EndsIn (J K : State → Prop) (m : Eng α) : Prop := ∀ s a t, J s → m s = .ok (a, t) → K t

theorem EndsIn.bind {m : Eng α} {f : α → Eng β} (hm : EndsIn J K m) (hf : ∀ a, EndsIn K L (f a)) :
    EndsIn J L (m >>= f) := by
  intro s b u hs hrun
  rw [bind_run] at hrun
  cases hmid : m s with
  | error e => simp [hmid] at hrun
  | ok q =>
    rw [hmid] at hrun
    exact hf q.1 q.2 b u (hm s q.1 q.2 hs hmid) hrun

theorem EndsIn.imp {J' K' : State → Prop} {m : Eng α} (h : EndsIn J K m) (hJ : ∀ s, J' s → J s)
    (hK : ∀ s, K s → K' s) : EndsIn J' K' m :=
  fun s a t hs hrun => hK t (h s a t (hJ s hs) hrun)

/-- What follows a `look` runs from the state looked at. -/
theorem endsIn_look_bind {g : State → α} {f : α → Eng β} (h : ∀ s, J s → EndsIn (· = s) K (f (g s))) :
    EndsIn J K (look g >>= f) := by
  intro s b t hs hrun
  rw [bind_run, look_run] at hrun
  exact h s hs s b t rfl hrun

theorem endsIn_update {f : State → State} (h : ∀ s, J s → K (f s)) : EndsIn J K (update f) := by
  intro s a t hs hrun
  rw [update_run] at hrun
  cases hrun
  exact h s hs

theorem endsIn_look (g : State → α) : EndsIn J J (look g) := by
  intro s a t hs hrun
  rw [look_run] at hrun
  cases hrun
  exact hs

theorem endsIn_pure (a : α) : EndsIn J J (pure a : Eng α) := by
  intro s b t hs hrun
  cases hrun
  exact hs

theorem endsIn_onlyIf {b : Bool} {m : Eng Unit} (hm : EndsIn J J m) : EndsIn J J (onlyIf b m) := by
  cases b with
  | true => exact hm
  | false => exact endsIn_pure ()

/-- A refusal never runs to its end. -/
theorem endsIn_refuse (r : Refusal) : EndsIn J K (refuse r : Eng α) := by
  intro s a t _ hrun
  unfold refuse at hrun
  rw [bind_run] at hrun
  cases hpause : instant s <;> simp [hpause] at hrun

theorem endsIn_refuseIf (b : Bool) (r : Refusal) : EndsIn J (fun s => J s ∧ b = false) (refuseIf b r) := by
  cases b with
  | true => exact endsIn_refuse r
  | false => exact (endsIn_pure ()).imp (fun _ h => h) (fun _ h => ⟨h, rfl⟩)

theorem endsIn_check (b : Bool) (r : Refusal) : EndsIn J J (refuseIf b r) :=
  (endsIn_refuseIf b r).imp (fun _ h => h) fun _ h => h.1

/-- What holds whatever the state holds at the rule's end. -/
theorem endsIn_fact {q : Prop} (m : Eng α) : EndsIn (fun _ => q) (fun _ => q) m := fun _ _ _ hq _ => hq

end EndsIn

/-! ### What time can do to the flash controller -/

/-- From `s` to `t` nothing has reached FLASH or its controller. -/
structure SameFlashSide (s t : State) : Prop where
  cfg : t.cfg = s.cfg
  flash : t.flash = s.flash
  wbuf : t.wbuf = s.wbuf
  op : t.flashOp = s.flashOp

/-- A condition on FLASH and its controller that a completion does not end. -/
structure Lasting (K : State → Prop) : Prop where
  same : ∀ s t, SameFlashSide s t → K s → K t
  completes : ∀ s, K s → K (flashComplete s)

section Lasting

variable {J K : State → Prop}

theorem Lasting.settle (h : Lasting K) (p : Pause) {s : State} (hs : K s) : K (settle p s) := by
  have hee : ∀ u, K u → K (eeComplete u) := by
    intro u hu
    obtain ⟨m, hframe⟩ := eeComplete_frame u
    rw [hframe]
    exact h.same u _ ⟨rfl, rfl, rfl, rfl⟩ hu
  have hflash : K (if p.flashDone then flashComplete s else s) := by
    split
    · exact h.completes s hs
    · exact hs
  unfold Machine.settle
  dsimp only
  split
  · exact hee _ hflash
  · exact hflash

theorem Lasting.takePause (h : Lasting K) (extra : Nat) (svc : Bool) :
    EndsIn K K (takePause extra svc) := by
  intro s a t hs hrun
  unfold Machine.takePause at hrun
  dsimp only at hrun
  split at hrun
  · cases hrun
    exact h.settle _ (h.same s _ ⟨rfl, rfl, rfl, rfl⟩ hs)
  · cases hrun

theorem Lasting.record (h : Lasting K) (e : Event) : EndsIn K K (record e) :=
  (h.takePause 0 false).bind fun _ => endsIn_update fun s hs => h.same s _ ⟨rfl, rfl, rfl, rfl⟩ hs

theorem Lasting.rwwEnable (h : Lasting K) : EndsIn K K rwwEnable :=
  (h.record _).bind fun _ => endsIn_update fun s hs => h.same s _ ⟨rfl, rfl, rfl, rfl⟩ hs

/-- The wait ends with the operation complete. -/
theorem Lasting.stall (h : Lasting J) (hdone : ∀ s, J s → K (flashComplete s)) : EndsIn J K stall :=
  (h.takePause 0 false).bind fun _ => endsIn_update hdone

theorem Lasting.waitReady (h : Lasting J) (hdone : ∀ s, J s → K (flashComplete s)) :
    EndsIn J K waitReady :=
  (h.record _).bind fun _ => h.stall hdone

theorem Lasting.startPageOp (hJ : Lasting J) (hK : Lasting K) (p : Nat) {op : FlashOp}
    (hstart : ∀ s, J s → K (s.startOp op)) : EndsIn J K (startPageOp p op) :=
  (hJ.takePause 0 false).bind fun _ => (endsIn_update hstart).bind fun _ =>
  endsIn_look_bind fun _ hs => (endsIn_onlyIf (hK.stall hK.completes)).imp (fun _ h => h ▸ hs) fun _ h => h

end Lasting

/-! ### The stages of a page -/

/-- The bytes of the words, low byte first (20_memory.md R46). -/
def wordBytes : List Word → List Byte
  | [] => []
  | w :: ws => lo8 w :: hi8 w :: wordBytes ws

@[simp] theorem wordBytes_length (ws : List Word) : (wordBytes ws).length = 2 * ws.length := by
  induction ws with
  | nil => rfl
  | cons w ws ih => simp only [wordBytes, List.length_cons, ih]; omega

theorem wordBytes_getElem? {ws : List Word} {k : Nat} {w : Word} (h : ws[k]? = some w) :
    (wordBytes ws)[2 * k]? = some (lo8 w) ∧ (wordBytes ws)[2 * k + 1]? = some (hi8 w) := by
  induction ws generalizing k with
  | nil => simp at h
  | cons v ws ih =>
    cases k with
    | zero =>
      obtain rfl : v = w := by simpa using h
      exact ⟨rfl, rfl⟩
    | succ k => exact ih (by simpa using h)

/-- What the sequence keeps from its start on: the configuration, the size of the write buffer, the page the
controller works on, and every cell outside that page as it was in `m`. -/
structure OnPage (c : Config) (m : List (Nat × FlashCell)) (p : Nat) (s : State) : Prop where
  cfg : s.cfg = c
  cells : FlashWf s.flash
  buffer : s.wbuf.length = c.pageSize
  op : ∀ q ∈ s.flashOp.page, q = p
  outside : ∀ a, (a < p ∨ p + c.pageSize ≤ a) → flashCell s.flash a = flashCell m a

/-- The controller is idle and the page holds the cells, Erased past their end. -/
def Holds (p : Nat) (cs : List FlashCell) (s : State) : Prop :=
  s.flashOp = .idle ∧ ∀ i < s.cfg.pageSize, flashCell s.flash (p + i) = cs.getD i .erased

/-- The page is Erased, or being erased. -/
def ErasingPage (p : Nat) (s : State) : Prop := s.flashOp = .erasing p ∨ Holds p [] s

/-- The page is Erased and the write buffer holds the bytes from its first cell on. -/
def Filled (p : Nat) (bs : List Byte) (s : State) : Prop :=
  Holds p [] s ∧ s.wbuf.take bs.length = bs.map some

/-- The page holds the bytes, or a commit of them is in progress and in sequence (20_memory.md R54). -/
def CommittingPage (p : Nat) (bs : List Byte) (s : State) : Prop :=
  (s.flashOp = .writing p ∧ s.commitInSequence p = true ∧ s.wbuf = bs.map some) ∨
    Holds p (bs.map .byte) s

/-- A stage of the sequence on page `p` of a machine that started with FLASH `m`. -/
def PageStage (c : Config) (m : List (Nat × FlashCell)) (p : Nat) (K : State → Prop) (s : State) : Prop :=
  OnPage c m p s ∧ K s

section PageStages

variable {c : Config} {m : List (Nat × FlashCell)} {p : Nat} {K : State → Prop} {s t : State} {bs : List Byte}

theorem flashWf_flashComplete (h : FlashWf s.flash) : FlashWf (flashComplete s).flash := by
  unfold flashComplete
  cases s.flashOp with
  | idle => exact h
  | erasing q => exact setFlashCells_wf h _ _
  | writing q =>
    dsimp only
    split
    · exact setFlashCells_wf h _ _
    · exact setFlashCells_wf h _ _

theorem flashComplete_wbuf_length (h : s.wbuf.length = s.cfg.pageSize) :
    (flashComplete s).wbuf.length = s.cfg.pageSize := by
  rcases flashComplete_wbuf s with hkept | hnew
  · rw [hkept, h]
  · rw [hnew, List.length_replicate]

theorem onPage_same (h : SameFlashSide s t) (hs : OnPage c m p s) : OnPage c m p t := by
  obtain ⟨hcfg, hcells, hbuffer, hop, hout⟩ := hs
  constructor <;> simpa only [h.cfg, h.flash, h.wbuf, h.op]

theorem onPage_flashComplete (hs : OnPage c m p s) : OnPage c m p (flashComplete s) := by
  obtain ⟨rfl, hcells, hbuffer, hop, hout⟩ := hs
  refine ⟨flashComplete_cfg s, flashWf_flashComplete hcells, flashComplete_wbuf_length hbuffer, ?_, ?_⟩
  · simp [flashComplete_flashOp, FlashOp.page]
  · intro a ha
    have hoff : OffPage a s := fun q hq => hop q hq ▸ ha
    exact (flashCell_flashComplete_outside hcells hbuffer hoff).trans (hout a ha)

theorem onPage_startOp (hs : OnPage c m p s) {op : FlashOp} (hop : ∀ q ∈ op.page, q = p) :
    OnPage c m p (s.startOp op) := ⟨hs.cfg, hs.cells, hs.buffer, hop, hs.outside⟩

theorem lasting_pageStage (hsame : ∀ s t, SameFlashSide s t → K s → K t)
    (hcompletes : ∀ s, OnPage c m p s → K s → K (flashComplete s)) : Lasting (PageStage c m p K) where
  same s t h hs := ⟨onPage_same h hs.1, hsame s t h hs.2⟩
  completes s hs := ⟨onPage_flashComplete hs.1, hcompletes s hs.1 hs.2⟩

/-! #### Idle, and the page's cells known -/

theorem lasting_idle : Lasting (PageStage c m p (fun s => s.flashOp = .idle)) :=
  lasting_pageStage (fun _ _ h hs => h.op.trans hs) (fun s _ _ => flashComplete_flashOp s)

theorem holds_same {cs : List FlashCell} (h : SameFlashSide s t) (hs : Holds p cs s) : Holds p cs t := by
  obtain ⟨hidle, hcells⟩ := hs
  refine ⟨h.op.trans hidle, ?_⟩
  rwa [h.cfg, h.flash]

theorem lasting_holds {cs : List FlashCell} : Lasting (PageStage c m p (Holds p cs)) :=
  lasting_pageStage (fun _ _ => holds_same) (fun s _ hs => by rwa [flashComplete_idle hs.1])

/-- A page of cells written by a completion is what the page holds then. -/
theorem flashCell_setPage {cs : List FlashCell} (hcells : FlashWf s.flash) (hlen : cs.length = s.cfg.pageSize)
    {i : Nat} (hi : i < s.cfg.pageSize) :
    flashCell (setFlashCells s.flash p cs) (p + i) = cs.getD i .erased := by
  rw [flashCell_setFlashCells hcells, if_pos (by omega), Nat.add_sub_cancel_left]

/-! #### Erase -/

theorem erasingPage_done (hs : OnPage c m p s) (h : ErasingPage p s) : Holds p [] (flashComplete s) := by
  rcases h with hop | hholds
  · refine ⟨flashComplete_flashOp s, fun i hi => ?_⟩
    rw [flashComplete_cfg] at hi
    simp only [flashComplete, hop, State.pageFilled]
    rw [flashCell_setPage hs.cells List.length_replicate hi]
    simp [hi]
  · rwa [flashComplete_idle hholds.1]

theorem lasting_erasingPage : Lasting (PageStage c m p (ErasingPage p)) :=
  lasting_pageStage (fun _ _ h hs => hs.imp h.op.trans (holds_same h))
    (fun _ hon hs => .inr (erasingPage_done hon hs))

/-- `checkPage` lets page bases pass only. -/
theorem endsIn_checkPage {J : State → Prop} (p : Nat) :
    EndsIn J (fun s => J s ∧ p % s.cfg.pageSize = 0) (checkPage p) :=
  endsIn_look_bind fun s hs =>
    ((endsIn_check _ _).bind fun _ => (endsIn_refuseIf _ _).bind fun _ => endsIn_check _ _).imp
      (fun _ h => h) fun u h => by
        obtain ⟨rfl, hgrid⟩ := h
        exact ⟨hs, by simpa using hgrid⟩

theorem endsIn_erasePage (p : Nat) :
    EndsIn (PageStage c m p (fun s => s.flashOp = .idle)) (PageStage c m p (ErasingPage p)) (erasePage p) :=
  ((endsIn_checkPage p).imp (fun _ h => h) fun _ h => h.1).bind fun _ =>
  (endsIn_look _).bind fun _ => (endsIn_check _ _).bind fun _ => (lasting_idle.record _).bind fun _ =>
  lasting_idle.startPageOp lasting_erasingPage p fun _ hs =>
    ⟨onPage_startOp hs.1 (by simp [FlashOp.page]), .inl rfl⟩

/-! #### Fill -/

theorem lasting_filled : Lasting (PageStage c m p (Filled p bs)) :=
  lasting_pageStage (fun _ _ h hs => ⟨holds_same h hs.1, by rw [h.wbuf]; exact hs.2⟩)
    (fun s _ hs => by rwa [flashComplete_idle hs.1.1])

theorem take_set_pair {α : Type} (l : List α) {i : Nat} (hi : i + 2 ≤ l.length) (x y : α) :
    ((l.set i x).set (i + 1) y).take (i + 2) = l.take i ++ [x, y] := by
  have hfirst : (l.set i x).take (i + 1) = l.take i ++ [x] := by
    rw [List.take_add_one, List.take_set, List.set_eq_of_length_le (by simp)]
    simp [show i < l.length by omega]
  rw [List.take_add_one, List.take_set, List.set_eq_of_length_le (by simp), hfirst]
  simp [show i + 1 < l.length by omega]

/-- A word filled at the first cell that is not yet filled. -/
theorem endsIn_fillWord (hgrid : p % c.pageSize = 0) (hroom : bs.length + 2 ≤ c.pageSize) (w : Word) :
    EndsIn (PageStage c m p (Filled p bs)) (PageStage c m p (Filled p (bs ++ [lo8 w, hi8 w])))
      (fillWord (p + bs.length) w) := by
  refine (endsIn_look _).bind fun _ => (endsIn_check _ _).bind fun _ => (endsIn_check _ _).bind fun _ =>
    (endsIn_check _ _).bind fun _ => (endsIn_check _ _).bind fun _ => (lasting_filled.record _).bind fun _ =>
    endsIn_update fun s hs => ?_
  obtain ⟨⟨rfl, hcells, hbuffer, hop, hout⟩, hholds, htake⟩ := hs
  have hindex : (p + bs.length) % s.cfg.pageSize = bs.length := by
    rw [Nat.add_mod, hgrid, Nat.zero_add, Nat.mod_mod, Nat.mod_eq_of_lt (by omega)]
  rw [hindex]
  refine ⟨⟨rfl, hcells, by simpa using hbuffer, hop, hout⟩, hholds, ?_⟩
  rw [State.fillPair_wbuf, List.length_append, List.length_cons, List.length_singleton,
    take_set_pair _ (by omega), htake]
  simp

theorem endsIn_fillWords (hgrid : p % c.pageSize = 0) (ws : List Word)
    (hroom : bs.length + 2 * ws.length ≤ c.pageSize) :
    EndsIn (PageStage c m p (Filled p bs)) (PageStage c m p (Filled p (bs ++ wordBytes ws)))
      (fillWords (p + bs.length) ws) := by
  induction ws generalizing bs with
  | nil =>
    rw [wordBytes, List.append_nil]
    exact endsIn_pure ()
  | cons w ws ih =>
    rw [List.length_cons] at hroom
    refine (endsIn_fillWord hgrid (by omega) w).bind fun _ => ?_
    have hrest := ih (bs := bs ++ [lo8 w, hi8 w]) (by simp; omega)
    simpa [wordBytes, Nat.add_assoc] using hrest

/-! #### Commit -/

theorem committingPage_done (hs : OnPage c m p s) (h : CommittingPage p bs s) :
    Holds p (bs.map .byte) (flashComplete s) := by
  rcases h with ⟨hop, hseq, hbuf⟩ | hholds
  · have hbytes : s.wbuf.map wbufCell = bs.map .byte := by simp [hbuf, wbufCell]
    have hlen : (bs.map FlashCell.byte).length = s.cfg.pageSize := by
      rw [← hbytes, List.length_map, hs.buffer, hs.cfg]
    refine ⟨flashComplete_flashOp s, fun i hi => ?_⟩
    rw [flashComplete_cfg] at hi
    simp only [flashComplete, hop, hseq, if_true, hbytes]
    exact flashCell_setPage hs.cells hlen hi
  · rwa [flashComplete_idle hholds.1]

theorem lasting_committingPage : Lasting (PageStage c m p (CommittingPage p bs)) := by
  refine lasting_pageStage (fun s t h hs => ?_) (fun _ hon hs => .inr (committingPage_done hon hs))
  refine hs.imp ?_ (holds_same h)
  rintro ⟨hop, hseq, hbuf⟩
  refine ⟨h.op.trans hop, ?_, h.wbuf.trans hbuf⟩
  simpa only [State.commitInSequence, State.pageCells, h.cfg, h.flash, h.wbuf] using hseq

/-- A full buffer on an Erased page: the commit is in sequence. -/
theorem committingPage_startOp (hs : OnPage c m p s) (h : Filled p bs s) (hfull : bs.length = c.pageSize) :
    CommittingPage p bs (s.startOp (.writing p)) := by
  obtain ⟨⟨-, herased⟩, htake⟩ := h
  have hbuf : s.wbuf = bs.map some := by
    rwa [hfull, ← hs.buffer, List.take_length] at htake
  refine .inl ⟨rfl, ?_, hbuf⟩
  simp only [State.commitInSequence, State.pageCells, State.startOp_wbuf, State.startOp_flash,
    State.startOp_cfg, Bool.and_eq_true, List.all_eq_true, List.mem_map, List.mem_range, hbuf]
  constructor
  · rintro _ ⟨i, hi, rfl⟩
    exact decide_eq_true (herased i hi)
  · rintro _ ⟨b, -, rfl⟩
    rfl

theorem endsIn_commitPage (hfull : bs.length = c.pageSize) :
    EndsIn (PageStage c m p (Filled p bs)) (PageStage c m p (CommittingPage p bs)) (commitPage p) :=
  ((endsIn_checkPage p).imp (fun _ h => h) fun _ h => h.1).bind fun _ =>
  (lasting_filled.record _).bind fun _ =>
  lasting_filled.startPageOp lasting_committingPage p fun _ hs =>
    ⟨onPage_startOp hs.1 (by simp [FlashOp.page]), committingPage_startOp hs.1 hs.2 hfull⟩

/-! #### The sequence -/

theorem endsIn_pageSequence (hgrid : p % c.pageSize = 0) {ws : List Word}
    (hfull : (wordBytes ws).length = c.pageSize) :
    EndsIn (PageStage c m p (fun s => s.flashOp = .idle))
      (PageStage c m p (Holds p ((wordBytes ws).map .byte))) (pageSequence c p ws) := by
  have hfill := endsIn_fillWords (m := m) (bs := []) hgrid ws (by simp at hfull ⊢; omega)
  exact (endsIn_erasePage p).bind fun _ =>
    (lasting_erasingPage.waitReady (K := PageStage c m p (Filled p [])) fun _ hs =>
      ⟨onPage_flashComplete hs.1, erasingPage_done hs.1 hs.2, by simp⟩).bind fun _ =>
    (hfill : EndsIn _ (PageStage c m p (Filled p (wordBytes ws))) _).bind fun _ =>
    (endsIn_commitPage hfull).bind fun _ =>
    (lasting_committingPage.waitReady (K := PageStage c m p (Holds p ((wordBytes ws).map .byte))) fun _ hs =>
      ⟨onPage_flashComplete hs.1, committingPage_done hs.1 hs.2⟩).bind fun _ =>
    endsIn_onlyIf lasting_holds.rwwEnable

/-- The sequence runs to its end at a page base only. -/
theorem grid_of_pageSequence {ws : List Word} (h : pageSequence c p ws s = .ok ((), t)) :
    p % s.cfg.pageSize = 0 := by
  have hcheck : EndsIn (· = s) (fun _ => p % s.cfg.pageSize = 0) (checkPage p) :=
    (endsIn_checkPage p).imp (fun _ h => h) fun u hu => by
      obtain ⟨rfl, hgrid⟩ := hu
      exact hgrid
  exact ((hcheck.bind fun _ => endsIn_fact _).bind fun _ => endsIn_fact _) s () t rfl h

end PageStages

theorem pageSize_even_of_wf {c : Config} (h : c.wf = true) : c.pageSize % 2 = 0 := by
  simp only [Config.wf, Config.geometryOk, Bool.and_eq_true, decide_eq_true_eq] at h
  tauto

/-- Settles O25: the sequence ends with the page holding the bytes of the words and with every other cell as
it was. -/
theorem pagePostcondition : Obligations.PagePostcondition := by
  intro s t p ws hwf hcells hidle hbuffer hlen hrun
  have heven := pageSize_even_of_wf hwf
  have hfull : (wordBytes ws).length = s.cfg.pageSize := by rw [wordBytes_length, hlen]; omega
  have hstart : PageStage s.cfg s.flash p (fun s => s.flashOp = .idle) s :=
    ⟨⟨rfl, hcells, hbuffer, by simp [hidle, FlashOp.page], fun _ _ => rfl⟩, hidle⟩
  obtain ⟨hpage, -, hholds⟩ :=
    endsIn_pageSequence (grid_of_pageSequence hrun) hfull s () t hstart hrun
  refine ⟨fun k w hw => ?_, hpage.outside⟩
  obtain ⟨hlo, hhi⟩ := wordBytes_getElem? hw
  obtain ⟨hk, -⟩ := List.getElem?_eq_some_iff.1 hhi
  rw [hfull, ← hpage.cfg] at hk
  have hbyte : ∀ {i : Nat} {b : Byte}, i < t.cfg.pageSize → (wordBytes ws)[i]? = some b →
      flashCell t.flash (p + i) = .byte b := by
    intro i b hi hb
    rw [hholds i hi, List.getD_eq_getElem?_getD, List.getElem?_map, hb]
    rfl
  exact ⟨hbyte (by omega) hlo, hbyte hk hhi⟩

end Sys2Proof.Proofs
end

section
/-! SUPPORT. Where an access to a memory is refused (20_memory.md R47, R48, R64): in a quiet environment a
command runs up to the check that refuses it. -/

namespace Sys2Proof.Proofs

open Sys2Proof Sys2Proof.Machine

/-! ### Running up to a refusal -/

section UpTo

variable {α β : Type} {s t : State} {h : Nat} {bs : List Byte}

theorem canTalk_of_ready {i : Instr} (hready : Ready s i bs) : CanTalk s (encode s.cfg i).length bs :=
  ⟨hready.calm.1, hready.calm.2, hready.link, hready.bytes.length_le⟩

theorem still_of_canTalk (c : CanTalk s h bs) : s.Still := ⟨c.quiet, c.awake⟩

theorem bind_error {m : Eng α} {e : Stop} (hm : m s = .error e) (f : α → Eng β) :
    (m >>= f) s = .error e := by
  rw [bind_run, hm]

theorem bind_ok {m : Eng α} {a : α} (hm : m s = .ok (a, t)) (f : α → Eng β) : (m >>= f) s = f a t := by
  rw [bind_run, hm]

theorem look_id_bind (f : State → Eng β) (s : State) : (look id >>= f) s = f s s := rfl

theorem emit_run (e : Event) (s : State) : emit e s = .ok ((), s.emit e) := rfl

theorem refuseIf_still {b : Bool} (hb : b = true) (hs : s.Still) (r : Refusal) :
    refuseIf b r s = .error (.refused r) := by
  rw [hb, refuseIf_true, refuse_still hs]

theorem refuseIf_pass {b : Bool} (hb : b = false) (r : Refusal) (s : State) :
    refuseIf b r s = .ok ((), s) := by
  rw [hb, refuseIf_false]

end UpTo

/-! ### ProgramPage up to its payload -/

section ProgramPage

variable {s t : State} {h : Nat} {payload : List Byte}

theorem pageSize_le_of_wf {c : Config} (hwf : c.wf = true) : c.pageSize ≤ 255 := by
  simp only [Config.wf, Config.geometryOk, Bool.and_eq_true, decide_eq_true_eq] at hwf
  tauto

theorem badProgramLength_payload {c : Config} (hpos : 1 ≤ payload.length)
    (hpage : payload.length ≤ c.pageSize) (hbyte : c.pageSize ≤ 255) :
    badProgramLength c (payloadLength payload) = false := by
  have hlen : (payloadLength payload).toNat = payload.length := by
    rw [payloadLength, BitVec.toNat_ofNat, Nat.mod_eq_of_lt (by omega)]
  have hne : payloadLength payload ≠ 0 := fun hzero => by
    rw [hzero, show (0 : Byte).toNat = 0 from rfl] at hlen
    omega
  rw [badProgramLength, decide_eq_false_iff_not, hlen, not_or]
  exact ⟨hne, by omega⟩

/-- The payload goes to PAGEBUF, whatever PAGEBUF is. -/
theorem talk_receivePayload_pagebuf (bs : List Byte) (i : Nat) (c : CanTalk s bs.length []) :
    ∃ t buf, receivePayload i bs s = .ok ((), t) ∧ Talk (s.setPagebuf buf) t bs.length [] := by
  induction bs generalizing i s with
  | nil => exact ⟨s, s.pagebuf, rfl, Talk.refl s⟩
  | cons b bs ih =>
    rw [List.length_cons, Nat.add_comm] at c
    obtain ⟨t, hrecv, htalk⟩ := talk_recvByte b (c.hear (by omega))
    have hset : Talk (s.setBuf i b) (t.setBuf i b) 1 [] :=
      htalk.map (g := fun u => u.setBuf i b) (fun _ => rfl) rfl rfl rfl rfl rfl
    have hcan : CanTalk (t.setBuf i b) bs.length [] := (htalk.can c).same rfl rfl rfl rfl rfl rfl
    obtain ⟨u, buf, hrest, hlast⟩ := ih (i + 1) hcan
    have hboth := hset.map (g := fun u => u.setPagebuf buf) (fun _ => rfl) rfl rfl rfl rfl rfl
    refine ⟨u, buf, ?_, by rw [List.length_cons, Nat.add_comm]; exact hboth.trans hlast⟩
    rw [receivePayload, bind_ok hrecv, bind_ok (update_run _ _), hrest]

/-- The header of a ProgramPage passes, and its payload and terminator can come. -/
theorem talk_programPage_header {i : Instr} {bs : List Byte} (hready : Ready s i bs)
    (hlen : (encode s.cfg i).length = 5 + payload.length) (hpos : 1 ≤ payload.length)
    (hpage : payload.length ≤ s.cfg.pageSize) (hbyte : s.cfg.pageSize ≤ 255) (lenHigh ty : Byte) :
    ∃ t, programHeader lenHigh (payloadLength payload) ty s = .ok ((), t) ∧
      Talk ((s.setLen (payloadLength payload)).setType ty) t 4 [] ∧ CanTalk t (payload.length + 1) bs := by
  have c : CanTalk s (4 + (payload.length + 1)) bs := by
    have hcan := canTalk_of_ready hready
    rwa [hlen, show 5 + payload.length = 4 + (payload.length + 1) by omega] at hcan
  obtain ⟨t, hheader, htalk⟩ :=
    talk_programHeader lenHigh _ ty (badProgramLength_payload hpos hpage hbyte) (c.hear (by omega))
  exact ⟨t, hheader, htalk, htalk.can (c.same rfl rfl rfl rfl rfl rfl)⟩

/-! ### ProgramPage 'F' -/

theorem erasePage_bootPages {p : Nat} (hs : s.Still) (hidle : s.flashOp = .idle)
    (hgrid : p % s.cfg.pageSize = 0) (hrange : p < s.cfg.flashSize) (hboot : s.cfg.bootStart ≤ p) :
    erasePage p s = .error (.refused .bootPages) := by
  rw [erasePage, bind_ok (checkPage_calm p hidle hgrid hrange), bind_ok (look_run _ _),
    bind_error (refuseIf_still (decide_eq_true hboot) hs _)]

/-- A ProgramPage 'F' is refused for its target: off a page base, outside FLASH, or, before or after its
payload, on the bootloader's own pages. -/
theorem programFlash_refused {x : Byte} (c : CanTalk s (payload.length + 1) []) (hidle : s.flashOp = .idle) :
    (s.flashAddress % s.cfg.pageSize ≠ 0 →
      programFlash s.cfg payload x s = .error (.refused .unaligned)) ∧
    (s.flashAddress % s.cfg.pageSize = 0 → s.cfg.flashSize ≤ s.flashAddress →
      programFlash s.cfg payload x s = .error (.refused .range)) ∧
    (s.flashAddress % s.cfg.pageSize = 0 → s.flashAddress < s.cfg.flashSize →
      s.cfg.bootStart ≤ s.flashAddress → programFlash s.cfg payload x s = .error (.refused .bootPages)) := by
  refine ⟨fun hoff => ?unaligned, fun hgrid hout => ?range, fun hgrid hin hboot => ?bootPages⟩
  case unaligned =>
    rw [programFlash, bind_ok (look_run _ _),
      bind_error (refuseIf_still (decide_eq_true hoff) (still_of_canTalk c) _)]
  case range =>
    rw [programFlash, bind_ok (look_run _ _), bind_ok (refuseIf_pass (by simpa using hgrid) _ s),
      bind_error (refuseIf_still (decide_eq_true hout) (still_of_canTalk c) _)]
  case bootPages =>
    rw [programFlash, bind_ok (look_run _ _), bind_ok (refuseIf_pass (by simpa using hgrid) _ s),
      bind_ok (refuseIf_pass (by simpa using hin) _ s)]
    cases hbank : isRww s.cfg s.flashAddress with
    | true => exact bind_error (erasePage_bootPages (still_of_canTalk c) hidle hgrid hin hboot) _
    | false =>
      obtain ⟨t, buf, hrecv, htalk⟩ := talk_receivePayload_pagebuf payload 0 (c.hear (by omega))
      have hcfg : t.cfg = s.cfg := htalk.cfg
      have hcan : CanTalk t 1 [] := htalk.can (c.same rfl rfl rfl rfl rfl rfl)
      have hop : t.flashOp = .idle := (htalk.field State.flashOp fun _ _ => rfl).trans hidle
      have herase : erasePage s.flashAddress t = .error (.refused .bootPages) :=
        erasePage_bootPages (still_of_canTalk hcan) hop (hcfg ▸ hgrid) (hcfg ▸ hin) (hcfg ▸ hboot)
      exact (bind_ok (pure_run _ _) _).trans ((bind_ok hrecv _).trans (bind_error herase _))

/-- The header of a ProgramPage 'F' passes, and leaves the flash address and the controller as they are. -/
theorem exec_programPageF_header {lenHigh x : Byte}
    (hready : Ready s (.programPageF lenHigh payload x) []) (hpos : 1 ≤ payload.length)
    (hpage : payload.length ≤ s.cfg.pageSize) (hbyte : s.cfg.pageSize ≤ 255) :
    ∃ t, t.cfg = s.cfg ∧ t.flashAddress = s.flashAddress ∧ t.flashOp = s.flashOp ∧
      CanTalk t (payload.length + 1) [] ∧
      ∀ why, programFlash s.cfg payload x t = .error (.refused why) →
        exec (.programPageF lenHigh payload x) s = .refused why := by
  obtain ⟨t, hheader, htalk, c⟩ := talk_programPage_header hready
    (Laws.EncodeLength.programPageF lenHigh payload x s.cfg (decide_eq_true (hpage.trans hbyte)))
    hpos hpage hbyte lenHigh Config.typeFlash
  refine ⟨t, htalk.cfg, htalk.field State.flashAddress fun _ _ => rfl,
    htalk.field State.flashOp fun _ _ => rfl, c, fun why hflash => runRule_refused ?_⟩
  rw [programPageFRule, bind_ok hheader, bind_error hflash]

/-- Settles O35: the header of an otherwise legal request passes, and its target is what is refused. -/
theorem flashTargetRefused : Obligations.FlashTargetRefused := by
  intro s lenHigh payload x hready hpos hpage hwf hidle
  obtain ⟨t, hcfg, haddr, hop, c, hexec⟩ :=
    exec_programPageF_header hready hpos hpage (pageSize_le_of_wf hwf)
  have hrefused := programFlash_refused (x := x) c (hop.trans hidle)
  rw [hcfg, haddr] at hrefused
  obtain ⟨hunaligned, hrange, hbootPages⟩ := hrefused
  exact ⟨fun hoff => hexec _ (hunaligned hoff), fun hgrid hout => hexec _ (hrange hgrid hout),
    fun hgrid hin hboot => hexec _ (hbootPages hgrid hin hboot)⟩

end ProgramPage

end Sys2Proof.Proofs
end

section
/-! SUPPORT. Where an access that leaves its memory, or carries ADDR past 0xFFFF, is refused (20_memory.md
R47, R64): the three byte loops are one induction along `State.cutShort`, given what each does for one byte. -/

namespace Sys2Proof.Proofs

open Sys2Proof Sys2Proof.Machine

/-! ### Where an access is cut short, byte by byte -/

section CutShort

variable {s t : State} {size a n k : Nat} {why : Refusal}

theorem cutShort_congr (haddr : t.addr = s.addr) : t.cutShort size a n = s.cutShort size a n := by
  simp only [State.cutShort, haddr]

theorem cutShort_zero : s.cutShort size a 0 = none := by
  have := s.addr.isLt
  simp only [State.cutShort]
  rw [if_neg (by omega), if_neg (by omega)]

theorem ne_zero_of_cutShort (h : s.cutShort size a n = some (k, why)) : n ≠ 0 := by
  rintro rfl
  simp [cutShort_zero] at h

theorem cutShort_outside (h : size ≤ a) : s.cutShort size a (n + 1) = some (0, .range) := by
  have := s.addr.isLt
  simp only [State.cutShort]
  rw [if_pos (by omega), Nat.sub_eq_zero_of_le h]

theorem cutShort_top (h : a < size) (htop : s.addr = 0xFFFF) :
    s.cutShort size a (n + 1) = some (1, .wrap) := by
  have haddr : s.addr.toNat = 65535 := by rw [htop]; rfl
  simp only [State.cutShort, haddr]
  rw [if_neg (by omega), if_pos (by omega)]

theorem toNat_succ {x : Word} (h : x ≠ 0xFFFF) : (x + 1).toNat = x.toNat + 1 := by
  have hne : x.toNat ≠ 65535 := fun heq => h (BitVec.eq_of_toNat_eq heq)
  have := x.isLt
  rw [BitVec.toNat_add, show (1 : Word).toNat = 1 from rfl, Nat.mod_eq_of_lt (by omega)]

/-- ADDR moved on by one, short of its wrap. -/
theorem advanced_addr_toNat (haddr : t.addr = s.addr) (htop : t.addr ≠ 0xFFFF) :
    (t.advanced 1).addr.toNat = s.addr.toNat + 1 := haddr ▸ toNat_succ htop

theorem cutShort_succ (h : a < size) (htop : s.addr ≠ 0xFFFF) :
    s.cutShort size a (n + 1) =
      ((s.advanced 1).cutShort size (a + 1) n).map fun cut => (cut.1 + 1, cut.2) := by
  have haddr : (s.advanced 1).addr.toNat = s.addr.toNat + 1 := advanced_addr_toNat rfl htop
  have := (s.advanced 1).addr.isLt
  rw [haddr] at this
  have hinside : size - a = size - (a + 1) + 1 := by omega
  have htoTop : 65536 - s.addr.toNat = 65536 - (s.addr.toNat + 1) + 1 := by omega
  simp only [State.cutShort, haddr, hinside, htoTop, Nat.add_lt_add_iff_right, Nat.add_le_add_iff_right]
  split
  · rfl
  · split <;> rfl

end CutShort

/-! ### One loop over the bytes of a memory -/

theorem advanceByte_top {s : State} (hs : s.Still) (htop : s.addr = 0xFFFF) :
    advanceByte s = .error (.refused .wrap) := by
  rw [advanceByte, bind_ok (look_run _ _), bind_error (refuseIf_still (decide_eq_true htop) hs _)]

theorem advanceByte_run {s : State} (htop : s.addr ≠ 0xFFFF) : advanceByte s = .ok ((), s.advanced 1) := by
  rw [advanceByte, bind_ok (look_run _ _), bind_ok (refuseIf_pass (decide_eq_false htop) _ s)]
  rfl

/-- What a rule does for one byte of a memory of `size` bytes, at the place `pos` of a state that is `ready`
for so many more bytes: it is refused outside the memory, and ends in the advance of ADDR inside. -/
structure ByteAccess (size : Nat) (pos : State → Nat) (ready : Nat → State → Prop) (m : Eng Unit) : Prop where
  outside : ∀ s, ready 0 s → size ≤ pos s → m s = .error (.refused .range)
  inside : ∀ s k, ready (k + 1) s → pos s < size → ∃ t, m s = advanceByte t ∧ t.Still ∧ t.addr = s.addr ∧
    (t.addr ≠ 0xFFFF → pos (t.advanced 1) = pos s + 1 ∧ ready k (t.advanced 1))

/-- A loop of such rules is refused where `State.cutShort` says. -/
theorem byteLoop_refused {size : Nat} {pos : State → Nat} {ready : Nat → State → Prop}
    {loop : Nat → Nat → Eng Unit} {body : Nat → Eng Unit}
    (hloop : ∀ n i, loop (n + 1) i = (body i >>= fun _ => loop n (i + 1)))
    (hbody : ∀ i, ByteAccess size pos ready (body i)) {s : State} {n i k : Nat} {why : Refusal}
    (hs : ready k s) (hcut : s.cutShort size (pos s) n = some (k, why)) :
    loop n i s = .error (.refused why) := by
  induction n generalizing s i k with
  | zero => simp [cutShort_zero] at hcut
  | succ n ih =>
    rw [hloop]
    by_cases hin : pos s < size
    · by_cases htop : s.addr = 0xFFFF
      · obtain ⟨rfl, rfl⟩ : 1 = k ∧ Refusal.wrap = why := by simpa [cutShort_top hin htop] using hcut
        obtain ⟨t, hrun, hstill, haddr, -⟩ := (hbody i).inside s 0 hs hin
        exact bind_error (hrun.trans (advanceByte_top hstill (haddr.trans htop))) _
      · rw [cutShort_succ hin htop, Option.map_eq_some_iff] at hcut
        obtain ⟨⟨j, why'⟩, hcut, hpair⟩ := hcut
        obtain ⟨rfl, rfl⟩ : j + 1 = k ∧ why' = why := by simpa using hpair
        obtain ⟨t, hrun, -, haddr, hnext⟩ := (hbody i).inside s j hs hin
        obtain ⟨hpos, hready⟩ := hnext (haddr ▸ htop)
        rw [bind_ok (hrun.trans (advanceByte_run (haddr ▸ htop)))]
        refine ih hready ?_
        rw [hpos, cutShort_congr (s := s.advanced 1) (by simp [State.advanced, haddr]), hcut]
    · have hout : size ≤ pos s := by omega
      obtain ⟨rfl, rfl⟩ : 0 = k ∧ Refusal.range = why := by simpa [cutShort_outside hout] using hcut
      exact bind_error ((hbody i).outside s hs hout) _

/-! ### The EEPROM write loop -/

section Eeprom

variable {s t : State} {c : Config}

theorem eeComplete_still (hs : s.Still) : (eeComplete s).Still := by
  obtain ⟨m, hframe⟩ := eeComplete_frame s
  rw [hframe]
  exact hs

theorem eeComplete_addr (s : State) : (eeComplete s).addr = s.addr := by
  obtain ⟨m, hframe⟩ := eeComplete_frame s
  rw [hframe]

theorem eeComplete_cfg (s : State) : (eeComplete s).cfg = s.cfg := by
  obtain ⟨m, hframe⟩ := eeComplete_frame s
  rw [hframe]

theorem eeWait_still (hs : s.Still) : eeWait s = .ok ((), eeComplete s) := by
  rw [eeWait, bind_ok (takePause_still hs.1 hs.2 _), update_run]

theorem eeWrite_still {a : Nat} (hs : s.Still) (ha : a < s.cfg.eepromSize) (b : Byte) :
    eeWrite a b s = .ok ((), ((eeComplete s).emit (.eeWrite a b)).latch a b) := by
  have hstill : ((eeComplete s).emit (.eeWrite a b)).Still := eeComplete_still hs
  rw [eeWrite, bind_ok (look_run _ _), bind_ok (refuseIf_pass (by simpa using ha) _ s),
    bind_ok (eeWait_still hs), bind_ok (emit_run _ _), bind_ok (takePause_still hstill.1 hstill.2 _),
    update_run]

theorem writeEepromByte_access (i : Nat) :
    ByteAccess c.eepromSize (fun s => s.addr.toNat) (fun _ s => s.cfg = c ∧ s.Still) (writeEepromByte i) where
  outside s hs hout := by
    obtain ⟨rfl, hstill⟩ := hs
    rw [writeEepromByte, look_id_bind, bind_error (refuseIf_still (decide_eq_true hout) hstill _)]
  inside s k hs hin := by
    obtain ⟨rfl, hstill⟩ := hs
    have hserviced : s.serviced.Still := ⟨hstill.1, hstill.2.serviced⟩
    have hwrite := eeWrite_still hserviced hin (s.bufByte i)
    have hdone : (eeComplete s.serviced).Still := eeComplete_still hserviced
    have haddr : (eeComplete s.serviced).addr = s.addr := eeComplete_addr s.serviced
    have hcfg : (eeComplete s.serviced).cfg = s.cfg := eeComplete_cfg s.serviced
    generalize eeComplete s.serviced = u at hwrite hdone haddr hcfg
    refine ⟨(u.emit (.eeWrite s.addr.toNat (s.bufByte i))).latch s.addr.toNat (s.bufByte i), ?run, hdone,
      haddr, fun htop => ⟨advanced_addr_toNat haddr htop, hcfg, hdone⟩⟩
    rw [writeEepromByte, look_id_bind, bind_ok (refuseIf_pass (by simpa using hin) _ s),
      bind_ok (serviceStep_calm hstill.1 hstill.2), bind_ok hwrite]

/-! ### The EEPROM read loop -/

theorem eeRead_still {a : Nat} (hs : s.Still) (ha : a < s.cfg.eepromSize) :
    eeRead a s = .ok (eepromByte (eeComplete s).eeprom a, (eeComplete s).emit (.eeRead a)) := by
  rw [eeRead, bind_ok (look_run _ _), bind_ok (refuseIf_pass (by simpa using ha) _ s),
    bind_ok (eeWait_still hs), bind_ok (emit_run _ _), look_run, State.emit_eeprom]

theorem eeComplete_eeBusy (s : State) : (eeComplete s).eeBusy = none := by
  obtain ⟨m, hframe⟩ := eeComplete_frame s
  rw [hframe]

theorem eeComplete_of_none (h : s.eeBusy = none) : eeComplete s = s := by
  rw [eeComplete, h]

/-- The `n` bytes of an EEPROM from address `a` on. -/
def eepromBytes (m : List Host.Cell) (a n : Nat) : List Byte :=
  (List.range n).map fun k => eepromByte m (a + k)

theorem eepromBytes_succ (m : List Host.Cell) (a n : Nat) :
    eepromBytes m a (n + 1) = eepromByte m a :: eepromBytes m (a + 1) n := by
  simp only [eepromBytes, List.range_succ_eq_map, List.map_cons, List.map_map, Nat.add_zero]
  congr 2
  funext k
  exact congrArg (eepromByte m) (by simp; omega)

/-- What a ReadPage 'E' answers depends on EEPROM, its controller and ADDR alone. -/
theorem eepromData_congr (heeprom : t.eeprom = s.eeprom) (hbusy : t.eeBusy = s.eeBusy)
    (haddr : t.addr = s.addr) (n : Nat) : t.eepromData n = s.eepromData n := by
  have hdone : (eeComplete t).eeprom = (eeComplete s).eeprom := by
    unfold eeComplete
    rw [hbusy]
    cases s.eeBusy with
    | none => exact heeprom
    | some q => exact congrArg (putCell · q.1 q.2) heeprom
  simp only [State.eepromData, hdone, haddr]

theorem canTalk_eeComplete {h : Nat} {bs : List Byte} (hcan : CanTalk s h bs) :
    CanTalk (eeComplete s) h bs := by
  obtain ⟨m, hframe⟩ := eeComplete_frame s
  rw [hframe]
  exact hcan.same rfl rfl rfl rfl rfl rfl

theorem readEepromByte_access :
    ByteAccess c.eepromSize (fun s => s.addr.toNat) (fun k s => s.cfg = c ∧ CanTalk s 0 (s.eepromData k))
      readEepromByte where
  outside s hs hout := by
    obtain ⟨rfl, hcan⟩ := hs
    rw [readEepromByte, look_id_bind,
      bind_error (refuseIf_still (decide_eq_true hout) (still_of_canTalk hcan) _)]
  inside s k hs hin := by
    obtain ⟨rfl, hcan⟩ := hs
    have hdata : s.eepromData (k + 1) = eepromByte (eeComplete s).eeprom s.addr.toNat ::
        eepromBytes (eeComplete s).eeprom (s.addr.toNat + 1) k := eepromBytes_succ _ _ _
    have hread := eeRead_still (still_of_canTalk hcan) hin
    rw [hdata] at hcan
    have hcanRead : CanTalk ((eeComplete s).emit (.eeRead s.addr.toNat)) 0 _ :=
      (talk_emit _ _ ⟨rfl, rfl⟩).can (canTalk_eeComplete hcan)
    obtain ⟨t, hsend, htalk, -⟩ := talk_sendByte _ hcanRead
    have hcanSent : CanTalk t 0 _ := htalk.can hcanRead
    have haddr : t.addr = s.addr := htalk.addr.trans (eeComplete_addr s)
    have hbusy : t.eeBusy = none := (htalk.field State.eeBusy fun _ _ => rfl).trans (eeComplete_eeBusy s)
    have heeprom : t.eeprom = (eeComplete s).eeprom := htalk.field State.eeprom fun _ _ => rfl
    refine ⟨t, ?run, still_of_canTalk hcanSent, haddr, fun htop => ?next⟩
    case run =>
      rw [readEepromByte, look_id_bind, bind_ok (refuseIf_pass (by simpa using hin) _ s)]
      exact (bind_ok hread _).trans (bind_ok hsend _)
    case next =>
      have hpos : (t.advanced 1).addr.toNat = s.addr.toNat + 1 := advanced_addr_toNat haddr htop
      have hrest : (t.advanced 1).eepromData k = eepromBytes (eeComplete s).eeprom (s.addr.toNat + 1) k := by
        have hdone : eeComplete (t.advanced 1) = t.advanced 1 := eeComplete_of_none hbusy
        rw [← heeprom, ← hpos, ← show (t.advanced 1).eeprom = t.eeprom from rfl]
        exact congrArg (fun u : State => eepromBytes u.eeprom (t.advanced 1).addr.toNat k) hdone
      refine ⟨hpos, htalk.cfg.trans (eeComplete_cfg s), ?_⟩
      rw [hrest]
      exact hcanSent.same rfl rfl rfl rfl rfl rfl

end Eeprom

/-! ### The FLASH read loop -/

section Flash

variable {s t : State} {c : Config}

/-- The `n` bytes agree with those that `host` fixes from address `a` on. -/
def Fits (host : Nat → Option Byte) (a n : Nat) (data : List Byte) : Prop :=
  data.length = n ∧ ∀ k b, k < n → host (a + k) = some b → data[k]? = some b

theorem mayRead_iff_fits {n : Nat} {data : List Byte} :
    s.MayRead n data ↔ Fits s.hostByte s.flashAddress n data := Iff.rfl

theorem exists_fits (host : Nat → Option Byte) (a n : Nat) : ∃ data, Fits host a n data :=
  ⟨(List.range n).map fun k => (host (a + k)).getD 0, by simp, fun k b hk hb => by simp [hk, hb]⟩

/-- A byte that fits at `a`, before bytes that fit from the next address on. -/
theorem fits_cons {host : Nat → Option Byte} {a n : Nat} {b : Byte} {data : List Byte}
    (hb : ∀ x, host a = some x → b = x) (hdata : Fits host (a + 1) n data) :
    Fits host a (n + 1) (b :: data) := by
  obtain ⟨hlen, hfits⟩ := hdata
  refine ⟨by rw [List.length_cons, hlen], fun k x hk hx => ?_⟩
  cases k with
  | zero => rw [hb x hx, List.getElem?_cons_zero]
  | succ k =>
    rw [List.getElem?_cons_succ]
    exact hfits k x (by omega) (by rwa [Nat.add_right_comm])

theorem talk_countDraw (s : State) : Talk s s.countDraw 0 [] :=
  ⟨rfl, fun _ => ⟨rfl, rfl, rfl, rfl⟩, by
    rw [List.drop_zero]; exact incoming_inbound ⟨rfl, rfl, rfl, rfl⟩ rfl rfl,
    (List.append_nil _).symm, (List.append_nil _).symm, noTransmission rfl, List.prefix_rfl,
    by rw [State.afterSending_nil]; exact ⟨rfl, rfl, Nat.le_refl _⟩, fun h => h⟩

theorem vbpUnpatch_calm {fa : Nat} (hpatched : s.cfg.vbpEnabled = true ∧ isPatchedAddress fa = true) :
    ∃ b t, vbpUnpatch fa s = .ok (b, t) ∧ Talk s t 0 [] ∧ ∀ x, s.hostByte fa = some x → b = x := by
  have hhost : s.hostByte fa = if s.shadowSet then some (s.shadowByte fa) else none := by
    rw [State.hostByte, if_pos hpatched]
  rw [vbpUnpatch, look_id_bind, ite_run, hhost]
  split
  · exact ⟨_, _, rfl, Talk.refl s, fun x hx => Option.some.inj hx⟩
  · exact ⟨_, _, rfl, talk_countDraw s, fun x hx => by cases hx⟩

theorem flashRead_calm {h : Nat} {bs : List Byte} (hcan : CanTalk s h bs) {fa : Nat}
    (hfa : fa < s.cfg.flashSize) (hplain : ¬ (s.cfg.vbpEnabled = true ∧ isPatchedAddress fa = true)) :
    ∃ b t, flashRead fa s = .ok (b, t) ∧ Talk s t 0 [] ∧ ∀ x, s.hostByte fa = some x → b = x := by
  have htalk : Talk s (s.emit (.flashRead fa)) 0 [] := talk_emit s _ ⟨rfl, rfl⟩
  have hdraw : Talk s (s.emit (.flashRead fa)).countDraw 0 [] := htalk.trans (talk_countDraw _)
  have hreadable : (s.emit (.flashRead fa)).readable fa = s.readable fa := rfl
  rw [flashRead, bind_ok (look_run _ _), bind_ok (refuseIf_pass (by simpa using hfa) _ s),
    bind_ok (record_still hcan.quiet hcan.awake _), look_id_bind, hreadable, State.emit_flash, State.hostByte,
    if_neg hplain]
  cases s.readable fa with
  | false => exact ⟨_, _, rfl, hdraw, fun x hx => by cases hx⟩
  | true =>
    cases flashCell s.flash fa with
    | byte b => exact ⟨b, _, rfl, htalk, fun x hx => Option.some.inj hx⟩
    | erased | undef => exact ⟨_, _, rfl, hdraw, fun x hx => by cases hx⟩

/-- The byte ReadPage answers is the one the rules fix, where they fix one. -/
theorem hostFlashRead_calm {h : Nat} {bs : List Byte} (hcan : CanTalk s h bs) {fa : Nat}
    (hfa : fa < s.cfg.flashSize) :
    ∃ b t, hostFlashRead fa s = .ok (b, t) ∧ Talk s t 0 [] ∧ ∀ x, s.hostByte fa = some x → b = x := by
  rw [hostFlashRead, bind_ok (look_run _ _), ite_run]
  split
  · exact vbpUnpatch_calm ‹_›
  · exact flashRead_calm hcan hfa ‹_›

theorem flashAddress_advanced (haddr : s.addr ≠ 0xFFFF) :
    (s.advanced 1).flashAddress = s.flashAddress + 1 := by
  have hnext : (s.advanced 1).addr.toNat = s.addr.toNat + 1 := advanced_addr_toNat rfl haddr
  have hext : (s.advanced 1).extValue = s.extValue := rfl
  rw [State.flashAddress, State.flashAddress, hnext, hext, Nat.add_assoc]

theorem readFlashByte_access :
    ByteAccess c.flashSize State.flashAddress
      (fun k s => s.cfg = c ∧ ∀ data, s.MayRead k data → CanTalk s 0 data) readFlashByte where
  outside s hs hout := by
    obtain ⟨rfl, hcan⟩ := hs
    obtain ⟨data, hdata⟩ := exists_fits s.hostByte s.flashAddress 0
    rw [readFlashByte, look_id_bind,
      bind_error (refuseIf_still (decide_eq_true hout) (still_of_canTalk (hcan data hdata)) _)]
  inside s k hs hin := by
    obtain ⟨rfl, hcan⟩ := hs
    obtain ⟨sample, hsample⟩ := exists_fits s.hostByte s.flashAddress (k + 1)
    obtain ⟨b, u, hread, htalkRead, hb⟩ := hostFlashRead_calm (hcan sample hsample) hin
    have hcanRead : ∀ data, Fits s.hostByte (s.flashAddress + 1) k data → CanTalk u 0 (b :: data) :=
      fun data hdata => htalkRead.can (hcan _ (fits_cons hb hdata))
    obtain ⟨rest, hrest⟩ := exists_fits s.hostByte (s.flashAddress + 1) k
    obtain ⟨t, hsend, htalkSend, -⟩ := talk_sendByte b (hcanRead rest hrest)
    have htalk : Talk s t 0 [b] := htalkRead.trans htalkSend
    have hcanSent : ∀ data, Fits s.hostByte (s.flashAddress + 1) k data → CanTalk t 0 data :=
      fun data hdata => htalkSend.can (hcanRead data hdata)
    refine ⟨t, ?run, still_of_canTalk (hcanSent rest hrest), htalk.addr, fun htop => ?next⟩
    case run =>
      rw [readFlashByte, look_id_bind, bind_ok (refuseIf_pass (by simpa using hin) _ s), bind_ok hread,
        bind_ok hsend]
    case next =>
      have hplace : (t.advanced 1).flashAddress = s.flashAddress + 1 := by
        rw [flashAddress_advanced htop, htalk.field State.flashAddress fun _ _ => rfl]
      have hhost : (t.advanced 1).hostByte = s.hostByte :=
        htalk.field (fun v => (v.advanced 1).hostByte) fun _ _ => rfl
      refine ⟨hplace, htalk.cfg, fun data hdata => ?_⟩
      rw [mayRead_iff_fits, hplace, hhost] at hdata
      exact (hcanSent data hdata).same rfl rfl rfl rfl rfl rfl

end Flash

/-! ### The commands -/

section Commands

variable {s : State} {n lenHigh ty x : Byte} {payload : List Byte} {k : Nat} {why : Refusal}

/-- The header of a ReadPage passes, with the terminator acknowledged. -/
theorem talk_readHeader {bs : List Byte} (hn : n ≠ 0) (c : CanTalk s 5 (s.cfg.respInsync :: bs)) :
    ∃ t, readHeader lenHigh n ty s.cfg.term s = .ok ((), t) ∧
      Talk (s.headed n ty) t 5 [s.cfg.respInsync] := by
  obtain ⟨s1, hopen, htalk1⟩ := talk_openRequest s.cfg.cmdReadPage .readPage (c.hear (by omega))
  have c1 : CanTalk s1 4 (s.cfg.respInsync :: bs) := htalk1.can (h' := 4) c
  obtain ⟨s2, hhigh, htalk2⟩ := talk_recvByte lenHigh (c1.hear (by omega))
  have c2 : CanTalk s2 3 (s.cfg.respInsync :: bs) := htalk2.can (h' := 3) c1
  obtain ⟨s3, hlen, htalk3⟩ := talk_recvByte n (c2.hear (by omega))
  have c3 : CanTalk (s3.setLen n) 2 (s.cfg.respInsync :: bs) :=
    (htalk3.can (h' := 2) c2).same rfl rfl rfl rfl rfl rfl
  have htalkLen := ((htalk1.trans htalk2).trans htalk3).map (g := fun u => u.setLen n)
    (fun _ => rfl) rfl rfl rfl rfl rfl
  obtain ⟨s4, htype, htalk4⟩ := talk_recvByte ty (c3.hear (by omega))
  have c4 : CanTalk (s4.setType ty) 1 (s.cfg.respInsync :: bs) :=
    (htalk4.can (h' := 1) c3).same rfl rfl rfl rfl rfl rfl
  have htalkType := (htalkLen.trans htalk4).map (g := fun u => u.setType ty)
    (fun _ => rfl) rfl rfl rfl rfl rfl
  have hcfg : (s4.setType ty).cfg = s.cfg := htalkType.cfg
  rw [← hcfg] at c4
  obtain ⟨t, hterm, htalk5⟩ := talk_verifyTerminator rfl c4
  rw [hcfg] at hterm htalk5
  refine ⟨t, ?_, htalkType.trans htalk5⟩
  rw [readHeader, bind_ok (look_run _ _), bind_ok hopen, bind_ok hhigh, bind_ok hlen,
    bind_ok (update_run _ _), bind_ok htype, bind_ok (update_run _ _), bind_ok hterm]
  exact refuseIf_pass (decide_eq_false hn) _ t

/-- A ReadPage whose read loop is refused is refused. -/
theorem readPage_refused {read : Nat → Eng Unit} {t : State}
    (hheader : readHeader lenHigh n ty x s = .ok ((), t)) (hread : read n.toNat t = .error (.refused why)) :
    runRule (readHeader lenHigh n ty x >>= fun _ => read n.toNat >>= fun _ => respond) s = .refused why :=
  runRule_refused ((bind_ok hheader _).trans (bind_error hread _))

theorem readLength_ne_zero {size a : Nat} (hcut : s.cutShort size a n.toNat = some (k, why)) : n ≠ 0 :=
  fun hzero => ne_zero_of_cutShort hcut (by rw [hzero]; rfl)

theorem exec_readPageF_refused (hcut : s.cutShort s.cfg.flashSize s.flashAddress n.toNat = some (k, why))
    (hready : ∀ data, s.MayRead k data →
      Ready s (.readPageF lenHigh n s.cfg.term) (s.cfg.respInsync :: data)) :
    exec (.readPageF lenHigh n s.cfg.term) s = .refused why := by
  have hcan : ∀ data, s.MayRead k data → CanTalk s 5 (s.cfg.respInsync :: data) :=
    fun data hdata => canTalk_of_ready (hready data hdata)
  obtain ⟨sample, hsample⟩ := exists_fits s.hostByte s.flashAddress k
  obtain ⟨t, hheader, htalk⟩ := talk_readHeader (lenHigh := lenHigh) (ty := Config.typeFlash)
    (readLength_ne_zero hcut) (hcan sample hsample)
  have hplace : t.flashAddress = s.flashAddress := htalk.field State.flashAddress fun _ _ => rfl
  have hmayRead : t.MayRead k = s.MayRead k := htalk.field (fun u => u.MayRead k) fun _ _ => rfl
  have hcanRead : ∀ data, t.MayRead k data → CanTalk t 0 data := fun data hdata =>
    htalk.can ((hcan data (hmayRead ▸ hdata)).same rfl rfl rfl rfl rfl rfl)
  exact readPage_refused hheader (byteLoop_refused (loop := fun n _ => readFlash n) (i := 0) (fun _ _ => rfl)
    (fun _ => readFlashByte_access) ⟨htalk.cfg, hcanRead⟩ (by rwa [hplace, cutShort_congr htalk.addr]))

theorem exec_readPageE_refused (hcut : s.cutShort s.cfg.eepromSize s.addr.toNat n.toNat = some (k, why))
    (hready : Ready s (.readPageE lenHigh n s.cfg.term) (s.cfg.respInsync :: s.eepromData k)) :
    exec (.readPageE lenHigh n s.cfg.term) s = .refused why := by
  have hcan : CanTalk s 5 (s.cfg.respInsync :: s.eepromData k) := canTalk_of_ready hready
  obtain ⟨t, hheader, htalk⟩ := talk_readHeader (lenHigh := lenHigh) (ty := Config.typeEeprom)
    (readLength_ne_zero hcut) hcan
  have haddr : t.addr = s.addr := htalk.addr
  have hcanRead : CanTalk t 0 (s.eepromData k) := htalk.can (hcan.same rfl rfl rfl rfl rfl rfl)
  have hdata : t.eepromData k = s.eepromData k :=
    eepromData_congr (s := s) (htalk.field State.eeprom fun _ _ => rfl)
      (htalk.field State.eeBusy fun _ _ => rfl) haddr k
  rw [← hdata] at hcanRead
  exact readPage_refused hheader (byteLoop_refused (loop := fun n _ => readEeprom n) (i := 0) (fun _ _ => rfl)
    (fun _ => readEepromByte_access) ⟨htalk.cfg, hcanRead⟩ (by rwa [haddr, cutShort_congr haddr]))

theorem exec_programPageE_refused
    (hcut : s.cutShort s.cfg.eepromSize s.addr.toNat payload.length = some (k, why))
    (hpage : payload.length ≤ s.cfg.pageSize) (hbyte : s.cfg.pageSize ≤ 255)
    (hready : Ready s (.programPageE lenHigh payload s.cfg.term) [s.cfg.respInsync]) :
    exec (.programPageE lenHigh payload s.cfg.term) s = .refused why := by
  have hpos : 1 ≤ payload.length := Nat.one_le_iff_ne_zero.2 (ne_zero_of_cutShort hcut)
  obtain ⟨t, hheader, htalk, c1⟩ := talk_programPage_header hready
    (Laws.EncodeLength.programPageE lenHigh payload s.cfg.term s.cfg (decide_eq_true (hpage.trans hbyte)))
    hpos hpage hbyte lenHigh Config.typeEeprom
  obtain ⟨u, buf, hrecv, htalkPayload⟩ := talk_receivePayload_pagebuf payload 0 (c1.hear (by omega))
  have c2 : CanTalk u 1 [s.cfg.respInsync] := htalkPayload.can (c1.same rfl rfl rfl rfl rfl rfl)
  have hcfg : u.cfg = s.cfg := htalkPayload.cfg.trans htalk.cfg
  rw [← hcfg] at c2
  obtain ⟨v, hterm, htalkTerm⟩ := talk_verifyTerminator rfl c2
  have c3 : CanTalk v 0 [] := htalkTerm.can c2
  have haddr : v.addr = s.addr := htalkTerm.addr.trans (htalkPayload.addr.trans htalk.addr)
  have hwrite : writeEeprom payload.length 0 v = .error (.refused why) :=
    byteLoop_refused (fun _ _ => rfl) writeEepromByte_access
      ⟨htalkTerm.cfg.trans hcfg, still_of_canTalk c3⟩ (by rwa [haddr, cutShort_congr haddr])
  refine runRule_refused ?_
  rw [programPageERule, bind_ok hheader, bind_ok hrecv, ← hcfg, bind_ok hterm, bind_error hwrite]

/-- Settles O36: each of the three commands runs up to its byte loop, which is refused where `State.cutShort`
says. -/
theorem memoryEndRefused : Obligations.MemoryEndRefused := by
  intro s lenHigh n payload k why
  exact ⟨exec_readPageF_refused, exec_readPageE_refused, exec_programPageE_refused⟩

end Commands

end Sys2Proof.Proofs
end

section
/-! SUPPORT. The decoder against the encoder (30_encoding.md R70 to R84). What each format of R72 reads is said
once, as an `↔`; read from right to left it decodes what was encoded, from left to right it writes back what was
decoded. -/

namespace Sys2Proof.Proofs

open Sys2Proof Sys2Proof.Machine

/-! ### The command byte -/

/-- The byte that opens the requests of a class (30_encoding.md R71); class Other has no byte of its own. -/
def commandByte (c : Config) : Command → Option Byte
  | .getParameter => some c.cmdGetParameter
  | .setDevice => some c.cmdSetDevice
  | .setDeviceExt => some c.cmdSetDeviceExt
  | .loadAddress => some c.cmdLoadAddress
  | .universal => some c.cmdUniversal
  | .programPage => some c.cmdProgPage
  | .readPage => some c.cmdReadPage
  | .readSignature => some c.cmdReadSign
  | .leaveProgMode => some c.cmdLeaveProgMode
  | .other => none

section CommandByte

variable {c : Config} {a b : Byte} {k : Command}

theorem commandByte_eq_none_iff : commandByte c k = none ↔ k = .other := by
  cases k <;> simp [commandByte]

/-- Whatever the configuration, the class of a byte is opened by that byte, or is Other. -/
theorem commandByte_classify (c : Config) (b : Byte) :
    commandByte c (classify c b) = if b ∈ c.commandBytes then some b else none := by
  unfold classify
  split_ifs <;> simp_all [commandByte, Config.commandBytes]

theorem eq_of_classify (hk : classify c b = k) (ha : commandByte c k = some a) : b = a := by
  have hbyte := commandByte_classify c b
  rw [hk, ha] at hbyte
  split at hbyte
  · exact (Option.some.inj hbyte).symm
  · cases hbyte

theorem classify_eq_other_iff : classify c b = .other ↔ b ∉ c.commandBytes := by
  rw [← commandByte_eq_none_iff (c := c), commandByte_classify]
  simp

/-- Distinct command bytes classify as their own classes (30_encoding.md R71, 00_scope.md R6). -/
theorem classify_commandByte (hdistinct : c.commandsDistinct = true) (hb : commandByte c k = some b) :
    classify c b = k := by
  have hearlier : c.commandBytes.reverse.Nodup := List.nodup_reverse.2 (of_decide_eq_true hdistinct)
  simp only [Config.commandBytes, List.reverse_cons, List.reverse_nil, List.nil_append, List.cons_append,
    List.nodup_cons, List.mem_cons, not_or] at hearlier
  cases k <;> simp_all [commandByte, classify]

end CommandByte

/-- Settles O6. -/
theorem classification : Obligations.Classification := by
  intro c hdistinct
  refine ⟨?_, ?_, ?_, ?_, ?_, ?_, ?_, ?_, ?_, fun b => classify_eq_other_iff⟩
  all_goals exact classify_commandByte hdistinct rfl

/-! ### The formats of the requests -/

section Formats

variable {c : Config} {b : Byte} {bs rest : List Byte} {i : Instr} {k : Command} {n : Nat}

theorem takeBody_eq_ok_iff {body : List Byte} {t : Byte} :
    takeBody k n bs = .ok (body, t, rest) ↔ body.length = n ∧ bs = body ++ t :: rest := by
  unfold takeBody
  constructor
  · intro htake
    split at htake
    next t' rest' hdrop =>
      obtain ⟨rfl, rfl, rfl⟩ : bs.take n = body ∧ t' = t ∧ rest' = rest := by simpa using htake
      have hlt : n < bs.length := by
        by_contra hge
        simp [List.drop_eq_nil_of_le (Nat.le_of_not_lt hge)] at hdrop
      exact ⟨List.length_take_of_le hlt.le, by rw [← hdrop, List.take_append_drop]⟩
    next => cases htake
  · rintro ⟨rfl, rfl⟩
    simp

/-- The formats with a body: `f` makes the instruction of the body and the byte due as terminator. -/
theorem map_takeBody_eq_ok_iff (f : List Byte → Byte → Instr) :
    (takeBody k n bs).map (fun x => (f x.1 x.2.1, x.2.2)) = .ok (i, rest) ↔
      ∃ body t, i = f body t ∧ body.length = n ∧ bs = body ++ t :: rest := by
  simp only [← takeBody_eq_ok_iff (k := k)]
  rcases takeBody k n bs with e | ⟨body, t, rest'⟩
  · simp [Except.map]
  · simp [Except.map, eq_comm]

theorem decodeRequest_getParameter_iff (hk : classify c b = .getParameter) :
    decodeRequest c (b :: bs) = .ok (i, rest) ↔ ∃ p t, i = .getParameter p t ∧ bs = p :: t :: rest := by
  rcases bs with _ | ⟨p, _ | ⟨t, bs⟩⟩ <;> simp [decodeRequest, hk, eq_comm]

theorem decodeRequest_setDevice_iff (hk : classify c b = .setDevice) :
    decodeRequest c (b :: bs) = .ok (i, rest) ↔
      ∃ body t, i = .setDevice body t ∧ body.length = Config.setDeviceLen ∧ bs = body ++ t :: rest := by
  rw [← map_takeBody_eq_ok_iff (k := .setDevice)]
  simp only [decodeRequest, hk]
  cases takeBody .setDevice Config.setDeviceLen bs <;> rfl

theorem decodeRequest_setDeviceExt_iff (hk : classify c b = .setDeviceExt) :
    decodeRequest c (b :: bs) = .ok (i, rest) ↔
      ∃ body t, i = .setDeviceExt body t ∧ body.length = Config.setDeviceExtLen ∧
        bs = body ++ t :: rest := by
  rw [← map_takeBody_eq_ok_iff (k := .setDeviceExt)]
  simp only [decodeRequest, hk]
  cases takeBody .setDeviceExt Config.setDeviceExtLen bs <;> rfl

theorem decodeRequest_loadAddress_iff (hk : classify c b = .loadAddress) :
    decodeRequest c (b :: bs) = .ok (i, rest) ↔
      ∃ lo hi t, i = .loadAddress lo hi t ∧ bs = lo :: hi :: t :: rest := by
  rcases bs with _ | ⟨lo, _ | ⟨hi, _ | ⟨t, bs⟩⟩⟩ <;> simp [decodeRequest, hk, eq_comm]

theorem decodeRequest_universal_iff (hk : classify c b = .universal) :
    decodeRequest c (b :: bs) = .ok (i, rest) ↔
      ∃ body t, i = .universal body t ∧ body.length = Config.universalLen ∧ bs = body ++ t :: rest := by
  rw [← map_takeBody_eq_ok_iff (k := .universal)]
  simp only [decodeRequest, hk]
  cases takeBody .universal Config.universalLen bs <;> rfl

theorem decodeRequest_readSignature_iff (hk : classify c b = .readSignature) :
    decodeRequest c (b :: bs) = .ok (i, rest) ↔ ∃ t, i = .readSignature t ∧ bs = t :: rest := by
  cases bs <;> simp [decodeRequest, hk, eq_comm]

theorem decodeRequest_leaveProgMode_iff (hk : classify c b = .leaveProgMode) :
    decodeRequest c (b :: bs) = .ok (i, rest) ↔ ∃ t, i = .leaveProgMode t ∧ bs = t :: rest := by
  cases bs <;> simp [decodeRequest, hk, eq_comm]

theorem decodeRequest_other_iff (hk : classify c b = .other) :
    decodeRequest c (b :: bs) = .ok (i, rest) ↔ ∃ t, i = otherOf b t ∧ bs = t :: rest := by
  cases bs <;> simp [decodeRequest, hk, eq_comm]

theorem decodeRequest_programPage (hk : classify c b = .programPage) :
    decodeRequest c (b :: bs) = decodeProgram bs := by
  simp only [decodeRequest, hk]

theorem decodeRequest_readPage (hk : classify c b = .readPage) :
    decodeRequest c (b :: bs) = decodeRead bs := by
  simp only [decodeRequest, hk]

/-! ### Requests with a memory type -/

theorem decodeProgram_flash_iff {lh n : Byte} :
    decodeProgram (lh :: n :: Config.typeFlash :: bs) = .ok (i, rest) ↔
      ∃ payload t, i = .programPageF lh payload t ∧ payload.length = n.toNat ∧
        bs = payload ++ t :: rest := by
  rw [← map_takeBody_eq_ok_iff (k := .programPage), decodeProgram, if_pos rfl]
  cases takeBody .programPage n.toNat bs <;> rfl

theorem decodeProgram_eeprom_iff {lh n : Byte} :
    decodeProgram (lh :: n :: Config.typeEeprom :: bs) = .ok (i, rest) ↔
      ∃ payload t, i = .programPageE lh payload t ∧ payload.length = n.toNat ∧
        bs = payload ++ t :: rest := by
  rw [← map_takeBody_eq_ok_iff (k := .programPage), decodeProgram,
    if_neg (show Config.typeEeprom ≠ Config.typeFlash by decide), if_pos rfl]
  cases takeBody .programPage n.toNat bs <;> rfl

theorem decodeProgram_badType {lh n ty : Byte} (hflash : ty ≠ Config.typeFlash)
    (heeprom : ty ≠ Config.typeEeprom) :
    decodeProgram (lh :: n :: ty :: bs) = .ok (.programPageBadType lh n ty, bs) := by
  rw [decodeProgram, if_neg hflash, if_neg heeprom]

/-- The ReadPage request with this type byte (30_encoding.md R77). -/
def readOf (lh n ty t : Byte) : Instr :=
  if ty = Config.typeFlash then .readPageF lh n t
  else if ty = Config.typeEeprom then .readPageE lh n t
  else .readPageBadType lh n ty t

theorem decodeRead_cons {lh n ty t : Byte} :
    decodeRead (lh :: n :: ty :: t :: bs) = .ok (readOf lh n ty t, bs) := by
  simp only [decodeRead, readOf]
  split_ifs <;> rfl

theorem decodeRead_iff : decodeRead bs = .ok (i, rest) ↔
    ∃ lh n ty t, i = readOf lh n ty t ∧ bs = lh :: n :: ty :: t :: rest := by
  rcases bs with _ | ⟨lh, _ | ⟨n, _ | ⟨ty, _ | ⟨t, bs⟩⟩⟩⟩
  case cons.cons.cons.cons => simp [decodeRead_cons, eq_comm]
  all_goals simp [decodeRead]

theorem readOf_badType {lh n ty t : Byte} (hflash : ty ≠ Config.typeFlash)
    (heeprom : ty ≠ Config.typeEeprom) : readOf lh n ty t = .readPageBadType lh n ty t := by
  rw [readOf, if_neg hflash, if_neg heeprom]

theorem otherOf_eq_other {t : Byte} (hsync : b ≠ Config.getSyncByte) (henter : b ≠ Config.enterProgModeByte) :
    otherOf b t = .other b t := by
  rw [otherOf, if_neg hsync, if_neg henter]

end Formats

/-! ### Encoding what was decoded -/

/-- The request `i` is a reading of `bs` up to `rest`: well-formed, no packet, and written as those bytes. -/
structure WrittenBack (c : Config) (i : Instr) (bs rest : List Byte) : Prop where
  wf : i.wf c = true
  request : i.isPacket = false
  bytes : encode c i ++ rest = bs

section WrittenBack

variable {c : Config} {bs rest : List Byte} {i : Instr}

theorem writtenBack_readOf (lh n ty t : Byte) :
    WrittenBack c (readOf lh n ty t) (c.cmdReadPage :: lh :: n :: ty :: t :: rest) rest := by
  unfold readOf
  split_ifs with hflash heeprom
  · exact ⟨rfl, rfl, by rw [hflash]; rfl⟩
  · exact ⟨rfl, rfl, by rw [heeprom]; rfl⟩
  · exact ⟨decide_eq_true ⟨hflash, heeprom⟩, rfl, rfl⟩

theorem writtenBack_otherOf {b : Byte} (hb : b ∉ c.commandBytes) (t : Byte) :
    WrittenBack c (otherOf b t) (b :: t :: rest) rest := by
  unfold otherOf
  split_ifs with hsync henter
  · exact ⟨decide_eq_true (hsync ▸ hb), rfl, by rw [hsync]; rfl⟩
  · exact ⟨decide_eq_true (henter ▸ hb), rfl, by rw [henter]; rfl⟩
  · exact ⟨decide_eq_true ⟨hb, hsync, henter⟩, rfl, rfl⟩

/-- The length byte read is the one the encoder writes (30_encoding.md R72 `F_PROG`). -/
theorem ofNat_length_eq {payload : List Byte} {n : Byte} (hlen : payload.length = n.toNat) :
    BitVec.ofNat 8 payload.length = n := by
  rw [hlen, BitVec.ofNat_toNat, BitVec.setWidth_eq]

theorem length_le_of_eq_toNat {payload : List Byte} {n : Byte} (hlen : payload.length = n.toNat) :
    payload.length ≤ 255 := by
  rw [hlen]
  exact Nat.le_of_lt_succ n.isLt

theorem writtenBack_of_decodeProgram (h : decodeProgram bs = .ok (i, rest)) :
    WrittenBack c i (c.cmdProgPage :: bs) rest := by
  rcases bs with _ | ⟨lh, _ | ⟨n, _ | ⟨ty, bs⟩⟩⟩
  case cons.cons.cons =>
    by_cases hflash : ty = Config.typeFlash
    · subst hflash
      obtain ⟨payload, t, rfl, hlen, rfl⟩ := decodeProgram_flash_iff.1 h
      exact ⟨decide_eq_true (length_le_of_eq_toNat hlen), rfl, by simp [encode, ofNat_length_eq hlen]⟩
    by_cases heeprom : ty = Config.typeEeprom
    · subst heeprom
      obtain ⟨payload, t, rfl, hlen, rfl⟩ := decodeProgram_eeprom_iff.1 h
      exact ⟨decide_eq_true (length_le_of_eq_toNat hlen), rfl, by simp [encode, ofNat_length_eq hlen]⟩
    · rw [decodeProgram_badType hflash heeprom] at h
      cases h
      exact ⟨decide_eq_true ⟨hflash, heeprom⟩, rfl, rfl⟩
  all_goals cases h

theorem writtenBack_of_decodeRequest (h : decodeRequest c bs = .ok (i, rest)) : WrittenBack c i bs rest := by
  cases bs with
  | nil => cases h
  | cons b bs =>
    cases hk : classify c b with
    | getParameter =>
      obtain ⟨p, t, rfl, rfl⟩ := (decodeRequest_getParameter_iff hk).1 h
      exact ⟨rfl, rfl, by rw [eq_of_classify hk rfl]; rfl⟩
    | setDevice =>
      obtain ⟨body, t, rfl, hlen, rfl⟩ := (decodeRequest_setDevice_iff hk).1 h
      exact ⟨decide_eq_true hlen, rfl, by simp [encode, eq_of_classify hk rfl]⟩
    | setDeviceExt =>
      obtain ⟨body, t, rfl, hlen, rfl⟩ := (decodeRequest_setDeviceExt_iff hk).1 h
      exact ⟨decide_eq_true hlen, rfl, by simp [encode, eq_of_classify hk rfl]⟩
    | loadAddress =>
      obtain ⟨lo, hi, t, rfl, rfl⟩ := (decodeRequest_loadAddress_iff hk).1 h
      exact ⟨rfl, rfl, by rw [eq_of_classify hk rfl]; rfl⟩
    | universal =>
      obtain ⟨body, t, rfl, hlen, rfl⟩ := (decodeRequest_universal_iff hk).1 h
      exact ⟨decide_eq_true hlen, rfl, by simp [encode, eq_of_classify hk rfl]⟩
    | programPage =>
      rw [decodeRequest_programPage hk] at h
      rw [eq_of_classify hk rfl]
      exact writtenBack_of_decodeProgram h
    | readPage =>
      rw [decodeRequest_readPage hk] at h
      obtain ⟨lh, n, ty, t, rfl, rfl⟩ := decodeRead_iff.1 h
      rw [eq_of_classify hk rfl]
      exact writtenBack_readOf lh n ty t
    | readSignature =>
      obtain ⟨t, rfl, rfl⟩ := (decodeRequest_readSignature_iff hk).1 h
      exact ⟨rfl, rfl, by rw [eq_of_classify hk rfl]; rfl⟩
    | leaveProgMode =>
      obtain ⟨t, rfl, rfl⟩ := (decodeRequest_leaveProgMode_iff hk).1 h
      exact ⟨rfl, rfl, by rw [eq_of_classify hk rfl]; rfl⟩
    | other =>
      obtain ⟨t, rfl, rfl⟩ := (decodeRequest_other_iff hk).1 h
      exact writtenBack_otherOf (classify_eq_other_iff.1 hk) t

end WrittenBack

/-- Settles O3: class by class, what the format reads is what the encoder writes. -/
theorem encodeDecodeAgree : Obligations.EncodeDecodeAgree := by
  intro c i bs rest h
  obtain ⟨hwf, hrequest, hbytes⟩ := writtenBack_of_decodeRequest h
  exact ⟨hwf, hrequest, hbytes⟩

/-! ### Decoding what was encoded -/

theorem length_eq_toNat_ofNat {payload : List Byte} (hlen : payload.length ≤ 255) :
    payload.length = (BitVec.ofNat 8 payload.length).toNat := by
  rw [BitVec.toNat_ofNat, Nat.mod_eq_of_lt (by omega)]

/-- Settles O1: a request is read by the class of its command byte, and there by its format. -/
theorem decodeEncodeAgree : Obligations.DecodeEncodeAgree := by
  intro c i rest hdistinct hwf hrequest
  have class_of : ∀ {k b}, commandByte c k = some b → classify c b = k := classify_commandByte hdistinct
  cases i with
  | getParameter p t => exact (decodeRequest_getParameter_iff (class_of rfl)).2 ⟨p, t, rfl, rfl⟩
  | setDevice body t =>
    exact (decodeRequest_setDevice_iff (class_of rfl)).2
      ⟨body, t, rfl, of_decide_eq_true hwf, (List.append_cons body t rest).symm⟩
  | setDeviceExt body t =>
    exact (decodeRequest_setDeviceExt_iff (class_of rfl)).2
      ⟨body, t, rfl, of_decide_eq_true hwf, (List.append_cons body t rest).symm⟩
  | loadAddress lo hi t => exact (decodeRequest_loadAddress_iff (class_of rfl)).2 ⟨lo, hi, t, rfl, rfl⟩
  | universal body t =>
    exact (decodeRequest_universal_iff (class_of rfl)).2
      ⟨body, t, rfl, of_decide_eq_true hwf, (List.append_cons body t rest).symm⟩
  | programPageF lh payload t =>
    exact (decodeRequest_programPage (class_of rfl)).trans (decodeProgram_flash_iff.2
      ⟨payload, t, rfl, length_eq_toNat_ofNat (of_decide_eq_true hwf), (List.append_cons payload t rest).symm⟩)
  | programPageE lh payload t =>
    exact (decodeRequest_programPage (class_of rfl)).trans (decodeProgram_eeprom_iff.2
      ⟨payload, t, rfl, length_eq_toNat_ofNat (of_decide_eq_true hwf), (List.append_cons payload t rest).symm⟩)
  | readPageF lh n t =>
    exact (decodeRequest_readPage (class_of rfl)).trans (decodeRead_iff.2 ⟨lh, n, _, t, rfl, rfl⟩)
  | readPageE lh n t =>
    exact (decodeRequest_readPage (class_of rfl)).trans (decodeRead_iff.2 ⟨lh, n, _, t, rfl, rfl⟩)
  | readSignature t => exact (decodeRequest_readSignature_iff (class_of rfl)).2 ⟨t, rfl, rfl⟩
  | leaveProgMode t => exact (decodeRequest_leaveProgMode_iff (class_of rfl)).2 ⟨t, rfl, rfl⟩
  | other b t =>
    obtain ⟨hother, hsync, henter⟩ := of_decide_eq_true hwf
    exact (decodeRequest_other_iff (classify_eq_other_iff.2 hother)).2
      ⟨t, (otherOf_eq_other hsync henter).symm, rfl⟩
  | programPageBadType lh n ty =>
    obtain ⟨hflash, heeprom⟩ := of_decide_eq_true hwf
    exact (decodeRequest_programPage (class_of rfl)).trans (decodeProgram_badType hflash heeprom)
  | readPageBadType lh n ty t =>
    obtain ⟨hflash, heeprom⟩ := of_decide_eq_true hwf
    exact (decodeRequest_readPage (class_of rfl)).trans
      (decodeRead_iff.2 ⟨lh, n, ty, t, (readOf_badType hflash heeprom).symm, rfl⟩)
  | pkt tag payload => cases hrequest
  | hello a0 a1 a2 m body => cases hrequest
  | getSync t =>
    exact (decodeRequest_other_iff (classify_eq_other_iff.2 (of_decide_eq_true hwf))).2 ⟨t, rfl, rfl⟩
  | enterProgMode t =>
    exact (decodeRequest_other_iff (classify_eq_other_iff.2 (of_decide_eq_true hwf))).2 ⟨t, rfl, rfl⟩

/-! ### Packets -/

section Packets

variable {tag a0 a1 a2 m : Byte} {payload body : List Byte}

theorem decodePacket_pkt (hcap : (tag :: payload).length ≤ Config.pktCap) :
    decodePacket true (tag :: payload) = .ok (.pkt tag payload) := by
  rw [decodePacket, if_neg (Nat.not_lt.2 hcap), if_pos rfl]

theorem decodePacket_hello (hcap : (a0 :: a1 :: a2 :: m :: body).length ≤ Config.pktCap) :
    decodePacket false (a0 :: a1 :: a2 :: m :: body) = .ok (.hello a0 a1 a2 m body) := by
  rw [decodePacket, if_neg (Nat.not_lt.2 hcap)]
  rfl

end Packets

/-- Settles O2. -/
theorem packetDecodeEncodeAgree : Obligations.PacketDecodeEncodeAgree := by
  intro c i hwf hpacket
  cases i with
  | pkt tag payload => exact decodePacket_pkt (of_decide_eq_true hwf)
  | hello a0 a1 a2 m body => exact decodePacket_hello (of_decide_eq_true hwf)
  | _ => cases hpacket

/-- Settles O4: an associated link excludes the empty packet only, and the other packets shorter than the
four bytes of the handshake only. -/
theorem packetEncodeDecodeAgree : Obligations.PacketEncodeDecodeAgree := by
  intro c assoc p hcap
  cases assoc with
  | true =>
    cases p with
    | nil => exact .inr (.inl ⟨rfl, rfl⟩)
    | cons tag payload => exact .inl ⟨_, decodePacket_pkt hcap, decide_eq_true hcap, rfl, rfl⟩
  | false =>
    rcases p with _ | ⟨a0, _ | ⟨a1, _ | ⟨a2, _ | ⟨m, body⟩⟩⟩⟩
    case cons.cons.cons.cons =>
      exact .inl ⟨_, decodePacket_hello hcap, decide_eq_true hcap, rfl, rfl⟩
    all_goals exact .inr (.inr ⟨rfl, by simp⟩)

end Sys2Proof.Proofs
end

section
/-! SUPPORT. Requests that the header of ProgramPage or ReadPage refuses (40_dispatcher.md R118, R119): in a
quiet environment both headers take the same four bytes, and what is then refused is decided by the length and
type bytes alone. -/

namespace Sys2Proof.Proofs

open Sys2Proof Sys2Proof.Machine

section Headers

variable {s : State} {lenHigh n ty x : Byte} {payload : List Byte} {bs : List Byte} {h : Nat}

/-! ### The two headers -/

/-- What the headers of ProgramPage and ReadPage share: the command byte and the three bytes after it. -/
def headerBytes (b : Byte) (k : Command) (lenHigh n ty : Byte) : Eng Unit := do
  openRequest b k
  recvByte lenHigh
  recvByte n
  update (fun s => s.setLen n)
  recvByte ty
  update (fun s => s.setType ty)

theorem programHeader_run (lenHigh n ty : Byte) (s : State) :
    programHeader lenHigh n ty s =
      (headerBytes s.cfg.cmdProgPage .programPage lenHigh n ty >>= fun _ =>
        refuseIf (badProgramLength s.cfg n) .length) s := by
  simp only [programHeader, headerBytes, bind_assoc]
  rfl

theorem readHeader_run (lenHigh n ty x : Byte) (s : State) :
    readHeader lenHigh n ty x s =
      (headerBytes s.cfg.cmdReadPage .readPage lenHigh n ty >>= fun _ =>
        verifyTerminator x >>= fun _ => refuseIf (badReadLength n) .length) s := by
  simp only [readHeader, headerBytes, bind_assoc]
  rfl

theorem talk_headerBytes (b : Byte) (k : Command) (lenHigh n ty : Byte) (c : CanTalk s (4 + h) bs) :
    ∃ t, headerBytes b k lenHigh n ty s = .ok ((), t) ∧ t.cfg = s.cfg ∧ CanTalk t h bs := by
  obtain ⟨s1, hopen, htalk1⟩ := talk_openRequest b k (c.hear (by omega))
  have c1 : CanTalk s1 (3 + h) bs := htalk1.can (by simpa [← Nat.add_assoc] using c)
  obtain ⟨s2, hhigh, htalk2⟩ := talk_recvByte lenHigh (c1.hear (by omega))
  have c2 : CanTalk s2 (2 + h) bs := htalk2.can (by simpa [← Nat.add_assoc] using c1)
  obtain ⟨s3, hlen, htalk3⟩ := talk_recvByte n (c2.hear (by omega))
  have c3 : CanTalk (s3.setLen n) (1 + h) bs :=
    CanTalk.same (htalk3.can (h' := 1 + h) (by simpa [← Nat.add_assoc] using c2)) rfl rfl rfl rfl rfl rfl
  obtain ⟨s4, htype, htalk4⟩ := talk_recvByte ty (c3.hear (by omega))
  have c4 : CanTalk (s4.setType ty) h bs := (htalk4.can c3).same rfl rfl rfl rfl rfl rfl
  refine ⟨s4.setType ty, ?_, ?_, c4⟩
  · rw [headerBytes, bind_ok hopen, bind_ok hhigh, bind_ok hlen, bind_ok (update_run _ _), bind_ok htype,
      update_run]
  · exact htalk4.cfg.trans (htalk3.cfg.trans (htalk2.cfg.trans htalk1.cfg))

/-- A check in a state in which nothing strikes. -/
theorem refuseIf_still_run {t : State} (ht : t.Still) (b : Bool) (r : Refusal) :
    refuseIf b r t = if b then .error (.refused r) else .ok ((), t) := by
  rw [refuseIf_run, refuse_still ht]

/-- The ProgramPage header runs to its length check. -/
theorem programHeader_still (lenHigh n ty : Byte) (c : CanTalk s 4 []) :
    ∃ t, t.Still ∧ programHeader lenHigh n ty s =
      if badProgramLength s.cfg n then .error (.refused .length) else .ok ((), t) := by
  obtain ⟨t, hbytes, -, hcan⟩ := talk_headerBytes s.cfg.cmdProgPage .programPage lenHigh n ty (h := 0) c
  refine ⟨t, still_of_canTalk hcan, ?_⟩
  rw [programHeader_run, bind_ok hbytes, refuseIf_still_run (still_of_canTalk hcan)]

/-- The ReadPage header acknowledges the right terminator and runs to its length check. -/
theorem readHeader_still (lenHigh n ty : Byte) (c : CanTalk s 5 [s.cfg.respInsync]) :
    ∃ t, t.Still ∧ readHeader lenHigh n ty s.cfg.term s =
      if badReadLength n then .error (.refused .length) else .ok ((), t) := by
  obtain ⟨t, hbytes, hcfg, hcan⟩ := talk_headerBytes s.cfg.cmdReadPage .readPage lenHigh n ty (h := 1) c
  rw [← hcfg] at hcan
  obtain ⟨u, hterm, htalk⟩ := talk_verifyTerminator rfl hcan
  have hstill : u.Still := still_of_canTalk (htalk.can (h' := 0) (bs := []) hcan)
  refine ⟨u, hstill, ?_⟩
  rw [readHeader_run, bind_ok hbytes, ← hcfg, bind_ok hterm, refuseIf_still_run hstill]

/-- A rule whose header is refused is refused. -/
theorem runRule_header_refused {header : Eng Unit} {f : Unit → Eng Unit} {why : Refusal}
    (hheader : header s = .error (.refused why)) : runRule (header >>= f) s = .refused why :=
  runRule_refused (bind_error hheader f)

/-- A header that ends in a length check, with a request that has no memory type. -/
theorem runRule_noType {header : Eng Unit} {t : State} (ht : t.Still) (bad : Bool)
    (hheader : header s = if bad then .error (.refused .length) else .ok ((), t)) :
    runRule (header >>= fun _ => refuse .memoryType) s =
      .refused (if bad then .length else .memoryType) := by
  cases bad with
  | true => exact runRule_header_refused hheader
  | false => exact runRule_refused ((bind_ok hheader _).trans (refuse_still ht _))

/-! ### Requests with no memory type -/

theorem exec_programPageBadType (hready : Ready s (.programPageBadType lenHigh n ty) []) :
    exec (.programPageBadType lenHigh n ty) s =
      .refused (if badProgramLength s.cfg n then .length else .memoryType) := by
  obtain ⟨t, hstill, hheader⟩ := programHeader_still lenHigh n ty (canTalk_of_ready hready)
  exact runRule_noType hstill _ hheader

theorem exec_readPageBadType
    (hready : Ready s (.readPageBadType lenHigh n ty s.cfg.term) [s.cfg.respInsync]) :
    exec (.readPageBadType lenHigh n ty s.cfg.term) s =
      .refused (if badReadLength n then .length else .memoryType) := by
  obtain ⟨t, hstill, hheader⟩ := readHeader_still lenHigh n ty (canTalk_of_ready hready)
  exact runRule_noType hstill _ hheader

/-! ### Illegal lengths -/

theorem badProgramLength_of_illegal {c : Config} (hbyte : payload.length ≤ 255)
    (hillegal : payload.length = 0 ∨ c.pageSize < payload.length) :
    badProgramLength c (payloadLength payload) = true := by
  refine decide_eq_true (hillegal.imp (fun hzero => ?_) fun hpage => ?_)
  · rw [payloadLength, hzero]
    rfl
  · rwa [payloadLength, ← length_eq_toNat_ofNat hbyte]

/-- A ProgramPage header with the length byte of an illegal payload is refused. -/
theorem programHeader_illegal {i : Instr} (hbyte : payload.length ≤ 255)
    (hillegal : payload.length = 0 ∨ s.cfg.pageSize < payload.length)
    (hlen : (encode s.cfg i).length = 5 + payload.length) (hready : Ready s i []) (lenHigh ty : Byte) :
    programHeader lenHigh (payloadLength payload) ty s = .error (.refused .length) := by
  have hcan : CanTalk s 4 [] := (canTalk_of_ready hready).hear (by omega)
  obtain ⟨t, -, hheader⟩ := programHeader_still lenHigh (payloadLength payload) ty hcan
  rw [hheader, if_pos (badProgramLength_of_illegal hbyte hillegal)]

theorem readHeader_zero (c : CanTalk s 5 [s.cfg.respInsync]) (lenHigh ty : Byte) :
    readHeader lenHigh 0 ty s.cfg.term s = .error (.refused .length) := by
  obtain ⟨t, -, hheader⟩ := readHeader_still lenHigh 0 ty c
  exact hheader

end Headers

/-- Settles O32. -/
theorem programBadTypeRefused : Obligations.ProgramBadTypeRefused := by
  intro s lenHigh n ty _ _ hready
  rw [exec_programPageBadType hready, badProgramLength]
  simp only [decide_eq_true_eq]

/-- Settles O33. -/
theorem readBadTypeRefused : Obligations.ReadBadTypeRefused := by
  intro s lenHigh n ty _ _ hready
  rw [exec_readPageBadType hready, badReadLength]
  simp only [decide_eq_true_eq]

/-- Settles O34: either header is refused at its length check, before the forms of the request differ. -/
theorem illegalLengthRefused : Obligations.IllegalLengthRefused := by
  refine ⟨fun s lenHigh payload x hillegal hbyte => ⟨fun hready => ?_, fun hready => ?_⟩,
    fun s lenHigh => ⟨fun hready => ?_, fun hready => ?_⟩⟩
  · exact runRule_header_refused (programHeader_illegal hbyte hillegal
      (Laws.EncodeLength.programPageF lenHigh payload x s.cfg (decide_eq_true hbyte)) hready lenHigh _)
  · exact runRule_header_refused (programHeader_illegal hbyte hillegal
      (Laws.EncodeLength.programPageE lenHigh payload x s.cfg (decide_eq_true hbyte)) hready lenHigh _)
  · exact runRule_header_refused (readHeader_zero (canTalk_of_ready hready) lenHigh _)
  · exact runRule_header_refused (readHeader_zero (canTalk_of_ready hready) lenHigh _)

end Sys2Proof.Proofs
end

section
/-! SUPPORT. The commands without a programmer (40_dispatcher.md R110 to R117) and the wrong terminator of ReadPage
(R119), in a quiet environment. What a rule hears, sends and writes is said once per procedure (`Runs`) and adds
up along a command, which ends with `Respond` or is abandoned at its terminator (`Abandons`). -/

namespace Sys2Proof.Proofs

open Sys2Proof Sys2Proof.Machine

/-! ### Rules that talk -/

/-- The update writes registers that the byte channel neither reads nor writes. -/
structure RegisterWrite (g : State → State) : Prop where
  withChan : ∀ s c, g (s.withChan c) = (g s).withChan c
  chan : ∀ s, (g s).chan = s.chan
  cfg : ∀ s, (g s).cfg = s.cfg
  assoc : ∀ s, (g s).assoc = s.assoc
  maxlen : ∀ s, (g s).maxlen = s.maxlen
  peer : ∀ s, (g s).peer = s.peer
  pauses : ∀ s, (g s).pauses = s.pauses
  wdtCfg : ∀ s, (g s).wdtCfg = s.wdtCfg

/-- In configuration `c` the rule hears `heard` bytes, sends `said`, otherwise makes `g s` of `s`, and ends in a
state of which `post` holds. -/
structure Runs (c : Config) (m : Eng Unit) (g : State → State) (heard : Nat) (said : List Byte)
    (post : State → Prop) : Prop where
  write : RegisterWrite g
  run : ∀ {s h bs}, s.cfg = c → CanTalk s (heard + h) (said ++ bs) →
    ∃ t, m s = .ok ((), t) ∧ Talk (g s) t heard said ∧ post t

/-- A procedure of a command: nothing more is said of the state at its end. -/
abbrev Speaks (c : Config) (m : Eng Unit) (g : State → State) (heard : Nat) (said : List Byte) : Prop :=
  Runs c m g heard said fun _ => True

/-- A whole command: it is complete at its end. -/
abbrev Finishes (c : Config) (m : Eng Unit) (g : State → State) (heard : Nat) (said : List Byte) : Prop :=
  Runs c m g heard said Completed

/-- In configuration `c` the rule hears `heard` bytes, sends nothing, makes `g s` of `s` and abandons the
session. -/
def Abandons (c : Config) (m : Eng Unit) (g : State → State) (heard : Nat) : Prop :=
  ∀ s, s.cfg = c → CanTalk s heard [] →
    ∃ t, m s = .error (.ended (t.setPh .abandoned)) ∧ Talk (g s) t heard []

section Talking

variable {c : Config} {m m' : Eng Unit} {g g' : State → State} {n n' : Nat} {a a' : List Byte} {s t : State}
  {post post' : State → Prop}

theorem registerWrite_id : RegisterWrite id := by
  constructor <;> intros <;> rfl

theorem RegisterWrite.comp (hg' : RegisterWrite g') (hg : RegisterWrite g) :
    RegisterWrite fun s => g' (g s) where
  withChan s ch := (congrArg g' (hg.withChan s ch)).trans (hg'.withChan (g s) ch)
  chan s := (hg'.chan _).trans (hg.chan s)
  cfg s := (hg'.cfg _).trans (hg.cfg s)
  assoc s := (hg'.assoc _).trans (hg.assoc s)
  maxlen s := (hg'.maxlen _).trans (hg.maxlen s)
  peer s := (hg'.peer _).trans (hg.peer s)
  pauses s := (hg'.pauses _).trans (hg.pauses s)
  wdtCfg s := (hg'.wdtCfg _).trans (hg.wdtCfg s)

theorem RegisterWrite.canTalk (hg : RegisterWrite g) (hcan : CanTalk s n a) : CanTalk (g s) n a :=
  hcan.same (hg.pauses s) (hg.wdtCfg s) (hg.cfg s) (hg.assoc s) (hg.maxlen s) (hg.chan s)

theorem RegisterWrite.talk (hg : RegisterWrite g) (htalk : Talk s t n a) : Talk (g s) (g t) n a :=
  htalk.map (hg.withChan s) (hg.chan s) (hg.cfg s) (hg.assoc s) (hg.maxlen s) (hg.peer s)

/-- A rule that runs leaves its successor what it has not used of the channel. -/
theorem Runs.step (hm : Runs c m g n a post) (hs : s.cfg = c) (hcan : CanTalk s (n + n') (a ++ a')) :
    ∃ t, m s = .ok ((), t) ∧ Talk (g s) t n a ∧ t.cfg = c ∧ CanTalk t n' a' := by
  obtain ⟨t, hrun, htalk, -⟩ := hm.run hs hcan
  exact ⟨t, hrun, htalk, htalk.cfg.trans ((hm.write.cfg s).trans hs), htalk.can (hm.write.canTalk hcan)⟩

theorem Runs.bind (hm : Runs c m g n a post) (hm' : Runs c m' g' n' a' post') :
    Runs c (m >>= fun _ => m') (fun s => g' (g s)) (n + n') (a ++ a') post' := by
  refine ⟨hm'.write.comp hm.write, fun {s h bs} hs hcan => ?_⟩
  rw [Nat.add_assoc, List.append_assoc] at hcan
  obtain ⟨t, hrun, htalk, ht, hcan'⟩ := hm.step hs hcan
  obtain ⟨u, hrun', htalk', hpost⟩ := hm'.run ht hcan'
  exact ⟨u, (bind_ok hrun _).trans hrun', (hm'.write.talk htalk).trans htalk', hpost⟩

/-- A rule that sends nothing, before one that abandons the session. -/
theorem Runs.abandons (hm : Runs c m g n [] post) (hm' : Abandons c m' id n') :
    Abandons c (m >>= fun _ => m') g (n + n') := by
  intro s hs hcan
  obtain ⟨t, hrun, htalk, ht, hcan'⟩ := hm.step (a' := []) hs hcan
  obtain ⟨u, hrun', htalk'⟩ := hm' t ht hcan'
  exact ⟨u, (bind_ok hrun _).trans hrun', htalk.trans htalk'⟩

theorem Abandons.bind (hm : Abandons c m g n) (f : Unit → Eng Unit) : Abandons c (m >>= f) g n := by
  intro s hs hcan
  obtain ⟨t, hrun, htalk⟩ := hm s hs hcan
  exact ⟨t, bind_error hrun f, htalk⟩

/-- What `Talk` says of a rule that writes no register. -/
theorem speaks_of_talk
    (h : ∀ {s h bs}, s.cfg = c → CanTalk s (n + h) (a ++ bs) → ∃ t, m s = .ok ((), t) ∧ Talk s t n a) :
    Speaks c m id n a := by
  refine ⟨registerWrite_id, fun hs hcan => ?_⟩
  obtain ⟨t, hrun, htalk⟩ := h hs hcan
  exact ⟨t, hrun, htalk, trivial⟩

/-! ### The procedures every command shares -/

variable {x : Byte}

theorem speaks_openRequest (b : Byte) (k : Command) : Speaks c (openRequest b k) id 1 [] :=
  speaks_of_talk fun _ hcan => talk_openRequest b k (hcan.hear (Nat.le_add_right _ _))

theorem speaks_recvByte (b : Byte) : Speaks c (recvByte b) id 1 [] :=
  speaks_of_talk fun _ hcan => talk_recvByte b (hcan.hear (Nat.le_add_right _ _))

theorem speaks_discard (bs : List Byte) : Speaks c (discard bs) id bs.length [] :=
  speaks_of_talk fun _ hcan => talk_discard bs (hcan.hear (Nat.le_add_right _ _))

theorem speaks_sendByte (b : Byte) : Speaks c (sendByte b) id 0 [b] :=
  speaks_of_talk fun _ hcan => by
    obtain ⟨t, hrun, htalk, -⟩ := talk_sendByte b hcan
    exact ⟨t, hrun, htalk⟩

theorem speaks_checkTerminator (hx : x = c.term) : Speaks c (checkTerminator x) id 1 [] :=
  speaks_of_talk fun hs hcan =>
    talk_checkTerminator (hx.trans (congrArg Config.term hs.symm)) (hcan.hear (Nat.le_add_right _ _))

theorem speaks_verifyTerminator (hx : x = c.term) : Speaks c (verifyTerminator x) id 1 [c.respInsync] :=
  speaks_of_talk fun hs hcan => by
    subst hs
    exact talk_verifyTerminator hx (hcan.weaken (Nat.le_add_right _ _) List.prefix_rfl)

theorem speaks_update (hg : RegisterWrite g) : Speaks c (update g) g 0 [] :=
  ⟨hg, fun _ _ => ⟨_, rfl, Talk.refl _, trivial⟩⟩

theorem finishes_respond : Finishes c respond id 0 [c.respOk] := by
  refine ⟨registerWrite_id, fun hs hcan => ?_⟩
  subst hs
  exact talk_respond hcan

theorem abandons_checkTerminator (hx : x ≠ c.term) : Abandons c (checkTerminator x) id 1 := by
  intro s hs hcan
  subst hs
  exact checkTerminator_wrong hx hcan

theorem abandons_verifyTerminator (hx : x ≠ c.term) : Abandons c (verifyTerminator x) id 1 :=
  (abandons_checkTerminator hx).bind _

/-! ### Whole commands -/

variable {i : Instr} {rule : Eng Unit}

theorem answers_of_finishes (hm : Finishes s.cfg rule g n a) (hexec : exec i s = runRule rule s)
    (hlen : (encode s.cfg i).length = n) (hready : Ready s i a) : Answers i s (g s) a := by
  have hcan : CanTalk s (n + 0) (a ++ []) := by
    rw [Nat.add_zero, List.append_nil, ← hlen]
    exact canTalk_of_ready hready
  obtain ⟨t, hrun, htalk, hdone⟩ := hm.run rfl hcan
  exact ⟨t, hexec.trans (runRule_ok hrun), hdone, hlen ▸ htalk.talked⟩

theorem deserts_of_abandons (hm : Abandons s.cfg rule g n) (hexec : exec i s = runRule rule s)
    (hlen : (encode s.cfg i).length = n) (hready : Ready s i []) : Deserts i s (g s) := by
  have hcan : CanTalk s n [] := hlen ▸ canTalk_of_ready hready
  obtain ⟨t, hrun, htalk⟩ := hm s rfl hcan
  exact ⟨_, hexec.trans (runRule_ended hrun), rfl, hlen ▸ (htalk.trans (talk_setPh t _)).talked⟩

/-- A request that finishes with the right terminator and is abandoned with any other. -/
theorem runsAs_of_terminator (hexec : exec i s = runRule rule s) (hlen : (encode s.cfg i).length = n)
    (hright : x = s.cfg.term → Finishes s.cfg rule g n a)
    (hwrong : x ≠ s.cfg.term → Abandons s.cfg rule g' n) :
    RunsAs i x s (g s) (g' s) a :=
  ⟨fun hx hready => answers_of_finishes (hright hx) hexec hlen hready,
    fun hx hready => deserts_of_abandons (hwrong hx) hexec hlen hready⟩

end Talking

/-! ### GetParameter, SetDevice, SetDeviceExt, Universal, ReadSignature, Other -/

/-- Settles O10. -/
theorem getParameterReplies : Obligations.GetParameterReplies := fun s p _ =>
  runsAs_of_terminator (g := id) (g' := id) rfl rfl
    (fun hx => (speaks_openRequest _ _).bind ((speaks_recvByte p).bind ((speaks_verifyTerminator hx).bind
      ((speaks_sendByte (parameterValue s.cfg p)).bind finishes_respond))))
    (fun hx => (speaks_openRequest _ _).abandons ((speaks_recvByte p).abandons
      ((abandons_verifyTerminator hx).bind _)))

/-- A body that is discarded, then the bare acknowledgment (R111, R113). -/
theorem runsAs_skipRule {i : Instr} {s : State} {b x : Byte} {k : Command} {body : List Byte}
    (hexec : exec i s = runRule (skipRule b k body x) s)
    (hlen : (encode s.cfg i).length = 1 + (body.length + 1)) :
    RunsAs i x s s s [s.cfg.respInsync, s.cfg.respOk] :=
  runsAs_of_terminator (g := id) (g' := id) hexec hlen
    (fun hx => (speaks_openRequest b k).bind ((speaks_discard body).bind
      ((speaks_verifyTerminator hx).bind finishes_respond)))
    (fun hx => (speaks_openRequest b k).abandons ((speaks_discard body).abandons
      ((abandons_verifyTerminator hx).bind _)))

theorem length_command_body_term (b x : Byte) (body : List Byte) :
    (b :: (body ++ [x])).length = 1 + (body.length + 1) := by
  rw [List.length_cons, List.length_append, List.length_singleton, Nat.add_comm]

/-- Settles O11: no byte of the body is looked at, nor how many there are. -/
theorem setDeviceReplies : Obligations.SetDeviceReplies := fun _ _ _ _ =>
  runsAs_skipRule rfl (length_command_body_term _ _ _)

/-- Settles O12. -/
theorem setDeviceExtReplies : Obligations.SetDeviceExtReplies := fun _ _ _ _ =>
  runsAs_skipRule rfl (length_command_body_term _ _ _)

/-- Settles O13: the terminator is checked before the first byte is sent (R114). -/
theorem universalReplies : Obligations.UniversalReplies := fun s body _ _ =>
  runsAs_of_terminator (g := id) (g' := id) rfl (length_command_body_term _ _ _)
    (fun hx => (speaks_openRequest _ _).bind ((speaks_discard body).bind ((speaks_checkTerminator hx).bind
      ((speaks_sendByte Config.universalReply).bind ((speaks_sendByte s.cfg.respInsync).bind
        finishes_respond)))))
    (fun hx => (speaks_openRequest _ _).abandons ((speaks_discard body).abandons
      ((abandons_checkTerminator hx).bind _)))

/-- Settles O14. -/
theorem readSignatureReplies : Obligations.ReadSignatureReplies := fun s _ =>
  runsAs_of_terminator (g := id) (g' := id) rfl rfl
    (fun hx => (speaks_openRequest _ _).bind ((speaks_verifyTerminator hx).bind
      ((speaks_sendByte s.cfg.sig0).bind ((speaks_sendByte s.cfg.sig1).bind
        ((speaks_sendByte s.cfg.sig2).bind finishes_respond)))))
    (fun hx => (speaks_openRequest _ _).abandons ((abandons_verifyTerminator hx).bind _))

theorem runsAs_ackRule {i : Instr} {s : State} {b x : Byte} (hexec : exec i s = runRule (ackRule b x) s)
    (hlen : (encode s.cfg i).length = 2) : RunsAs i x s s s [s.cfg.respInsync, s.cfg.respOk] :=
  runsAs_of_terminator (g := id) (g' := id) hexec hlen
    (fun hx => (speaks_openRequest b _).bind ((speaks_verifyTerminator hx).bind finishes_respond))
    (fun hx => (speaks_openRequest b _).abandons ((abandons_verifyTerminator hx).bind _))

/-- Settles O15: class Other and both pseudo-commands are one rule (30_encoding.md R85). -/
theorem otherAcknowledged : Obligations.OtherAcknowledged := fun _ _ =>
  ⟨fun _ _ => runsAs_ackRule rfl rfl, fun _ => runsAs_ackRule rfl rfl, fun _ => runsAs_ackRule rfl rfl⟩

/-! ### LoadAddress -/

theorem toNat_wordOf (lo hi : Byte) : (wordOf lo hi).toNat = 256 * hi.toNat + lo.toNat := by
  rw [wordOf, BitVec.toNat_append, ← Nat.shiftLeft_add_eq_or_of_lt lo.isLt, Nat.shiftLeft_eq, Nat.mul_comm]

/-- 40_dispatcher.md R120: the shift doubles, modulo 65536. -/
theorem byteAddress_wordOf (lo hi : Byte) :
    byteAddress (wordOf lo hi) = BitVec.ofNat 16 (2 * (256 * hi.toNat + lo.toNat)) := by
  apply BitVec.eq_of_toNat_eq
  rw [byteAddress, BitVec.toNat_shiftLeft, BitVec.toNat_ofNat, toNat_wordOf, Nat.shiftLeft_eq, Nat.mul_comm]

theorem extBit_wordOf (lo hi : Byte) :
    extBit (wordOf lo hi) = BitVec.ofNat 1 ((256 * hi.toNat + lo.toNat) / 32768) := by
  apply BitVec.eq_of_toNat_eq
  rw [extBit, BitVec.extractLsb'_toNat, BitVec.toNat_ofNat, toNat_wordOf, Nat.shiftRight_eq_div_pow]

/-- The registers LoadAddress writes (R112). -/
def loadedAddress (c : Config) (lo hi : Byte) (s : State) : State :=
  s.setAddress (if c.hasExt then extBit (wordOf lo hi) else s.ext) (byteAddress (wordOf lo hi))

theorem registerWrite_loadedAddress (c : Config) (lo hi : Byte) : RegisterWrite (loadedAddress c lo hi) := by
  constructor <;> intros <;> rfl

/-- Settles O16: the registers are written between the terminator check and the answer. -/
theorem loadAddressSetsAddress : Obligations.LoadAddressSetsAddress := by
  intro s lo hi x
  rw [← byteAddress_wordOf, ← extBit_wordOf]
  exact runsAs_of_terminator (g := loadedAddress s.cfg lo hi) (g' := id) rfl rfl
    (fun hx => (speaks_openRequest _ _).bind ((speaks_recvByte lo).bind ((speaks_recvByte hi).bind
      ((speaks_verifyTerminator hx).bind ((speaks_update (registerWrite_loadedAddress s.cfg lo hi)).bind
        finishes_respond)))))
    (fun hx => (speaks_openRequest _ _).abandons ((speaks_recvByte lo).abandons ((speaks_recvByte hi).abandons
      ((abandons_verifyTerminator hx).bind _))))

/-! ### LeaveProgMode -/

section LeaveProgMode

variable {s : State} {h : Nat} {bs : List Byte}

/-- Arming the short watchdog leaves its count alone, so it must hold the answer from there on (R193). -/
theorem canTalk_armedShort (hcan : CanTalk s h bs) (hshort : (s.afterSending bs).time < s.cfg.wdtShort) :
    CanTalk s.armedShort h bs where
  quiet := hcan.quiet
  holds d hd := by
    obtain rfl : s.cfg.wdtShort = d := WdtCfg.on.inj hd
    exact hshort
  link := hcan.link
  bytes := by
    rw [incoming_inbound (s := s) (t := s.armedShort) ⟨rfl, rfl, rfl, rfl⟩ rfl rfl]
    exact hcan.bytes

theorem setsMarker_short (c : Config) : setsMarker c (.on c.wdtShort) = c.wdtMarkerEnabled := by
  simp [setsMarker]

/-- `WdtConfig(On(WDT_SHORT))` makes the state `armedShort`, and says so in EV. -/
theorem wdtConfig_short (hcan : CanTalk s h bs) (hshort : (s.afterSending bs).time < s.cfg.wdtShort) :
    wdtConfig instant (.on s.cfg.wdtShort) s =
      .ok ((), s.armedShort.emit (.config (.on s.cfg.wdtShort))) := by
  have harmed : (s.configured (.on s.cfg.wdtShort)).Awake 0 := (canTalk_armedShort hcan hshort).awake
  have hpause : instant (s.configured (.on s.cfg.wdtShort)) = .ok ((), s.configured (.on s.cfg.wdtShort)) :=
    takePause_still (s := s.configured _) hcan.quiet harmed false
  rw [wdtConfig, bind_ok (takePause_still hcan.quiet hcan.awake false), bind_ok (update_run _ _),
    bind_ok (look_run _ _)]
  show onlyIf (setsMarker s.cfg _) _ _ = _
  rw [setsMarker_short]
  cases hmarker : s.cfg.wdtMarkerEnabled with
  | true =>
    rw [onlyIf, if_pos rfl, bind_ok hpause, update_run]
    simp [State.armedShort, State.configured, State.marked, State.emit, hmarker]
  | false =>
    rw [onlyIf, if_neg (by simp), pure_run]
    simp [State.armedShort, State.configured, State.emit, hmarker]

/-- Arming the short watchdog commutes with talking. -/
theorem talk_armedShort {t : State} (htalk : Talk s t h bs) : Talk s.armedShort t.armedShort h bs :=
  htalk.map (fun _ => rfl) rfl rfl rfl rfl rfl

theorem leaveProgModeRule_answers {x : Byte} (hx : x = s.cfg.term)
    (hshort : (s.afterSending [s.cfg.respInsync, s.cfg.respOk]).time < s.cfg.wdtShort)
    (hcan : CanTalk s 2 [s.cfg.respInsync, s.cfg.respOk]) :
    ∃ t, leaveProgModeRule s.cfg x s = .ok ((), t) ∧ Completed t ∧
      Talk s.armedShort t 2 [s.cfg.respInsync, s.cfg.respOk] := by
  obtain ⟨t1, hopen, htalk1, hcfg1, hcan1⟩ :=
    (speaks_openRequest s.cfg.cmdLeaveProgMode .leaveProgMode).step (n' := 1) rfl hcan
  obtain ⟨t2, hterm, htalk2, hcfg2, hcan2⟩ :=
    (speaks_verifyTerminator hx).step (n' := 0) (a' := [s.cfg.respOk]) hcfg1 hcan1
  have htalk : Talk s t2 2 [s.cfg.respInsync] := htalk1.trans htalk2
  have hshort2 : (t2.afterSending [s.cfg.respOk]).time < t2.cfg.wdtShort := by
    rw [hcfg2]
    exact (State.afterSending_append htalk.cfg htalk.maxlen htalk.out).time.trans_lt hshort
  have harm := wdtConfig_short hcan2 hshort2
  rw [hcfg2] at harm
  have hcan3 : CanTalk (t2.armedShort.emit (.config (.on s.cfg.wdtShort))) 0 ([s.cfg.respOk] ++ []) :=
    (talk_emit _ _ ⟨rfl, rfl⟩).can (by simpa using canTalk_armedShort hcan2 hshort2)
  have hcfg3 : (t2.armedShort.emit (.config (.on s.cfg.wdtShort))).cfg = s.cfg := hcfg2
  obtain ⟨t, hrespond, htalk3, hdone⟩ := finishes_respond.run hcfg3 (h := 0) (bs := []) hcan3
  refine ⟨t, ?_, hdone, ((talk_armedShort htalk).trans (talk_emit _ _ ⟨rfl, rfl⟩)).trans htalk3⟩
  rw [leaveProgModeRule, bind_ok hopen, bind_ok hterm, bind_ok harm, hrespond]

end LeaveProgMode

/-- Settles O17. -/
theorem leaveProgModeArmsShort : Obligations.LeaveProgModeArmsShort := by
  intro s x hshort
  refine ⟨fun hx hready => ?_, fun hx => deserts_of_abandons (g := id)
    ((speaks_openRequest _ _).abandons ((abandons_verifyTerminator hx).bind _)) rfl rfl⟩
  obtain ⟨t, hrun, hdone, htalk⟩ := leaveProgModeRule_answers hx hshort (canTalk_of_ready hready)
  exact ⟨t, runRule_ok hrun, hdone, htalk.talked⟩

/-! ### ReadPage with a wrong terminator -/

section ReadHeader

variable {c : Config} {b x n ty lenHigh : Byte} {k : Command}

theorem registerWrite_setLen (n : Byte) : RegisterWrite (fun s => s.setLen n) := by
  constructor <;> intros <;> rfl

theorem registerWrite_setType (ty : Byte) : RegisterWrite (fun s => s.setType ty) := by
  constructor <;> intros <;> rfl

theorem speaks_headerBytes : Speaks c (headerBytes b k lenHigh n ty) (fun s => s.headed n ty) 4 [] :=
  (speaks_openRequest b k).bind ((speaks_recvByte lenHigh).bind ((speaks_recvByte n).bind
    ((speaks_update (registerWrite_setLen n)).bind ((speaks_recvByte ty).bind
      (speaks_update (registerWrite_setType ty))))))

/-- The terminator of a ReadPage is checked right after its header bytes, before its length and type (R119). -/
theorem abandons_readHeader (hx : x ≠ c.term) :
    Abandons c (readHeader lenHigh n ty x) (fun s => s.headed n ty) 5 := by
  intro s hs hcan
  rw [readHeader_run]
  exact speaks_headerBytes.abandons ((abandons_verifyTerminator hx).bind _) s hs hcan

end ReadHeader

/-- Settles O24. -/
theorem readPageDeserts : Obligations.ReadPageDeserts := fun _ _ _ _ _ hx =>
  ⟨deserts_of_abandons ((abandons_readHeader hx).bind _) rfl rfl,
    deserts_of_abandons ((abandons_readHeader hx).bind _) rfl rfl,
    deserts_of_abandons ((abandons_readHeader hx).bind _) rfl rfl⟩

end Sys2Proof.Proofs
end

section
/-! SUPPORT. The dispatcher loop and its phases (40_dispatcher.md R100, R106, R107, R121): which request a step
runs, what a step in an idle phase can do, and the phases a step can end in. -/

namespace Sys2Proof.Proofs

open Sys2Proof Sys2Proof.Machine

/-! ### The request at the head of the channel -/

/-- Settles O5: each of the words is what the encoder writes. -/
theorem decodedWords : Obligations.DecodedWords :=
  have hdistinct : Config.ref.commandsDistinct = true := by decide
  ⟨decodeEncodeAgree Config.ref (.getParameter 0x81 0x20) [] hdistinct rfl rfl,
    decodeEncodeAgree Config.ref (.loadAddress 0x40 0x00 0x20) [] hdistinct rfl rfl,
    decodeEncodeAgree Config.ref (.readSignature 0x20) [] hdistinct rfl rfl,
    decodeEncodeAgree Config.ref (.readPageF 0x00 0x04 0x20) [] hdistinct rfl rfl,
    packetDecodeEncodeAgree Config.ref (.hello 0x30 0x30 0x31 0x20 [0x01, 0x75, 0x20]) rfl rfl⟩

/-- A well-formed request at the head of the channel is the one the loop fetches. -/
theorem fetch_of_presents {s : State} {i : Instr} (hcfg : s.cfg.wf = true) (hwf : i.wf s.cfg = true)
    (hrequest : i.isPacket = false) (hbytes : s.Presents i) : fetch s = some i := by
  obtain ⟨rest, hincoming⟩ := hbytes
  have hdistinct : s.cfg.commandsDistinct = true := decide_eq_true (commandBytes_nodup_of_wf hcfg)
  rw [fetch, ← hincoming, decodeEncodeAgree s.cfg i rest hdistinct hwf hrequest]

/-- In AwaitCommand a step of an admissible configuration is a step of the loop. -/
theorem step_awaitCommand {s : State} (hcfg : s.cfg.wf = true) (hph : s.ph = .awaitCommand) :
    step s = loopStep s := by
  rw [step, if_pos hcfg, phaseStep, hph]

/-- Settles O7. -/
theorem stepRunsDecodedRequest : Obligations.StepRunsDecodedRequest := by
  intro s i hcfg hph hqueue hwf hrequest hbytes
  have hbyte : ¬ (s.cfg.radioEnabled = true ∧ s.rxq = []) := fun h => hqueue h.1 h.2
  rw [step_awaitCommand hcfg hph, loopStep, if_neg hbyte, fetch_of_presents hcfg hwf hrequest hbytes]

/-! ### A byte of the wired line -/

/-- Settles O45. -/
theorem framingFaultNotServiced : Obligations.FramingFaultNotServiced := by
  intro s b ok rest hwired hline hquiet hawake
  have htaken : (s.setLine rest).Awake 0 := hawake
  have hrecv : recvByte b s =
      (onlyIf ok wdtService >>= fun _ => record (.rx b)) (s.setLine rest) := by
    simp [recvByte, hwired, wiredRecvByte, hline, takePause_still hquiet hawake]
  rw [hrecv]
  cases ok with
  | true =>
    have hrx := record_still (s := (s.setLine rest).serviced) hquiet htaken.serviced (.rx b)
    exact (bind_ok (update_run State.serviced (s.setLine rest)) _).trans (hrx.trans (by
      simp [State.serviced, State.setLine, State.clearCount, State.emit]))
  | false => exact (bind_ok (pure_run () _) _).trans (record_still (s := s.setLine rest) hquiet htaken (.rx b))

/-! ### The idle phases -/

/-- From `s` to `t` the engine has only waited: time has passed and the controllers may have completed. -/
def Waited (s t : State) : Prop :=
  ∃ cnt pauses flash wbuf op eeprom busy, t =
    { s with wdtCnt := cnt, pauses := pauses, flash := flash, wbuf := wbuf, flashOp := op, eeprom := eeprom,
             eeBusy := busy }

theorem Waited.trans {s t u : State} (h : Waited s t) (h' : Waited t u) : Waited s u := by
  obtain ⟨_, _, _, _, _, _, _, rfl⟩ := h
  obtain ⟨_, _, _, _, _, _, _, rfl⟩ := h'
  exact ⟨_, _, _, _, _, _, _, rfl⟩

theorem waited_flashComplete (s : State) : Waited s (flashComplete s) := by
  obtain ⟨flash, wbuf, h⟩ := flashComplete_frame s
  exact ⟨_, _, _, _, _, _, _, h⟩

theorem waited_eeComplete (s : State) : Waited s (eeComplete s) := by
  obtain ⟨eeprom, h⟩ := eeComplete_frame s
  exact ⟨_, _, _, _, _, _, _, h⟩

theorem waited_settle (p : Pause) (s : State) : Waited s (settle p s) := by
  have hrefl : ∀ u, Waited u u := fun u => ⟨_, _, _, _, _, _, _, rfl⟩
  have hflash : Waited s (if p.flashDone then flashComplete s else s) := by
    split
    · exact waited_flashComplete s
    · exact hrefl s
  refine hflash.trans ?_
  unfold settle
  dsimp only
  generalize (if p.flashDone = true then flashComplete s else s) = u
  split
  · exact waited_eeComplete u
  · exact hrefl u

/-- A pause: the engine waits, and then sources may reset the device. -/
theorem runRule_instant_next {s t : State} (h : runRule instant s = .next t) :
    ∃ u sources, Waited s u ∧ t = resetBy sources u := by
  have hwaited : Waited s (settle (s.pauses.headD .quiet)
      (s.popPause.addTime (0 + (s.pauses.headD .quiet).dt))) :=
    Waited.trans ⟨_, _, _, _, _, _, _, rfl⟩ (waited_settle _ _)
  simp only [runRule_next, instant, takePause] at h
  split at h
  · obtain ⟨_, h⟩ | h := h <;> cases h
    exact ⟨_, [], hwaited, rfl⟩
  · obtain ⟨_, h⟩ | h := h <;> cases h
    exact ⟨_, _, hwaited, rfl⟩

theorem idle_next {s t : State} (h : idle s = .next t) :
    ∃ u sources, Waited s u ∧ t = resetBy sources u := by
  unfold idle at h
  split at h
  · exact runRule_instant_next h
  · split at h
    · cases h
      exact ⟨_, [.watchdog], (waited_flashComplete s).trans (waited_eeComplete _), rfl⟩
    · cases h

/-- A reset appends its event and leaves the environment's side of the channel (70_reset_and_hazards.md R240). -/
theorem resetBy_outside (sources : List ResetSource) (s : State) :
    (resetBy sources s).line = s.line ∧ (resetBy sources s).air = s.air ∧
      (resetBy sources s).radioOut = s.radioOut ∧
      (resetBy sources s).ev = s.ev ++ sources.map Event.reset := by
  induction sources generalizing s with
  | nil => exact ⟨rfl, rfl, rfl, (List.append_nil _).symm⟩
  | cons source sources ih =>
    obtain ⟨hline, hair, hout, hev⟩ := ih (deviceReset source s)
    exact ⟨hline, hair, hout, hev.trans (List.append_assoc _ _ _)⟩

/-- In the idle phases a step is one pause. -/
theorem step_idle {s t : State} (hph : s.ph = .abandoned ∨ s.ph = .handedOff) (h : step s = .next t) :
    idle s = .next t := by
  obtain ⟨hwf, -⟩ := moves_of_step h
  rw [step, if_pos hwf, phaseStep] at h
  rcases hph with hph | hph <;> rwa [hph] at h

/-- Settles O48: waiting reaches neither a register nor the channel, and a reset brings the phase to Boot. -/
theorem abandonedDoesNothing : Obligations.AbandonedDoesNothing := by
  intro s t hph hstep
  obtain ⟨u, sources, ⟨_, _, _, _, _, _, _, rfl⟩, rfl⟩ := idle_next (step_idle hph hstep)
  obtain ⟨hline, hair, hout, hev⟩ := resetBy_outside sources _
  refine ⟨hline, hair, hout, sources, hev, ?unreset, fun hsources => resetBy_ph hsources _⟩
  case unreset =>
    rintro rfl
    exact ⟨rfl, by constructor <;> rfl, by constructor <;> rfl,
      ⟨rfl, rfl, rfl, fun _ => ⟨rfl, rfl, rfl, rfl⟩⟩, rfl, rfl, rfl, rfl, rfl⟩

/-! ### The phases a step can end in -/

section Phases

variable {α β : Type}

/-- Where the rule stops early it is in phase Boot: only device resets stop it. -/
def StopsInBoot (m : Eng α) : Prop := ∀ s t, m s = .error (.ended t) → t.ph = .boot

theorem stopsInBoot_bind {m : Eng α} {f : α → Eng β} (hm : StopsInBoot m) (hf : ∀ a, StopsInBoot (f a)) :
    StopsInBoot (m >>= f) := by
  intro s t hrun
  rw [bind_run] at hrun
  cases hmid : m s with
  | error e =>
    rw [hmid] at hrun
    cases hrun
    exact hm s t hmid
  | ok q =>
    rw [hmid] at hrun
    exact hf q.1 q.2 t hrun

theorem stopsInBoot_pure (a : α) : StopsInBoot (pure a : Eng α) := fun _ _ hrun => by cases hrun

theorem stopsInBoot_update (f : State → State) : StopsInBoot (update f) := fun _ _ hrun => by cases hrun

theorem stopsInBoot_look (f : State → α) : StopsInBoot (look f) := fun _ _ hrun => by cases hrun

theorem stopsInBoot_onlyIf (b : Bool) {m : Eng Unit} (hm : StopsInBoot m) : StopsInBoot (onlyIf b m) := by
  cases b with
  | true => exact hm
  | false => exact stopsInBoot_pure ()

theorem stopsInBoot_bootPause : StopsInBoot bootPause := by
  intro s t hrun
  unfold bootPause at hrun
  dsimp only at hrun
  split at hrun
  · cases hrun
  · rename_i hsources
    cases hrun
    exact resetBy_ph (by simpa using hsources) _

theorem stopsInBoot_wdtConfig (w : WdtCfg) : StopsInBoot (wdtConfig bootPause w) :=
  stopsInBoot_bind stopsInBoot_bootPause fun _ => stopsInBoot_bind (stopsInBoot_update _) fun _ =>
  stopsInBoot_bind (stopsInBoot_look _) fun _ => stopsInBoot_onlyIf _
  (stopsInBoot_bind stopsInBoot_bootPause fun _ => stopsInBoot_update _)

theorem stopsInBoot_enterLoop : StopsInBoot enterLoop :=
  stopsInBoot_bind (stopsInBoot_look _) fun _ => stopsInBoot_bind (stopsInBoot_wdtConfig _) fun _ =>
  stopsInBoot_update _

theorem stopsInBoot_handoff : StopsInBoot handoff :=
  stopsInBoot_bind (stopsInBoot_look _) fun _ => stopsInBoot_bind (stopsInBoot_wdtConfig _) fun _ =>
  stopsInBoot_bind stopsInBoot_bootPause fun _ => stopsInBoot_bind (stopsInBoot_update _) fun _ =>
  stopsInBoot_bind (stopsInBoot_look _) fun _ => stopsInBoot_update _

theorem stopsInBoot_bootSequence : StopsInBoot bootSequence :=
  stopsInBoot_bind stopsInBoot_bootPause fun _ => stopsInBoot_bind (stopsInBoot_update _) fun _ =>
  stopsInBoot_bind stopsInBoot_bootPause fun _ => stopsInBoot_bind (stopsInBoot_look _) fun u =>
  stopsInBoot_bind (stopsInBoot_onlyIf _ (stopsInBoot_update _)) fun _ => by
    split
    · exact stopsInBoot_handoff
    · exact stopsInBoot_enterLoop

/-- From Boot: into the command loop, to the application, or back to Boot. -/
theorem boot_next {s t : State} (hph : s.ph = .boot) (h : runRule bootSequence s = .next t) :
    t.ph = .boot ∨ t.ph = .awaitCommand ∨ t.ph = .handedOff := by
  rcases runRule_next.1 h with ⟨u, hend⟩ | hstop
  · have hlands := boot_moves (A := True) (P := NoPage) (E := NoPage) s hph
    rw [hend] at hlands
    exact .inr hlands.2
  · exact .inl (stopsInBoot_bootSequence s t hstop)

/-- The engine awaits a command. -/
def Awaits (s : State) : Prop := s.ph = .awaitCommand

/-- Wherever it starts, the rule, if it runs to its end, ends in AwaitCommand. -/
abbrev EndsAwaiting (m : Eng α) : Prop := EndsIn (fun _ => True) Awaits m

theorem endsAwaiting_after (m : Eng α) {f : α → Eng β} (hf : ∀ a, EndsAwaiting (f a)) :
    EndsAwaiting (m >>= f) :=
  (endsIn_fact m).bind hf

theorem endsAwaiting_respond : EndsAwaiting respond :=
  endsAwaiting_after _ fun _ => endsAwaiting_after _ fun _ => endsAwaiting_after _ fun _ =>
  endsAwaiting_after _ fun _ => endsIn_update fun _ _ => rfl

/-! #### Packets leave the phase alone -/

theorem awaits_takePause (extra : Nat) (svc : Bool) : EndsIn Awaits Awaits (takePause extra svc) := by
  intro s u t hs hrun
  have hlands := takePause_moves (A := True) (P := NoPage) (E := NoPage) extra svc s
  rw [hrun] at hlands
  exact hlands.2.1.trans hs

theorem awaits_write {f : State → State} (hph : ∀ s, (f s).ph = s.ph) :
    EndsIn Awaits Awaits (update f) :=
  endsIn_update fun s hs => (hph s).trans hs

theorem awaits_filterBody (p : List Byte) (tag : Byte) (payload : List Byte) :
    EndsIn Awaits Awaits (filterBody p tag payload) :=
  (endsIn_look _).bind fun _ => by
    split
    · exact awaits_write fun _ => rfl
    · exact EndsIn.bind (awaits_write fun _ => rfl) fun _ => awaits_write fun _ => rfl

theorem awaits_associate (p : List Byte) : EndsIn Awaits Awaits (associate p) := by
  rcases p with _ | ⟨a0, _ | ⟨a1, _ | ⟨a2, _ | ⟨m, body⟩⟩⟩⟩
  case cons.cons.cons.cons =>
    refine (endsIn_check _ _).bind fun _ => EndsIn.bind (awaits_write fun _ => rfl) fun _ =>
      EndsIn.bind (awaits_write fun _ => rfl) fun _ => ?_
    cases body with
    | nil => exact endsIn_pure ()
    | cons tag payload =>
      exact (endsIn_look _).bind fun _ => (awaits_takePause _ _).bind fun _ => awaits_filterBody _ _ _
  all_goals exact awaits_write fun _ => rfl

theorem awaits_ordinary (p : List Byte) : EndsIn Awaits Awaits (ordinary p) := by
  cases p with
  | nil => exact awaits_write fun _ => rfl
  | cons tag payload => exact awaits_filterBody _ _ _

theorem awaits_processPacket (p : List Byte) : EndsIn Awaits Awaits (processPacket p) :=
  (endsIn_check _ _).bind fun _ => (endsIn_look _).bind fun _ => by
    split
    · exact awaits_ordinary p
    · exact awaits_associate p

theorem awaits_packetRule (p : List Byte) (ps : List (List Byte)) (svc : Bool) :
    EndsIn Awaits Awaits (packetRule p ps svc) :=
  (awaits_takePause _ _).bind fun _ => EndsIn.bind (awaits_write fun _ => rfl) fun _ => awaits_processPacket p

/-! #### Requests end with `Respond` -/

theorem endsAwaiting_skipRule (b : Byte) (k : Command) (body : List Byte) (x : Byte) :
    EndsAwaiting (skipRule b k body x) :=
  endsAwaiting_after _ fun _ => endsAwaiting_after _ fun _ => endsAwaiting_after _ fun _ => endsAwaiting_respond

theorem endsAwaiting_ackRule (b x : Byte) : EndsAwaiting (ackRule b x) :=
  endsAwaiting_after _ fun _ => endsAwaiting_after _ fun _ => endsAwaiting_respond

theorem endsAwaiting_getParameterRule (c : Config) (p x : Byte) : EndsAwaiting (getParameterRule c p x) :=
  endsAwaiting_after _ fun _ => endsAwaiting_after _ fun _ => endsAwaiting_after _ fun _ =>
  endsAwaiting_after _ fun _ => endsAwaiting_respond

theorem endsAwaiting_loadAddressRule (c : Config) (lo hi x : Byte) :
    EndsAwaiting (loadAddressRule c lo hi x) :=
  endsAwaiting_after _ fun _ => endsAwaiting_after _ fun _ => endsAwaiting_after _ fun _ =>
  endsAwaiting_after _ fun _ => endsAwaiting_after _ fun _ => endsAwaiting_respond

theorem endsAwaiting_universalRule (c : Config) (body : List Byte) (x : Byte) :
    EndsAwaiting (universalRule c body x) :=
  endsAwaiting_after _ fun _ => endsAwaiting_after _ fun _ => endsAwaiting_after _ fun _ =>
  endsAwaiting_after _ fun _ => endsAwaiting_after _ fun _ => endsAwaiting_respond

theorem endsAwaiting_readSignatureRule (c : Config) (x : Byte) : EndsAwaiting (readSignatureRule c x) :=
  endsAwaiting_after _ fun _ => endsAwaiting_after _ fun _ => endsAwaiting_after _ fun _ =>
  endsAwaiting_after _ fun _ => endsAwaiting_after _ fun _ => endsAwaiting_respond

theorem endsAwaiting_leaveProgModeRule (c : Config) (x : Byte) : EndsAwaiting (leaveProgModeRule c x) :=
  endsAwaiting_after _ fun _ => endsAwaiting_after _ fun _ => endsAwaiting_after _ fun _ => endsAwaiting_respond

theorem endsAwaiting_programPageFRule (c : Config) (lenHigh : Byte) (payload : List Byte) (x : Byte) :
    EndsAwaiting (programPageFRule c lenHigh payload x) :=
  endsAwaiting_after _ fun _ => endsAwaiting_after _ fun _ => endsAwaiting_respond

theorem endsAwaiting_programPageERule (lenHigh : Byte) (payload : List Byte) (x : Byte) :
    EndsAwaiting (programPageERule lenHigh payload x) :=
  endsAwaiting_after _ fun _ => endsAwaiting_after _ fun _ => endsAwaiting_after _ fun _ =>
  endsAwaiting_after _ fun _ => endsAwaiting_respond

theorem endsAwaiting_readPageFRule (lenHigh n x : Byte) : EndsAwaiting (readPageFRule lenHigh n x) :=
  endsAwaiting_after _ fun _ => endsAwaiting_after _ fun _ => endsAwaiting_respond

theorem endsAwaiting_readPageERule (lenHigh n x : Byte) : EndsAwaiting (readPageERule lenHigh n x) :=
  endsAwaiting_after _ fun _ => endsAwaiting_after _ fun _ => endsAwaiting_respond

theorem inLoop_of_awaits {s : State} (h : Awaits s) : s.InLoop := by
  have hph : s.ph = .awaitCommand := h
  simp [State.InLoop, hph]

/-- A rule that ends in AwaitCommand answers a next state there, or one in which it was stopped. -/
theorem awaits_or_stopped {m : Eng Unit} {I J : State → Prop} {s t : State}
    (hlands : LoopLands True (fun _ => True) (fun _ => True) I s (m s)) (hends : EndsIn J Awaits m) (hs : J s)
    (h : runRule m s = .next t) : Awaits t ∨ t.Stopped := by
  rcases runRule_next.1 h with ⟨u, hend⟩ | hstop
  · exact .inl (hends s u t hs hend)
  · rw [hstop] at hlands
    exact .inr hlands.2

theorem exec_awaits {i : Instr} {s t : State} (hs : Awaits s) (h : exec i s = .next t) :
    Awaits t ∨ t.Stopped := by
  have hloop : s.InLoop := inLoop_of_awaits hs
  cases i with
  | getParameter p x =>
    exact awaits_or_stopped (loop_getParameterRule s.cfg p x s hloop) (endsAwaiting_getParameterRule _ _ _)
      trivial h
  | setDevice body x | setDeviceExt body x =>
    exact awaits_or_stopped (loop_skipRule _ _ body x s hloop) (endsAwaiting_skipRule _ _ _ _) trivial h
  | loadAddress lo hi x =>
    exact awaits_or_stopped (cfg_loadAddressRule trivial s.cfg lo hi x s ⟨hloop, rfl⟩)
      (endsAwaiting_loadAddressRule _ _ _ _) trivial h
  | universal body x =>
    exact awaits_or_stopped (loop_universalRule s.cfg body x s hloop) (endsAwaiting_universalRule _ _ _)
      trivial h
  | programPageF lh payload x =>
    exact awaits_or_stopped (programPageFRule_lands trivial lh payload x s hloop fun _ => trivial)
      (endsAwaiting_programPageFRule _ _ _ _) trivial h
  | programPageE lh payload x =>
    exact awaits_or_stopped (programPageERule_lands trivial lh payload x s hloop fun _ _ => trivial)
      (endsAwaiting_programPageERule _ _ _) trivial h
  | readPageF lh n x =>
    exact awaits_or_stopped (loop_readPageFRule trivial lh n x s hloop) (endsAwaiting_readPageFRule _ _ _)
      trivial h
  | readPageE lh n x =>
    exact awaits_or_stopped (loop_readPageERule trivial lh n x s hloop) (endsAwaiting_readPageERule _ _ _)
      trivial h
  | readSignature x =>
    exact awaits_or_stopped (loop_readSignatureRule s.cfg x s hloop) (endsAwaiting_readSignatureRule _ _)
      trivial h
  | leaveProgMode x =>
    exact awaits_or_stopped (cfg_leaveProgModeRule s.cfg x s ⟨hloop, rfl⟩) (endsAwaiting_leaveProgModeRule _ _)
      trivial h
  | programPageBadType lh n ty =>
    exact awaits_or_stopped (loop_programBadTypeRule lh n ty s hloop)
      (endsAwaiting_after _ fun _ => endsIn_refuse _) trivial h
  | readPageBadType lh n ty x =>
    exact awaits_or_stopped (loop_readBadTypeRule lh n ty x s hloop)
      (endsAwaiting_after _ fun _ => endsIn_refuse _) trivial h
  | pkt tag payload | hello a0 a1 a2 m body =>
    exact awaits_or_stopped (loop_processPacket _ s hloop) (awaits_processPacket _) hs h
  | other _ x | getSync x | enterProgMode x =>
    exact awaits_or_stopped (loop_ackRule _ x s hloop) (endsAwaiting_ackRule _ _) trivial h

/-- An idle step keeps its phase, unless a reset strikes (R107). -/
theorem idle_phase {s t : State} (h : idle s = .next t) : t.ph = s.ph ∨ t.ph = .boot := by
  rcases idle_moves (A := True) (P := NoPage) (E := NoPage) h with ⟨-, hph⟩ | ⟨-, hph⟩
  · exact .inl hph
  · exact .inr hph

theorem loopStep_phase {s t : State} (hs : Awaits s) (h : loopStep s = .next t) :
    t.ph = .awaitCommand ∨ t.ph = .abandoned ∨ t.ph = .boot := by
  rcases loopStep_cases s with heq | ⟨p, ps, heq⟩ | ⟨i, -, heq⟩
  · exact (idle_phase (heq ▸ h)).imp (·.trans hs) .inr
  · exact (awaits_or_stopped (loop_packetRule p ps _ s (inLoop_of_awaits hs)) (awaits_packetRule p ps _) hs
      (heq ▸ h)).imp_right Or.symm
  · exact (exec_awaits hs (heq ▸ h)).imp_right Or.symm

end Phases

/-- Settles O53. -/
theorem phaseTransitions : Obligations.PhaseTransitions := by
  intro s t hstep
  obtain ⟨hwf, -⟩ := moves_of_step hstep
  rw [step, if_pos hwf, phaseStep] at hstep
  cases hph : s.ph with
  | boot =>
    rw [hph] at hstep
    exact boot_next hph hstep
  | awaitCommand =>
    rw [hph] at hstep
    exact loopStep_phase hph hstep
  | abandoned | handedOff =>
    rw [hph] at hstep
    exact (idle_phase hstep).imp_left (·.trans hph)
  | execute k | respond =>
    rw [hph] at hstep
    cases hstep

end Sys2Proof.Proofs
end

section
/-! SUPPORT. The VirtualBootPatch (41_flash_programmer.md R134, R139): the four bytes it writes into PAGEBUF, by
natural-number arithmetic. -/

namespace Sys2Proof.Proofs

open Sys2Proof Sys2Proof.Machine

section Patch

variable {s : State}

/-! ### Words and their bytes -/

theorem lo8_eq_ofNat (w : Word) : lo8 w = BitVec.ofNat 8 w.toNat := by
  apply BitVec.eq_of_toNat_eq
  rw [lo8, BitVec.extractLsb'_toNat, Nat.shiftRight_zero, BitVec.toNat_ofNat]

theorem hi8_eq_ofNat (w : Word) : hi8 w = BitVec.ofNat 8 (w.toNat / 256) := by
  apply BitVec.eq_of_toNat_eq
  rw [hi8, BitVec.extractLsb'_toNat, Nat.shiftRight_eq_div_pow, BitVec.toNat_ofNat]

theorem toNat_lo8 (w : Word) : (lo8 w).toNat = w.toNat % 256 := by
  rw [lo8_eq_ofNat, BitVec.toNat_ofNat]

theorem toNat_hi8 (w : Word) : (hi8 w).toNat = w.toNat / 256 := by
  have := w.isLt
  rw [hi8_eq_ofNat, BitVec.toNat_ofNat, Nat.mod_eq_of_lt (by omega)]

/-- R134, R139: the subtraction is modulo 65536. -/
theorem toNat_relocate (c : Config) (v : Word) :
    (relocate c v).toNat = (v.toNat + 65536 - c.vbpAdjust % 65536) % 65536 := by
  rw [relocate, BitVec.toNat_sub, BitVec.toNat_ofNat]
  omega

theorem toNat_bufResetWord (s : State) :
    s.bufResetWord.toNat = 256 * (s.bufByte 1).toNat + (s.bufByte 0).toNat :=
  toNat_wordOf _ _

/-! ### PAGEBUF under the patch -/

theorem getD_set {l : List Byte} {i j : Nat} {b : Byte} (hi : i < l.length) :
    (l.set i b).getD j 0 = if i = j then b else l.getD j 0 := by
  rw [List.getD_eq_getElem?_getD, List.getD_eq_getElem?_getD]
  by_cases hij : i = j
  · rw [if_pos hij, ← hij, List.getElem?_set_self hi, Option.getD_some]
  · rw [if_neg hij, List.getElem?_set_ne hij]

/-- The four bytes the patch writes (R134); the rest of PAGEBUF stays. -/
theorem bufByte_patched (hlen : 10 ≤ s.pagebuf.length) (i : Nat) :
    s.patched.bufByte i =
      if i = 0 then lo8 s.cfg.bootEntryJump
      else if i = 1 then hi8 s.cfg.bootEntryJump
      else if i = 8 then lo8 (relocate s.cfg s.bufResetWord)
      else if i = 9 then hi8 (relocate s.cfg s.bufResetWord)
      else s.bufByte i := by
  simp only [State.bufByte, State.patched]
  rw [getD_set (by simp; omega), getD_set (by simp; omega), getD_set (by simp; omega), getD_set (by omega)]
  by_cases h0 : i = 0
  · simp [h0]
  by_cases h1 : i = 1
  · simp [h1]
  by_cases h9 : i = 9
  · simp [h9]
  simp only [h0, h1, h9, eq_comm (b := i), if_false]

end Patch

/-- Settles O22: the shadows by definition, the bytes of PAGEBUF by `bufByte_patched`. -/
theorem vbpPatchTransforms : Obligations.VbpPatchTransforms := by
  intro s hlen
  have hreloc := toNat_relocate s.cfg s.bufResetWord
  rw [toNat_bufResetWord] at hreloc
  refine ⟨rfl, rfl, ?_, ?_, ?_, ?_, by simp [State.patched], fun i h0 h1 h8 h9 => ?_⟩
  · rw [bufByte_patched hlen, ← hreloc]
    exact toNat_lo8 _
  · rw [bufByte_patched hlen, ← hreloc]
    exact toNat_hi8 _
  · rw [bufByte_patched hlen]
    exact toNat_lo8 _
  · rw [bufByte_patched hlen]
    exact toNat_hi8 _
  · rw [bufByte_patched hlen, if_neg h0, if_neg h1, if_neg h8, if_neg h9]

end Sys2Proof.Proofs
end

section
/-! SUPPORT. ProgramPage 'F' in a quiet environment (41_flash_programmer.md R131 to R142): what each stage of
the programmer makes of the state, and the whole request from them, answered or abandoned at its terminator. -/

namespace Sys2Proof.Proofs

open Sys2Proof Sys2Proof.Machine

section Programming

variable {s t : State} {a n h k : Nat} {said bs : List Byte} {payload : List Byte} {x lenHigh : Byte}

/-! ### The updates ProgramPage 'F' makes -/

/-- FLASH replaced: the model's list of cells may differ where every cell is the same. -/
def withFlash (m : List (Nat × FlashCell)) (s : State) : State := { s with flash := m }

/-- The payload in PAGEBUF, before its old tail (R131 step 2, R138). -/
def received (payload : List Byte) (s : State) : State :=
  s.setPagebuf (payload ++ s.pagebuf.drop payload.length)

theorem registerWrite_withFlash (m : List (Nat × FlashCell)) : RegisterWrite (withFlash m) := by
  constructor <;> intros <;> rfl

theorem registerWrite_received (payload : List Byte) : RegisterWrite (received payload) := by
  constructor <;> intros <;> rfl

theorem registerWrite_advanced (n : Nat) : RegisterWrite fun s => s.advanced n := by
  constructor <;> intros <;> rfl

theorem registerWrite_pageStored : RegisterWrite State.pageStored := by
  constructor <;> intros <;> rfl

theorem registerWrite_ctrl (m : List (Nat × FlashCell)) (w : List (Option Byte)) (op : FlashOp) (b : Bool) :
    RegisterWrite fun s => s.ctrl m w op b := by
  constructor <;> intros <;> rfl

theorem registerWrite_vbpPatched : RegisterWrite State.vbpPatched := by
  constructor <;> intro s
  case withChan => exact vbpPatched_withChan s
  all_goals
    unfold State.vbpPatched
    split <;> rfl

theorem registerWrite_loaded (ty : Byte) (payload : List Byte) :
    RegisterWrite fun s => s.loaded ty payload := by
  constructor <;> intros <;> rfl

/-- What a completed request makes of the state, ADDR moved on by `n` (R142). -/
theorem registerWrite_programmed (payload : List Byte) (n : Nat) :
    RegisterWrite fun s => (s.loaded Config.typeFlash payload).vbpPatched.pageStored.advanced n :=
  (registerWrite_advanced n).comp (registerWrite_pageStored.comp
    (registerWrite_vbpPatched.comp (registerWrite_loaded _ payload)))

/-! ### The erase and the payload -/

/-- Nothing refuses the erase of the page at `a`. -/
def Erasable (a : Nat) (s : State) : Prop :=
  s.flashOp = .idle ∧ a % s.cfg.pageSize = 0 ∧ a < s.cfg.bootStart ∧ s.cfg.bootStart < s.cfg.flashSize

theorem talk_erasePage (herasable : Erasable a s) (hcan : CanTalk s h []) :
    ∃ t, erasePage a s = .ok ((), t) ∧ Talk (s.begun a (.erasing a)) t 0 [] := by
  obtain ⟨hidle, hgrid, hbelow, hboot⟩ := herasable
  exact ⟨_, erasePage_calm a hcan hidle hgrid (hbelow.trans hboot) hbelow,
    talk_begun (talk_emit s _ ⟨rfl, rfl⟩) _ _⟩

theorem talk_received (hroom : payload.length ≤ s.pagebuf.length) (hcan : CanTalk s payload.length []) :
    ∃ t, receivePayload 0 payload s = .ok ((), t) ∧ Talk (received payload s) t payload.length [] := by
  simpa [received] using talk_receivePayload payload 0 (by omega) hcan

/-- The controller does not look at PAGEBUF. -/
theorem received_begun (payload : List Byte) (a : Nat) (s : State) :
    received payload (s.begun a (.erasing a)) = (received payload s).begun a (.erasing a) := by
  have hbank : isRww (received payload s).cfg a = isRww s.cfg a := rfl
  unfold State.begun
  rw [hbank]
  split <;> rfl

theorem begun_pagebuf (a : Nat) (s : State) : (s.begun a (.erasing a)).pagebuf = s.pagebuf := by
  unfold State.begun
  split <;> rfl

theorem begun_cfg (a : Nat) (s : State) : (s.begun a (.erasing a)).cfg = s.cfg := by
  unfold State.begun
  split <;> rfl

/-- The erase of the page, before the payload or after it (R132). -/
def eraseAndReceive (c : Config) (a : Nat) (payload : List Byte) : Eng Unit := do
  onlyIf (isRww c a) (erasePage a)
  receivePayload 0 payload
  onlyIf (!isRww c a) (erasePage a)

theorem talk_eraseAndReceive (herasable : Erasable a s) (hroom : payload.length ≤ s.pagebuf.length)
    (hcan : CanTalk s payload.length []) :
    ∃ t, eraseAndReceive s.cfg a payload s = .ok ((), t) ∧
      Talk ((received payload s).begun a (.erasing a)) t payload.length [] := by
  unfold eraseAndReceive
  cases isRww s.cfg a with
  | true =>
    obtain ⟨t, herase, htalk⟩ := talk_erasePage herasable hcan
    have hbuf : t.pagebuf = s.pagebuf := htalk.pagebuf.trans (begun_pagebuf a s)
    have hcan' : CanTalk t payload.length [] := htalk.can (by simpa using hcan.begun a (.erasing a))
    obtain ⟨u, hrecv, htalk'⟩ := talk_received (hbuf ▸ hroom) hcan'
    have hmap := (registerWrite_received payload).talk htalk
    rw [received_begun] at hmap
    refine ⟨u, ?_, by simpa using hmap.trans htalk'⟩
    rw [onlyIf, if_pos rfl, bind_ok herase, bind_ok hrecv]
    rfl
  | false =>
    obtain ⟨t, hrecv, htalk⟩ := talk_received hroom hcan
    have herasable' : Erasable a t := (htalk.field (Erasable a) fun _ _ => rfl) ▸ herasable
    have hcan' : CanTalk t 0 [] := htalk.can ((registerWrite_received payload).canTalk hcan)
    obtain ⟨u, herase, htalk'⟩ := talk_erasePage herasable' hcan'
    refine ⟨u, ?_, (talk_begun htalk _ _).trans htalk'⟩
    rw [onlyIf, if_neg Bool.false_ne_true, bind_ok (pure_run _ _), bind_ok hrecv]
    exact herase

/-! ### Up to the terminator -/

/-- What follows the payload: the terminator, the commit sequence and the advance of ADDR. -/
def afterPayload (c : Config) (a n : Nat) (x : Byte) : Eng Unit := do
  verifyTerminator x
  commitSequence c a
  advanceBy n

theorem erasable_of_programmable (hprog : Programmable s payload) : Erasable s.flashAddress s :=
  ⟨hprog.idle, hprog.aligned, hprog.range, (geometry_of_wf hprog.config).2⟩

theorem programFlash_run (herasable : Erasable s.flashAddress s) (payload : List Byte) (x : Byte) :
    programFlash s.cfg payload x s =
      (eraseAndReceive s.cfg s.flashAddress payload >>= fun _ =>
        afterPayload s.cfg s.flashAddress (advanceAmount s.cfg (payloadLength payload)) x) s := by
  obtain ⟨-, hgrid, hbelow, hboot⟩ := herasable
  rw [programFlash, bind_ok (look_run _ _), bind_ok (refuseIf_pass (by simpa using hgrid) _ s),
    bind_ok (refuseIf_pass (by simpa using hbelow.trans hboot) _ s)]
  simp only [eraseAndReceive, afterPayload, bind_assoc]

/-- The request as stages, of a page at `a`: its header, the erase and the payload, and the rest. -/
def stagedRule (c : Config) (a : Nat) (lenHigh : Byte) (payload : List Byte) (x : Byte) : Eng Unit := do
  programHeader lenHigh (payloadLength payload) Config.typeFlash
  eraseAndReceive c a payload
  afterPayload c a (advanceAmount c (payloadLength payload)) x
  respond

theorem talk_header (hprog : Programmable s payload) (hcan : CanTalk s 4 []) (lenHigh : Byte) :
    ∃ t, programHeader lenHigh (payloadLength payload) Config.typeFlash s = .ok ((), t) ∧
      Talk (s.headed (payloadLength payload) Config.typeFlash) t 4 [] ∧ Erasable s.flashAddress t := by
  obtain ⟨t, hheader, htalk⟩ := talk_programHeader lenHigh (payloadLength payload) Config.typeFlash
    (badProgramLength_payload hprog.length.1 hprog.length.2 (pageSize_le_of_wf hprog.config)) hcan
  refine ⟨t, hheader, htalk, ?_⟩
  have hstart := erasable_of_programmable hprog
  rw [htalk.field (Erasable s.flashAddress) fun _ _ => rfl]
  exact hstart

theorem bind_run_congr {α β : Type} {m m' : Eng α} (hm : m s = m' s) (f : α → Eng β) :
    (m >>= f) s = (m' >>= f) s := by
  rw [bind_run, bind_run, hm]

/-- The flash address the rule reads after the header is that of the request's start. -/
theorem programPageFRule_run (hprog : Programmable s payload) (hcan : CanTalk s 4 []) (lenHigh x : Byte) :
    programPageFRule s.cfg lenHigh payload x s = stagedRule s.cfg s.flashAddress lenHigh payload x s := by
  obtain ⟨t, hheader, htalk, herasable⟩ := talk_header hprog hcan lenHigh
  have hcfg : t.cfg = s.cfg := htalk.cfg
  have haddr : t.flashAddress = s.flashAddress := htalk.field State.flashAddress fun _ _ => rfl
  have hrun := programFlash_run (by rwa [haddr]) payload x
  rw [hcfg, haddr] at hrun
  rw [programPageFRule, stagedRule, bind_ok hheader, bind_ok hheader, bind_run_congr hrun, bind_assoc]

/-- The request up to its terminator: the payload is in PAGEBUF and the erase has been started. -/
theorem talk_untilTerminator (hprog : Programmable s payload)
    (hcan : CanTalk s (4 + payload.length) []) (lenHigh x : Byte) :
    ∃ t, Talk ((s.loaded Config.typeFlash payload).begun s.flashAddress (.erasing s.flashAddress)) t
        (4 + payload.length) [] ∧
      programPageFRule s.cfg lenHigh payload x s =
        (afterPayload s.cfg s.flashAddress (advanceAmount s.cfg (payloadLength payload)) x >>= fun _ =>
          respond) t := by
  obtain ⟨t, hheader, htalk, herasable⟩ := talk_header hprog (hcan.hear (by omega)) lenHigh
  have hcfg : t.cfg = s.cfg := htalk.cfg
  have hroom : payload.length ≤ t.pagebuf.length := by
    rw [htalk.pagebuf]
    exact hprog.length.2.trans_eq hprog.buffer.symm
  have hcan' : CanTalk t payload.length [] := htalk.can (hcan.same rfl rfl rfl rfl rfl rfl)
  obtain ⟨u, hpayload, htalk'⟩ := talk_eraseAndReceive herasable hroom hcan'
  rw [hcfg] at hpayload
  refine ⟨u, (talk_begun ((registerWrite_received payload).talk htalk) _ _).trans htalk', ?_⟩
  rw [programPageFRule_run hprog (hcan.hear (by omega)), stagedRule, bind_ok hheader, bind_ok hpayload]

/-! ### The commit -/

/-- What starting the erase of a page changes: the controller, and on an NRWW page the page itself. -/
theorem begun_erasing (hcells : FlashWf s.flash) (a : Nat) :
    ∃ m op, s.begun a (.erasing a) = s.ctrl m s.wbuf op (s.rwwBlocked || s.cfg.needsRwwEnable) ∧
      FlashWf m ∧ (op = .idle ∨ op = .erasing a) ∧
      (op = .idle → ∀ i < s.cfg.pageSize, flashCell m (a + i) = .erased) ∧
      ∀ y, ¬ (a ≤ y ∧ y < a + s.cfg.pageSize) → flashCell m y = flashCell s.flash y := by
  unfold State.begun
  split
  · exact ⟨s.flash, .erasing a, rfl, hcells, .inr rfl, nofun, fun _ _ => rfl⟩
  · refine ⟨s.pageFilled a .erased, .idle, rfl, setFlashCells_wf hcells _ _, .inl rfl, fun _ i hi => ?_,
      fun y hy => ?_⟩
    · rw [State.pageFilled, flashCell_setPage hcells List.length_replicate hi]
      simp [hi]
    · rw [State.pageFilled, flashCell_setFlashCells hcells, if_neg (by simpa using hy)]

theorem vbpPatched_pagebuf_length (s : State) : s.vbpPatched.pagebuf.length = s.pagebuf.length := by
  obtain ⟨-, -, -, -, -, -, -, -, -, -, -, hlen, -⟩ := vbpPatched_same s
  exact hlen

theorem vbpPatched_memory (s : State) : s.vbpPatched.flash = s.flash ∧
    s.vbpPatched.rwwBlocked = s.rwwBlocked ∧ s.vbpPatched.flashAddress = s.flashAddress := by
  obtain ⟨-, -, -, -, -, -, -, hflash, -, hblocked, haddr, -, -⟩ := vbpPatched_same s
  exact ⟨hflash, hblocked, haddr⟩

/-- The page holds PAGEBUF, every other cell what it held. -/
theorem flashCell_pageStored (hcells : FlashWf s.flash) (hbuf : s.pagebuf.length = s.cfg.pageSize) (y : Nat) :
    flashCell s.pageStored.flash y =
      if s.flashAddress ≤ y ∧ y < s.flashAddress + s.cfg.pageSize then .byte (s.bufByte (y - s.flashAddress))
      else flashCell s.flash y := by
  rw [State.pageStored, flashCell_setFlashCells hcells, List.length_map, hbuf]
  split
  · rw [State.bufByte, List.getD_eq_getElem _ _ (by simp; omega), List.getD_eq_getElem _ _ (by omega),
      List.getElem_map]
  · rfl

theorem vbpPatched_addr (s : State) : s.vbpPatched.addr = s.addr := by
  unfold State.vbpPatched
  split <;> rfl

/-- The controller's registers after the commit: RWW_BLOCKED is set by the erase and cleared at the end. -/
theorem withFlash_pageStored (m : List (Nat × FlashCell)) (s : State) :
    withFlash m s.vbpPatched.pageStored = s.vbpPatched.ctrl m (List.replicate s.cfg.pageSize none) .idle
      ((s.rwwBlocked || s.cfg.needsRwwEnable) && !s.cfg.needsRwwEnable) := by
  obtain ⟨-, hblocked, -⟩ := vbpPatched_memory s
  show s.vbpPatched.ctrl m (List.replicate s.vbpPatched.cfg.pageSize none) .idle
    (s.vbpPatched.rwwBlocked && !s.vbpPatched.cfg.needsRwwEnable) = _
  rw [registerWrite_vbpPatched.cfg s, hblocked]
  cases s.cfg.needsRwwEnable <;> simp

/-- Whatever the erase has done to the page, the commit writes all of it. -/
theorem flashCell_pageStored_erased (hprog : Programmable s payload) {m : List (Nat × FlashCell)}
    (hcells : FlashWf m)
    (houtside : ∀ y, ¬ (s.flashAddress ≤ y ∧ y < s.flashAddress + s.cfg.pageSize) →
      flashCell m y = flashCell s.flash y) (w : List (Option Byte)) (op : FlashOp) (b : Bool) (y : Nat) :
    flashCell (s.ctrl m w op b).vbpPatched.pageStored.flash y =
      flashCell s.vbpPatched.pageStored.flash y := by
  obtain ⟨hflash, -, haddr⟩ := vbpPatched_memory s
  have hcfg : s.vbpPatched.cfg = s.cfg := registerWrite_vbpPatched.cfg s
  have hlen : s.vbpPatched.pagebuf.length = s.vbpPatched.cfg.pageSize := by
    rw [vbpPatched_pagebuf_length, hcfg, hprog.buffer]
  have herased : flashCell (s.vbpPatched.ctrl m w op b).pageStored.flash y =
      if s.vbpPatched.flashAddress ≤ y ∧ y < s.vbpPatched.flashAddress + s.vbpPatched.cfg.pageSize then
        .byte (s.vbpPatched.bufByte (y - s.vbpPatched.flashAddress))
      else flashCell m y := flashCell_pageStored (s := s.vbpPatched.ctrl m w op b) hcells hlen y
  rw [vbpPatched_ctrl, herased, flashCell_pageStored (by rw [hflash]; exact hprog.cells) hlen, haddr, hcfg,
    hflash]
  split
  · rfl
  · exact houtside y ‹_›

/-- The commit sequence, after the erase has been started: the page holds PAGEBUF, patched where the
VirtualBootPatch applies. -/
theorem talk_commitSequence (hprog : Programmable s payload)
    (htalk : Talk (s.begun s.flashAddress (.erasing s.flashAddress)) t n said) (hcan : CanTalk t h []) :
    ∃ m u, commitSequence s.cfg s.flashAddress t = .ok ((), u) ∧
      Talk (withFlash m s.vbpPatched.pageStored) u n said ∧
      ∀ y, flashCell m y = flashCell s.vbpPatched.pageStored.flash y := by
  obtain ⟨m, op, hbegun, hcells, hop, herased, houtside⟩ := begun_erasing hprog.cells s.flashAddress
  rw [hbegun] at htalk
  have hcfg : t.cfg = s.cfg := htalk.cfg
  have haddr : t.flashAddress = s.flashAddress := htalk.field State.flashAddress fun _ _ => rfl
  have hflash : t.flash = m := htalk.field State.flash fun _ _ => rfl
  have htop : t.flashOp = op := htalk.field State.flashOp fun _ _ => rfl
  have hwbuf : t.wbuf = s.wbuf := htalk.field State.wbuf fun _ _ => rfl
  have hbuf : t.pagebuf = s.pagebuf := htalk.pagebuf
  have hblocked : t.rwwBlocked = (s.rwwBlocked || s.cfg.needsRwwEnable) :=
    htalk.field State.rwwBlocked fun _ _ => rfl
  obtain ⟨m', u, hrun, htalk', hcells'⟩ := commitSequence_calm (s := t) s.flashAddress
    (by rw [hcfg]; exact hprog.config) (by rw [hcfg]; exact hprog.aligned) (by rw [hcfg]; exact hprog.range)
    haddr (by rw [htop]; exact hop) (by rw [htop, hcfg, hflash]; exact herased)
    (by rw [hbuf, hcfg]; exact hprog.buffer) (by rw [hwbuf, hcfg]; exact hprog.unfilled)
    (by rw [hflash]; exact hcells) hcan
  have hpatch := registerWrite_vbpPatched.talk htalk
  refine ⟨m', u, hcfg ▸ hrun, ?_, fun y => ?_⟩
  · rw [vbpPatched_ctrl] at hpatch
    have hctrl := ((registerWrite_ctrl _ _ _ _).talk hpatch).trans htalk'
    rw [List.append_nil, hcfg, hblocked] at hctrl
    rw [withFlash_pageStored]
    exact hctrl
  · have hstored := (registerWrite_pageStored.talk hpatch).field State.flash fun _ _ => rfl
    rw [hcells', hstored, flashCell_pageStored_erased hprog hcells houtside]

/-! ### The whole request -/

theorem advanceBy_run {n : Nat} (hroom : s.addr.toNat + n < 65536) :
    advanceBy n s = .ok ((), s.advanced n) := by
  rw [advanceBy, bind_ok (look_run _ _), bind_ok (refuseIf_pass (decide_eq_false (by omega)) _ s), update_run]
  rfl

theorem programmable_loaded (hprog : Programmable s payload) (ty : Byte) :
    Programmable (s.loaded ty payload) payload where
  config := hprog.config
  length := hprog.length
  aligned := hprog.aligned
  range := hprog.range
  idle := hprog.idle
  buffer := by
    have hlen := hprog.length.2
    rw [← hprog.buffer] at hlen
    simp only [State.loaded, List.length_append, List.length_drop, ← hprog.buffer]
    omega
  unfilled := hprog.unfilled
  cells := hprog.cells
  room := hprog.room

/-- With the right terminator the request completes and makes `pageProgrammed` of the state, FLASH read cell by
cell. -/
theorem programPageFRule_answers (hprog : Programmable s payload)
    (hcan : CanTalk s (5 + payload.length) [s.cfg.respInsync, s.cfg.respOk]) (lenHigh : Byte) :
    ∃ m t, programPageFRule s.cfg lenHigh payload s.cfg.term s = .ok ((), t) ∧ Completed t ∧
      Talk (withFlash m (s.pageProgrammed payload)) t (5 + payload.length) [s.cfg.respInsync, s.cfg.respOk] ∧
      ∀ y, flashCell m y = flashCell (s.pageProgrammed payload).flash y := by
  obtain ⟨t, htalk, hrun⟩ := talk_untilTerminator hprog (hcan.hear (by omega)) lenHigh s.cfg.term
  have hcan' : CanTalk (s.loaded Config.typeFlash payload) (4 + payload.length + (1 + 0))
      ([s.cfg.respInsync] ++ [s.cfg.respOk]) := by
    rw [Nat.add_right_comm]
    exact (registerWrite_loaded Config.typeFlash payload).canTalk hcan
  have hcant : CanTalk t (1 + 0) ([s.cfg.respInsync] ++ [s.cfg.respOk]) := htalk.can (hcan'.begun _ _)
  have hcfg : t.cfg = s.cfg := htalk.cfg.trans (begun_cfg _ _)
  obtain ⟨t1, hterm, htalk1, -, hcan1⟩ := (speaks_verifyTerminator rfl).step hcfg hcant
  have hheard := htalk.trans htalk1
  rw [Nat.add_right_comm] at hheard
  obtain ⟨m, t2, hcommit, htalk2, hcells⟩ :=
    talk_commitSequence (programmable_loaded hprog Config.typeFlash) hheard (hcan1.hear (Nat.le_refl 0))
  have haddr : t2.addr = s.addr := htalk2.addr.trans (vbpPatched_addr _)
  have hadvance := advanceBy_run (s := t2) (by rw [haddr]; exact hprog.room)
  have hstored := (registerWrite_advanced (advanceAmount s.cfg (payloadLength payload))).talk htalk2
  have hcan2 := hstored.can (h' := 0) (bs := [s.cfg.respOk])
    (((registerWrite_withFlash m).comp (registerWrite_programmed payload _)).canTalk hcan)
  have hcfg2 : (t2.advanced (advanceAmount s.cfg (payloadLength payload))).cfg = s.cfg :=
    hstored.cfg.trans (registerWrite_vbpPatched.cfg (s.loaded Config.typeFlash payload))
  obtain ⟨t, hrespond, htalk3, hdone⟩ := finishes_respond.run hcfg2 (h := 0) (bs := []) hcan2
  refine ⟨m, t, ?_, hdone, hstored.trans htalk3, hcells⟩
  rw [hrun]
  exact (bind_ok ((bind_ok hterm _).trans ((bind_ok hcommit _).trans hadvance)) _).trans hrespond

/-- With a wrong terminator the session is abandoned, the payload in PAGEBUF and the erase started. -/
theorem programPageFRule_abandons (hprog : Programmable s payload)
    (hcan : CanTalk s (5 + payload.length) []) (lenHigh : Byte) (hx : x ≠ s.cfg.term) :
    ∃ t, programPageFRule s.cfg lenHigh payload x s = .error (.ended (t.setPh .abandoned)) ∧
      Talk ((s.loaded Config.typeFlash payload).begun s.flashAddress (.erasing s.flashAddress)) t
        (5 + payload.length) [] := by
  obtain ⟨t, htalk, hrun⟩ := talk_untilTerminator hprog (hcan.hear (by omega)) lenHigh x
  have hcan' : CanTalk (s.loaded Config.typeFlash payload) (4 + payload.length + 1) [] := by
    rw [Nat.add_right_comm]
    exact (registerWrite_loaded Config.typeFlash payload).canTalk hcan
  have hcfg : t.cfg = s.cfg := htalk.cfg.trans (begun_cfg _ _)
  obtain ⟨u, hterm, htalk'⟩ := abandons_verifyTerminator hx t hcfg (htalk.can (hcan'.begun _ _))
  refine ⟨u, ?_, by simpa [Nat.add_right_comm] using htalk.trans htalk'⟩
  rw [hrun]
  exact bind_error (bind_error hterm _) _

/-- Talking from a state whose FLASH reads the same. -/
theorem talked_of_withFlash {u : State} {m : List (Nat × FlashCell)}
    (hcells : ∀ y, flashCell m y = flashCell u.flash y) (htalk : Talk (withFlash m u) t n said) :
    Talked u t n said := by
  obtain ⟨hregisters, hboot, hwatchdog, hmemory, hlink, hreceived, hpassed, hsent, hdest, htrace, hquiet⟩ :=
    htalk.talked
  have hincoming : (withFlash m u).incoming = u.incoming := incoming_inbound ⟨rfl, rfl, rfl, rfl⟩ rfl rfl
  obtain ⟨hflash, heeprom, hwbuf, hop, hblocked, hbusy⟩ := hmemory
  exact ⟨⟨hregisters.1, hregisters.2, hregisters.3, hregisters.4, hregisters.5, hregisters.6, hregisters.7,
      hregisters.8⟩, ⟨hboot.1, hboot.2, hboot.3, hboot.4, hboot.5⟩, hwatchdog,
    ⟨fun y => (hflash y).trans (hcells y), heeprom, hwbuf, hop, hblocked, hbusy⟩,
    ⟨hlink.1, hlink.2, hlink.3, hlink.4⟩, hincoming ▸ hreceived, hpassed, hsent, hdest, htrace, hquiet⟩

theorem encode_programPageF_length {c : Config} (hprog : Programmable s payload) (lenHigh x : Byte) :
    (encode c (.programPageF lenHigh payload x)).length = 5 + payload.length :=
  Laws.EncodeLength.programPageF lenHigh payload x c
    (decide_eq_true (hprog.length.2.trans (pageSize_le_of_wf hprog.config)))

theorem canTalk_of_ready_programPageF (hprog : Programmable s payload)
    (hready : Ready s (.programPageF lenHigh payload x) bs) : CanTalk s (5 + payload.length) bs :=
  encode_programPageF_length hprog lenHigh x ▸ canTalk_of_ready hready

end Programming

/-- Settles O18: the request's stages one after the other, FLASH compared cell by cell at the end. -/
theorem programPageFCompletes : Obligations.ProgramPageFCompletes := by
  intro s lenHigh payload hready hprog
  obtain ⟨m, t, hrun, hdone, htalk, hcells⟩ :=
    programPageFRule_answers hprog (canTalk_of_ready_programPageF hprog hready) lenHigh
  refine ⟨t, runRule_ok hrun, hdone, ?_⟩
  rw [encode_programPageF_length hprog]
  exact talked_of_withFlash hcells htalk

/-! ### The page, byte by byte -/

/-- The page holds PAGEBUF as the patch leaves it. -/
theorem flashCell_pageProgrammed {s : State} {payload : List Byte} (hprog : Programmable s payload) (y : Nat) :
    flashCell (s.pageProgrammed payload).flash y =
      if s.flashAddress ≤ y ∧ y < s.flashAddress + s.cfg.pageSize then
        .byte ((s.loaded Config.typeFlash payload).vbpPatched.bufByte (y - s.flashAddress))
      else flashCell s.flash y := by
  have hload := programmable_loaded hprog Config.typeFlash
  obtain ⟨hflash, -, haddr⟩ := vbpPatched_memory (s.loaded Config.typeFlash payload)
  have hcfg : (s.loaded Config.typeFlash payload).vbpPatched.cfg = s.cfg := registerWrite_vbpPatched.cfg _
  have hstored := flashCell_pageStored (s := (s.loaded Config.typeFlash payload).vbpPatched)
    (by rw [hflash]; exact hload.cells) (by rw [vbpPatched_pagebuf_length, hcfg]; exact hload.buffer) y
  rw [haddr, hcfg, hflash] at hstored
  exact hstored

theorem pageSize_of_vbpEnabled {c : Config} (hwf : c.wf = true) (hvbp : c.vbpEnabled = true) :
    10 ≤ c.pageSize := by
  simp only [Config.wf, Config.geometryOk, Bool.and_eq_true, decide_eq_true_eq] at hwf
  tauto

theorem bufByte_vbpPatched_of_applies {s : State} (hlen : 10 ≤ s.pagebuf.length)
    (happlies : s.cfg.vbpEnabled = true ∧ s.flashAddress = 0) (i : Nat) :
    s.vbpPatched.bufByte i =
      if i = 0 then lo8 s.cfg.bootEntryJump
      else if i = 1 then hi8 s.cfg.bootEntryJump
      else if i = 8 then lo8 (relocate s.cfg s.bufResetWord)
      else if i = 9 then hi8 (relocate s.cfg s.bufResetWord)
      else s.bufByte i := by
  rw [State.vbpPatched, if_pos happlies, bufByte_patched hlen]

theorem vbpPatched_of_not {s : State} (hnot : ¬ (s.cfg.vbpEnabled = true ∧ s.flashAddress = 0)) :
    s.vbpPatched = s := by
  rw [State.vbpPatched, if_neg hnot]

/-- Settles O19: the page is PAGEBUF as the patch leaves it, whose bytes are those of `bufByte_patched`. -/
theorem programPageFWritesPage : Obligations.ProgramPageFWritesPage := by
  intro s lenHigh payload hready hprog
  obtain ⟨m, t, hrun, -, htalk, hcells⟩ :=
    programPageFRule_answers hprog (canTalk_of_ready_programPageF hprog hready) lenHigh
  have hflash : t.flash = m := htalk.field State.flash fun _ _ => rfl
  refine ⟨t, runRule_ok hrun, fun k hk => ?_, fun y hy => ?_⟩
  · rw [hflash, hcells, flashCell_pageProgrammed hprog, if_pos (by omega), Nat.add_sub_cancel_left]
    dsimp only
    have hload := programmable_loaded hprog Config.typeFlash
    by_cases happlies : s.cfg.vbpEnabled = true ∧ s.flashAddress = 0
    · have hlen := (pageSize_of_vbpEnabled hprog.config happlies.1).trans_eq hload.buffer.symm
      rw [bufByte_vbpPatched_of_applies hlen happlies, if_pos happlies]
      simp only [lo8_eq_ofNat, hi8_eq_ofNat, toNat_relocate, toNat_bufResetWord]
      rfl
    · rw [vbpPatched_of_not (s := s.loaded _ _) happlies, if_neg happlies]
      rfl
  · rw [hflash, hcells, flashCell_pageProgrammed hprog, if_neg (by omega)]

/-- Settles O20: the erase has been started whichever bank the page is in, so a completion ends it Erased. -/
theorem programPageFDeserts : Obligations.ProgramPageFDeserts := by
  intro s lenHigh payload x hx hready hprog
  obtain ⟨t, hrun, htalk⟩ :=
    programPageFRule_abandons hprog (canTalk_of_ready_programPageF hprog hready) lenHigh hx
  have hended := htalk.trans (talk_setPh t .abandoned)
  refine ⟨⟨_, runRule_ended hrun, rfl, ?_⟩, fun u hu => ?_⟩
  · rw [encode_programPageF_length hprog]
    exact hended.talked
  obtain rfl : u = t.setPh .abandoned := Host.Outcome.next.inj (hu.symm.trans (runRule_ended hrun))
  refine ⟨fun y => ?_, fun y => ?_⟩
  · have hcomplete := hended.flashComplete
    rw [flashComplete_begun] at hcomplete
    have hflash := hcomplete.field State.flash fun _ _ => rfl
    rw [hflash]
    show flashCell (s.pageFilled s.flashAddress .erased) y = _
    rw [State.pageFilled, flashCell_setFlashCells hprog.cells, List.length_replicate]
    split
    · simp
    · rfl
  · obtain ⟨m, op, hbegun, -⟩ :=
      begun_erasing (s := s.loaded Config.typeFlash payload) hprog.cells s.flashAddress
    rw [hbegun] at hended
    rw [hended.field State.eeprom fun _ _ => rfl]
    rfl

end Sys2Proof.Proofs
end

section
/-! SUPPORT. ReadPage 'F' in a quiet environment (41_flash_programmer.md R136, R137), and the round trip
through FLASH (R140): what a full page programmed, addressed again and read back answers. -/

namespace Sys2Proof.Proofs

open Sys2Proof Sys2Proof.Machine

section Reading

variable {s t : State} {n lenHigh : Byte}

/-! ### The read loop -/

theorem advanced_zero (s : State) : s.advanced 0 = s :=
  congrArg s.setAddr (BitVec.add_zero s.addr)

theorem advanced_advanced (s : State) (m n : Nat) : (s.advanced m).advanced n = s.advanced (m + n) := by
  show s.setAddr (s.addr + BitVec.ofNat 16 m + BitVec.ofNat 16 n) = s.setAddr (s.addr + BitVec.ofNat 16 (m + n))
  rw [BitVec.add_assoc, BitVec.ofNat_add]

/-- One byte read (R136): it goes out, the one the rules fix where they fix one, and ADDR moves on. -/
theorem talk_readFlashByte (hin : s.flashAddress < s.cfg.flashSize) (htop : s.addr ≠ 0xFFFF)
    (hcan : ∀ b, (∀ x, s.hostByte s.flashAddress = some x → b = x) → CanTalk s 0 [b]) :
    ∃ b t, readFlashByte s = .ok ((), t) ∧ Talk (s.advanced 1) t 0 [b] ∧
      ∀ x, s.hostByte s.flashAddress = some x → b = x := by
  have hsample := hcan ((s.hostByte s.flashAddress).getD 0) fun x hx => by rw [hx, Option.getD_some]
  obtain ⟨b, u, hread, htalkRead, hb⟩ := hostFlashRead_calm hsample hin
  obtain ⟨t, hsend, htalkSend, -⟩ := talk_sendByte b (htalkRead.can (h' := 0) (bs := [b]) (hcan b hb))
  have htalk : Talk s t 0 [b] := htalkRead.trans htalkSend
  have hadvance : advanceByte t = .ok ((), t.advanced 1) := advanceByte_run (htalk.addr ▸ htop)
  refine ⟨b, t.advanced 1, ?_, (registerWrite_advanced 1).talk htalk, hb⟩
  rw [readFlashByte, look_id_bind, bind_ok (refuseIf_pass (by simpa using hin) _ s), bind_ok hread,
    bind_ok hsend, hadvance]

/-- The bytes read are bytes a ReadPage may answer, and ADDR moves on past them. -/
theorem talk_readFlash (n : Nat) (hin : s.flashAddress + n ≤ s.cfg.flashSize)
    (hroom : s.addr.toNat + n < 65536) (hcan : ∀ data, s.MayRead n data → CanTalk s 0 data) :
    ∃ data t, readFlash n s = .ok ((), t) ∧ Talk (s.advanced n) t 0 data ∧ s.MayRead n data := by
  induction n generalizing s with
  | zero =>
    refine ⟨[], s, rfl, ?_, rfl, fun k b hk => by omega⟩
    rw [advanced_zero]
    exact Talk.refl s
  | succ n ih =>
    have htop : s.addr ≠ 0xFFFF := fun heq => by
      rw [heq, show (0xFFFF : Word).toNat = 65535 from rfl] at hroom
      omega
    obtain ⟨sample, hsample⟩ := exists_fits s.hostByte (s.flashAddress + 1) n
    obtain ⟨b, t, hbyte, htalk, hb⟩ := talk_readFlashByte (by omega) htop fun b hb =>
      (hcan (b :: sample) (fits_cons hb hsample)).weaken (Nat.le_refl 0) ⟨sample, rfl⟩
    have hcfg : t.cfg = s.cfg := htalk.cfg
    have hplace : t.flashAddress = s.flashAddress + 1 := by
      rw [htalk.field State.flashAddress fun _ _ => rfl, flashAddress_advanced htop]
    have haddr : t.addr.toNat = s.addr.toNat + 1 := by
      rw [htalk.addr]
      exact advanced_addr_toNat rfl htop
    have hhost : t.hostByte = s.hostByte := htalk.field State.hostByte fun _ _ => rfl
    have hfits : ∀ data, t.MayRead n data → Fits s.hostByte s.flashAddress (n + 1) (b :: data) :=
      fun data hdata => by
        rw [mayRead_iff_fits, hplace, hhost] at hdata
        exact fits_cons hb hdata
    obtain ⟨data, u, hrest, htalk', hdata⟩ := ih (s := t) (by rw [hplace, hcfg]; omega) (by omega)
      fun data hdata =>
        htalk.can ((registerWrite_advanced 1).canTalk (hcan (b :: data) (hfits data hdata)))
    refine ⟨b :: data, u, ?_, ?_, hfits data hdata⟩
    · rw [readFlash, bind_ok hbyte, hrest]
    · have hmoved := (registerWrite_advanced n).talk htalk
      rw [advanced_advanced, Nat.add_comm 1 n] at hmoved
      exact hmoved.trans htalk'

/-! ### The whole request -/

theorem readPageFRule_answers (hn : n ≠ 0) (hin : s.flashAddress + n.toNat ≤ s.cfg.flashSize)
    (hroom : s.addr.toNat + n.toNat < 65536)
    (hcan : ∀ data, s.MayRead n.toNat data → CanTalk s 5 (s.cfg.respInsync :: (data ++ [s.cfg.respOk])))
    (lenHigh : Byte) :
    ∃ data t, s.MayRead n.toNat data ∧ readPageFRule lenHigh n s.cfg.term s = .ok ((), t) ∧ Completed t ∧
      Talk ((s.headed n Config.typeFlash).advanced n.toNat) t 5
        (s.cfg.respInsync :: (data ++ [s.cfg.respOk])) := by
  obtain ⟨sample, hsample⟩ := exists_fits s.hostByte s.flashAddress n.toNat
  obtain ⟨t1, hheader, htalk1⟩ := talk_readHeader (lenHigh := lenHigh) (ty := Config.typeFlash) hn
    (hcan sample hsample)
  have hcan1 : ∀ data, s.MayRead n.toNat data → CanTalk t1 0 (data ++ [s.cfg.respOk]) := fun data hdata =>
    htalk1.can ((hcan data hdata).same rfl rfl rfl rfl rfl rfl)
  have hcfg1 : t1.cfg = s.cfg := htalk1.cfg
  have hplace : t1.flashAddress = s.flashAddress := htalk1.field State.flashAddress fun _ _ => rfl
  have haddr : t1.addr = s.addr := htalk1.addr
  have hmayRead : t1.MayRead n.toNat = s.MayRead n.toNat :=
    htalk1.field (fun u => u.MayRead n.toNat) fun _ _ => rfl
  obtain ⟨data, t2, hread, htalk2, hdata⟩ := talk_readFlash (s := t1) n.toNat (by rwa [hplace, hcfg1])
    (by rwa [haddr]) fun data hdata =>
      (hcan1 data (hmayRead ▸ hdata)).weaken (Nat.le_refl 0) (List.prefix_append _ _)
  rw [hmayRead] at hdata
  have hcan2 : CanTalk t2 0 [s.cfg.respOk] :=
    htalk2.can ((registerWrite_advanced n.toNat).canTalk (hcan1 data hdata))
  obtain ⟨t, hrespond, htalk3, hdone⟩ :=
    finishes_respond.run (htalk2.cfg.trans hcfg1) (h := 0) (bs := []) hcan2
  refine ⟨data, t, hdata, ?_, hdone, ?_⟩
  · rw [readPageFRule, bind_ok hheader, bind_ok hread, hrespond]
  · exact (((registerWrite_advanced n.toNat).talk htalk1).trans htalk2).trans htalk3

end Reading

/-- Settles O23: one induction on the bytes read. -/
theorem readPageFReads : Obligations.ReadPageFReads := by
  intro s lenHigh n hn hready hin hroom
  obtain ⟨data, t, hdata, hrun, hdone, htalk⟩ := readPageFRule_answers hn hin hroom
    (fun data hdata => canTalk_of_ready (hready data hdata)) lenHigh
  exact ⟨data, hdata, t, runRule_ok hrun, hdone, htalk.talked⟩

/-! ### The round trip -/

section RoundTrip

variable {s v : State} {lo hi : Byte} {payload : List Byte} {k : Nat}

theorem loadAddressRule_finishes {c : Config} (lo hi : Byte) :
    Finishes c (loadAddressRule c lo hi c.term) (loadedAddress c lo hi) 4 [c.respInsync, c.respOk] :=
  (speaks_openRequest _ _).bind ((speaks_recvByte lo).bind ((speaks_recvByte hi).bind
    ((speaks_verifyTerminator rfl).bind ((speaks_update (registerWrite_loadedAddress c lo hi)).bind
      finishes_respond))))

/-- Loading half of a flash address loads that address, bit 16 into EXT (30_encoding.md R75). -/
theorem loadedAddress_flashAddress (hcfg : v.cfg = s.cfg) (heven : s.flashAddress % 2 = 0)
    (hword : 256 * hi.toNat + lo.toNat = s.flashAddress / 2) :
    (loadedAddress s.cfg lo hi v).addr = s.addr ∧
      (loadedAddress s.cfg lo hi v).flashAddress = s.flashAddress := by
  have hdouble : 2 * (256 * hi.toNat + lo.toNat) = s.flashAddress := by omega
  have hlt := s.addr.isLt
  have haddr : (loadedAddress s.cfg lo hi v).addr = s.addr := by
    show byteAddress (wordOf lo hi) = s.addr
    rw [byteAddress_wordOf, hdouble]
    apply BitVec.eq_of_toNat_eq
    rw [BitVec.toNat_ofNat, State.flashAddress]
    omega
  refine ⟨haddr, ?_⟩
  have hext : (loadedAddress s.cfg lo hi v).extValue = s.extValue := by
    show (if v.cfg.hasExt then (if s.cfg.hasExt then extBit (wordOf lo hi) else v.ext).toNat else 0) = _
    rw [hcfg, State.extValue]
    cases hhas : s.cfg.hasExt with
    | false => rfl
    | true =>
      have hfa : s.flashAddress = s.ext.toNat * 65536 + s.addr.toNat := by
        rw [State.flashAddress, State.extValue, hhas, if_pos rfl]
      have := s.ext.isLt
      simp only [if_true]
      rw [extBit_wordOf, BitVec.toNat_ofNat]
      omega
  rw [State.flashAddress, State.flashAddress, haddr, hext]

/-- The payload's bytes are those of PAGEBUF. -/
theorem getElem?_eq_bufByte_loaded (hk : k < payload.length) (ty : Byte) :
    payload[k]? = some ((s.loaded ty payload).bufByte k) := by
  show payload[k]? = some ((payload ++ s.pagebuf.drop payload.length).getD k 0)
  rw [List.getD_append _ _ _ _ hk, List.getD_eq_getElem _ _ hk, List.getElem?_eq_getElem hk]

/-- Only the first page has slots that the patch changes (R134). -/
theorem flashAddress_eq_zero_of_patched (hprog : Programmable s payload) (hk : k < s.cfg.pageSize)
    (hpatched : s.cfg.vbpEnabled = true ∧ isPatchedAddress (s.flashAddress + k) = true) :
    s.flashAddress = 0 := by
  obtain ⟨hvbp, haddr⟩ := hpatched
  have hlen := pageSize_of_vbpEnabled hprog.config hvbp
  by_contra hne
  have hle := Nat.le_of_dvd (Nat.pos_of_ne_zero hne) (Nat.dvd_of_mod_eq_zero hprog.aligned)
  rw [isPatchedAddress, decide_eq_true_eq] at haddr
  omega

/-- After a full page is programmed ReadPage answers the host's byte at every place of it (R140): from the
shadows in the slots the patch has changed, from FLASH elsewhere. -/
theorem hostByte_pageProgrammed (hprog : Programmable s payload) (hfull : payload.length = s.cfg.pageSize)
    (hblocked : s.rwwBlocked = false) (hk : k < s.cfg.pageSize) :
    (s.pageProgrammed payload).hostByte (s.flashAddress + k) = payload[k]? := by
  have hload := programmable_loaded hprog Config.typeFlash
  have hcfg : (s.pageProgrammed payload).cfg = s.cfg :=
    registerWrite_vbpPatched.cfg (s.loaded Config.typeFlash payload)
  rw [getElem?_eq_bufByte_loaded (s := s) (hfull ▸ hk) Config.typeFlash, State.hostByte, hcfg]
  by_cases hpatched : s.cfg.vbpEnabled = true ∧ isPatchedAddress (s.flashAddress + k) = true
  · have hzero := flashAddress_eq_zero_of_patched hprog hk hpatched
    have happlied : (s.loaded Config.typeFlash payload).vbpPatched =
        (s.loaded Config.typeFlash payload).patched := if_pos ⟨hpatched.1, hzero⟩
    have hset : (s.pageProgrammed payload).shadowSet = true := congrArg State.shadowSet happlied
    have hshadow : (s.pageProgrammed payload).shadowByte k =
        (s.loaded Config.typeFlash payload).patched.shadowByte k := congrArg (·.shadowByte k) happlied
    have hslot := hpatched.2
    rw [hzero, Nat.zero_add, isPatchedAddress, decide_eq_true_eq] at hslot
    rw [if_pos hpatched, hset, if_pos rfl, hzero, Nat.zero_add, hshadow]
    rcases hslot with rfl | rfl | rfl | rfl <;> rfl
  · have hreadable : (s.pageProgrammed payload).readable (s.flashAddress + k) = true := by
      obtain ⟨-, hvblocked, -⟩ := vbpPatched_memory (s.loaded Config.typeFlash payload)
      have hfree : (s.pageProgrammed payload).rwwBlocked = false := by
        show ((s.loaded Config.typeFlash payload).vbpPatched.rwwBlocked && _) = false
        rw [hvblocked, show (s.loaded Config.typeFlash payload).rwwBlocked = false from hblocked,
          Bool.false_and]
      rw [State.readable, hfree]
      rfl
    rw [if_neg hpatched, hreadable, if_pos rfl, flashCell_pageProgrammed hprog, if_pos (by omega),
      Nat.add_sub_cancel_left]
    refine congrArg some ?_
    by_cases happlies : s.cfg.vbpEnabled = true ∧ s.flashAddress = 0
    · have hlen := (pageSize_of_vbpEnabled hprog.config happlies.1).trans_eq hload.buffer.symm
      have hslot : ¬ (k = 0 ∨ k = 1 ∨ k = 8 ∨ k = 9) := fun hslot =>
        hpatched ⟨happlies.1, by rw [happlies.2, Nat.zero_add]; exact decide_eq_true hslot⟩
      rw [bufByte_vbpPatched_of_applies hlen happlies, if_neg (by omega), if_neg (by omega), if_neg (by omega),
        if_neg (by omega)]
    · rw [vbpPatched_of_not (s := s.loaded _ _) happlies]

theorem hostByte_withFlash {m : List (Nat × FlashCell)} (hcells : ∀ y, flashCell m y = flashCell v.flash y) :
    (withFlash m v).hostByte = v.hostByte := by
  funext fa
  rw [State.hostByte, State.hostByte, show (withFlash m v).flash = m from rfl, hcells]
  rfl

/-- Bytes that the rules fix leave nothing open. -/
theorem eq_of_fits {host : Nat → Option Byte} {a n : Nat} {data bytes : List Byte} (hlen : bytes.length = n)
    (hhost : ∀ k < n, host (a + k) = bytes[k]?) (hdata : Fits host a n data) : data = bytes := by
  obtain ⟨hdlen, hfixed⟩ := hdata
  refine List.ext_getElem? fun k => ?_
  by_cases hk : k < n
  · have hin : k < bytes.length := by omega
    rw [List.getElem?_eq_getElem hin]
    exact hfixed k _ hk ((hhost k hk).trans (List.getElem?_eq_getElem hin))
  · rw [List.getElem?_eq_none (by omega), List.getElem?_eq_none (by omega)]

end RoundTrip

/-- Settles O26: the rules fix every byte of a page just programmed, so the answer is the payload. -/
theorem flashRoundTrip : Obligations.FlashRoundTrip := by
  intro s lh1 lo hi lh2 n payload hprog hfull hblocked hpos hpage hroom hword hlink hcalm hbytes
  have hcan : CanTalk s (5 + payload.length + (4 + 5)) ([s.cfg.respInsync, s.cfg.respOk] ++
      ([s.cfg.respInsync, s.cfg.respOk] ++ s.cfg.respInsync :: (payload.take n.toNat ++ [s.cfg.respOk]))) := by
    refine ⟨hcalm.1, by simpa using hcalm.2, hlink, ?_⟩
    have hlen := hbytes.length_le
    rw [List.length_append, List.length_append, encode_programPageF_length hprog] at hlen
    exact hlen
  have heven : s.flashAddress % 2 = 0 := Nat.mod_eq_zero_of_dvd
    ((Nat.dvd_of_mod_eq_zero (pageSize_even_of_wf hprog.config)).trans (Nat.dvd_of_mod_eq_zero hprog.aligned))
  obtain ⟨m, t1, hrun1, -, htalk1, hcells⟩ := programPageFRule_answers hprog
    (hcan.weaken (Nat.le_add_right _ _) (List.prefix_append _ _)) lh1
  have hcfg1 : t1.cfg = s.cfg := htalk1.cfg.trans (registerWrite_vbpPatched.cfg _)
  have hcan1 := htalk1.can (((registerWrite_withFlash m).comp (registerWrite_programmed payload _)).canTalk hcan)
  obtain ⟨t2, hrun2, htalk2, hcfg2, hcan2⟩ := (loadAddressRule_finishes lo hi).step hcfg1 hcan1
  obtain ⟨haddr, hplace⟩ := loadedAddress_flashAddress hcfg1 heven hword
  have haddr2 : t2.addr = s.addr := htalk2.addr.trans haddr
  have hplace2 : t2.flashAddress = s.flashAddress :=
    (htalk2.field State.flashAddress fun _ _ => rfl).trans hplace
  have hhost2 : t2.hostByte = (s.pageProgrammed payload).hostByte :=
    calc t2.hostByte = t1.hostByte := htalk2.field State.hostByte fun _ _ => rfl
      _ = (withFlash m (s.pageProgrammed payload)).hostByte := htalk1.field State.hostByte fun _ _ => rfl
      _ = _ := hostByte_withFlash hcells
  have hanswer : ∀ data, t2.MayRead n.toNat data → data = payload.take n.toNat := fun data hdata => by
    rw [mayRead_iff_fits, hhost2, hplace2] at hdata
    refine eq_of_fits (by rw [List.length_take]; omega) (fun k hk => ?_) hdata
    rw [hostByte_pageProgrammed hprog hfull hblocked (by omega), List.getElem?_take_of_lt hk]
  have hn : n ≠ 0 := fun hzero => by
    rw [hzero, show (0 : Byte).toNat = 0 from rfl] at hpos
    omega
  have hend := page_end_le_flashSize hprog.config hprog.aligned hprog.range
  obtain ⟨data, t3, hdata, hrun3, -, htalk3⟩ := readPageFRule_answers hn (by rw [hplace2, hcfg2]; omega)
    (by rwa [haddr2]) (fun data hdata => by rw [hanswer data hdata, hcfg2]; exact hcan2) lh2
  obtain rfl := hanswer data hdata
  rw [hcfg2] at hrun3 htalk3
  refine ⟨t1, t2, t3, runRule_ok hrun1, ?_, runRule_ok hrun3, htalk3.sent⟩
  exact (congrArg (fun c => runRule (loadAddressRule c lo hi s.cfg.term) t1) hcfg1).trans (runRule_ok hrun2)

end Sys2Proof.Proofs
end

section
/-! SUPPORT. Bank scheduling (41_flash_programmer.md R132): the bytes received and the erases, in the order of
EV, of every rule ProgramPage 'F' calls that runs to its end, in any environment. -/

namespace Sys2Proof.Proofs

open Sys2Proof Sys2Proof.Machine

/-- The events whose order R132 fixes. -/
def scheduled : Event → Bool
  | .rx _ => true
  | .erase _ => true
  | _ => false

/-- The bytes received and the erases so far. -/
def Logged (y : List Event) (s : State) : Prop := s.ev.filter scheduled = y

section Schedule

variable {α : Type} {y : List Event} {J K : State → Prop} {c : Config} {a : Nat} {b x lenHigh n ty : Byte}
  {payload : List Byte}

/-! ### What leaves the schedule alone -/

theorem logged_write {f : State → State} (hev : ∀ s, (f s).ev = s.ev) :
    EndsIn (Logged y) (Logged y) (update f) :=
  endsIn_update fun s hs => by rwa [Logged, hev]

theorem logged_append {f : State → State} {e : Event} (hev : ∀ s, (f s).ev = s.ev ++ [e])
    (he : scheduled e = false) : EndsIn (Logged y) (Logged y) (update f) :=
  endsIn_update fun s hs => by
    rw [Logged, hev, List.filter_append, List.filter_cons_of_neg (by simp [he]), List.filter_nil,
      List.append_nil, hs]

theorem logged_emit {e : Event} (he : scheduled e = false) : EndsIn (Logged y) (Logged y) (emit e) :=
  logged_append (fun _ => rfl) he

theorem logged_takePause (extra : Nat) (svc : Bool) : EndsIn (Logged y) (Logged y) (takePause extra svc) := by
  intro s u t hs hrun
  unfold takePause at hrun
  dsimp only at hrun
  split at hrun
  · cases hrun
    obtain ⟨_, _, _, _, _, _, _, hwaited⟩ := waited_settle (s.pauses.headD .quiet)
      (s.popPause.addTime (extra + (s.pauses.headD .quiet).dt))
    rw [hwaited]
    exact hs
  · cases hrun

theorem logged_record {e : Event} (he : scheduled e = false) : EndsIn (Logged y) (Logged y) (record e) :=
  (logged_takePause _ _).bind fun _ => logged_emit he

theorem logged_wdtService : EndsIn (Logged y) (Logged y) wdtService :=
  logged_append (fun _ => rfl) rfl

theorem logged_serviceStep : EndsIn (Logged y) (Logged y) serviceStep :=
  (logged_takePause _ _).bind fun _ => logged_wdtService

theorem logged_flashComplete : EndsIn (Logged y) (Logged y) (update flashComplete) :=
  logged_write fun s => by
    obtain ⟨_, _, hframe⟩ := flashComplete_frame s
    rw [hframe]

/-! #### Packets -/

theorem logged_filterBody (p : List Byte) (tag : Byte) (payload : List Byte) :
    EndsIn (Logged y) (Logged y) (filterBody p tag payload) :=
  (endsIn_look _).bind fun _ => by
    split
    · exact logged_emit rfl
    · exact EndsIn.bind (logged_write fun _ => rfl) fun _ => logged_emit rfl

theorem logged_associate (p : List Byte) : EndsIn (Logged y) (Logged y) (associate p) := by
  rcases p with _ | ⟨a0, _ | ⟨a1, _ | ⟨a2, _ | ⟨m, body⟩⟩⟩⟩
  case cons.cons.cons.cons =>
    refine (endsIn_check _ _).bind fun _ => EndsIn.bind (logged_write fun _ => rfl) fun _ =>
      (logged_emit rfl).bind fun _ => ?_
    cases body with
    | nil => exact endsIn_pure ()
    | cons tag payload =>
      exact (endsIn_look _).bind fun _ => (logged_takePause _ _).bind fun _ => logged_filterBody _ _ _
  all_goals exact logged_emit rfl

theorem logged_ordinary (p : List Byte) : EndsIn (Logged y) (Logged y) (ordinary p) := by
  cases p with
  | nil => exact logged_emit rfl
  | cons tag payload => exact logged_filterBody _ _ _

theorem logged_processPacket (p : List Byte) : EndsIn (Logged y) (Logged y) (processPacket p) :=
  (endsIn_check _ _).bind fun _ => (endsIn_look _).bind fun _ => by
    split
    · exact logged_ordinary p
    · exact logged_associate p

/-- Silence never runs to its end (44_watchdog.md R196). -/
theorem endsIn_silenceFrom (ps : List Pause) : EndsIn J K (silenceFrom ps : Eng α) := by
  induction ps generalizing J with
  | nil =>
    intro s u t _ hrun
    unfold silenceFrom expireOrBlock at hrun
    split at hrun <;> cases hrun
  | cons p ps ih => exact EndsIn.bind (K := fun _ => True) (fun _ _ _ _ _ => trivial) fun _ => ih

theorem endsIn_silence : EndsIn J K (silence : Eng α) := fun s u t hs => endsIn_silenceFrom s.pauses s u t hs

theorem logged_awaitPackets (ps : List (List Byte)) : EndsIn (Logged y) (Logged y) (awaitPackets ps) := by
  induction ps with
  | nil =>
    refine (endsIn_look _).bind fun _ => ?_
    split
    · exact endsIn_silence
    · exact endsIn_pure ()
  | cons p ps ih =>
    refine (endsIn_look _).bind fun _ => ?_
    split
    · exact (endsIn_look _).bind fun _ => (logged_takePause _ _).bind fun _ =>
        EndsIn.bind (logged_write fun _ => rfl) fun _ => (logged_processPacket p).bind fun _ => ih
    · exact endsIn_pure ()

/-! #### Bytes sent -/

theorem logged_nextAck : EndsIn (Logged y) (Logged y) nextAck := by
  intro s u t hs hrun
  unfold nextAck at hrun
  split at hrun <;> cases hrun <;> exact hs

theorem logged_flushAttempts (guard : Nat) (peer : Byte × Byte × Byte) (packet : List Byte) (m k : Nat) :
    EndsIn (Logged y) (Logged y) (flushAttempts guard peer packet m k) := by
  induction m generalizing k with
  | zero => exact endsIn_pure ()
  | succ m ih =>
    have hdelay : EndsIn (Logged y) (Logged y) (delay guard) :=
      (logged_record rfl).bind fun _ => (logged_takePause _ _).bind fun _ => logged_takePause _ _
    have htx : EndsIn (Logged y) (Logged y) (radioTx peer packet) :=
      EndsIn.bind (logged_write fun _ => rfl) fun _ => (logged_takePause _ _).bind fun _ => logged_nextAck
    refine hdelay.bind fun _ => htx.bind fun _ => (logged_emit rfl).bind fun _ => ?_
    split
    · exact endsIn_pure ()
    · exact ih _

theorem logged_flush : EndsIn (Logged y) (Logged y) flush :=
  (endsIn_look _).bind fun _ => (logged_flushAttempts _ _ _ _ _).bind fun _ => logged_write fun _ => rfl

theorem logged_radioSendByte (b : Byte) : EndsIn (Logged y) (Logged y) (radioSendByte b) :=
  (endsIn_look _).bind fun _ => (endsIn_check _ _).bind fun _ => EndsIn.bind (logged_write fun _ => rfl) fun _ =>
  (endsIn_look _).bind fun _ => endsIn_onlyIf logged_flush

theorem logged_sendByte (b : Byte) : EndsIn (Logged y) (Logged y) (sendByte b) :=
  (endsIn_look _).bind fun _ => by
    split
    · exact (logged_record rfl).bind fun _ => logged_radioSendByte b
    · exact logged_record rfl

theorem logged_respond : EndsIn (Logged y) (Logged y) respond :=
  EndsIn.bind (logged_write fun _ => rfl) fun _ => (endsIn_look _).bind fun _ =>
  (logged_sendByte _).bind fun _ => logged_serviceStep.bind fun _ => logged_write fun _ => rfl

/-! #### The commit sequence -/

theorem logged_keepAlive (k : KeepPoint) : EndsIn (Logged y) (Logged y) (keepAlive k) :=
  (endsIn_look _).bind fun _ => endsIn_onlyIf logged_serviceStep

theorem logged_stall : EndsIn (Logged y) (Logged y) stall :=
  (logged_takePause _ _).bind fun _ => logged_flashComplete

theorem logged_waitReady : EndsIn (Logged y) (Logged y) waitReady :=
  (logged_record rfl).bind fun _ => logged_stall

theorem logged_checkPage (p : Nat) : EndsIn (Logged y) (Logged y) (checkPage p) :=
  (endsIn_checkPage p).imp (fun _ h => h) fun _ h => h.1

theorem logged_startPageOp (p : Nat) (op : FlashOp) : EndsIn (Logged y) (Logged y) (startPageOp p op) :=
  (logged_takePause _ _).bind fun _ => EndsIn.bind (logged_write fun _ => rfl) fun _ =>
  (endsIn_look _).bind fun _ => endsIn_onlyIf logged_stall

theorem logged_commitPage (p : Nat) : EndsIn (Logged y) (Logged y) (commitPage p) :=
  (logged_checkPage p).bind fun _ => (logged_record rfl).bind fun _ => logged_startPageOp _ _

theorem logged_fillWord (a : Nat) (w : Word) : EndsIn (Logged y) (Logged y) (fillWord a w) :=
  (endsIn_look _).bind fun _ => (endsIn_check _ _).bind fun _ => (endsIn_check _ _).bind fun _ =>
  (endsIn_check _ _).bind fun _ => (endsIn_check _ _).bind fun _ => (logged_record rfl).bind fun _ =>
  logged_write fun _ => rfl

theorem logged_fillLoop (a m k : Nat) : EndsIn (Logged y) (Logged y) (fillLoop a m k) := by
  induction m generalizing k with
  | zero => exact endsIn_pure ()
  | succ m ih => exact (endsIn_look _).bind fun _ => (logged_fillWord _ _).bind fun _ => ih _

theorem logged_rwwEnable : EndsIn (Logged y) (Logged y) rwwEnable :=
  (logged_record rfl).bind fun _ => logged_write fun _ => rfl

theorem logged_commitSequence (c : Config) (a : Nat) : EndsIn (Logged y) (Logged y) (commitSequence c a) :=
  (logged_keepAlive _).bind fun _ => logged_waitReady.bind fun _ =>
  (endsIn_onlyIf (logged_write State.patched_ev)).bind fun _ => (logged_keepAlive _).bind fun _ =>
  (logged_fillLoop _ _ _).bind fun _ => (logged_commitPage _).bind fun _ => (logged_keepAlive _).bind fun _ =>
  logged_waitReady.bind fun _ => endsIn_onlyIf logged_rwwEnable

theorem logged_advanceBy (m : Nat) : EndsIn (Logged y) (Logged y) (advanceBy m) :=
  (endsIn_look _).bind fun _ => (endsIn_check _ _).bind fun _ => logged_write fun _ => rfl

/-! ### What the schedule records -/

theorem logs_record {e : Event} (he : scheduled e = true) :
    EndsIn (Logged y) (Logged (y ++ [e])) (record e) :=
  (logged_takePause _ _).bind fun _ => endsIn_update fun s hs => by
    rw [Logged, State.emit_ev, List.filter_append, List.filter_cons_of_pos he, List.filter_nil, hs]

theorem logs_radioRecvByte (b : Byte) : EndsIn (Logged y) (Logged (y ++ [.rx b])) (radioRecvByte b) :=
  (endsIn_look _).bind fun _ => (logged_awaitPackets _).bind fun _ => (logged_takePause _ _).bind fun _ =>
  EndsIn.bind (logged_write fun _ => rfl) fun _ => logged_wdtService.bind fun _ => logs_record rfl

theorem logs_wiredRecvByte (b : Byte) : EndsIn (Logged y) (Logged (y ++ [.rx b])) (wiredRecvByte b) :=
  (endsIn_look _).bind fun _ => by
    split
    · exact endsIn_silence
    · exact (logged_takePause _ _).bind fun _ => EndsIn.bind (logged_write fun _ => rfl) fun _ =>
        (endsIn_onlyIf logged_wdtService).bind fun _ => logs_record rfl

theorem logs_recvByte (b : Byte) : EndsIn (Logged y) (Logged (y ++ [.rx b])) (recvByte b) :=
  (endsIn_look _).bind fun _ => by
    split
    · exact logs_radioRecvByte b
    · exact logs_wiredRecvByte b

theorem logs_receivePayload (i : Nat) (bs : List Byte) :
    EndsIn (Logged y) (Logged (y ++ bs.map .rx)) (receivePayload i bs) := by
  induction bs generalizing i y with
  | nil =>
    rw [List.map_nil, List.append_nil]
    exact endsIn_pure ()
  | cons b bs ih =>
    rw [List.map_cons, List.append_cons]
    exact (logs_recvByte b).bind fun _ => EndsIn.bind (logged_write fun _ => rfl) fun _ => ih _

theorem logs_erasePage (a : Nat) : EndsIn (Logged y) (Logged (y ++ [.erase a])) (erasePage a) :=
  (logged_checkPage a).bind fun _ => (endsIn_look _).bind fun _ => (endsIn_check _ _).bind fun _ =>
  (logs_record rfl).bind fun _ => logged_startPageOp _ _

theorem logs_verifyTerminator (x : Byte) :
    EndsIn (Logged y) (Logged (y ++ [.rx x])) (verifyTerminator x) := by
  have hcheck : EndsIn (Logged y) (Logged (y ++ [.rx x])) (checkTerminator x) :=
    (logs_recvByte x).bind fun _ => (endsIn_look _).bind fun _ => by
      split
      · exact endsIn_pure ()
      · intro _ _ _ _ hrun
        cases hrun
  exact hcheck.bind fun _ => (endsIn_look _).bind fun _ => logged_sendByte _

/-! ### ProgramPage 'F' -/

theorem logs_programHeader (lenHigh n ty : Byte) :
    EndsIn (fun s => Logged y s ∧ s.cfg = c)
      (Logged (y ++ [.rx c.cmdProgPage] ++ [.rx lenHigh] ++ [.rx n] ++ [.rx ty]))
      (programHeader lenHigh n ty) :=
  endsIn_look_bind fun s hs => by
    obtain ⟨hlog, rfl⟩ := hs
    refine EndsIn.imp (J := Logged y) (EndsIn.bind
      ((logs_recvByte _).bind fun _ => logged_write fun _ => rfl) fun _ =>
      (logs_recvByte lenHigh).bind fun _ => (logs_recvByte n).bind fun _ =>
      EndsIn.bind (logged_write fun _ => rfl) fun _ => (logs_recvByte ty).bind fun _ =>
      EndsIn.bind (logged_write fun _ => rfl) fun _ => endsIn_check _ _) ?_ fun _ h => h
    rintro _ rfl
    exact hlog

/-- The order of R132: the erase stands before the payload in the RWW bank, after it in the other. -/
def bankOrder (c : Config) (a : Nat) (payload : List Byte) : List Event :=
  if a < c.nrwwStart then .erase a :: payload.map .rx else payload.map .rx ++ [.erase a]

theorem logs_eraseAndReceive (c : Config) (a : Nat) (payload : List Byte) :
    EndsIn (Logged y) (Logged (y ++ bankOrder c a payload)) (eraseAndReceive c a payload) := by
  unfold eraseAndReceive bankOrder isRww
  by_cases hbank : a < c.nrwwStart
  · rw [if_pos hbank, List.append_cons, decide_eq_true hbank]
    exact (logs_erasePage a).bind fun _ => (logs_receivePayload 0 payload).bind fun _ => endsIn_pure ()
  · rw [if_neg hbank, ← List.append_assoc, decide_eq_false hbank]
    exact (endsIn_pure ()).bind fun _ => (logs_receivePayload 0 payload).bind fun _ => logs_erasePage a

theorem logs_stagedRule (c : Config) (a : Nat) (lenHigh : Byte) (payload : List Byte) (x : Byte) :
    EndsIn (fun s => Logged y s ∧ s.cfg = c)
      (Logged (y ++ ([.rx c.cmdProgPage, .rx lenHigh, .rx (payloadLength payload), .rx Config.typeFlash] ++
        bankOrder c a payload ++ [.rx x])))
      (stagedRule c a lenHigh payload x) := by
  refine EndsIn.imp ((logs_programHeader _ _ _).bind fun _ => (logs_eraseAndReceive c a payload).bind fun _ =>
    EndsIn.bind ((logs_verifyTerminator x).bind fun _ => (logged_commitSequence c a).bind fun _ =>
      logged_advanceBy _) fun _ => logged_respond) (fun _ h => h) fun _ h => ?_
  simpa only [List.append_assoc, List.cons_append, List.nil_append] using h

end Schedule

/-- Settles O21: the request runs as `stagedRule`, whose schedule is that of R132. -/
theorem bankScheduling : Obligations.BankScheduling := by
  intro s lenHigh payload hready hprog
  have hcan := canTalk_of_ready_programPageF hprog hready
  obtain ⟨m, t, hrun, -, htalk, -⟩ := programPageFRule_answers hprog hcan lenHigh
  have hev : (withFlash m (s.pageProgrammed payload)).ev = s.ev :=
    congrArg Chan.ev (registerWrite_vbpPatched.chan (s.loaded Config.typeFlash payload))
  obtain ⟨new, hnew⟩ := htalk.trace
  rw [hev] at hnew
  have hstaged := (programPageFRule_run hprog (hcan.hear (by omega)) lenHigh s.cfg.term).symm.trans hrun
  have horder : t.ev.filter scheduled = _ := logs_stagedRule s.cfg s.flashAddress lenHigh payload s.cfg.term
    s () t ⟨rfl, rfl⟩ hstaged
  rw [← hnew, List.filter_append] at horder
  exact ⟨t, new, runRule_ok hrun, hnew.symm, List.append_cancel_left horder⟩

end Sys2Proof.Proofs
end

section
/-! SUPPORT. What the byte channel records in EV (10_state.md R31): the procedures of every command, run to
their end in any environment, record bytes, services, packets and guard delays, and no access to a memory. -/

namespace Sys2Proof.Proofs

open Sys2Proof Sys2Proof.Machine

/-- The events the byte channel records. -/
def channelEvent : Event → Bool
  | .rx _ => true
  | .tx _ => true
  | .service => true
  | .pktIn _ _ => true
  | .pktOut _ _ _ => true
  | .delay _ => true
  | _ => false

/-- Since EV was `past` only the byte channel has recorded events. -/
def TalkedSince (past : List Event) (s : State) : Prop :=
  ∃ new, s.ev = past ++ new ∧ ∀ e ∈ new, channelEvent e = true

/-- Run to its end, the rule records nothing but events of the byte channel. -/
abbrev RecordsTalk {α : Type} (m : Eng α) : Prop := ∀ past, EndsIn (TalkedSince past) (TalkedSince past) m

theorem talkedSince_self (s : State) : TalkedSince s.ev s := ⟨[], (List.append_nil _).symm, by simp⟩

section Records

variable {α β : Type} {m : Eng α}

/-! ### How rules record -/

theorem RecordsTalk.bind {f : α → Eng β} (hm : RecordsTalk m) (hf : ∀ a, RecordsTalk (f a)) :
    RecordsTalk (m >>= f) :=
  fun past => EndsIn.bind (hm past) fun a => hf a past

theorem recordsTalk_look (f : State → α) : RecordsTalk (look f) := fun _ => endsIn_look f

theorem recordsTalk_pure (a : α) : RecordsTalk (pure a : Eng α) := fun _ => endsIn_pure a

theorem recordsTalk_check (b : Bool) (r : Refusal) : RecordsTalk (refuseIf b r) := fun _ => endsIn_check b r

theorem recordsTalk_silence : RecordsTalk (silence : Eng α) := fun _ => endsIn_silence

theorem recordsTalk_onlyIf (b : Bool) {m : Eng Unit} (hm : RecordsTalk m) : RecordsTalk (onlyIf b m) :=
  fun past => endsIn_onlyIf (hm past)

theorem recordsTalk_ite (p : Prop) [Decidable p] {m n : Eng α} (hm : RecordsTalk m) (hn : RecordsTalk n) :
    RecordsTalk (if p then m else n) := by
  split
  · exact hm
  · exact hn

theorem recordsTalk_write {f : State → State} (hev : ∀ s, (f s).ev = s.ev) : RecordsTalk (update f) :=
  fun _ => endsIn_update fun s hs => by rwa [TalkedSince, hev]

theorem recordsTalk_append {f : State → State} {e : Event} (hev : ∀ s, (f s).ev = s.ev ++ [e])
    (he : channelEvent e = true) : RecordsTalk (update f) :=
  fun _ => endsIn_update fun s hs => by
    obtain ⟨new, hnew, htalk⟩ := hs
    refine ⟨new ++ [e], by rw [hev, hnew, List.append_assoc], fun x hx => ?_⟩
    rcases List.mem_append.1 hx with hx | hx
    · exact htalk x hx
    · rwa [List.mem_singleton.1 hx]

theorem recordsTalk_emit {e : Event} (he : channelEvent e = true) : RecordsTalk (emit e) :=
  recordsTalk_append (fun _ => rfl) he

theorem recordsTalk_takePause (extra : Nat) (svc : Bool) : RecordsTalk (takePause extra svc) := by
  intro past s u t hs hrun
  unfold takePause at hrun
  dsimp only at hrun
  split at hrun
  · cases hrun
    obtain ⟨_, _, _, _, _, _, _, hwaited⟩ := waited_settle (s.pauses.headD .quiet)
      (s.popPause.addTime (extra + (s.pauses.headD .quiet).dt))
    rw [hwaited]
    exact hs
  · cases hrun

theorem recordsTalk_record {e : Event} (he : channelEvent e = true) : RecordsTalk (record e) :=
  (recordsTalk_takePause _ _).bind fun _ => recordsTalk_emit he

theorem recordsTalk_wdtService : RecordsTalk wdtService := recordsTalk_append (fun _ => rfl) rfl

/-! ### Bytes received -/

theorem recordsTalk_filterBody (p : List Byte) (tag : Byte) (payload : List Byte) :
    RecordsTalk (filterBody p tag payload) :=
  (recordsTalk_look _).bind fun _ => recordsTalk_ite _ (recordsTalk_emit rfl)
    (RecordsTalk.bind (recordsTalk_write fun _ => rfl) fun _ => recordsTalk_emit rfl)

theorem recordsTalk_associate (p : List Byte) : RecordsTalk (associate p) := by
  rcases p with _ | ⟨a0, _ | ⟨a1, _ | ⟨a2, _ | ⟨m, body⟩⟩⟩⟩
  case cons.cons.cons.cons =>
    refine (recordsTalk_check _ _).bind fun _ => RecordsTalk.bind (recordsTalk_write fun _ => rfl) fun _ =>
      (recordsTalk_emit rfl).bind fun _ => ?_
    cases body with
    | nil => exact recordsTalk_pure ()
    | cons tag payload =>
      exact (recordsTalk_look _).bind fun _ => (recordsTalk_takePause _ _).bind fun _ =>
        recordsTalk_filterBody _ _ _
  all_goals exact recordsTalk_emit rfl

theorem recordsTalk_ordinary (p : List Byte) : RecordsTalk (ordinary p) := by
  cases p with
  | nil => exact recordsTalk_emit rfl
  | cons tag payload => exact recordsTalk_filterBody _ _ _

theorem recordsTalk_processPacket (p : List Byte) : RecordsTalk (processPacket p) :=
  (recordsTalk_check _ _).bind fun _ => (recordsTalk_look _).bind fun _ =>
    recordsTalk_ite _ (recordsTalk_ordinary p) (recordsTalk_associate p)

theorem recordsTalk_awaitPackets (ps : List (List Byte)) : RecordsTalk (awaitPackets ps) := by
  induction ps with
  | nil => exact (recordsTalk_look _).bind fun _ => recordsTalk_ite _ recordsTalk_silence (recordsTalk_pure ())
  | cons p ps ih =>
    exact (recordsTalk_look _).bind fun _ => recordsTalk_ite _
      ((recordsTalk_look _).bind fun _ => (recordsTalk_takePause _ _).bind fun _ =>
        RecordsTalk.bind (recordsTalk_write fun _ => rfl) fun _ =>
        (recordsTalk_processPacket p).bind fun _ => ih)
      (recordsTalk_pure ())

theorem recordsTalk_radioRecvByte (b : Byte) : RecordsTalk (radioRecvByte b) :=
  (recordsTalk_look _).bind fun _ => (recordsTalk_awaitPackets _).bind fun _ =>
    (recordsTalk_takePause _ _).bind fun _ => RecordsTalk.bind (recordsTalk_write fun _ => rfl) fun _ =>
    recordsTalk_wdtService.bind fun _ => recordsTalk_record rfl

theorem recordsTalk_wiredRecvByte (b : Byte) : RecordsTalk (wiredRecvByte b) :=
  (recordsTalk_look _).bind fun line => by
    cases line with
    | nil => exact recordsTalk_silence
    | cons e rest =>
      exact (recordsTalk_takePause _ _).bind fun _ => RecordsTalk.bind (recordsTalk_write fun _ => rfl) fun _ =>
        (recordsTalk_onlyIf _ recordsTalk_wdtService).bind fun _ => recordsTalk_record rfl

theorem recordsTalk_recvByte (b : Byte) : RecordsTalk (recvByte b) :=
  (recordsTalk_look _).bind fun _ =>
    recordsTalk_ite _ (recordsTalk_radioRecvByte b) (recordsTalk_wiredRecvByte b)

/-! ### Bytes sent -/

theorem recordsTalk_nextAck : RecordsTalk nextAck := by
  intro past s u t hs hrun
  unfold nextAck at hrun
  split at hrun <;> cases hrun <;> exact hs

theorem recordsTalk_delay (d : Nat) : RecordsTalk (delay d) :=
  (recordsTalk_record rfl).bind fun _ => (recordsTalk_takePause _ _).bind fun _ => recordsTalk_takePause _ _

theorem recordsTalk_radioTx (peer : Byte × Byte × Byte) (packet : List Byte) :
    RecordsTalk (radioTx peer packet) :=
  RecordsTalk.bind (recordsTalk_write fun _ => rfl) fun _ =>
    (recordsTalk_takePause _ _).bind fun _ => recordsTalk_nextAck

theorem recordsTalk_flushAttempts (guard : Nat) (peer : Byte × Byte × Byte) (packet : List Byte) (n k : Nat) :
    RecordsTalk (flushAttempts guard peer packet n k) := by
  induction n generalizing k with
  | zero => exact recordsTalk_pure ()
  | succ n ih =>
    exact (recordsTalk_delay _).bind fun _ => (recordsTalk_radioTx _ _).bind fun _ =>
      (recordsTalk_emit rfl).bind fun _ => recordsTalk_ite _ (recordsTalk_pure ()) (ih _)

theorem recordsTalk_flush : RecordsTalk flush :=
  (recordsTalk_look _).bind fun _ => (recordsTalk_flushAttempts _ _ _ _ _).bind fun _ =>
    recordsTalk_write fun _ => rfl

theorem recordsTalk_radioSendByte (b : Byte) : RecordsTalk (radioSendByte b) :=
  (recordsTalk_look _).bind fun _ => (recordsTalk_check _ _).bind fun _ =>
    RecordsTalk.bind (recordsTalk_write fun _ => rfl) fun _ => (recordsTalk_look _).bind fun _ =>
    recordsTalk_onlyIf _ recordsTalk_flush

theorem recordsTalk_sendByte (b : Byte) : RecordsTalk (sendByte b) :=
  (recordsTalk_look _).bind fun _ => recordsTalk_ite _
    ((recordsTalk_record rfl).bind fun _ => recordsTalk_radioSendByte b) (recordsTalk_record rfl)

/-! ### The procedures every command shares -/

theorem recordsTalk_openRequest (b : Byte) (k : Command) : RecordsTalk (openRequest b k) :=
  (recordsTalk_recvByte b).bind fun _ => recordsTalk_write fun _ => rfl

theorem recordsTalk_checkTerminator (x : Byte) : RecordsTalk (checkTerminator x) :=
  (recordsTalk_recvByte x).bind fun _ => (recordsTalk_look _).bind fun _ =>
    recordsTalk_ite _ (recordsTalk_pure ()) fun _ _ _ _ _ hrun => by cases hrun

theorem recordsTalk_verifyTerminator (x : Byte) : RecordsTalk (verifyTerminator x) :=
  (recordsTalk_checkTerminator x).bind fun _ => (recordsTalk_look _).bind fun _ => recordsTalk_sendByte _

theorem recordsTalk_respond : RecordsTalk respond :=
  RecordsTalk.bind (recordsTalk_write fun _ => rfl) fun _ => (recordsTalk_look _).bind fun _ =>
    (recordsTalk_sendByte _).bind fun _ =>
    ((recordsTalk_takePause _ _).bind fun _ => recordsTalk_wdtService).bind fun _ =>
    recordsTalk_write fun _ => rfl

theorem recordsTalk_programHeader (lenHigh n ty : Byte) : RecordsTalk (programHeader lenHigh n ty) :=
  (recordsTalk_look _).bind fun _ => (recordsTalk_openRequest _ _).bind fun _ =>
    (recordsTalk_recvByte lenHigh).bind fun _ => (recordsTalk_recvByte n).bind fun _ =>
    RecordsTalk.bind (recordsTalk_write fun _ => rfl) fun _ => (recordsTalk_recvByte ty).bind fun _ =>
    RecordsTalk.bind (recordsTalk_write fun _ => rfl) fun _ => recordsTalk_check _ _

theorem recordsTalk_receivePayload (i : Nat) (bs : List Byte) : RecordsTalk (receivePayload i bs) := by
  induction bs generalizing i with
  | nil => exact recordsTalk_pure ()
  | cons b bs ih =>
    exact (recordsTalk_recvByte b).bind fun _ => RecordsTalk.bind (recordsTalk_write fun _ => rfl) fun _ => ih _

end Records
end Sys2Proof.Proofs
end

section
/-! SUPPORT. ProgramPage 'E' in a quiet environment (42_eeprom_programmer.md R153, R154): what the write loop
makes of the state and of EV, the whole request around it, and EEPROM byte by byte once the last write is
complete. -/

namespace Sys2Proof.Proofs

open Sys2Proof Sys2Proof.Machine

section Storing

variable {s t : State} {a h i k : Nat} {b x lenHigh : Byte} {bs payload reply : List Byte}

/-! ### The updates ProgramPage 'E' makes -/

theorem registerWrite_eeComplete : RegisterWrite eeComplete := by
  constructor <;> intro s
  case withChan =>
    intro c
    cases hbusy : s.eeBusy <;> simp only [eeComplete, State.withChan, hbusy]
  all_goals
    unfold eeComplete
    split <;> rfl

theorem registerWrite_latch (a : Nat) (b : Byte) : RegisterWrite fun s => s.latch a b := by
  constructor <;> intros <;> rfl

theorem registerWrite_eepromStep (b : Byte) : RegisterWrite fun s => s.eepromStep b := by
  have hlatch : RegisterWrite fun s => s.latch s.addr.toNat b := by constructor <;> intros <;> rfl
  refine (registerWrite_advanced 1).comp ?_
  have hcomp := hlatch.comp registerWrite_eeComplete
  simpa only [eeComplete_addr] using hcomp

theorem registerWrite_eepromSteps (bs : List Byte) : RegisterWrite fun s => bs.foldl State.eepromStep s := by
  induction bs with
  | nil => exact registerWrite_id
  | cons b bs ih => exact ih.comp (registerWrite_eepromStep b)

theorem registerWrite_eepromProgrammed (payload : List Byte) :
    RegisterWrite fun s => s.eepromProgrammed payload :=
  (registerWrite_eepromSteps payload).comp (registerWrite_loaded Config.typeEeprom payload)

/-! ### The write loop -/

/-- The events of the writes of `bs` from address `a` on: a service before each (R154). -/
def byteWrites (a : Nat) (bs : List Byte) : List Event :=
  bs.zipIdx.flatMap fun e => [.service, .eeWrite (a + e.2) e.1]

theorem byteWrites_cons (a : Nat) (b : Byte) (bs : List Byte) :
    byteWrites a (b :: bs) = [.service, .eeWrite a b] ++ byteWrites (a + 1) bs := by
  simp only [byteWrites, List.zipIdx_cons, List.zipIdx_succ, List.flatMap_cons, List.flatMap_map,
    Nat.zero_add, Nat.add_zero]
  congr 2
  funext e
  rw [Nat.add_right_comm, Nat.add_assoc]

/-- One byte of the loop: a service, then the write, which waits for the one before it (R153, R154). -/
theorem talk_writeEepromByte (hin : s.addr.toNat < s.cfg.eepromSize) (htop : s.addr ≠ 0xFFFF)
    (hs : s.Still) (i : Nat) :
    ∃ t, writeEepromByte i s = .ok ((), t) ∧ Talk (s.eepromStep (s.bufByte i)) t 0 [] ∧
      t.ev = s.ev ++ [.service, .eeWrite s.addr.toNat (s.bufByte i)] := by
  have hwrite := eeWrite_still (s := s.serviced) ⟨hs.1, hs.2.serviced⟩ hin (s.bufByte i)
  have hdone : Talk (eeComplete s) ((eeComplete s.serviced).emit (.eeWrite s.addr.toNat (s.bufByte i))) 0 [] :=
    (registerWrite_eeComplete.talk (talk_serviced s)).trans (talk_emit _ _ ⟨rfl, rfl⟩)
  have hlatched := (registerWrite_latch s.addr.toNat (s.bufByte i)).talk hdone
  have haddr : (eeComplete s.serviced).addr = s.addr := eeComplete_addr s.serviced
  have hev : (eeComplete s.serviced).ev = s.ev ++ [.service] :=
    congrArg Chan.ev (registerWrite_eeComplete.chan s.serviced)
  refine ⟨_, ?_, (registerWrite_advanced 1).talk hlatched, ?_⟩
  · rw [writeEepromByte, look_id_bind, bind_ok (refuseIf_pass (by simpa using hin) _ s),
      bind_ok (serviceStep_calm hs.1 hs.2)]
    exact (bind_ok hwrite _).trans (advanceByte_run (haddr.trans_ne htop))
  · show (eeComplete s.serviced).ev ++ _ = _
    rw [hev, List.append_assoc]
    rfl

theorem bufByte_of_isPrefix (hbuf : b :: bs <+: s.pagebuf.drop i) :
    s.bufByte i = b ∧ bs <+: s.pagebuf.drop (i + 1) := by
  obtain ⟨rest, hrest⟩ := hbuf
  constructor
  · rw [State.bufByte, List.getD_eq_getElem?_getD, ← Nat.add_zero i, ← List.getElem?_drop, ← hrest]
    rfl
  · rw [← List.tail_drop, ← hrest]
    exact ⟨rest, rfl⟩

theorem addr_ne_top {n : Nat} (hroom : s.addr.toNat + (n + 1) < 65536) : s.addr ≠ 0xFFFF := fun htop => by
  rw [htop, show (0xFFFF : Word).toNat = 65535 from rfl] at hroom
  omega

theorem eepromStep_addr (htop : s.addr ≠ 0xFFFF) (b : Byte) :
    (s.eepromStep b).addr.toNat = s.addr.toNat + 1 :=
  advanced_addr_toNat (eeComplete_addr s) ((eeComplete_addr s).trans_ne htop)

/-- The loop writes the bytes that PAGEBUF holds from index `i` on. -/
theorem talk_writeEeprom (hbuf : bs <+: s.pagebuf.drop i)
    (hin : s.addr.toNat + bs.length ≤ s.cfg.eepromSize) (hroom : s.addr.toNat + bs.length < 65536)
    (hcan : CanTalk s h reply) :
    ∃ t, writeEeprom bs.length i s = .ok ((), t) ∧ Talk (bs.foldl State.eepromStep s) t 0 [] ∧
      t.ev = s.ev ++ byteWrites s.addr.toNat bs := by
  induction bs generalizing s i with
  | nil => exact ⟨s, rfl, Talk.refl s, (List.append_nil _).symm⟩
  | cons b bs ih =>
    rw [List.length_cons] at hin hroom
    have htop : s.addr ≠ 0xFFFF := addr_ne_top hroom
    obtain ⟨hbyte, hbuf'⟩ := bufByte_of_isPrefix hbuf
    obtain ⟨t, hrun, htalk, hev⟩ := talk_writeEepromByte (by omega) htop (still_of_canTalk hcan) i
    rw [hbyte] at htalk hev
    have hstep := registerWrite_eepromStep b
    have haddr : t.addr.toNat = s.addr.toNat + 1 := by rw [htalk.addr, eepromStep_addr htop]
    have hcfg : t.cfg = s.cfg := htalk.cfg.trans (hstep.cfg s)
    have hpagebuf : t.pagebuf = s.pagebuf := by
      obtain ⟨m, hframe⟩ := eeComplete_frame s
      rw [htalk.pagebuf, State.eepromStep, hframe]
      rfl
    obtain ⟨u, hrest, htalk', hev'⟩ := ih (s := t) (i := i + 1) (by rwa [hpagebuf])
      (by rw [haddr, hcfg]; omega) (by omega) (htalk.can (by simpa using hstep.canTalk hcan))
    refine ⟨u, ?_, ((registerWrite_eepromSteps bs).talk htalk).trans htalk', ?_⟩
    · rw [List.length_cons, writeEeprom, bind_ok hrun, hrest]
    · rw [hev', hev, haddr, byteWrites_cons, List.append_assoc]

/-! ### The whole request -/

theorem encode_programPageE_length (hstore : EepromWritable s payload) (lenHigh x : Byte) :
    (encode s.cfg (.programPageE lenHigh payload x)).length = 5 + payload.length :=
  Laws.EncodeLength.programPageE lenHigh payload x s.cfg (decide_eq_true (hstore.length.2.trans hstore.page))

theorem canTalk_of_ready_programPageE (hstore : EepromWritable s payload)
    (hready : Ready s (.programPageE lenHigh payload x) reply) : CanTalk s (5 + payload.length) reply :=
  encode_programPageE_length hstore lenHigh x ▸ canTalk_of_ready hready

/-- The request up to its terminator: the payload is in PAGEBUF, and only the byte channel has recorded
events. -/
theorem talk_untilTerminatorE (hstore : EepromWritable s payload) (hcan : CanTalk s (4 + payload.length) [])
    (lenHigh x : Byte) :
    ∃ t, Talk (s.loaded Config.typeEeprom payload) t (4 + payload.length) [] ∧ TalkedSince s.ev t ∧
      programPageERule lenHigh payload x s =
        (verifyTerminator x >>= fun _ => writeEeprom payload.length 0 >>= fun _ => respond) t := by
  obtain ⟨t, hheader, htalk⟩ := talk_programHeader lenHigh (payloadLength payload) Config.typeEeprom
    (badProgramLength_payload hstore.length.1 hstore.length.2 hstore.page) (hcan.hear (by omega))
  have hroom : payload.length ≤ t.pagebuf.length := by
    rw [htalk.pagebuf]
    exact hstore.length.2.trans_eq hstore.buffer.symm
  obtain ⟨u, hpayload, htalk'⟩ := talk_received hroom (htalk.can (hcan.same rfl rfl rfl rfl rfl rfl))
  refine ⟨u, ((registerWrite_received payload).talk htalk).trans htalk', ?_, ?_⟩
  · exact recordsTalk_receivePayload _ _ _ t () u
      (recordsTalk_programHeader _ _ _ _ s () t (talkedSince_self s) hheader) hpayload
  · rw [programPageERule, bind_ok hheader, bind_ok hpayload]

/-- With the right terminator the request completes and makes `eepromProgrammed` of the state; around the byte
writes EV holds events of the byte channel alone. -/
theorem programPageERule_answers (hstore : EepromWritable s payload)
    (hcan : CanTalk s (5 + payload.length) [s.cfg.respInsync, s.cfg.respOk]) (lenHigh : Byte) :
    ∃ u t, programPageERule lenHigh payload s.cfg.term s = .ok ((), t) ∧ Completed t ∧
      Talk (s.eepromProgrammed payload) t (5 + payload.length) [s.cfg.respInsync, s.cfg.respOk] ∧
      TalkedSince s.ev u ∧ TalkedSince (u.ev ++ byteWrites s.addr.toNat payload) t := by
  obtain ⟨t, htalk, hquiet, hrun⟩ := talk_untilTerminatorE hstore (hcan.hear (by omega)) lenHigh s.cfg.term
  have hcfg : t.cfg = s.cfg := htalk.cfg
  have hcan' : CanTalk (s.loaded Config.typeEeprom payload) (4 + payload.length + (1 + 0))
      ([s.cfg.respInsync] ++ [s.cfg.respOk]) := by
    rw [Nat.add_right_comm]
    exact (registerWrite_loaded Config.typeEeprom payload).canTalk hcan
  obtain ⟨u, hterm, htalkTerm, hcfgu, hcanu⟩ :=
    (speaks_verifyTerminator rfl).step hcfg (htalk.can hcan')
  have hheard : Talk (s.loaded Config.typeEeprom payload) u (5 + payload.length) [s.cfg.respInsync] := by
    simpa only [Nat.add_right_comm, List.nil_append] using htalk.trans htalkTerm
  have haddr : u.addr = s.addr := hheard.addr
  have hbuf : payload <+: u.pagebuf.drop 0 := by
    rw [hheard.pagebuf]
    exact List.prefix_append _ _
  obtain ⟨v, hwrite, htalkWrite, hev⟩ := talk_writeEeprom hbuf
    (by rw [haddr, hcfgu]; exact hstore.range) (by rw [haddr]; exact hstore.room) hcanu
  have hsteps := registerWrite_eepromSteps payload
  have hcfgv : v.cfg = s.cfg := htalkWrite.cfg.trans ((hsteps.cfg u).trans hcfgu)
  obtain ⟨w, hrespond, htalkRespond, hdone⟩ :=
    finishes_respond.run hcfgv (h := 0) (bs := []) (htalkWrite.can (hsteps.canTalk hcanu))
  refine ⟨u, w, ?_, hdone, ((hsteps.talk hheard).trans htalkWrite).trans htalkRespond, ?_, ?_⟩
  · rw [hrun, bind_ok hterm, bind_ok hwrite, hrespond]
  · exact recordsTalk_verifyTerminator _ _ t () u hquiet hterm
  · rw [← haddr, ← hev]
    exact recordsTalk_respond _ v () w (talkedSince_self v) hrespond

/-- With a wrong terminator the session is abandoned, the payload in PAGEBUF. -/
theorem programPageERule_abandons (hstore : EepromWritable s payload)
    (hcan : CanTalk s (5 + payload.length) []) (lenHigh : Byte) (hx : x ≠ s.cfg.term) :
    ∃ t, programPageERule lenHigh payload x s = .error (.ended (t.setPh .abandoned)) ∧
      Talk (s.loaded Config.typeEeprom payload) t (5 + payload.length) [] := by
  obtain ⟨t, htalk, -, hrun⟩ := talk_untilTerminatorE hstore (hcan.hear (by omega)) lenHigh x
  have hcan' : CanTalk (s.loaded Config.typeEeprom payload) (4 + payload.length + 1) [] := by
    rw [Nat.add_right_comm]
    exact (registerWrite_loaded Config.typeEeprom payload).canTalk hcan
  obtain ⟨u, hterm, htalk'⟩ := abandons_verifyTerminator hx t htalk.cfg (htalk.can hcan')
  refine ⟨u, ?_, by simpa [Nat.add_right_comm] using htalk.trans htalk'⟩
  rw [hrun, bind_error hterm]

/-! ### EEPROM, byte by byte -/

/-- What EEPROM holds once the write in progress is complete depends on EEPROM and its controller alone. -/
theorem eeComplete_eeprom_congr (heeprom : t.eeprom = s.eeprom) (hbusy : t.eeBusy = s.eeBusy) :
    (eeComplete t).eeprom = (eeComplete s).eeprom := by
  unfold eeComplete
  rw [hbusy]
  cases s.eeBusy with
  | none => exact heeprom
  | some q => exact congrArg (putCell · q.1 q.2) heeprom

theorem eeComplete_eeprom_of_talk {n : Nat} (htalk : Talk s t n bs) :
    (eeComplete t).eeprom = (eeComplete s).eeprom :=
  eeComplete_eeprom_congr (htalk.field State.eeprom fun _ _ => rfl) (htalk.field State.eeBusy fun _ _ => rfl)

theorem eepromByte_eepromStep (b : Byte) (a : Nat) :
    eepromByte (eeComplete (s.eepromStep b)).eeprom a =
      if a = s.addr.toNat then b else eepromByte (eeComplete s).eeprom a :=
  eepromByte_putCell (eeComplete s).eeprom s.addr.toNat b a

/-- A byte outside the addresses written. -/
theorem eepromByte_outside (hroom : s.addr.toNat + bs.length < 65536)
    (hout : a < s.addr.toNat ∨ s.addr.toNat + bs.length ≤ a) :
    eepromByte (eeComplete (bs.foldl State.eepromStep s)).eeprom a = eepromByte (eeComplete s).eeprom a := by
  induction bs generalizing s with
  | nil => rfl
  | cons b bs ih =>
    rw [List.length_cons] at hroom hout
    have haddr := eepromStep_addr (addr_ne_top hroom) b
    rw [List.foldl_cons, ih (by omega) (by omega), eepromByte_eepromStep, if_neg (by omega)]

/-- A byte written, once the last write is complete. -/
theorem eepromByte_written (hroom : s.addr.toNat + bs.length < 65536) (hb : bs[k]? = some b) :
    eepromByte (eeComplete (bs.foldl State.eepromStep s)).eeprom (s.addr.toNat + k) = b := by
  induction bs generalizing s k with
  | nil => cases hb
  | cons c bs ih =>
    rw [List.length_cons] at hroom
    have haddr := eepromStep_addr (addr_ne_top hroom) c
    cases k with
    | zero =>
      obtain rfl : c = b := Option.some.inj hb
      rw [List.foldl_cons, eepromByte_outside (by omega) (by omega), Nat.add_zero, eepromByte_eepromStep,
        if_pos rfl]
    | succ k =>
      have hrest := ih (s := s.eepromStep c) (by omega) hb
      rwa [haddr, Nat.add_assoc, Nat.add_comm 1 k] at hrest

theorem eepromSteps_flash (bs : List Byte) (s : State) : (bs.foldl State.eepromStep s).flash = s.flash := by
  induction bs generalizing s with
  | nil => rfl
  | cons b bs ih =>
    obtain ⟨m, hframe⟩ := eeComplete_frame s
    rw [List.foldl_cons, ih, State.eepromStep, hframe]
    rfl

theorem not_eeWrite_of_channelEvent {new : List Event} (hnew : ∀ e ∈ new, channelEvent e = true) (a : Nat)
    (b : Byte) : Event.eeWrite a b ∉ new :=
  fun hmem => nomatch hnew _ hmem

end Storing

/-- Settles O27: the request's stages one after the other, the write loop by induction on the payload. -/
theorem programPageECompletes : Obligations.ProgramPageECompletes := by
  intro s lenHigh payload x hstore
  refine ⟨fun hx hready => ?_, fun hx hready => ?_⟩
  · subst hx
    obtain ⟨-, t, hrun, hdone, htalk, -⟩ :=
      programPageERule_answers hstore (canTalk_of_ready_programPageE hstore hready) lenHigh
    refine ⟨t, runRule_ok hrun, hdone, ?_⟩
    rw [encode_programPageE_length hstore]
    exact htalk.talked
  · obtain ⟨t, hrun, htalk⟩ :=
      programPageERule_abandons hstore (canTalk_of_ready_programPageE hstore hready) lenHigh hx
    refine ⟨_, runRule_ended hrun, rfl, ?_⟩
    rw [encode_programPageE_length hstore]
    exact (htalk.trans (talk_setPh t .abandoned)).talked

/-- Settles O28: each byte written is overwritten by none that follows it. -/
theorem programPageEWritesBytes : Obligations.ProgramPageEWritesBytes := by
  intro s lenHigh payload hready hstore
  obtain ⟨-, t, hrun, -, htalk, -⟩ :=
    programPageERule_answers hstore (canTalk_of_ready_programPageE hstore hready) lenHigh
  have heeprom := eeComplete_eeprom_of_talk htalk
  have hflash : t.flash = s.flash :=
    (htalk.field State.flash fun _ _ => rfl).trans (eepromSteps_flash payload _)
  have hload : (eeComplete (s.loaded Config.typeEeprom payload)).eeprom = (eeComplete s).eeprom :=
    eeComplete_eeprom_congr rfl rfl
  refine ⟨t, runRule_ok hrun, fun k b hb => ?_, fun a hout => ?_, fun a => by rw [hflash]⟩
  · rw [heeprom]
    exact eepromByte_written (s := s.loaded Config.typeEeprom payload) hstore.room hb
  · rw [heeprom, ← hload]
    exact eepromByte_outside (s := s.loaded Config.typeEeprom payload) hstore.room hout

/-- Settles O29: before and after the byte writes only the byte channel records events. -/
theorem eepromKeepAlive : Obligations.EepromKeepAlive := by
  intro s lenHigh payload hready hstore
  obtain ⟨u, t, hrun, -, -, ⟨new, hbefore, htalk⟩, ⟨after, hafter, htalk'⟩⟩ :=
    programPageERule_answers hstore (canTalk_of_ready_programPageE hstore hready) lenHigh
  refine ⟨t, u.ev, after, runRule_ok hrun, ⟨new, hbefore.symm⟩, hafter, ?_, not_eeWrite_of_channelEvent htalk'⟩
  rw [hbefore, List.drop_left]
  exact not_eeWrite_of_channelEvent htalk

end Sys2Proof.Proofs
end

section
/-! SUPPORT. ReadPage 'E' in a quiet environment (42_eeprom_programmer.md R152), and the round trip through
EEPROM (R155): what a payload written, addressed again and read back answers. -/

namespace Sys2Proof.Proofs

open Sys2Proof Sys2Proof.Machine

section ReadingEeprom

variable {s t : State} {n lenHigh : Byte}

/-! ### The read loop -/

/-- One byte read (R152): the write in progress is complete by then, the byte goes out, and ADDR moves on. -/
theorem talk_readEepromByte (hin : s.addr.toNat < s.cfg.eepromSize) (htop : s.addr ≠ 0xFFFF)
    (hcan : CanTalk s 0 [eepromByte (eeComplete s).eeprom s.addr.toNat]) :
    ∃ t, readEepromByte s = .ok ((), t) ∧
      Talk ((eeComplete s).advanced 1) t 0 [eepromByte (eeComplete s).eeprom s.addr.toNat] := by
  have hread := eeRead_still (still_of_canTalk hcan) hin
  have hrecorded : Talk (eeComplete s) ((eeComplete s).emit (.eeRead s.addr.toNat)) 0 [] :=
    talk_emit _ _ ⟨rfl, rfl⟩
  obtain ⟨t, hsend, htalkSend, -⟩ := talk_sendByte _ (hrecorded.can (h' := 0) (canTalk_eeComplete hcan))
  have htalk := hrecorded.trans htalkSend
  have haddr : t.addr = s.addr := htalk.addr.trans (eeComplete_addr s)
  refine ⟨t.advanced 1, ?_, (registerWrite_advanced 1).talk htalk⟩
  rw [readEepromByte, look_id_bind, bind_ok (refuseIf_pass (by simpa using hin) _ s), bind_ok hread,
    bind_ok hsend, advanceByte_run (haddr.trans_ne htop)]

theorem eepromData_succ (s : State) (k : Nat) :
    s.eepromData (k + 1) = eepromByte (eeComplete s).eeprom s.addr.toNat ::
      eepromBytes (eeComplete s).eeprom (s.addr.toNat + 1) k :=
  eepromBytes_succ _ _ _

/-- The bytes read are those of EEPROM with the write in progress complete; where none is read, no write is
completed. -/
theorem talk_readEeprom (k : Nat) (hdone : k ≠ 0 ∨ s.eeBusy = none)
    (hin : s.addr.toNat + k ≤ s.cfg.eepromSize) (hroom : s.addr.toNat + k < 65536)
    (hcan : CanTalk s 0 (s.eepromData k)) :
    ∃ t, readEeprom k s = .ok ((), t) ∧ Talk ((eeComplete s).advanced k) t 0 (s.eepromData k) := by
  induction k generalizing s with
  | zero =>
    refine ⟨s, rfl, ?_⟩
    rw [advanced_zero, eeComplete_of_none (hdone.resolve_left fun h => h rfl)]
    exact Talk.refl s
  | succ k ih =>
    have htop : s.addr ≠ 0xFFFF := addr_ne_top hroom
    rw [eepromData_succ] at hcan ⊢
    obtain ⟨t, hbyte, htalk⟩ := talk_readEepromByte (by omega) htop
      (hcan.weaken (Nat.le_refl 0) (List.prefix_append [_] _))
    have hmove : RegisterWrite fun v => (eeComplete v).advanced 1 :=
      (registerWrite_advanced 1).comp registerWrite_eeComplete
    have haddr : t.addr.toNat = s.addr.toNat + 1 := by
      rw [htalk.addr]
      exact advanced_addr_toNat (eeComplete_addr s) ((eeComplete_addr s).trans_ne htop)
    have hbusy : t.eeBusy = none := (htalk.field State.eeBusy fun _ _ => rfl).trans (eeComplete_eeBusy s)
    have heeprom : t.eeprom = (eeComplete s).eeprom := htalk.field State.eeprom fun _ _ => rfl
    have hdata : t.eepromData k = eepromBytes (eeComplete s).eeprom (s.addr.toNat + 1) k := by
      rw [← heeprom, ← haddr, State.eepromData, eeComplete_of_none hbusy, eepromBytes]
    have hcfg : t.cfg = s.cfg := htalk.cfg.trans (hmove.cfg s)
    rw [← hdata] at hcan ⊢
    obtain ⟨u, hrest, htalk'⟩ := ih (s := t) (.inr hbusy) (by rw [haddr, hcfg]; omega) (by omega)
      (htalk.can (hmove.canTalk hcan))
    rw [eeComplete_of_none hbusy] at htalk'
    refine ⟨u, ?_, ?_⟩
    · rw [readEeprom, bind_ok hbyte, hrest]
    · have hmoved := (registerWrite_advanced k).talk htalk
      rw [advanced_advanced, Nat.add_comm 1 k] at hmoved
      exact hmoved.trans htalk'

/-! ### The whole request -/

theorem eeComplete_headed (s : State) (n ty : Byte) :
    eeComplete (s.headed n ty) = (eeComplete s).headed n ty := by
  cases hbusy : s.eeBusy <;> simp only [eeComplete, State.headed, hbusy]

theorem registerWrite_read (n ty : Byte) (k : Nat) :
    RegisterWrite fun s => ((eeComplete s).headed n ty).advanced k :=
  (registerWrite_advanced k).comp ((registerWrite_setType ty).comp
    ((registerWrite_setLen n).comp registerWrite_eeComplete))

/-- A register is no byte sent. -/
theorem RegisterWrite.sent {g : State → State} (hg : RegisterWrite g) (s : State) : (g s).sent = s.sent := by
  have hev : (g s).ev = s.ev := congrArg Chan.ev (hg.chan s)
  have htxbuf : (g s).txbuf = s.txbuf := congrArg Chan.txbuf (hg.chan s)
  simp only [State.sent, State.passed, hg.cfg, hev, htxbuf]

theorem readPageERule_answers (hn : n ≠ 0) (hin : s.addr.toNat + n.toNat ≤ s.cfg.eepromSize)
    (hroom : s.addr.toNat + n.toNat < 65536)
    (hcan : CanTalk s 5 (s.cfg.respInsync :: (s.eepromData n.toNat ++ [s.cfg.respOk]))) (lenHigh : Byte) :
    ∃ t, readPageERule lenHigh n s.cfg.term s = .ok ((), t) ∧ Completed t ∧
      Talk (((eeComplete s).headed n Config.typeEeprom).advanced n.toNat) t 5
        (s.cfg.respInsync :: (s.eepromData n.toNat ++ [s.cfg.respOk])) := by
  obtain ⟨t1, hheader, htalk1⟩ := talk_readHeader (lenHigh := lenHigh) (ty := Config.typeEeprom) hn hcan
  have hcan1 : CanTalk t1 0 (s.eepromData n.toNat ++ [s.cfg.respOk]) :=
    htalk1.can (hcan.same rfl rfl rfl rfl rfl rfl)
  have hcfg1 : t1.cfg = s.cfg := htalk1.cfg
  have haddr : t1.addr = s.addr := htalk1.addr
  have hdata : t1.eepromData n.toNat = s.eepromData n.toNat :=
    eepromData_congr (s := s) (htalk1.field State.eeprom fun _ _ => rfl)
      (htalk1.field State.eeBusy fun _ _ => rfl) haddr _
  have hlen : n.toNat ≠ 0 := fun hzero => hn (BitVec.eq_of_toNat_eq hzero)
  rw [← hdata] at hcan1
  obtain ⟨t2, hread, htalk2⟩ := talk_readEeprom n.toNat (.inl hlen) (by rwa [haddr, hcfg1]) (by rwa [haddr])
    (hcan1.weaken (Nat.le_refl 0) (List.prefix_append _ _))
  have hmove : RegisterWrite fun v => (eeComplete v).advanced n.toNat :=
    (registerWrite_advanced n.toNat).comp registerWrite_eeComplete
  have hmoved := hmove.talk htalk1
  rw [eeComplete_headed] at hmoved
  obtain ⟨t, hrespond, htalk3, hdone⟩ := finishes_respond.run
    (htalk2.cfg.trans ((hmove.cfg t1).trans hcfg1)) (h := 0) (bs := []) (htalk2.can (hmove.canTalk hcan1))
  refine ⟨t, ?_, hdone, ?_⟩
  · rw [readPageERule, bind_ok hheader, bind_ok hread, hrespond]
  · rw [← hdata]
    exact (hmoved.trans htalk2).trans htalk3

end ReadingEeprom

/-- Settles O30: one induction on the bytes read. -/
theorem readPageEReads : Obligations.ReadPageEReads := by
  intro s lenHigh n hn hready hin hroom
  obtain ⟨t, hrun, hdone, htalk⟩ := readPageERule_answers hn hin hroom (canTalk_of_ready hready) lenHigh
  exact ⟨t, runRule_ok hrun, hdone, htalk.talked⟩

/-! ### The round trip -/

section RoundTrip

variable {s v : State} {lo hi : Byte} {payload : List Byte}

/-- The bytes of EEPROM from ADDR on are the payload just written there. -/
theorem eepromBytes_eepromProgrammed (hstore : EepromWritable s payload) :
    eepromBytes (eeComplete (s.eepromProgrammed payload)).eeprom s.addr.toNat payload.length = payload := by
  refine List.ext_getElem (by rw [eepromBytes, List.length_map, List.length_range]) fun k _ hk => ?_
  rw [← eepromByte_written (s := s.loaded Config.typeEeprom payload) hstore.room (List.getElem?_eq_getElem hk)]
  simp only [eepromBytes, List.getElem_map, List.getElem_range]
  rfl

/-- Loading half of an even address loads that address (30_encoding.md R75). -/
theorem loadedAddress_addr {c : Config} (hword : 2 * (256 * hi.toNat + lo.toNat) = s.addr.toNat) :
    (loadedAddress c lo hi v).addr = s.addr := by
  show byteAddress (wordOf lo hi) = s.addr
  rw [byteAddress_wordOf, hword, BitVec.ofNat_toNat, BitVec.setWidth_eq]

end RoundTrip

/-- Settles O31: what is read at ADDR loaded again is what the completed writes have left there. -/
theorem eepromRoundTrip : Obligations.EepromRoundTrip := by
  intro s lh1 lo hi lh2 payload hstore hword hlink hcalm hbytes
  have hlen : (BitVec.ofNat 8 payload.length : Byte).toNat = payload.length :=
    (length_eq_toNat_ofNat (hstore.length.2.trans hstore.page)).symm
  have hcan : CanTalk s (5 + payload.length + (4 + 5)) ([s.cfg.respInsync, s.cfg.respOk] ++
      ([s.cfg.respInsync, s.cfg.respOk] ++ s.cfg.respInsync :: (payload ++ [s.cfg.respOk]))) := by
    refine ⟨hcalm.1, by simpa using hcalm.2, hlink, ?_⟩
    have hlength := hbytes.length_le
    rw [List.length_append, List.length_append, encode_programPageE_length hstore] at hlength
    exact hlength
  obtain ⟨-, t1, hrun1, -, htalk1, -⟩ := programPageERule_answers hstore
    (hcan.weaken (Nat.le_add_right _ _) (List.prefix_append _ _)) lh1
  have hprogrammed := registerWrite_eepromProgrammed payload
  have hcfg1 : t1.cfg = s.cfg := htalk1.cfg.trans (hprogrammed.cfg s)
  obtain ⟨t2, hrun2, htalk2, hcfg2, hcan2⟩ :=
    (loadAddressRule_finishes lo hi).step hcfg1 (htalk1.can (hprogrammed.canTalk hcan))
  have haddr : t2.addr = s.addr := htalk2.addr.trans (loadedAddress_addr hword)
  have hloaded : (eeComplete (loadedAddress s.cfg lo hi t1)).eeprom = (eeComplete t1).eeprom :=
    eeComplete_eeprom_congr rfl rfl
  have hdata : t2.eepromData payload.length = payload :=
    calc t2.eepromData payload.length
      _ = eepromBytes (eeComplete t2).eeprom t2.addr.toNat payload.length := rfl
      _ = eepromBytes (eeComplete (s.eepromProgrammed payload)).eeprom s.addr.toNat payload.length := by
        rw [eeComplete_eeprom_of_talk htalk2, hloaded, eeComplete_eeprom_of_talk htalk1, haddr]
      _ = payload := eepromBytes_eepromProgrammed hstore
  have hn : (BitVec.ofNat 8 payload.length : Byte) ≠ 0 := fun hzero => by
    have hpos := hstore.length.1
    rw [hzero, show (0 : Byte).toNat = 0 from rfl] at hlen
    omega
  obtain ⟨t3, hrun3, -, htalk3⟩ := readPageERule_answers (s := t2) hn
    (by rw [hlen, haddr, hcfg2]; exact hstore.range) (by rw [hlen, haddr]; exact hstore.room)
    (by rw [hlen, hdata, hcfg2]; exact hcan2) lh2
  rw [hlen, hdata, hcfg2] at htalk3
  rw [hcfg2] at hrun3
  have hsent := htalk3.sent
  rw [(registerWrite_read _ _ _).sent t2] at hsent
  refine ⟨t1, t2, t3, runRule_ok hrun1, ?_, runRule_ok hrun3, hsent⟩
  exact (congrArg (fun c => runRule (loadAddressRule c lo hi s.cfg.term) t1) hcfg1).trans (runRule_ok hrun2)

end Sys2Proof.Proofs
end

section
/-! SUPPORT. The packets the radio link takes in (43_radio_transport.md R164 to R167, R173): which rule a packet
runs is decided by the link state and its length, and what its tag and payload leave is said once. -/

namespace Sys2Proof.Proofs

open Sys2Proof Sys2Proof.Machine

/-! ### What a pause does, for every pair of relations -/

/-- A pause: the engine waits, and then either goes on or is cut off by the resets of at least one source. -/
theorem takePause_cases (extra : Nat) (svc : Bool) (s : State) :
    ∃ u, Waited s u ∧ (takePause extra svc s = .ok ((), u) ∨
      ∃ sources, sources ≠ [] ∧ takePause extra svc s = .error (.ended (resetBy sources u))) := by
  have hwaited : Waited s (settle (s.pauses.headD .quiet)
      (s.popPause.addTime (extra + (s.pauses.headD .quiet).dt))) :=
    Waited.trans ⟨_, _, _, _, _, _, _, rfl⟩ (waited_settle _ _)
  refine ⟨_, hwaited, ?_⟩
  unfold takePause
  dsimp only
  split
  · exact .inl rfl
  · rename_i hstruck
    exact .inr ⟨_, by simpa using hstruck, rfl⟩

theorem resetBy_assoc {sources : List ResetSource} (h : sources ≠ []) (s : State) :
    (resetBy sources s).assoc = false := by
  induction sources generalizing s with
  | nil => exact absurd rfl h
  | cons source sources ih =>
    cases sources with
    | nil => rfl
    | cons next sources => exact ih (by simp) (deviceReset source s)

section Pauses

variable {α : Type} {I : State → Prop} {R Q : State → State → Prop}

theorem keeps_takePause (hwait : ∀ s u, Waited s u → I s → R s u ∧ I u)
    (hreset : ∀ s u sources, Waited s u → sources ≠ [] → I s → Q s (resetBy sources u))
    (extra : Nat) (svc : Bool) : Keeps I R Q (takePause extra svc) := by
  intro s hs
  obtain ⟨u, hwaited, hgoes | ⟨sources, hsources, hcut⟩⟩ := takePause_cases extra svc s
  · rw [hgoes]
    exact hwait s u hwaited hs
  · rw [hcut]
    exact ⟨hreset s u sources hwaited hsources hs, .inl (resetBy_ph hsources u)⟩

/-- A refusal never runs to its end: what it keeps is what the pause before it keeps. -/
theorem lands_refuse {J : State → Prop} {R' : State → State → Prop} {s : State} {r : Refusal}
    (hpause : Lands I R Q s (instant s)) : Lands J R' Q s ((refuse r : Eng α) s) := by
  unfold refuse
  rw [bind_run]
  rcases hrun : instant s with stop | ⟨u, t⟩
  · rw [hrun] at hpause
    cases stop <;> exact hpause
  · trivial

end Pauses

/-! ### The rules of a packet -/

section Rules

variable {s t : State} {p payload body : List Byte} {tag a0 a1 a2 m : Byte}

/-- A packet the medium can carry is read by the link state alone (R82, R164). -/
theorem processPacket_run (hcap : p.length ≤ Config.pktCap) (s : State) :
    processPacket p s = if s.assoc then ordinary p s else associate p s := by
  simp [processPacket, Nat.not_lt.2 hcap]

/-- The state in which the filter of R166 and R167 leaves a body. -/
def filtered (p : List Byte) (tag : Byte) (payload : List Byte) (s : State) : State :=
  if s.rxTag = some tag then s.emit (.pktIn p .droppedDuplicate)
  else (s.accepted tag payload).emit (.pktIn p .accepted)

theorem filterBody_run (p : List Byte) (tag : Byte) (payload : List Byte) (s : State) :
    filterBody p tag payload s = .ok ((), filtered p tag payload s) := by
  unfold filterBody filtered
  rw [bind_run, look_run]
  dsimp only
  split <;> rfl

/-- Dropped or accepted, the body's tag is the last accepted one. -/
theorem filtered_rxTag (p : List Byte) (tag : Byte) (payload : List Byte) (s : State) :
    (filtered p tag payload s).rxTag = some tag := by
  unfold filtered
  split
  · assumption
  · rfl

theorem filtered_assoc (p : List Byte) (tag : Byte) (payload : List Byte) (s : State) :
    (filtered p tag payload s).assoc = s.assoc := by
  unfold filtered
  split <;> rfl

theorem filtered_duplicate (h : s.rxTag = some tag) :
    filtered p tag payload s = s.emit (.pktIn p .droppedDuplicate) := if_pos h

theorem exec_pkt (hassoc : s.assoc = true) (hlen : payload.length ≤ 31) :
    exec (.pkt tag payload) s = .next (filtered (tag :: payload) tag payload s) := by
  have hcap : (tag :: payload).length ≤ Config.pktCap := Nat.succ_le_succ hlen
  have hrun : processPacket (tag :: payload) s = ordinary (tag :: payload) s := by
    rw [processPacket_run hcap, if_pos hassoc]
  exact runRule_ok (hrun.trans (filterBody_run _ _ _ s))

theorem exec_hello (hassoc : s.assoc = false) (hlen : body.length ≤ 28) :
    exec (.hello a0 a1 a2 m body) s = runRule (associate (a0 :: a1 :: a2 :: m :: body)) s := by
  have hcap : (a0 :: a1 :: a2 :: m :: body).length ≤ Config.pktCap := Nat.add_le_add_right hlen 4
  have hrun : processPacket (a0 :: a1 :: a2 :: m :: body) s = associate (a0 :: a1 :: a2 :: m :: body) s := by
    rw [processPacket_run hcap, if_neg (by simp [hassoc])]
  exact congrArg (fun r => runRule (fun _ => r) s) hrun

/-- The link just associated by a first packet (R164). -/
def paired (p : List Byte) (peer : Byte × Byte × Byte) (m : Byte) (s : State) : State :=
  (s.paired peer m).emit (.pktIn p .associated)

/-- What a first packet of a legal length does where nothing strikes. -/
theorem associate_still (hstill : s.Still) (hlegal : badMaxlen m = false) :
    associate (a0 :: a1 :: a2 :: m :: body) s = .ok ((),
      match body with
      | [] => paired (a0 :: a1 :: a2 :: m :: body) (a0, a1, a2) m s
      | tag :: payload => filtered (a0 :: a1 :: a2 :: m :: body) tag payload
          (paired (a0 :: a1 :: a2 :: m :: body) (a0, a1, a2) m s)) := by
  obtain ⟨hquiet, hawake⟩ := hstill
  cases body with
  | nil => simp [associate, hlegal, paired, emit]
  | cons tag payload =>
    have hpause := takePause_still (s := paired (a0 :: a1 :: a2 :: m :: tag :: payload) (a0, a1, a2) m s)
      hquiet hawake
    unfold paired at hpause ⊢
    simp [associate, hlegal, emit, hpause, filterBody_run]

theorem associate_illegal (hstill : s.Still) (hbad : badMaxlen m = true) :
    associate (a0 :: a1 :: a2 :: m :: body) s = .error (.refused .maxlen) := by
  simp [associate, hbad, refuse_still hstill]

/-! #### A first packet in any environment -/

/-- Run to its end the rule ends in `I`; cut off by a reset it leaves the link unassociated. -/
def EndsOrUnlinks {α : Type} (I : State → Prop) (rule : Eng α) : Prop :=
  ∀ s, Lands I (fun _ _ => True) (fun _ t => t.assoc = false) s (rule s)

theorem EndsOrUnlinks.bind {α β : Type} {I : State → Prop} {rule : Eng α} {f : α → Eng β}
    (hrule : EndsOrUnlinks (fun _ => True) rule) (hf : ∀ a, EndsOrUnlinks I (f a)) :
    EndsOrUnlinks I (rule >>= f) := by
  have hc : Composes (fun _ _ => True) (fun _ t : State => t.assoc = false) :=
    ⟨fun _ => trivial, fun _ _ _ _ _ => trivial, fun _ _ _ _ h => h⟩
  exact fun s => lands_bind (I := fun _ => True) hc trivial (fun s _ => hrule s) fun a s _ => hf a s

theorem endsOrUnlinks_takePause (extra : Nat) (svc : Bool) :
    EndsOrUnlinks (fun _ => True) (takePause extra svc) := fun s =>
  keeps_takePause (I := fun _ => True) (fun _ _ _ _ => ⟨trivial, trivial⟩)
    (fun _ u _ _ hsources _ => resetBy_assoc hsources u) extra svc s trivial

theorem endsOrUnlinks_refuseIf (bad : Bool) (r : Refusal) :
    EndsOrUnlinks (fun _ => True) (refuseIf bad r) := by
  intro s
  cases bad with
  | true => exact lands_refuse (endsOrUnlinks_takePause 0 false s)
  | false => exact ⟨trivial, trivial⟩

theorem endsOrUnlinks_filterBody (p : List Byte) (tag : Byte) (payload : List Byte) :
    EndsOrUnlinks (fun t => t.rxTag = some tag) (filterBody p tag payload) := by
  intro s
  rw [filterBody_run]
  exact ⟨trivial, filtered_rxTag p tag payload s⟩

/-- A first packet with a tag leaves it as the last accepted one, unless a reset strikes. -/
theorem endsOrUnlinks_associate :
    EndsOrUnlinks (fun t => t.rxTag = some tag) (associate (a0 :: a1 :: a2 :: m :: tag :: payload)) :=
  (endsOrUnlinks_refuseIf _ _).bind fun _ =>
  EndsOrUnlinks.bind (fun _ => ⟨trivial, trivial⟩) fun _ =>
  EndsOrUnlinks.bind (fun _ => ⟨trivial, trivial⟩) fun _ =>
  EndsOrUnlinks.bind (fun _ => ⟨trivial, trivial⟩) fun _ =>
  (endsOrUnlinks_takePause 0 _).bind fun _ => endsOrUnlinks_filterBody _ tag payload

end Rules

/-! ### The statements -/

/-- Settles O8. -/
theorem stepRunsReceivedPacket : Obligations.StepRunsReceivedPacket := by
  intro s i p ps hwf hph hradio hrxq hair hquiet hawake hdecode
  have hloop : loopStep s = receivePacket p ps s := by
    rw [loopStep, if_pos ⟨hradio, hrxq⟩, hair]
  rw [step_awaitCommand hwf hph, hloop, receivePacket, takePause_still hquiet hawake]
  simp only [hdecode]

/-- Settles O37. -/
theorem packetFiltered : Obligations.PacketFiltered := fun _ _ _ hassoc hlen => exec_pkt hassoc hlen

/-- Settles O38. -/
theorem helloAssociates : Obligations.HelloAssociates := by
  intro s a0 a1 a2 m body hassoc hlen hquiet hawake
  rw [exec_hello hassoc hlen]
  split
  · rename_i hrange
    exact runRule_refused (associate_illegal ⟨hquiet, hawake⟩ (decide_eq_true hrange))
  · rename_i hrange
    rw [runRule_ok (associate_still ⟨hquiet, hawake⟩ (decide_eq_false hrange))]
    cases body <;> rfl

/-- Settles O39. -/
theorem shapelessPacketDropped : Obligations.ShapelessPacketDropped := by
  refine fun s p => ⟨fun hassoc hshort => ?short, fun hassoc hempty => ?empty⟩
  case short =>
    have hcap : p.length ≤ Config.pktCap := hshort.le.trans (by decide)
    rw [processPacket_run hcap, if_neg (by simp [hassoc])]
    rcases p with _ | ⟨a0, _ | ⟨a1, _ | ⟨a2, _ | ⟨m, body⟩⟩⟩⟩
    case cons.cons.cons.cons =>
      simp only [List.length_cons] at hshort
      omega
    all_goals rfl
  case empty =>
    subst hempty
    rw [processPacket_run (Nat.zero_le _), if_pos hassoc]
    rfl

/-- After a packet with a tag has been processed the link is associated and the tag is the last accepted
one. -/
theorem processed_tag {s t : State} {tag : Byte} {p : List Byte}
    (h : s.assoc = true ∧ p.length ≤ 31 ∧ exec (.pkt tag p) s = .next t ∨
      s.assoc = false ∧ p.length ≤ 27 ∧
        (∃ a0 a1 a2 m, exec (.hello a0 a1 a2 m (tag :: p)) s = .next t) ∧ t.assoc = true) :
    t.assoc = true ∧ t.rxTag = some tag := by
  rcases h with ⟨hassoc, hlen, hexec⟩ | ⟨hunassoc, hlen, ⟨a0, a1, a2, m, hexec⟩, hassoc⟩
  · rw [exec_pkt hassoc hlen] at hexec
    cases hexec
    exact ⟨(filtered_assoc _ _ _ s).trans hassoc, filtered_rxTag _ _ _ s⟩
  · have hbody : (tag :: p).length ≤ 28 := Nat.succ_le_succ hlen
    rw [exec_hello hunassoc hbody] at hexec
    rcases (endsOrUnlinks_associate s).next hexec with ⟨-, htag⟩ | ⟨hreset, -⟩
    · exact ⟨hassoc, htag⟩
    · rw [hassoc] at hreset
      cases hreset

/-- Settles O40. -/
theorem atMostOnce : Obligations.AtMostOnce := by
  intro s t tag p1 p2 hlen hprocessed
  obtain ⟨hassoc, htag⟩ := processed_tag hprocessed
  refine ⟨hassoc, fun u hu hsame => ?_⟩
  rw [exec_pkt hu hlen, filtered_duplicate (hsame.trans htag)]
  rfl

end Sys2Proof.Proofs
end

section
/-! SUPPORT. The packets the radio link sends (43_radio_transport.md R169 to R174): a byte joins TXBUF or ends
the packet, what a flush sends in any environment, cut off or not, and its attempts in a quiet one. -/

namespace Sys2Proof.Proofs

open Sys2Proof Sys2Proof.Machine

/-! ### Where a byte ends a packet -/

section Bytes

variable {s : State} {b : Byte}

theorem radioSendByte_associated (hassoc : s.assoc = true) (b : Byte) :
    radioSendByte b s =
      if s.txbuf.length + 1 = s.maxlen.toNat ∨ b = s.cfg.respOk then flush (s.queued b)
      else .ok ((), s.queued b) := by
  have hqueued : radioSendByte b s =
      onlyIf (decide ((s.queued b).txbuf.length = s.maxlen.toNat ∨ b = s.cfg.respOk)) flush (s.queued b) := by
    simp only [radioSendByte, bind_run, look_run, hassoc, Bool.not_true, refuseIf_false, update_run]
    rfl
  have hlen : (s.queued b).txbuf.length = s.txbuf.length + 1 := List.length_append
  rw [hqueued, hlen]
  split
  · rename_i hends
    rw [decide_eq_true hends]
    rfl
  · rename_i hends
    rw [decide_eq_false hends]
    rfl

/-- On an unassociated link nothing runs past the check. -/
theorem radioSendByte_unassociated (hassoc : s.assoc = false) (b : Byte) :
    radioSendByte b s = refuse .unassociated s := by
  simp only [radioSendByte, bind_run, look_run, hassoc, Bool.not_false, refuseIf_true, refuse, refused_run]
  cases instant s <;> rfl

/-- Settles O42. -/
theorem packetCut : Obligations.PacketCut := fun _ b =>
  ⟨fun hassoc => radioSendByte_associated hassoc b, fun hassoc hquiet hawake =>
    (radioSendByte_unassociated hassoc b).trans (refuse_still ⟨hquiet, hawake⟩ _)⟩

end Bytes

/-! ### What a flush sends, whatever the environment does -/

/-- Every packet sent from `s` to `t` is `packet`. -/
def SendsOnly (packet : List Byte) (s t : State) : Prop :=
  ∃ new, t.ev = s.ev ++ new ∧ ∀ p k acked, .pktOut p k acked ∈ new → p = packet

/-- From `s` to `t` nothing but `packet` is sent, and the tag and MAXLEN stay. -/
structure Attempting (packet : List Byte) (s t : State) : Prop where
  sends : SendsOnly packet s t
  txTag : t.txTag = s.txTag
  maxlen : t.maxlen = s.maxlen

section Flush

variable {α β : Type} {packet : List Byte} {s t u : State}

theorem sendsOnly_of_ev (h : t.ev = s.ev) : SendsOnly packet s t :=
  ⟨[], by rw [h, List.append_nil], by simp⟩

theorem SendsOnly.trans (h : SendsOnly packet s t) (h' : SendsOnly packet t u) : SendsOnly packet s u := by
  obtain ⟨new, hev, honly⟩ := h
  obtain ⟨new', hev', honly'⟩ := h'
  refine ⟨new ++ new', by rw [hev', hev, List.append_assoc], fun p k acked hmem => ?_⟩
  exact (List.mem_append.1 hmem).elim (honly p k acked) (honly' p k acked)

theorem attempting_compose : Composes (Attempting packet) (SendsOnly packet) where
  refl _ := ⟨sendsOnly_of_ev rfl, rfl, rfl⟩
  trans _ _ _ h h' := ⟨h.sends.trans h'.sends, h'.txTag.trans h.txTag, h'.maxlen.trans h.maxlen⟩
  stop _ _ _ h h' := h.sends.trans h'

/-- The rule sends nothing but `packet`, cut off by a reset or not; run to its end it keeps the tag and
MAXLEN. -/
abbrev Attempts (packet : List Byte) (rule : Eng α) : Prop :=
  Keeps (fun _ => True) (Attempting packet) (SendsOnly packet) rule

theorem Attempts.bind {rule : Eng α} {f : α → Eng β} (hrule : Attempts packet rule)
    (hf : ∀ a, Attempts packet (f a)) : Attempts packet (rule >>= f) :=
  keeps_bind attempting_compose hrule hf

theorem attempts_emit {e : Event} (he : ∀ p k acked, .pktOut p k acked = e → p = packet) :
    Attempts packet (emit e) := fun _ _ =>
  ⟨⟨⟨[e], rfl, fun p k acked hmem => he p k acked (List.mem_singleton.1 hmem)⟩, rfl, rfl⟩, trivial⟩

theorem attempts_takePause (extra : Nat) (svc : Bool) : Attempts packet (takePause extra svc) := by
  refine keeps_takePause (fun s u hwaited _ => ?wait) (fun s u sources hwaited _ _ => ?reset) extra svc
  case wait =>
    obtain ⟨_, _, _, _, _, _, _, rfl⟩ := hwaited
    exact ⟨⟨sendsOnly_of_ev rfl, rfl, rfl⟩, trivial⟩
  case reset =>
    obtain ⟨_, _, _, _, _, _, _, rfl⟩ := hwaited
    obtain ⟨-, -, -, hev⟩ := resetBy_outside sources _
    exact ⟨sources.map Event.reset, hev, by simp⟩

theorem attempts_delay (d : Nat) : Attempts packet (delay d) :=
  Attempts.bind ((attempts_takePause _ _).bind fun _ => attempts_emit (by simp)) fun _ =>
    (attempts_takePause _ _).bind fun _ => attempts_takePause _ _

theorem attempts_radioTx (peer : Byte × Byte × Byte) : Attempts packet (radioTx peer packet) := by
  have hhanded : Attempts packet (update fun s => s.handed peer packet) := fun _ _ =>
    ⟨⟨sendsOnly_of_ev rfl, rfl, rfl⟩, trivial⟩
  have hack : Attempts packet nextAck := by
    intro s _
    unfold nextAck
    split <;> exact ⟨⟨sendsOnly_of_ev rfl, rfl, rfl⟩, trivial⟩
  exact hhanded.bind fun _ => (attempts_takePause _ _).bind fun _ => hack

/-- Every attempt sends the same bytes (R170). -/
theorem attempts_flushAttempts (guard : Nat) (peer : Byte × Byte × Byte) (packet : List Byte) (n k : Nat) :
    Attempts packet (flushAttempts guard peer packet n k) := by
  induction n generalizing k with
  | zero => exact keeps_pure attempting_compose ()
  | succ n ih =>
    refine (attempts_delay guard).bind fun _ => (attempts_radioTx peer).bind fun acked =>
      (attempts_emit fun p k acked h => (Event.pktOut.inj h).1).bind fun _ => ?_
    split
    · exact keeps_pure attempting_compose ()
    · exact ih (k + 1)

theorem flush_run (s : State) :
    flush s = (flushAttempts s.cfg.txGuard s.peer s.txbuf s.cfg.txAttempts 1 >>= fun _ =>
      update State.nextPacket) s := rfl

/-- A byte has been sent from `s` to `t`: MAXLEN stays, and the tag has advanced where the byte ended a
packet. -/
structure ByteSent (b : Byte) (s t : State) : Prop where
  sends : SendsOnly (s.txbuf ++ [b]) s t
  maxlen : t.maxlen = s.maxlen
  txTag : t.txTag =
    if s.txbuf.length + 1 = s.maxlen.toNat ∨ b = s.cfg.respOk then s.txTag + 1 else s.txTag

/-- TXBUF begins with its tag and has room for a byte. -/
def Framed (t : State) : Prop := t.txbuf.head? = some t.txTag ∧ t.txbuf.length < t.maxlen.toNat

/-- A byte that ends a packet: whatever happens in the flush, it sends TXBUF with the byte; at its end TXBUF is
the next tag alone. -/
theorem flush_lands {b : Byte} (hlegal : 2 ≤ s.maxlen.toNat)
    (hends : s.txbuf.length + 1 = s.maxlen.toNat ∨ b = s.cfg.respOk) :
    Lands Framed (ByteSent b) (SendsOnly (s.txbuf ++ [b])) s (flush (s.queued b)) := by
  have hattempts := attempts_flushAttempts s.cfg.txGuard s.peer (s.txbuf ++ [b]) s.cfg.txAttempts 1
    (s.queued b) trivial
  have hrun := flush_run (s.queued b)
  rw [bind_run] at hrun
  simp only [State.queued_cfg, State.queued_peer, State.queued_txbuf] at hrun
  rw [hrun]
  rcases hend : flushAttempts s.cfg.txGuard s.peer (s.txbuf ++ [b]) s.cfg.txAttempts 1 (s.queued b)
    with stop | ⟨_, t⟩
  · rw [hend] at hattempts
    cases stop <;> exact hattempts
  · rw [hend] at hattempts
    obtain ⟨⟨hsends, htag, hmaxlen⟩, -⟩ := hattempts
    have hkept : t.maxlen = s.maxlen := hmaxlen
    refine ⟨⟨hsends, hkept, ?tag⟩, rfl, ?room⟩
    case tag =>
      rw [if_pos hends]
      exact congrArg (· + 1) htag
    case room =>
      show 1 < t.maxlen.toNat
      rw [hkept]
      exact hlegal

theorem radioSendByte_lands (hlegal : 2 ≤ s.maxlen.toNat) (hframed : Framed s) (b : Byte) :
    Lands Framed (ByteSent b) (SendsOnly (s.txbuf ++ [b])) s (radioSendByte b s) := by
  obtain ⟨hhead, hroom⟩ := hframed
  cases hassoc : s.assoc with
  | false =>
    have hpause := attempts_takePause (packet := s.txbuf ++ [b]) 0 false s trivial
    rw [radioSendByte_unassociated hassoc]
    exact lands_refuse hpause
  | true =>
    rw [radioSendByte_associated hassoc]
    split
    · rename_i hends
      exact flush_lands hlegal hends
    · rename_i hends
      have hroom' : s.txbuf.length + 1 < s.maxlen.toNat :=
        lt_of_le_of_ne hroom fun hfull => hends (.inl hfull)
      refine ⟨⟨sendsOnly_of_ev rfl, rfl, (if_neg hends).symm⟩, ?_, ?_⟩
      · simp [State.queued, hhead]
      · simpa [State.queued] using hroom'

end Flush

/-- Settles O41. -/
theorem framedByMaxlen : Obligations.FramedByMaxlen := by
  intro s t b hlegal hhead hroom
  have hlands := radioSendByte_lands (badMaxlen_eq_false_iff.1 hlegal).1 ⟨hhead, hroom⟩ b
  have hnonempty : s.txbuf ≠ [] := fun hnil => by simp [hnil] at hhead
  refine ⟨fun hrun => ?sends, fun hrun => ?framed⟩
  case sends =>
    have hsends : SendsOnly (s.txbuf ++ [b]) s t := by
      rcases hrun with hrun | hrun <;> rw [hrun] at hlands
      · exact hlands.1.sends
      · exact hlands.1
    obtain ⟨new, hev, honly⟩ := hsends
    refine ⟨new, hev, fun p k acked hmem => ?_⟩
    obtain rfl := honly p k acked hmem
    have hpos := List.length_pos_iff.2 hnonempty
    rw [List.length_append, List.length_singleton]
    exact ⟨rfl, by omega, hroom, by simp [hhead]⟩
  case framed =>
    rw [hrun] at hlands
    obtain ⟨⟨-, hmaxlen, htag⟩, hhead', hroom'⟩ := hlands
    exact ⟨hmaxlen, hhead', hroom', htag⟩

/-! ### The attempts of a flush in a quiet environment -/

/-- What the outcomes of at most `n` attempts are, with the acknowledgments `acks` in the script (R162, R170):
only the last one is acknowledged, only an acknowledgment ends them early, and the script decides as far as it
reaches. -/
structure Outcomes (n : Nat) (acks outcomes : List Bool) : Prop where
  atMost : outcomes.length ≤ n
  unacked : ∀ k, k + 1 < outcomes.length → outcomes[k]? = some false
  early : outcomes.length < n → outcomes.getLast? = some true
  scripted : outcomes <+: acks ∨ acks <+: outcomes

/-- The script's next acknowledgment is `acked`, and `rest` follows it; or it says nothing more. -/
def NextAck (acks : List Bool) (acked : Bool) (rest : List Bool) : Prop :=
  acks = acked :: rest ∨ acks = [] ∧ rest = []

section Outcomes

variable {n : Nat} {acks rest outcomes : List Bool}

theorem outcomes_none (acks : List Bool) : Outcomes 0 acks [] :=
  ⟨Nat.le_refl 0, by simp, by simp, .inl List.nil_prefix⟩

theorem outcomes_acked (hack : NextAck acks true rest) : Outcomes (n + 1) acks [true] := by
  refine ⟨Nat.succ_le_succ (Nat.zero_le n), by simp, fun _ => rfl, ?_⟩
  rcases hack with rfl | ⟨rfl, -⟩
  · exact .inl ⟨rest, rfl⟩
  · exact .inr List.nil_prefix

theorem outcomes_retry (hack : NextAck acks false rest) (h : Outcomes n rest outcomes) :
    Outcomes (n + 1) acks (false :: outcomes) := by
  refine ⟨Nat.succ_le_succ h.atMost, fun k hk => ?unacked, fun hearly => ?early, ?scripted⟩
  case unacked =>
    cases k with
    | zero => rfl
    | succ k => exact h.unacked k (Nat.lt_of_succ_lt_succ hk)
  case early =>
    have hlast := h.early (Nat.lt_of_succ_lt_succ hearly)
    simp [List.getLast?_cons, hlast]
  case scripted =>
    rcases hack with rfl | ⟨rfl, -⟩
    · exact h.scripted.imp (List.cons_prefix_cons.2 ⟨rfl, ·⟩) (List.cons_prefix_cons.2 ⟨rfl, ·⟩)
    · exact .inr List.nil_prefix

end Outcomes

section Attempts

variable {s : State} {guard : Nat} {packet : List Byte} {peer : Byte × Byte × Byte}

/-- The outcome of an attempt is the environment's. -/
theorem nextAck_run (s : State) :
    ∃ acked rest t, nextAck s = .ok (acked, t) ∧ NextAck s.acks acked rest ∧
      ∃ draws, t = { s with acks := rest, draws := draws } := by
  unfold nextAck
  cases hacks : s.acks with
  | nil =>
    exact ⟨_, [], s.countDraw, rfl, .inr ⟨rfl, rfl⟩, s.draws + 1, by simp [State.countDraw, ← hacks]⟩
  | cons acked rest => exact ⟨acked, rest, s.setAcks rest, rfl, .inl rfl, s.draws, rfl⟩

/-- The events of the attempts numbered from `k` (R170). -/
def attemptEvents (guard : Nat) (packet : List Byte) (k : Nat) (outcomes : List Bool) : List Event :=
  (outcomes.zipIdx k).flatMap fun e => [.delay guard, .pktOut packet e.2 e.1]

/-- The state after one attempt. -/
def attempted (guard : Nat) (peer : Byte × Byte × Byte) (packet : List Byte) (k : Nat) (acked : Bool)
    (rest : List Bool) (draws : Nat) (s : State) : State :=
  { s with
    wdtCnt := s.wdtCnt + guard
    radioOut := s.radioOut ++ [(peer, packet)]
    acks := rest
    draws := draws
    ev := s.ev ++ [.delay guard, .pktOut packet k acked] }

/-- One attempt, and whether another follows. -/
theorem flushAttempts_succ (hquiet : s.pauses = []) (hawake : s.Awake guard) (peer : Byte × Byte × Byte)
    (packet : List Byte) (n k : Nat) :
    ∃ acked rest draws, NextAck s.acks acked rest ∧
      flushAttempts guard peer packet (n + 1) k s =
        (if acked then pure () else flushAttempts guard peer packet n (k + 1))
          (attempted guard peer packet k acked rest draws s) := by
  have hnow : s.Awake 0 := fun d hd => by have := hawake d hd; omega
  have hinstant := takePause_still (s := s.emit (.delay guard)) hquiet hnow false
  have hguard := takePause_calm (s := s.emit (.delay guard)) hquiet (extra := guard) hawake false
  obtain ⟨u, hu⟩ : ∃ u, u = ((s.emit (.delay guard)).addTime guard).handed peer packet := ⟨_, rfl⟩
  have hwait : takePause 0 false u = .ok ((), u) := by
    have hawake' : u.Awake 0 := by
      rw [hu]
      exact fun d hd => hawake d hd
    exact takePause_still (by rw [hu]; exact hquiet) hawake' false
  obtain ⟨acked, rest, t, hack, hnext, draws, ht⟩ := nextAck_run u
  rw [hu] at hnext
  refine ⟨acked, rest, draws, hnext, ?_⟩
  have hstate : t.emit (.pktOut packet k acked) = attempted guard peer packet k acked rest draws s := by
    rw [ht, hu]
    simp [attempted, State.emit, State.addTime, State.handed]
  rw [← hstate]
  simp [flushAttempts, delay, radioTx, record_still hquiet hnow, hinstant, hguard, ← hu, hwait, hack, emit]

/-- Sending to PEER after a guard delay each time, until the first acknowledged attempt. -/
theorem flushAttempts_quiet (n k : Nat) (hquiet : s.pauses = []) (hawake : s.Awake (n * guard)) :
    ∃ t outcomes, flushAttempts guard peer packet n k s = .ok ((), t) ∧ Outcomes n s.acks outcomes ∧
      t.ev = s.ev ++ attemptEvents guard packet k outcomes ∧
      t.radioOut = s.radioOut ++ outcomes.map (fun _ => (peer, packet)) ∧ t.txTag = s.txTag := by
  induction n generalizing s k with
  | zero => exact ⟨s, [], rfl, outcomes_none _, by simp [attemptEvents], by simp, rfl⟩
  | succ n ih =>
    have hfirst : s.Awake guard := fun d hd => by
      have := hawake d hd
      rw [Nat.succ_mul] at this
      omega
    obtain ⟨acked, rest, draws, hack, hrun⟩ := flushAttempts_succ hquiet hfirst peer packet n k
    rw [hrun]
    cases acked with
    | true => exact ⟨_, [true], rfl, outcomes_acked hack, rfl, rfl, rfl⟩
    | false =>
      have hrest : (attempted guard peer packet k false rest draws s).Awake (n * guard) := fun d hd => by
        have := hawake d hd
        rw [Nat.succ_mul] at this
        show s.wdtCnt + guard + n * guard < d
        omega
      obtain ⟨t, outcomes, hlater, houtcomes, hev, hout, htag⟩ :=
        ih (s := attempted guard peer packet k false rest draws s) (k + 1) hquiet hrest
      refine ⟨t, false :: outcomes, hlater, outcomes_retry hack houtcomes, ?_, ?_, htag⟩
      · rw [hev]
        simp [attempted, attemptEvents]
      · rw [hout]
        simp [attempted]

end Attempts

/-- Settles O43. -/
theorem flushRetries : Obligations.FlushRetries := by
  intro s hquiet hawake
  obtain ⟨t, outcomes, hrun, houtcomes, hev, hout, htag⟩ :=
    flushAttempts_quiet (peer := s.peer) (packet := s.txbuf) s.cfg.txAttempts 1 hquiet hawake
  obtain ⟨hatMost, hunacked, hearly, hscripted⟩ := houtcomes
  exact ⟨t.nextPacket, outcomes, (flush_run s).trans (bind_ok hrun _), hatMost, hunacked, hearly, hscripted,
    hev, hout, congrArg (· + 1) htag, rfl⟩

end Sys2Proof.Proofs
end

section
/-! SUPPORT. What the environment can do to a command (44_watchdog.md R195, R196, R199): no run of a command
writes FLASH off the page it programs, a window that ends resets the device, and a wait nothing satisfies ends
in the window's end. -/

namespace Sys2Proof.Proofs

open Sys2Proof Sys2Proof.Machine

section Page

variable {D A : Prop} {E : Nat → Prop} {c : Config} {m : List (Nat × FlashCell)} {p : Nat} {s t : State}

/-! ### The page a command works on -/

theorem flashWf_flashCut (h : FlashWf s.flash) : FlashWf s.flashCut := by
  unfold State.flashCut
  cases s.flashOp with
  | idle => exact h
  | erasing q | writing q => exact setFlashCells_wf h _ _

theorem onPage_deviceReset (hs : OnPage c m p s) (src : ResetSource) : OnPage c m p (deviceReset src s) := by
  obtain ⟨rfl, hcells, hbuffer, hop, hout⟩ := hs
  refine ⟨rfl, flashWf_flashCut hcells, List.length_replicate, by simp [deviceReset, FlashOp.page], ?_⟩
  intro a ha
  have hoff : OffPage a s := fun q hq => hop q hq ▸ ha
  exact (flashCell_flashCut_outside hoff).trans (hout a ha)

/-- Where operations start on page `p` only, every move leaves the cells outside it, a completion and a device
reset among them. -/
theorem move_keeps_onPage (h : Move D A (· = p) E s t) (hs : OnPage c m p s) : OnPage c m p t := by
  cases h with
  | flashDone => exact onPage_flashComplete hs
  | reset src => exact onPage_deviceReset hs src
  | eeDone =>
    obtain ⟨eeprom, hframe⟩ := eeComplete_frame s
    rw [hframe]
    exact onPage_same (s := s) ⟨rfl, rfl, rfl, rfl⟩ hs
  | pageOp q op hop hq =>
    refine onPage_startOp hs ?_
    rcases hop with rfl | rfl <;> simp [FlashOp.page, hq]
  | fill i w => exact ⟨hs.cfg, hs.cells, by simp [State.fillPair, hs.buffer], hs.op, hs.outside⟩
  | _ => exact onPage_same (s := s) ⟨rfl, rfl, rfl, rfl⟩ hs

theorem moves_keep_onPage (h : Moves D A (· = p) E s t) (hs : OnPage c m p s) : OnPage c m p t := by
  induction h with
  | refl => exact hs
  | tail _ hmove ih => exact move_keeps_onPage hmove ih

theorem onPage_of_rested (hcells : FlashWf s.flash) (hrest : Rested s) (p : Nat) :
    OnPage s.cfg s.flash p s := by
  obtain ⟨hidle, hunfilled, -⟩ := hrest
  exact ⟨rfl, hcells, by rw [hunfilled, List.length_replicate], by simp [hidle, FlashOp.page], fun _ _ => rfl⟩

/-- An instruction leaves the cells outside `p`, if `p` is the page its ProgramPage 'F' names; an instruction
that is none leaves the cells outside any page. -/
theorem exec_onPage {i : Instr} (hloop : s.InLoop) (hcells : FlashWf s.flash) (hrest : Rested s)
    (hpage : ∀ lenHigh payload x, i = .programPageF lenHigh payload x → s.flashAddress = p)
    (h : exec i s = .next t) : OnPage s.cfg s.flash p t := by
  have hnext : NextBy True (· = p) (fun _ => True) s t :=
    exec_moves hloop trivial (fun lenHigh payload x hprogram _ => hpage lenHigh payload x hprogram)
      (fun _ _ _ _ _ _ => trivial) h
  exact moves_keep_onPage hnext.moves (onPage_of_rested hcells hrest p)

end Page

/-- Settles O59: a ProgramPage 'F' works on the page at the flash address, and no other instruction starts a
page operation, so for those the page may be taken anywhere, here just past the cell. -/
theorem flashFrame : Obligations.FlashFrame := by
  intro i s t hinv hrest hph hexec a hout
  have hloop : s.InLoop := by simp [State.InLoop, hph]
  have hcells := hinv.memory.flashWf
  have hrested : Rested s := hrest (.inl hph)
  by_cases hprogram : ∃ lenHigh payload x, i = .programPageF lenHigh payload x
  · obtain ⟨lenHigh, payload, x, hprogram⟩ := hprogram
    have hon := exec_onPage hloop hcells hrested (fun _ _ _ _ => rfl) hexec
    exact hon.outside a (hout lenHigh payload x hprogram)
  · have hon : OnPage s.cfg s.flash (a + 1) t :=
      exec_onPage hloop hcells hrested (fun _ _ _ heq => absurd ⟨_, _, _, heq⟩ hprogram) hexec
    exact hon.outside a (.inl (Nat.lt_succ_self a))

/-! ### The window ends at a pause -/

/-- Every bit of `f` is set in `flags`. -/
def HasFlag (flags f : Byte) : Prop := flags &&& f = f

theorem hasFlag_self (f : Byte) : HasFlag f f := BitVec.and_self

theorem hasFlag_or_left {flags f : Byte} (h : HasFlag flags f) (g : Byte) : HasFlag (flags ||| g) f := by
  unfold HasFlag at h ⊢
  grind

theorem hasFlag_or_right (flags f : Byte) : HasFlag (flags ||| f) f := by
  rw [BitVec.or_comm]
  exact hasFlag_or_left (hasFlag_self f) flags

/-- Device resets set flags and clear none (10_state.md R19, 60_exceptions.md R221). -/
theorem resetBy_keeps_flag {f : Byte} (sources : List ResetSource) {s : State} (h : HasFlag s.hwRstFlags f) :
    HasFlag (resetBy sources s).hwRstFlags f := by
  induction sources generalizing s with
  | nil => exact h
  | cons src sources ih => exact ih (s := deviceReset src s) (hasFlag_or_left h _)

/-- Each source that strikes sets its flag. -/
theorem resetBy_sets_flag {src : ResetSource} {sources : List ResetSource} (h : src ∈ sources) (s : State) :
    HasFlag (resetBy sources s).hwRstFlags (resetFlag s.cfg src) := by
  induction sources generalizing s with
  | nil => cases h
  | cons first sources ih =>
    rcases List.mem_cons.1 h with rfl | hlater
    · exact resetBy_keeps_flag sources (s := deviceReset src s) (hasFlag_or_right _ _)
    · exact ih hlater (deviceReset first s)

/-- A completion does not reach the watchdog. -/
theorem settle_watchdog (p : Pause) (s : State) :
    (settle p s).wdtCfg = s.wdtCfg ∧ (settle p s).wdtCnt = s.wdtCnt := by
  have hflash : ∀ u, (flashComplete u).wdtCfg = u.wdtCfg ∧ (flashComplete u).wdtCnt = u.wdtCnt := fun u => by
    obtain ⟨_, _, h⟩ := flashComplete_frame u
    rw [h]
    exact ⟨rfl, rfl⟩
  have hee : ∀ u, (eeComplete u).wdtCfg = u.wdtCfg ∧ (eeComplete u).wdtCnt = u.wdtCnt := fun u => by
    obtain ⟨_, h⟩ := eeComplete_frame u
    rw [h]
    exact ⟨rfl, rfl⟩
  unfold settle
  cases p.flashDone <;> cases p.eeDone <;> simp [hflash, hee]

/-- Past the window nothing keeps the watchdog from expiring; at the window a service may
(60_exceptions.md R221). -/
theorem expired_of_le {d cnt : Nat} {svc serviceFirst : Bool} (hreached : d ≤ cnt)
    (htie : d = cnt → svc = false ∨ serviceFirst = false) : expired (.on d) cnt svc serviceFirst = true := by
  rcases Nat.lt_or_eq_of_le hreached with hpast | hat
  · simp [expired, hpast]
  · simpa [expired, hat] using htie hat

/-- A pause in which a source strikes ends the rule. -/
theorem takePause_struck {extra : Nat} {svc : Bool} {s : State} {p : Pause} {ps : List Pause}
    (hpause : s.pauses = p :: ps) {src : ResetSource}
    (hstrike : src ∈ strikes svc p (settle p (s.popPause.addTime (extra + p.dt)))) :
    takePause extra svc s =
      .error (.ended (resetBy (strikes svc p (settle p (s.popPause.addTime (extra + p.dt))))
        (settle p (s.popPause.addTime (extra + p.dt))))) := by
  have hhead : s.pauses.headD .quiet = p := by rw [hpause, List.headD_cons]
  unfold takePause
  dsimp only
  rw [hhead, if_neg]
  simpa using List.ne_nil_of_mem hstrike

/-- Settles O46: the expiry is among the sources of the pause, and each source leaves its flag and its event. -/
theorem watchdogExpires : Obligations.WatchdogExpires := by
  intro s p ps extra d svc hpause hon hreached htie
  obtain ⟨u, hu⟩ : ∃ u, u = settle p (s.popPause.addTime (extra + p.dt)) := ⟨_, rfl⟩
  have hwaited : Waited s u :=
    Waited.trans ⟨_, _, _, _, _, _, _, rfl⟩ (hu ▸ waited_settle p (s.popPause.addTime (extra + p.dt)))
  obtain ⟨hcfg, hcnt⟩ := settle_watchdog p (s.popPause.addTime (extra + p.dt))
  rw [← hu] at hcfg hcnt
  have hexpired : expired u.wdtCfg u.wdtCnt svc p.serviceFirst = true := by
    have hsum : u.wdtCnt = s.wdtCnt + extra + p.dt := hcnt.trans (Nat.add_assoc _ _ _).symm
    rw [hsum, hcfg.trans hon]
    exact expired_of_le hreached htie
  have hstrike : .watchdog ∈ strikes svc p u := by simp [strikes, hexpired]
  obtain ⟨-, -, -, hev⟩ := resetBy_outside (strikes svc p u) u
  have hset := resetBy_sets_flag hstrike u
  have hkept := resetBy_keeps_flag (strikes svc p u) (hasFlag_self u.hwRstFlags)
  refine ⟨_, strikes svc p u, hu ▸ takePause_struck hpause (hu ▸ hstrike),
    resetBy_ph (List.ne_nil_of_mem hstrike) u, ?_⟩
  obtain ⟨_, _, _, _, _, _, _, rfl⟩ := hwaited
  exact ⟨hset, (BitVec.and_comm _ _).trans hkept, hev, hstrike⟩

/-! ### Silence -/

section Silence

variable {α : Type} {s : State} {d : Nat}

/-- The end of the window is a reset by the watchdog alone; the completions before it reach neither the flags
nor EV. -/
theorem watchdogReset_windowEnds (s : State) : WatchdogReset s (windowEnds s) := by
  obtain ⟨_, _, _, _, _, _, _, hcompleted⟩ := (waited_flashComplete s).trans (waited_eeComplete _)
  unfold windowEnds
  rw [hcompleted]
  exact ⟨rfl, rfl, rfl, rfl⟩

theorem hostSilent_radio (hsilent : s.HostSilent) (hradio : s.cfg.radioEnabled = true) :
    s.rxq = [] ∧ s.air = [] := by
  simpa only [State.HostSilent, hradio, if_true] using hsilent

theorem hostSilent_wired (hsilent : s.HostSilent) (hradio : s.cfg.radioEnabled = false) : s.line = [] := by
  simpa [State.HostSilent, hradio] using hsilent

theorem idle_expires (hquiet : s.pauses = []) (hon : s.wdtCfg = .on d) : idle s = .next (windowEnds s) := by
  simp [idle, hquiet, hon]

theorem silence_expires (hquiet : s.pauses = []) (hon : s.wdtCfg = .on d) :
    (silence : Eng α) s = .error (.ended (windowEnds s)) := by
  simp [silence, hquiet, silenceFrom, expireOrBlock, hon]

/-- With a silent host nothing is left on either medium to fetch a request from. -/
theorem loopStep_silent (hsilent : s.HostSilent) : loopStep s = idle s := by
  unfold loopStep
  cases hradio : s.cfg.radioEnabled with
  | true =>
    obtain ⟨hqueue, hair⟩ := hostSilent_radio hsilent hradio
    simp [hqueue, hair]
  | false =>
    have hline := hostSilent_wired hsilent hradio
    have hfetch : fetch s = none := by simp [fetch, State.incoming, hradio, hline, decodeRequest]
    simp [hfetch]

theorem recvByte_silent (hsilent : s.HostSilent) (b : Byte) (hquiet : s.pauses = []) (hon : s.wdtCfg = .on d) :
    recvByte b s = .error (.ended (windowEnds s)) := by
  cases hradio : s.cfg.radioEnabled with
  | true =>
    obtain ⟨hqueue, hair⟩ := hostSilent_radio hsilent hradio
    simp [recvByte, hradio, radioRecvByte, hair, awaitPackets, hqueue, silence_expires hquiet hon]
  | false =>
    have hline := hostSilent_wired hsilent hradio
    simp [recvByte, hradio, wiredRecvByte, hline, silence_expires hquiet hon]

/-- In the idle phases, and before a silent host, a step is one of the idle engine. -/
theorem step_eq_idle (hcfg : s.cfg.wf = true)
    (hidle : s.ph = .abandoned ∨ s.ph = .handedOff ∨ s.ph = .awaitCommand ∧ s.HostSilent) :
    step s = idle s := by
  rcases hidle with hph | hph | ⟨hph, hsilent⟩
  · rw [step, if_pos hcfg, phaseStep, hph]
  · rw [step, if_pos hcfg, phaseStep, hph]
  · rw [step_awaitCommand hcfg hph, loopStep_silent hsilent]

end Silence

/-- Settles O47: each of these waits is ended by the window alone. -/
theorem silenceEndsInReset : Obligations.SilenceEndsInReset := by
  intro s d hquiet hon
  have hreset := watchdogReset_windowEnds s
  refine ⟨fun hcfg hidle => ?step, fun b hsilent => ?receive⟩
  case step => exact ⟨_, (step_eq_idle hcfg hidle).trans (idle_expires hquiet hon), hreset⟩
  case receive => exact ⟨_, recvByte_silent hsilent b hquiet hon, hreset⟩

end Sys2Proof.Proofs
end

section
/-! SUPPORT. The boot sequence in a quiet environment (70_reset_and_hazards.md R241 to R246): what it makes of
the flags and the marker, which way the boot decision goes, and the state each way ends in. -/

namespace Sys2Proof.Proofs

open Sys2Proof Sys2Proof.Machine

variable {s : State}

/-! ### The boot decision -/

/-- The three windows of the watchdog are told apart (R5). -/
theorem watchdog_lt_of_wf {c : Config} (h : c.wf = true) :
    c.wdtShort < c.wdtMedium ∧ c.wdtMedium < c.wdtLong := by
  simp only [Config.wf, Config.watchdogOk, Bool.and_eq_true, decide_eq_true_eq] at h
  tauto

theorem skipsLoop_iff (s : State) : skipsLoop s.cfg s.hwRstFlags s.marker = true ↔ SkipsLoop s := by
  cases henabled : s.cfg.wdtMarkerEnabled <;>
    simp [skipsLoop, SkipsLoop, isWdt, isPor, isBor, henabled, or_assoc]

theorem skipsLoop_eq_false (h : ¬ SkipsLoop s) : skipsLoop s.cfg s.hwRstFlags s.marker = false := by
  rwa [← skipsLoop_iff, Bool.not_eq_true] at h

/-! ### The marker and the watchdog -/

theorem setsMarker_medium (c : Config) : setsMarker c (.on c.wdtMedium) = c.wdtMarkerEnabled := by
  simp [setsMarker]

theorem handoffConfig_eq (c : Config) :
    handoffConfig c = if c.handoffWdt = .off then .off else .on c.wdtLong := by
  unfold handoffConfig
  cases c.handoffWdt <;> rfl

/-- What the handoff arms leaves MARKER clear (R193): WDT_LONG is neither of the two windows that set it. -/
theorem setsMarker_handoffConfig {c : Config} (h : c.wf = true) : setsMarker c (handoffConfig c) = false := by
  obtain ⟨hshort, hmedium⟩ := watchdog_lt_of_wf h
  have hneMedium : c.wdtLong ≠ c.wdtMedium := by omega
  have hneShort : c.wdtLong ≠ c.wdtShort := by omega
  unfold handoffConfig
  cases c.handoffWdt with
  | off => simp [setsMarker]
  | long => simp [setsMarker, hneMedium, hneShort]

theorem bootPause_quiet (hquiet : s.pauses = []) : bootPause s = .ok ((), s) := by
  have hpop : s.popPause = s := by
    unfold State.popPause
    rw [hquiet, List.tail_nil, ← hquiet]
  simp [bootPause, hquiet, hpop, Pause.quiet, Pause.sources]

/-- `WdtConfig` inside the boot sequence (R193). -/
theorem wdtConfig_bootPause (hquiet : s.pauses = []) (w : WdtCfg) :
    wdtConfig bootPause w s = .ok ((), { s.configured w with marker := setsMarker s.cfg w || s.marker }) := by
  have hconfigured : (s.configured w).pauses = [] := hquiet
  rw [wdtConfig, bind_ok (bootPause_quiet hquiet), bind_ok (update_run _ _), bind_ok (look_run _ _)]
  show onlyIf (setsMarker s.cfg w) _ _ = _
  cases setsMarker s.cfg w with
  | true => rw [onlyIf, if_pos rfl, bind_ok (bootPause_quiet hconfigured), update_run]; rfl
  | false => rfl

/-! ### The boot sequence -/

/-- The state the boot decision leaves: the flags and the marker are read and cleared (R241). -/
def causeTaken (s : State) : State :=
  { s with
    resetCause := s.hwRstFlags
    hwRstFlags := 0
    marker := !s.cfg.wdtMarkerEnabled && s.marker }

/-- The decision is made on the flags and the marker as they were before. -/
theorem bootSequence_run (hquiet : s.pauses = []) :
    bootSequence s =
      (if skipsLoop s.cfg s.hwRstFlags s.marker then handoff else enterLoop) (causeTaken s) := by
  have hclear : onlyIf s.cfg.wdtMarkerEnabled (update State.markerCleared) s.flagsTaken =
      .ok ((), causeTaken s) := by
    cases hmarker : s.cfg.wdtMarkerEnabled <;>
      simp [onlyIf, causeTaken, State.flagsTaken, State.markerCleared, hmarker]
  rw [bootSequence, bind_ok (bootPause_quiet hquiet), bind_ok (update_run _ _),
    bind_ok (bootPause_quiet (s := s.flagsTaken) hquiet), look_id_bind]
  exact bind_ok hclear _

theorem enterLoop_run (hquiet : s.pauses = []) :
    enterLoop s =
      .ok ((), { s.configured (.on s.cfg.wdtMedium) with
        marker := s.cfg.wdtMarkerEnabled || s.marker, ph := .awaitCommand }) := by
  rw [enterLoop, bind_ok (look_run _ _), bind_ok (wdtConfig_bootPause hquiet _), setsMarker_medium]
  rfl

theorem handoff_run (hwf : s.cfg.wf = true) (hquiet : s.pauses = []) :
    handoff s =
      .ok ((), (s.configured (handoffConfig s.cfg)).handedOver.emit
        (.transfer (handoffEntry s.cfg) s.resetCause)) := by
  have hconfig : wdtConfig bootPause (handoffConfig s.cfg) s = .ok ((), s.configured (handoffConfig s.cfg)) := by
    rw [wdtConfig_bootPause hquiet, setsMarker_handoffConfig hwf]
    rfl
  rw [handoff, bind_ok (look_run _ _), bind_ok hconfig,
    bind_ok (bootPause_quiet (s := s.configured _) hquiet)]
  rfl

theorem step_boot (hwf : s.cfg.wf = true) (hph : s.ph = .boot) : step s = runRule bootSequence s := by
  rw [step, if_pos hwf, phaseStep, hph]

/-- Settles O50. A marker cleared before the decision is set again where the marker feature is on. -/
theorem bootEntersLoop : Obligations.BootEntersLoop := by
  intro s hwf hph hquiet hloop
  have hmarker : (s.cfg.wdtMarkerEnabled || (!s.cfg.wdtMarkerEnabled && s.marker)) =
      (s.cfg.wdtMarkerEnabled || s.marker) := by
    cases s.cfg.wdtMarkerEnabled <;> rfl
  have hrun : bootSequence s = enterLoop (causeTaken s) := by
    rw [bootSequence_run hquiet, skipsLoop_eq_false hloop]
    rfl
  rw [step_boot hwf hph, runRule_ok (hrun.trans (enterLoop_run hquiet)), ← hmarker]
  rfl

/-- Settles O51. -/
theorem bootHandsOff : Obligations.BootHandsOff := by
  intro s hwf hph hquiet hskips w
  have hrun : bootSequence s = handoff (causeTaken s) := by
    rw [bootSequence_run hquiet, (skipsLoop_iff s).2 hskips]
    rfl
  have hw : handoffConfig (causeTaken s).cfg = w := handoffConfig_eq s.cfg
  rw [step_boot hwf hph, runRule_ok (hrun.trans (handoff_run hwf hquiet)), hw, List.append_cons s.ev]
  rfl

/-! ### The worked cases -/

theorem mem_bytesWithBit {i : Nat} {b : Byte} : b ∈ Config.bytesWithBit i ↔ b.toNat.testBit i = true := by
  simp only [Config.bytesWithBit, List.mem_map, List.mem_filter, List.mem_range]
  constructor
  · rintro ⟨n, ⟨hlt, hbit⟩, rfl⟩
    rwa [BitVec.toNat_ofNat, Nat.mod_eq_of_lt hlt]
  · exact fun hbit => ⟨b.toNat, ⟨b.isLt, hbit⟩, BitVec.ofNat_toNat 8 b⟩

/-- CFG_REF with the marker feature off or on, right after power-on but for the flags and the marker. -/
def booting (enabled m : Bool) (f : Byte) : State :=
  { State.resetWith { Config.ref with wdtMarkerEnabled := enabled } with hwRstFlags := f, marker := m }

/-- The boot decision of CFG_REF on the bits of the flags (R19, R242). -/
theorem skipsLoop_booting {enabled m : Bool} {f : Byte} :
    SkipsLoop (booting enabled m f) ↔
      (f.toNat.testBit 3 = true ∧ (enabled = true → m = true)) ∨
        f.toNat.testBit 0 = true ∨ f.toNat.testBit 2 = true :=
  or_congr (and_congr mem_bytesWithBit Iff.rfl) (or_congr mem_bytesWithBit mem_bytesWithBit)

theorem wf_booting (enabled m : Bool) (f : Byte) : (booting enabled m f).cfg.wf = true := by
  have href : Config.ref.wf = true := by decide
  exact href

/-- Settles O52: each case is one of the two ways of the boot sequence, by the bits of its flags. -/
theorem workedBootCases : Obligations.WorkedBootCases := by
  refine ⟨fun f hf => ?handsOff, fun f hf => ?entersLoop, fun m => ?marker⟩
  case handsOff =>
    have hskips : SkipsLoop (booting false false f) := by
      rw [skipsLoop_booting]
      revert f
      decide
    exact ⟨_, bootHandsOff _ (wf_booting false false f) rfl rfl hskips, rfl, rfl, rfl, rfl⟩
  case entersLoop =>
    have hloop : ¬ SkipsLoop (booting false false f) := by
      rw [skipsLoop_booting]
      revert f
      decide
    exact ⟨_, bootEntersLoop _ (wf_booting false false f) rfl rfl hloop, rfl, rfl, rfl, rfl⟩
  case marker =>
    cases m with
    | true =>
      have hskips : SkipsLoop (booting true true 0x08) := skipsLoop_booting.2 (by decide)
      exact ⟨_, bootHandsOff _ (wf_booting true true 0x08) rfl rfl hskips, rfl, rfl⟩
    | false =>
      have hloop : ¬ SkipsLoop (booting true false 0x08) := mt skipsLoop_booting.1 (by decide)
      exact ⟨_, bootEntersLoop _ (wf_booting true false 0x08) rfl rfl hloop, rfl, rfl⟩

end Sys2Proof.Proofs
end
